-- ==== Sys2Proof/Word.lean ====
section
/-! DEFINITION. The words of the model: the byte of the link, the numbers of lines, slots, keys, entries and blocks
(spec/00 section 1.6), and `Bank`, a fixed number of like things with one reader and one writer. -/

namespace Sys2Proof

/-- One byte on RXD or TXD (R181, R194). -/
abbrev Byte := BitVec 8

/-- Lines 0 to 3 (spec/00 section 1.6). -/
abbrev LineNo := Fin 4
/-- Cadence slots 0 to 7 (R70). -/
abbrev SlotNo := Fin 8
/-- Key numbers 0 to 19: K00 to K33 are 0 to 15, E0 to E3 are 16 to 19 (R156). -/
abbrev KeyNo := Fin 20
/-- Directory entries 0 to 127 (R135). -/
abbrev EntryNo := Fin 128
/-- Logical store blocks 0 to 31 (R137). -/
abbrev LogicalNo := Fin 32
/-- Physical store blocks 0 to 35 (R136). -/
abbrev PhysicalNo := Fin 36
/-- Event sources 0 to 6: LINE0 to LINE3, KEYS, STORE, SYSTEM (spec/00 section 1.6). -/
abbrev SourceNo := Fin 7

/-- `n` things of one kind, numbered from 0. Plain data: a list with its length. -/
structure Bank (n : Nat) (α : Type) where
  items : List α
  size : items.length = n
  deriving DecidableEq, Repr

namespace Bank

variable {n : Nat} {α β : Type}

/-- The thing with number `i`. -/
def get (b : Bank n α) (i : Fin n) : α :=
  b.items[i.val]'(by rw [b.size]; exact i.isLt)

/-- The bank with thing `i` replaced. -/
def set (b : Bank n α) (i : Fin n) (a : α) : Bank n α :=
  ⟨b.items.set i.val a, by simp [b.size]⟩

/-- `n` equal things. -/
def fill (n : Nat) (a : α) : Bank n α := ⟨List.replicate n a, by simp⟩

/-- The bank whose thing `i` is `f i`. -/
def tabulate (f : Fin n → α) : Bank n α := ⟨(List.finRange n).map f, by simp⟩

/-- Each thing changed by `f`. -/
def map (f : α → β) (b : Bank n α) : Bank n β := ⟨b.items.map f, by simp [b.size]⟩

@[simp] theorem get_set_self (b : Bank n α) (i : Fin n) (a : α) : (b.set i a).get i = a := by
  simp [get, set]

@[simp] theorem get_set_ne (b : Bank n α) {i j : Fin n} (a : α) (h : i ≠ j) :
    (b.set i a).get j = b.get j := by
  have hv : i.val ≠ j.val := fun e => h (Fin.ext e)
  simp [get, set, hv]

theorem get_set (b : Bank n α) (i j : Fin n) (a : α) :
    (b.set i a).get j = if i = j then a else b.get j := by
  split
  · next h => subst h; simp
  · next h => simp [h]

@[simp] theorem get_map (b : Bank n α) (f : α → β) (i : Fin n) : (b.map f).get i = f (b.get i) := by
  simp [get, map]

@[simp] theorem get_fill (a : α) (i : Fin n) : (fill n a).get i = a := by simp [get, fill]

@[simp] theorem get_tabulate (f : Fin n → α) (i : Fin n) : (tabulate f).get i = f i := by
  simp [get, tabulate]

theorem ext_get {b c : Bank n α} (h : ∀ i, b.get i = c.get i) : b = c := by
  obtain ⟨xs, rfl⟩ := b
  obtain ⟨ys, hy⟩ := c
  have e : xs = ys := List.ext_getElem hy.symm fun k h1 _ => h ⟨k, h1⟩
  subst e
  rfl

@[simp] theorem set_get (b : Bank n α) (i : Fin n) : b.set i (b.get i) = b :=
  ext_get fun j => by rw [get_set]; split <;> simp_all

@[simp] theorem set_set (b : Bank n α) (i : Fin n) (x y : α) : (b.set i x).set i y = b.set i y :=
  ext_get fun j => by rw [get_set, get_set, get_set]; split <;> rfl

end Bank

end Sys2Proof
end

