-- ==== Sys2Proof/Syntax.lean ====
section
/-! DEFINITION. The commands of the block: one constructor for each row of spec/opcode_table.json, in the table's
order. Requests carry the TAG and the BODY bytes of their frame (R195, R196); timer and line commands carry the line;
pin commands carry the level the pin takes. -/

namespace Sys2Proof

/-- How a byte on RXD was received (R183): clean, with a parity error, or with a framing error. -/
inductive ByteError where
  | clean
  | parity
  | framing
  deriving DecidableEq, Repr

/-- The two debounced inputs of a line (R1). -/
inductive LineInput where
  | loop
  | rev
  deriving DecidableEq, Repr

/-- The commands. `straps` are the levels of SPD2 to SPD0 the part reads at that moment (R181), SPD2 the most
significant. -/
inductive Instr where
  | powerOn (straps : BitVec 3)
  | pinReset
  | partStart (straps : BitVec 3)
  | startUpBlockCheck
  | startupCheckEnd
  | identify (tag : Byte) (body : List Byte)
  | status (tag : Byte) (body : List Byte)
  | setLink (tag : Byte) (body : List Byte)
  | resetEngine (tag : Byte) (body : List Byte)
  | events (tag : Byte) (body : List Byte)
  | setMask (tag : Byte) (body : List Byte)
  | setProfile (tag : Byte) (body : List Byte)
  | readProfile (tag : Byte) (body : List Byte)
  | enableLine (tag : Byte) (body : List Byte)
  | disableLine (tag : Byte) (body : List Byte)
  | releaseLine (tag : Byte) (body : List Byte)
  | hold (tag : Byte) (body : List Byte)
  | unhold (tag : Byte) (body : List Byte)
  | sendDigits (tag : Byte) (body : List Byte)
  | submitJob (tag : Byte) (body : List Byte)
  | cancelJob (tag : Byte) (body : List Byte)
  | queryJob (tag : Byte) (body : List Byte)
  | collectJob (tag : Byte) (body : List Byte)
  | collectOldest (tag : Byte) (body : List Byte)
  | listJobs (tag : Byte) (body : List Byte)
  | loadCadence (tag : Byte) (body : List Byte)
  | readCadence (tag : Byte) (body : List Byte)
  | clearCadence (tag : Byte) (body : List Byte)
  | readEntry (tag : Byte) (body : List Byte)
  | writeEntry (tag : Byte) (body : List Byte)
  | eraseEntry (tag : Byte) (body : List Byte)
  | formatStore (tag : Byte) (body : List Byte)
  | storeStatus (tag : Byte) (body : List Byte)
  | saveSettings (tag : Byte) (body : List Byte)
  | clearSettings (tag : Byte) (body : List Byte)
  | bindKey (tag : Byte) (body : List Byte)
  | readBinding (tag : Byte) (body : List Byte)
  | setScan (tag : Byte) (body : List Byte)
  | readKeys (tag : Byte) (body : List Byte)
  | unknownKind (kind : Byte) (tag : Byte) (body : List Byte)
  | receiveByte (b : Byte) (err : ByteError)
  | interByteGapTimerExpiry
  | linkBreak (straps : BitVec 3)
  | breakEnd
  | lholdChange (active : Bool)
  | frameBegin
  | frameEnd
  | lineInputChange (n : LineNo) (input : LineInput) (level : Bool)
  | loopChange (n : LineNo)
  | revChange (n : LineNo)
  | ringPinChange (n : LineNo) (level : Bool)
  | ringBurstStart (n : LineNo)
  | ringBurstEnd (n : LineNo)
  | glareWindowExpiry (n : LineNo)
  | cptPinChange (n : LineNo) (level : Bool)
  | filteredLevelChange (n : LineNo)
  | steadyConfirmation (n : LineNo)
  | gapWatchExpiry (n : LineNo)
  | attemptStart (n : LineNo)
  | seizeTimerExpiry (n : LineNo)
  | postSeizeTimerExpiry (n : LineNo)
  | dialToneTimerExpiry (n : LineNo)
  | noAnswerTimerExpiry (n : LineNo)
  | disconnectTimerExpiry (n : LineNo)
  | makeTimerExpiry (n : LineNo)
  | guardTimerExpiry (n : LineNo)
  | breakTimerExpiry (n : LineNo)
  | makePeriodTimerExpiry (n : LineNo)
  | interdigitTimerExpiry (n : LineNo)
  | toneTimerExpiry (n : LineNo)
  | toneGapTimerExpiry (n : LineNo)
  | pauseTimerExpiry (n : LineNo)
  | flashTimerExpiry (n : LineNo)
  | minimumToneTimerExpiry (n : LineNo)
  | retryDelayExpiry (n : LineNo)
  | jobStart (n : LineNo)
  | keyRawChange (k : KeyNo) (level : Bool)
  | keyTransition (k : KeyNo)
  | storeEraseEnd
  | storeProgramEnd
  | storeVerifyPass
  | storeVerifyFail
  deriving DecidableEq, Repr

end Sys2Proof
end

