-- ==== Sys2Proof/Decode.lean ====
section
/-! DEFINITION. The block has no instruction words: spec/opcode_table.json gives no row any bits ([22]). Frames on
the link are read by the receiver and the request handlers (Machine/Operands.lean, Machine/Requests.lean). -/

namespace Sys2Proof

/-- The command a table word spells: none, since no row of the table gives bits. -/
def decodeTableWord (_nbits _w : Nat) : Option Instr := none

end Sys2Proof
end

