-- ==== Sys2Proof/Config.lean ====
section
/-! DEFINITION. What the part fixes (times the rules name, identity of the part) and the free values the spec leaves
open: opaque constants with no body, applied to the counter `State.free` for a fresh value each time. -/

namespace Sys2Proof.Config

/-- FREE VALUE [14]: whether the content a PROGRAM phase wrote agrees with its integrity check, while VERIFY has not
yet read it back (R155: "VALID where the integrity check agrees, INVALID where it does not"). -/
opaque programTook : Nat → Bool

/-- FREE VALUE [14]: whether the erase of a CLEAR took, while its verify has not yet judged it (R155). -/
opaque eraseTook : Nat → Bool

/-- FREE VALUE [15]: whether the role of a spare was already written when a reset struck inside PROGRAM (R153: such a
block "is found either unclaimed or mapped to the spare and unsound"). -/
opaque roleWritten : Nat → Bool

/-- Debounce of LOOP and REV (R1), in ms. -/
def lineDebounceMs : Nat := 10
/-- Glitch filter of CPT (R78), in ms. -/
def cptFilterMs : Nat := 10
/-- RING active this long starts a burst (R24), in ms. -/
def ringBurstMs : Nat := 20
/-- RING inactive this long ends a burst (R24), in ms. -/
def ringGapMs : Nat := 200
/-- Length of the glare window (R24), in ms. -/
def glareMs : Nat := 6000
/-- The first whole millisecond at which the inter-byte gap timer has run for more than 30 ms (R183; [13]). -/
def byteGapMs : Nat := 31
/-- RXD at space this long is a break (R189), in ms. -/
def breakMs : Nat := 25
/-- The SYNC byte (R195). -/
def sync : Byte := 0xC3#8

end Sys2Proof.Config
end

