-- ==== Sys2Proof/Machine/Types.lean ====
section
/-! DEFINITION. The kinds of thing the chapters name: symbols, states, phases, causes, profiles, templates, job records,
store blocks, key records, flags and link records. Data only; no rule of behaviour stands here but the default and
factory values. -/

namespace Sys2Proof.Machine

/-! ### The dial symbol set (spec/00 section 1.6) -/

/-- The nineteen dial symbols: sixteen digit symbols and the controls P, F and W. -/
inductive Symbol where
  | digit (v : Fin 10)
  | star | hash | a | b | c | d
  | pause | flash | waitTone
  deriving DecidableEq, Repr

/-- The dial methods (R35). -/
inductive Method where
  | tone | pulse
  deriving DecidableEq, Repr

/-! ### Line Controller (chapter 1) -/

/-- The nine line states (section 1.2). -/
inductive LineState where
  | disabled | idle | seizing | awaitDialtone | dialing | awaitProgress | connected | held | releasing
  deriving DecidableEq, Repr

/-- The nine dialing sub-phases, and NONE outside DIALING (section 2.1, R31). -/
inductive SubPhase where
  | none | pulseBreak | pulseMake | interdigit | toneRequest | toneOn | toneGap | pause | flashBreak | waitTone
  deriving DecidableEq, Repr

/-- Loop supervision (section 1.7). -/
inductive Supervision where
  | off | active | suspended
  deriving DecidableEq, Repr

/-- Manual-digit activity (R47). -/
inductive Activity where
  | none | waiting | sounding
  deriving DecidableEq, Repr

/-- Which program the cursor sends (R31). -/
inductive CursorSource where
  | job | send
  deriving DecidableEq, Repr

/-- The dialing cursor (R31); an empty `sendProgram` is "no send program". -/
structure Cursor where
  source : CursorSource
  sendProgram : List Symbol
  index : Nat
  sub : SubPhase
  pulses : Nat
  deriving DecidableEq, Repr

/-- A line profile (R4), fields in the order of its table; on/off and AUTO/OFF fields are Bool. -/
structure Profile where
  method : Method
  pulseRate : Nat
  breakPct : Nat
  interdigitMs : Nat
  toneOnMs : Nat
  toneGapMs : Nat
  flashMs : Nat
  pauseMs : Nat
  seizeTimeoutMs : Nat
  postSeizeMs : Nat
  dialtoneWait : Bool
  dialtoneTimeoutMs : Nat
  blindDial : Bool
  noAnswerS : Nat
  disconnectMs : Nat
  guardMs : Nat
  retryDelayS : Nat
  attemptsDefault : Nat
  answerReversal : Bool
  answerRingbackCease : Bool
  answerGapMs : Nat
  answerUnclassified : Bool
  txmuteAuto : Bool
  rxmuteAuto : Bool
  loopback : Bool
  startEnabled : Bool
  deriving DecidableEq, Repr

/-- The defaults of R4. -/
def Profile.default : Profile where
  method := .tone
  pulseRate := 10
  breakPct := 60
  interdigitMs := 700
  toneOnMs := 100
  toneGapMs := 100
  flashMs := 250
  pauseMs := 2000
  seizeTimeoutMs := 2000
  postSeizeMs := 300
  dialtoneWait := true
  dialtoneTimeoutMs := 4000
  blindDial := false
  noAnswerS := 40
  disconnectMs := 500
  guardMs := 1500
  retryDelayS := 15
  attemptsDefault := 3
  answerReversal := true
  answerRingbackCease := true
  answerGapMs := 7000
  answerUnclassified := false
  txmuteAuto := true
  rxmuteAuto := true
  loopback := false
  startEnabled := false

/-- A debounced input of a line (R1): the level of the pin, the level last taken, and the moment from which the level
seen has stood at the other value, absent while they agree. -/
structure Debounced where
  pin : Bool
  taken : Bool
  since : Option Nat
  deriving DecidableEq, Repr

/-- The ring detector and the glare window (R24, R25): the RING pin, whether a burst is in progress, when the 20 ms
measurement and the ring-gap timer are due, the ring count, and when the glare window ends. -/
structure RingDetector where
  pin : Bool
  burst : Bool
  startDue : Option Nat
  gapDue : Option Nat
  count : Nat
  glareDue : Option Nat
  deriving DecidableEq, Repr

/-- The output levels of a line (R2): `lcl` is true while the loop is closed. -/
structure Outputs where
  lcl : Bool
  hld : Bool
  txm : Bool
  rxm : Bool
  ton : Bool
  deriving DecidableEq, Repr

/-- The manual-digit activity record (R47). -/
structure Manual where
  activity : Activity
  key : Option KeyNo
  symbol : Option Symbol
  minElapsed : Bool
  keyReleased : Bool
  deriving DecidableEq, Repr

/-- No manual digit (R47). Minimum elapsed and key released, to which the rule gives a meaning in SOUNDING alone, stand
clear: DESIGN CHOICE [38]. -/
def Manual.idle : Manual := ⟨.none, none, none, false, false⟩

/-- What a controller keeps for the whole attempt (R9): the job's resolved copy. -/
structure Attempt where
  program : List Symbol
  method : Method
  supervised : Bool
  deriving DecidableEq, Repr

/-- The timers of a line: each holds the moment it is due, absent while stopped (section 1.1, section 2.1). -/
structure LineTimers where
  seize : Option Nat
  postSeize : Option Nat
  dialTone : Option Nat
  noAnswer : Option Nat
  disconnect : Option Nat
  make : Option Nat
  guard : Option Nat
  breakT : Option Nat
  makePeriod : Option Nat
  interdigit : Option Nat
  tone : Option Nat
  toneGap : Option Nat
  pause : Option Nat
  flash : Option Nat
  minTone : Option Nat
  deriving DecidableEq, Repr

/-- All timers stopped (R18, R29, R30). -/
def LineTimers.stopped : LineTimers :=
  ⟨none, none, none, none, none, none, none, none, none, none, none, none, none, none, none⟩

/-! ### Cadence table and Progress Classifier (chapter 4) -/

/-- The six classes (R70). -/
inductive ToneClass where
  | dial | busy | ringback | reorder | alertA | alertB
  deriving DecidableEq, Repr

/-- A segment's windows, in 10 ms units (R70). -/
structure Segment where
  onMin : Nat
  onMax : Nat
  offMin : Nat
  offMax : Nat
  deriving DecidableEq, Repr

/-- The form of a template (R70): STEADY with `min_on`, or CADENCED with its segments and `confirm_cycles`. -/
inductive Form where
  | steady (minOn : Nat)
  | cadenced (segments : List Segment) (cycles : Nat)
  deriving DecidableEq, Repr

/-- A cadence template (R70). -/
structure Template where
  cls : ToneClass
  form : Form
  deriving DecidableEq, Repr

/-- The factory cadence table (R71). -/
def factoryCadence : Bank 8 (Option Template) :=
  ⟨[some ⟨.dial, .steady 100⟩,
    some ⟨.busy, .cadenced [⟨40, 60, 40, 60⟩] 3⟩,
    some ⟨.ringback, .cadenced [⟨80, 120, 300, 500⟩] 1⟩,
    some ⟨.reorder, .cadenced [⟨20, 30, 20, 30⟩] 4⟩,
    none, none, none, none], rfl⟩

/-- The interval in progress (R75): its kind, the moment it began, whether it began at the session start. -/
structure Interval where
  on : Bool
  began : Nat
  atStart : Bool
  deriving DecidableEq, Repr

/-- A completed interval of the history (R75, R79): its kind and its length in 10 ms units. -/
structure HistoryItem where
  on : Bool
  units : Nat
  deriving DecidableEq, Repr

/-- A matcher of one slot (R75). -/
structure Matcher where
  pos : Nat
  count : Nat
  steady : Bool
  deriving DecidableEq, Repr

/-- The bases of an answer decision (R87), as recorded in last answer. -/
inductive Basis where
  | reversal | ringbackCeased | unclassified
  deriving DecidableEq, Repr

/-- A Progress Classifier (R75), with its CPT pin and the raw edges the glitch filter has not delivered yet, oldest first
(R78): each but the last has held for 10 ms. `gapWatch` holds the
moment at which the silence reaches `answer_gap_ms` (R89). -/
structure Classifier where
  pin : Bool
  listening : Bool
  filtered : Bool
  edges : List Nat
  interval : Option Interval
  openOn : Option Nat
  history : List HistoryItem
  matchers : Bank 8 Matcher
  unmatched : Nat
  current : Option (ToneClass × SlotNo)
  ringbackSeen : Bool
  gapWatch : Option Nat
  lastAnswer : Option Basis
  deriving DecidableEq, Repr

/-- The values of R75 at power-on and pin reset, with the CPT pin at `pin`. -/
def Classifier.reset (pin : Bool) : Classifier where
  pin := pin
  listening := false
  filtered := false
  edges := []
  interval := none
  openOn := none
  history := []
  matchers := Bank.fill 8 ⟨0, 0, false⟩
  unmatched := 0
  current := none
  ringbackSeen := false
  gapWatch := none
  lastAnswer := none

/-! ### Jobs (chapters 5 and 6) -/

/-- The causes of failed attempts and outcomes (R3, R113, R197). -/
inductive Cause where
  | noLoop | noDialTone | busy | reorder | redialTone | noAnswer | loopLost
  | chainLoop | chainLimit | entryBlank | entryDead | invalidForMethod
  | released | farEnd | cancelled
  deriving DecidableEq, Repr

/-- The outcomes of a job (R113). -/
inductive JobOutcome where
  | done | failed | cancelled
  deriving DecidableEq, Repr

/-- The states of a job (section 5.1). -/
inductive JobState where
  | queued | active | retryWait | finished
  deriving DecidableEq, Repr

/-- The phases of an ACTIVE job (R3). -/
inductive Phase where
  | resolve | seize | dialtone | dial | progress | connected | held
  deriving DecidableEq, Repr

/-- Where a job came from (R96): the link, or a key by its binding number. -/
inductive Origin where
  | link
  | key (k : KeyNo)
  deriving DecidableEq, Repr

/-- The kinds of job (R96). -/
inductive JobKind where
  | inline | entry
  deriving DecidableEq, Repr

/-- The record of a job (R96). -/
structure Job where
  id : Nat
  line : LineNo
  origin : Origin
  kind : JobKind
  supervised : Bool
  followChain : Bool
  methodOverride : Option Method
  attemptsOverride : Nat
  state : JobState
  phase : Option Phase
  program : Option (List Symbol)
  methodInEffect : Option Method
  fallback : Option EntryNo
  entryIndex : Option EntryNo
  hop : Nat
  visited : List EntryNo
  position : Nat
  attemptsThisHop : Nat
  attemptsMaxThisHop : Option Nat
  attemptsTotal : Nat
  lastCause : Option Cause
  lastClass : Option ToneClass
  connectedOnce : Bool
  outcome : Option (JobOutcome × Cause)
  symbolsRemaining : Option Nat
  deriving DecidableEq, Repr

/-- What a job dials (R101): an inline program or a directory entry. -/
inductive Target where
  | inline (program : List Symbol)
  | entry (index : EntryNo)
  deriving DecidableEq, Repr

/-- A submission (R101, R104). -/
structure Submission where
  line : LineNo
  origin : Origin
  target : Target
  supervised : Bool
  followChain : Bool
  methodOverride : Option Method
  attemptsOverride : Nat
  deriving DecidableEq, Repr

/-- The retry timer of a line (R126). -/
inductive RetryTimer where
  | stopped
  | running (due : Nat)
  | expired
  deriving DecidableEq, Repr

/-- What the last evicted job was (R102, R172). -/
structure Discarded where
  id : Nat
  line : LineNo
  outcome : Option (JobOutcome × Cause)
  deriving DecidableEq, Repr

/-! ### Generator pool (chapter 3) -/

/-- A line and the digit symbol it sounds or will sound: the holder of a generator (R54) or a wait list entry (R55). -/
structure Claim where
  line : LineNo
  symbol : Symbol
  deriving DecidableEq, Repr

/-- A generator (R54): FREE, or held. -/
abbrev Generator := Option Claim

/-- The pool (R54, R55): TG0 and TG1, and the wait list, head first. -/
structure Pool where
  gens : Bank 2 Generator
  wait : List Claim
  deriving DecidableEq, Repr

/-- Both generators FREE and nobody waiting (R67, R68). -/
def Pool.empty : Pool := ⟨Bank.fill 2 none, []⟩

/-! ### Directory Store (chapter 7) -/

/-- The method of an entry (R135). -/
inductive EntryMethod where
  | tone | pulse | line
  deriving DecidableEq, Repr

/-- The fields of a VALID entry (R135). -/
structure EntryFields where
  method : EntryMethod
  maxAttempts : Nat
  fallback : Option EntryNo
  digits : List Symbol
  label : List Byte
  deriving DecidableEq, Repr

/-- A directory entry (R135): BLANK or VALID. -/
inductive Entry where
  | blank
  | valid (f : EntryFields)
  deriving DecidableEq, Repr

/-- The role in a physical block's header (R136). -/
inductive Role where
  | logical (b : LogicalNo)
  | spare
  | retired
  deriving DecidableEq, Repr

/-- A physical block (R136). `content` is the four slots when the integrity check agrees with role and slots, and
absent when it does not: erased, being written, or never written ([17]). -/
structure PhysBlock where
  role : Role
  eraseCount : Nat
  content : Option (Bank 4 Entry)
  deriving DecidableEq, Repr

/-- Four BLANK slots. -/
def blankSlots : Bank 4 Entry := Bank.fill 4 .blank

/-- The store's state (R138). -/
inductive StoreState where
  | checking | ready | busy
  deriving DecidableEq, Repr

/-- The write-type operations (R138). -/
inductive OpKind where
  | write | erase | format | save | clear
  deriving DecidableEq, Repr

/-- The phases of an operation (R138). -/
inductive OpPhase where
  | load | erase | program | verify
  deriving DecidableEq, Repr

/-- The results of an operation (R145). -/
inductive OpResult where
  | ok | worn | settingsFail
  deriving DecidableEq, Repr

/-- The actions bound to a key (R163). -/
inductive Binding where
  | none
  | job (line : LineNo) (entry : EntryNo)
  | release (line : LineNo)
  | cancel (line : LineNo)
  | digit (line : LineNo) (symbol : Symbol)
  deriving DecidableEq, Repr

/-- What a VALID settings block holds (R148). -/
structure Settings where
  profiles : Bank 4 Profile
  enabled : Bank 4 Bool
  cadence : Bank 8 (Option Template)
  bindings : Bank 20 Binding
  active : Bank 4 Bool
  debounceMs : Nat
  masks : Bank 7 Byte
  deriving DecidableEq, Repr

/-- What the settings block holds (R148). -/
inductive Medium where
  | erased
  | valid (c : Settings)
  | invalid
  deriving DecidableEq, Repr

/-- The condition of the settings block as last found or left (R151). -/
inductive Condition where
  | erased | valid | invalid
  deriving DecidableEq, Repr

/-- What an operation writes (R138): a logical block with its physical block and the four slots of the work buffer
(the role of the buffer is the logical block), or the settings block with the settings of the work buffer (absent for
CLEAR). -/
inductive OpTarget where
  | block (b : LogicalNo) (p : PhysicalNo) (buffer : Bank 4 Entry)
  | settings (buffer : Option Settings)
  deriving DecidableEq, Repr

/-- The operation record (R138), with the moment its phase began. -/
structure OpRecord where
  kind : OpKind
  index : Option EntryNo
  target : OpTarget
  phase : OpPhase
  worn : Bool
  since : Nat
  deriving DecidableEq, Repr

/-- A blank rewrite the start-up check has in progress (R153). -/
structure Rewrite where
  b : LogicalNo
  p : PhysicalNo
  phase : OpPhase
  since : Nat
  deriving DecidableEq, Repr

/-- The start-up check (R152, R153): the next logical block, 32 when all are done, and the rewrite in progress. -/
structure Check where
  next : Nat
  rewrite : Option Rewrite
  deriving DecidableEq, Repr

/-- The Directory Store. -/
structure Store where
  st : StoreState
  op : Option OpRecord
  blocks : Bank 36 PhysBlock
  map : Bank 32 (Option PhysicalNo)
  spares : List PhysicalNo
  check : Option Check
  medium : Medium
  settingsCondition : Condition
  lastOp : Option (OpKind × Option EntryNo × OpResult)
  lastRetired : Option PhysicalNo
  lastCleared : Option LogicalNo
  deriving DecidableEq, Repr

/-- The role of physical block `p` in the factory state (R137). -/
def factoryRole (p : PhysicalNo) : Role :=
  if h : p.val < 32 then .logical ⟨p.val, h⟩ else .spare

/-- The physical blocks in the factory state (R137): blocks 0 to 31 mapped and blank, 32 to 35 spare. -/
def factoryBlocks : Bank 36 PhysBlock :=
  Bank.tabulate fun p =>
    { role := factoryRole p, eraseCount := 0, content := if p.val < 32 then some blankSlots else none }

/-- The block map in the factory state (R137). -/
def factoryMap : Bank 32 (Option PhysicalNo) :=
  Bank.tabulate fun b => some ⟨b.val, by have := b.isLt; omega⟩

/-! ### Key Scanner (chapter 8) -/

/-- What the scanner has made of a key's debounced level (R156). -/
inductive KeyCondition where
  | up | down | deferred | marked
  deriving DecidableEq, Repr

/-- The live job of a key (R156). -/
inductive LiveJob where
  | none
  | pending
  | job (id : Nat)
  deriving DecidableEq, Repr

/-- A key record (R156). `raw` is pressed (matrix) or HIGH (direct input); `deb` is true for DOWN; `since` is the raw
change from which the stability timer runs (R157). -/
structure Key where
  raw : Bool
  deb : Bool
  since : Option Nat
  cond : KeyCondition
  binding : Binding
  live : LiveJob
  deriving DecidableEq, Repr

/-- A transition record (R159). -/
structure KeyRecord where
  key : KeyNo
  down : Bool
  time : Nat
  deriving DecidableEq, Repr

/-- The causes of a key submission failure (R165, R197). -/
inductive SubmitFail where
  | wrongState | queueFull | tableFull | duplicate
  deriving DecidableEq, Repr

/-- The last submit failure (R165). -/
structure LastFail where
  key : KeyNo
  line : LineNo
  entry : EntryNo
  cause : SubmitFail
  deriving DecidableEq, Repr

/-- A submission of a JOB binding handed to the Job Engine and not yet taken by it (R165). -/
structure Handed where
  key : KeyNo
  line : LineNo
  entry : EntryNo
  deriving DecidableEq, Repr

/-- When the Job Engine takes a submission a key press hands over (R165): within the step of the press, or after it, as a
step of the part's own. -/
inductive EngineTurn where
  | within
  | later
  deriving DecidableEq, Repr

/-- The Key Scanner (R156), with the submissions on their way to the engine, in the order handed over (R165). `turns` is
the model's own: when the engine takes the submissions to come, each `within` its step where the list has ended ([25]).
`active` is true where the active level of a direct input is HIGH. -/
structure KeyScanner where
  all : Bank 20 Key
  debounceMs : Nat
  active : Bank 4 Bool
  queue : List KeyRecord
  deferred : List KeyNo
  handed : List Handed
  turns : List EngineTurn
  lastFail : Option LastFail
  deriving DecidableEq, Repr

/-! ### Event Unit (chapter 9) -/

/-- The flags of all sources (R171). -/
inductive Flag where
  | jobEnd | attemptFail | glare | progress | loopChg | revChg | ring
  | submitFail | jam | overflow | key
  | blockCleared | blockRetired | settingsLost | opDone
  | reset | linkBreak | linkErr | resultDiscarded
  deriving DecidableEq, Repr

/-- A source record (R170): latched flags and mask as the bytes of R202. -/
structure Source where
  latched : Byte
  mask : Byte
  noticePending : Bool
  deriving DecidableEq, Repr

/-- The reset causes (R172). -/
inductive ResetCause where
  | powerOn | pin | engine
  deriving DecidableEq, Repr

/-- The link errors (R172). -/
inductive LinkError where
  | badLength | timeout | parity | framing | badCheck | overrun
  deriving DecidableEq, Repr

/-- The Event Unit (R170, R177) with the details of source SYSTEM (R172). -/
structure EventUnit where
  sources : Bank 7 Source
  attn : Bool
  resetCause : ResetCause
  lastLinkError : Option LinkError
  lastDiscarded : Option Discarded
  deriving DecidableEq, Repr

/-! ### Link Port (chapter 10) -/

/-- Link settings (R181): speed code 0 to 4, parity EVEN or NONE. -/
structure LinkSettings where
  speed : Nat
  even : Bool
  deriving DecidableEq, Repr

/-- The settings a strap code selects (R181): codes 5, 6 and 7 select speed code 0; parity NONE. -/
def LinkSettings.ofStraps (straps : BitVec 3) : LinkSettings :=
  ⟨if straps.toNat ≤ 4 then straps.toNat else 0, false⟩

/-- The receiver's states (R183). -/
inductive RxState where
  | hunt | length | body | check
  deriving DecidableEq, Repr

/-- The receiver (R183): `bytes` are the bytes of KIND, TAG and BODY collected so far, `expected` the value of LEN,
`mark` the error mark, `gap` when the gap timer will have run for more than 30 ms. -/
structure Receiver where
  st : RxState
  bytes : List Byte
  expected : Nat
  mark : Option LinkError
  gap : Option Nat
  deriving DecidableEq, Repr

/-- The receiver in HUNT with no partial frame (R183, R193). -/
def Receiver.hunting : Receiver := ⟨.hunt, [], 0, none, none⟩

/-- A complete good frame (R185). -/
structure Frame where
  kind : Byte
  tag : Byte
  body : List Byte
  deriving DecidableEq, Repr

/-- A record of the outbound queue (R188): a reply, with the pending settings of a SET LINK reply (R182), or a notice. -/
inductive OutRecord where
  | reply (tag : Byte) (body : List Byte) (pendingSettings : Option LinkSettings)
  | note (source : SourceNo) (body : List Byte)
  deriving DecidableEq, Repr

/-- The transmitter (section 10.1): IDLE, or SENDING a record whose frame's bytes are on TXD. -/
inductive Transmitter where
  | idle
  | sending (rec : OutRecord) (bytes : List Byte)
  deriving DecidableEq, Repr

/-- The Link Port (section 10.1). `breakSince` is present while a break is in progress: since when RXD stands at
space. -/
structure LinkPort where
  settings : LinkSettings
  rx : Receiver
  inbound : List Frame
  outbound : List OutRecord
  tx : Transmitter
  breakSince : Option Nat
  deriving DecidableEq, Repr

/-- The refusal causes (spec/00 section 1.6). -/
inductive RefusalCause where
  | notReady | unknownKind | badLength | badValue | wrongState | busy | queueFull | tableFull | noSuchJob
  | entryBlank | deadBlock
  deriving DecidableEq, Repr

/-- A reply composed for a request (R187): OK with its result (and, for SET LINK, the pending settings of R182),
ACCEPTED with the issued identifier where there is one, or REFUSED with a cause and a field index. -/
inductive Reply where
  | ok (result : List Byte)
  | okSettings (p : LinkSettings)
  | accepted (extra : List Byte)
  | refused (c : RefusalCause) (field : Nat)
  deriving DecidableEq, Repr

end Sys2Proof.Machine
end

