-- ==== Sys2Proof/Machine/State.lean ====
section
/-! DEFINITION. The state of the block, and the state right after reset. -/

namespace Sys2Proof.Machine

/-- A Line Controller with its Progress Classifier and the details of its source (section 1.1, R31, R47, R75, R172). -/
structure Line where
  st : LineState
  cursor : Cursor
  postAnswer : Bool
  committed : Profile
  pendingProfile : Profile
  loop : Debounced
  rev : Debounced
  ring : RingDetector
  out : Outputs
  supervision : Supervision
  manual : Manual
  attempt : Option Attempt
  timers : LineTimers
  pc : Classifier
  lastClass : Option (ToneClass × SlotNo)
  lastCause : Option Cause
  lastJob : Option (Nat × JobOutcome × Cause)
  deriving DecidableEq, Repr

/-- A line after power-on and pin reset (R29, R31, R47, R75, R172), its pins standing at the given levels. Cursor source
and index: DESIGN CHOICE [7]. -/
def Line.reset (loopPin revPin ringPin cptPin : Bool) : Line where
  st := .disabled
  cursor := ⟨.job, [], 0, .none, 0⟩
  postAnswer := false
  committed := Profile.default
  pendingProfile := Profile.default
  loop := ⟨loopPin, false, none⟩
  rev := ⟨revPin, false, none⟩
  ring := ⟨ringPin, false, none, none, 0, none⟩
  out := ⟨false, false, false, false, false⟩
  supervision := .off
  manual := Manual.idle
  attempt := none
  timers := LineTimers.stopped
  pc := Classifier.reset cptPin
  lastClass := none
  lastCause := none
  lastJob := none

/-- The Job Engine (R95, R97, R98, R99, R126). The table's 24 slots have no number software sees: it is the list of the
records they hold, at most 24 of them ([18]). -/
structure JobEngine where
  table : List Job
  queues : Bank 4 (List Nat)
  finished : List Nat
  lastId : Nat
  retry : Bank 4 RetryTimer
  deriving DecidableEq, Repr

/-- The Job Engine after power-on and pin reset (R120, R134). -/
def JobEngine.reset : JobEngine := ⟨[], Bank.fill 4 [], [], 0, Bank.fill 4 .stopped⟩

/-- The input pins that belong to no block's record: the straps (R181) and LHOLD (R188). -/
structure Pins where
  straps : BitVec 3
  lhold : Bool
  deriving DecidableEq, Repr

/-- The state of the block. `now`, `free`, `held` and `pending` are the model's own: the clock in milliseconds ([1]), the
count of free values drawn ([14]), whether the part is held before its start ([9]), and the waiting commands. -/
structure State where
  pending : List Instr
  now : Nat
  free : Nat
  held : Bool
  pins : Pins
  lines : Bank 4 Line
  pool : Pool
  cadence : Bank 8 (Option Template)
  jobs : JobEngine
  store : Store
  keys : KeyScanner
  events : EventUnit
  link : LinkPort
  deriving DecidableEq, Repr

/-- The reasons a step could stop with a fault. There are none: the spec gives the part no event on which it stops (a
request not carried out is answered REFUSED, a damaged frame latches LINK_ERR). -/
inductive Fault where
  deriving DecidableEq, Repr

/-- The reasons a command could be refused by the model. -/
inductive Refusal where
  /-- A command without a meaning yet, by its mnemonic. Only exec's arms could raise it, and none does. Safe. -/
  | notModelled (mnemonic : String)
  deriving DecidableEq, Repr

/-- The store after the start of the part on a store as shipped: the factory state of R137, CHECKING, the map rebuilt, no
block checked yet (R138, R152, R172). -/
def Store.reset : Store where
  st := .checking
  op := none
  blocks := factoryBlocks
  map := factoryMap
  spares := [32, 33, 34, 35]
  check := some ⟨0, none⟩
  medium := .erased
  settingsCondition := .erased
  lastOp := none
  lastRetired := none
  lastCleared := none

/-- A key after power-on (R168). Raw and debounced level: DESIGN CHOICE [6], [8]. -/
def Key.reset (raw deb : Bool) : Key := ⟨raw, deb, none, .up, .none, .none⟩

/-- The scanner after power-on (R168), no key pressed, the direct inputs HIGH ([6]). -/
def KeyScanner.reset : KeyScanner where
  all := Bank.tabulate fun k => Key.reset (decide (16 ≤ k.val)) false
  debounceMs := 20
  active := Bank.fill 4 false
  queue := []
  deferred := []
  handed := []
  turns := []
  lastFail := none

/-- The Event Unit after power-on or pin reset (R170, R172, R178): RESET of SYSTEM latched, every mask empty. -/
def EventUnit.reset (cause : ResetCause) : EventUnit where
  sources := (Bank.fill 7 ⟨0#8, 0#8, false⟩).set 6 ⟨1#8, 0#8, false⟩
  attn := false
  resetCause := cause
  lastLinkError := none
  lastDiscarded := none

/-- The Link Port after power-on or pin reset (R193). -/
def LinkPort.reset (straps : BitVec 3) : LinkPort where
  settings := LinkSettings.ofStraps straps
  rx := Receiver.hunting
  inbound := []
  outbound := []
  tx := .idle
  breakSince := none

/-- The machine right after reset: supply applied to a part as shipped, and the part started (R193; [5]). Pin levels:
DESIGN CHOICE [6]. -/
def State.reset : State where
  pending := []
  now := 0
  free := 0
  held := false
  pins := ⟨0#3, false⟩
  lines := Bank.fill 4 (Line.reset false false false false)
  pool := Pool.empty
  cadence := factoryCadence
  jobs := JobEngine.reset
  store := Store.reset
  keys := KeyScanner.reset
  events := EventUnit.reset .powerOn
  link := LinkPort.reset 0#3

end Sys2Proof.Machine
end

