-- ==== Sys2Proof/Machine/Ops.lean ====
section
/-! DEFINITION. The named operations over the state: the clock, the outputs and inputs of a line and the one way a line
is written, the one way a source record is written, reads of jobs and entries, and how a due command acts. -/

namespace Sys2Proof.Machine

/-! ### The clock -/

/-- The clock brought up to the moment `due`, if it has not passed it ([2]). -/
def State.advanceTo (due : Nat) (s : State) : State := { s with now := max s.now due }

/-- The time-stamp clock (R156): milliseconds modulo 65 536. -/
def State.timeStamp (s : State) : Nat := s.now % 65536

/-- What the expiry of a timer does: nothing while it is stopped, else `act` with the clock at its due moment ([2]). -/
def State.onDue (due : Option Nat) (act : State → State) (s : State) : State :=
  match due with
  | none => s
  | some t => act (s.advanceTo t)

/-! ### Outputs and inputs of a line -/

/-- LCL is closed (R2): in the off-hook states, but for pulse breaks and FLASH_BREAK. -/
def Line.drivesLcl (l : Line) : Bool :=
  match l.st with
  | .disabled | .idle | .releasing => false
  | .dialing => !(l.cursor.sub == .pulseBreak || l.cursor.sub == .flashBreak)
  | .seizing | .awaitDialtone | .awaitProgress | .connected | .held => true

/-- A tone generator is routed to the line (R27): TONE_ON, or a SOUNDING manual digit. -/
def Line.drivesTon (l : Line) : Bool :=
  match l.st with
  | .dialing => l.cursor.sub == .toneOn
  | .connected => l.manual.activity == .sounding
  | _ => false

/-- TXM is asserted (R26). -/
def Line.drivesTxm (l : Line) : Bool :=
  match l.st with
  | .dialing => l.committed.txmuteAuto
  | .connected => l.committed.txmuteAuto && l.manual.activity == .sounding
  | .held => true
  | _ => false

/-- RXM is asserted (R27): throughout a pulse digit and in each FLASH_BREAK. -/
def Line.drivesRxm (l : Line) : Bool :=
  match l.st with
  | .dialing => l.committed.rxmuteAuto &&
      (l.cursor.sub == .pulseBreak || l.cursor.sub == .pulseMake || l.cursor.sub == .interdigit ||
        l.cursor.sub == .flashBreak)
  | _ => false

/-- The output levels the state of the line calls for (R2, R26, R27). -/
def Line.outputs (l : Line) : Outputs where
  lcl := l.drivesLcl
  hld := l.st == .held
  txm := l.drivesTxm
  rxm := l.drivesRxm
  ton := l.drivesTon

/-- The LOOP level the line sees (R28). -/
def Line.loopSeen (l : Line) : Bool := if l.committed.loopback then l.out.lcl else l.loop.pin
/-- The REV level the line sees (R28). -/
def Line.revSeen (l : Line) : Bool := !l.committed.loopback && l.rev.pin
/-- The RING level the line sees (R28). -/
def Line.ringSeen (l : Line) : Bool := !l.committed.loopback && l.ring.pin
/-- The CPT level the classifier sees (R28, R78). -/
def Line.cptSeen (l : Line) : Bool := if l.committed.loopback then l.out.ton else l.pc.pin

/-- The ring detector watches RING in DISABLED and in IDLE (R24). -/
def Line.watchesRing (l : Line) : Bool := l.st == .disabled || l.st == .idle

/-- The debounce of a seen level (R1): it stands against the level taken from the first moment it differs. -/
def Debounced.follow (seen : Bool) (now : Nat) (d : Debounced) : Debounced :=
  { d with since := if seen = d.taken then none else some (d.since.getD now) }

/-- The interval measurements of the ring detector for a seen level (R24). Unwatched, no burst is in progress and
nothing is measured. -/
def RingDetector.follow (watched seen : Bool) (now : Nat) (r : RingDetector) : RingDetector :=
  if watched then
    { r with
      startDue := if seen && !r.burst then some (r.startDue.getD (now + Config.ringBurstMs)) else none
      gapDue := if !seen && r.burst then some (r.gapDue.getD (now + Config.ringGapMs)) else none }
  else { r with burst := false, startDue := none, gapDue := none }

/-- The raw level the glitch filter saw last (R78): the filtered level changed by every edge not delivered yet. -/
def Classifier.rawSeen (c : Classifier) : Bool := c.filtered != (c.edges.length % 2 == 1)

/-- A raw change at the moment `now` (R78): it removes the last edge, with itself, where that one has not held for 10 ms;
an excursion of exactly 10 ms is kept, and the change is a new edge. -/
def addEdge (now : Nat) (edges : List Nat) : List Nat :=
  match edges.getLast? with
  | none => [now]
  | some e => if now < e + Config.cptFilterMs then edges.dropLast else edges ++ [now]

/-- The glitch filter for a seen level (R78). -/
def Classifier.follow (seen : Bool) (now : Nat) (c : Classifier) : Classifier :=
  { c with edges := if seen = c.rawSeen then c.edges else addEdge now c.edges }

/-- The line with its outputs at the levels its state calls for, and its input measurements following the levels it
then sees (R2, R28; [20]). -/
def Line.settle (now : Nat) (l : Line) : Line :=
  let l := { l with out := l.outputs }
  { l with
    loop := l.loop.follow l.loopSeen now
    rev := l.rev.follow l.revSeen now
    ring := l.ring.follow l.watchesRing l.ringSeen now
    pc := l.pc.follow l.cptSeen now }

/-- Line `n`. -/
def State.line (s : State) (n : LineNo) : Line := s.lines.get n

/-- Line `n` written: the one way a line changes while the part runs. -/
def State.putLine (n : LineNo) (l : Line) (s : State) : State :=
  { s with lines := s.lines.set n (l.settle s.now) }

/-- Line `n` changed by `f`. -/
def State.onLine (n : LineNo) (f : Line → Line) (s : State) : State := s.putLine n (f (s.line n))

/-- `f` applied for each line in turn, by line number ([19]). -/
def State.eachLine (f : LineNo → State → State) (s : State) : State := f 3 (f 2 (f 1 (f 0 s)))

/-- The timers of line `n` changed by `f`. -/
def Line.withTimers (f : LineTimers → LineTimers) (l : Line) : Line := { l with timers := f l.timers }

/-! ### Source records and ATTN -/

/-- Some source has a latched flag in its mask (R177). -/
def attnLevel (sources : Bank 7 Source) : Bool := sources.items.any fun r => r.latched &&& r.mask != 0#8

/-- The source records written, with ATTN re-evaluated (R177): the one way a source record changes. -/
def State.putSources (b : Bank 7 Source) (s : State) : State :=
  { s with events := { s.events with sources := b, attn := attnLevel b } }

/-- The record of one source. -/
def State.source (s : State) (src : SourceNo) : Source := s.events.sources.get src

/-- The record of one source written. -/
def State.putSource (src : SourceNo) (r : Source) (s : State) : State := s.putSources (s.events.sources.set src r)

/-- Source LINE n. -/
def lineSource (n : LineNo) : SourceNo := ⟨n.val, by omega⟩
/-- Source KEYS. -/
def keysSource : SourceNo := 4
/-- Source STORE. -/
def storeSource : SourceNo := 5
/-- Source SYSTEM. -/
def systemSource : SourceNo := 6

/-! ### Jobs -/

/-- The Job Engine changed by `f`. -/
def State.onJobs (f : JobEngine → JobEngine) (s : State) : State := { s with jobs := f s.jobs }

/-- The record of the job with identifier `id` (R95). -/
def State.job (s : State) (id : Nat) : Option Job := s.jobs.table.find? fun j => j.id == id

/-- The job with identifier `id` changed by `f`. -/
def State.onJob (id : Nat) (f : Job → Job) (s : State) : State :=
  s.onJobs fun e => { e with table := e.table.map fun j => if j.id = id then f j else j }

/-- The queue of line `n` (R97). -/
def State.queue (s : State) (n : LineNo) : List Nat := s.jobs.queues.get n

/-- The head job of line `n` (R97). -/
def State.headJob (s : State) (n : LineNo) : Option Job := (s.queue n).head?.bind s.job

/-- The ACTIVE head job of line `n` changed by `f`; nothing where the head job is not ACTIVE. -/
def State.onActive (n : LineNo) (f : Job → Job) (s : State) : State :=
  match s.headJob n with
  | some j => if j.state = .active then s.onJob j.id f else s
  | none => s

/-- The phase of the ACTIVE job as the line reports it (R3, R111). -/
def State.reportPhase (n : LineNo) (p : Phase) (s : State) : State :=
  s.onActive n fun j => { j with phase := some p }

/-- The retry timer of line `n` written (R126). -/
def State.setRetry (n : LineNo) (r : RetryTimer) (s : State) : State :=
  s.onJobs fun e => { e with retry := e.retry.set n r }

/-- The job waits on the store (R107): ACTIVE in RESOLVE and not resolved for its hop. -/
def Job.waitsOnStore (j : Job) : Bool :=
  j.state == .active && j.phase == some .resolve && j.methodInEffect.isNone

/-- The job stands offered to its line (R110): ACTIVE in RESOLVE and resolved for its hop. -/
def Job.offered (j : Job) : Bool :=
  j.state == .active && j.phase == some .resolve && j.methodInEffect.isSome

/-! ### The store -/

/-- The Directory Store changed by `f`. -/
def State.onStore (f : Store → Store) (s : State) : State := { s with store := f s.store }

/-- The logical block of an entry (spec/00 section 1.6). -/
def blockOf (e : EntryNo) : LogicalNo := ⟨e.val / 4, by omega⟩
/-- The slot of an entry in its block (R136). -/
def slotOf (e : EntryNo) : Fin 4 := ⟨e.val % 4, by omega⟩

/-- An operation in flight covers logical block `b` (R139, R107). -/
def Store.covers (st : Store) (b : LogicalNo) : Bool :=
  match st.op with
  | none => false
  | some op =>
    match op.kind, op.target with
    | .format, _ => true
    | .write, .block b' _ _ => b' == b
    | .erase, .block b' _ _ => b' == b
    | _, _ => false

/-- Logical block `b` is dead (R137). -/
def Store.dead (st : Store) (b : LogicalNo) : Bool := (st.map.get b).isNone

/-- The four slots of logical block `b`: BLANK where it is dead or its content does not read back (R137, R153). -/
def Store.slots (st : Store) (b : LogicalNo) : Bank 4 Entry :=
  match st.map.get b with
  | none => blankSlots
  | some p => ((st.blocks.get p).content).getD blankSlots

/-- An entry as it stands (R139). -/
def Store.entry (st : Store) (e : EntryNo) : Entry := (st.slots (blockOf e)).get (slotOf e)

/-! ### The link -/

/-- The Link Port changed by `f`. -/
def State.onLink (f : LinkPort → LinkPort) (s : State) : State := { s with link := f s.link }

/-- A record of the outbound queue is a reply. -/
def OutRecord.isReply : OutRecord → Bool
  | .reply _ _ _ => true
  | .note _ _ => false

/-- A record of the outbound queue is a NOTE of source `src`. -/
def OutRecord.isNoteOf (src : SourceNo) : OutRecord → Bool
  | .reply _ _ _ => false
  | .note s _ => s == src

/-- The replies that stand in the outbound queue (R185). -/
def LinkPort.replies (k : LinkPort) : Nat := k.outbound.countP OutRecord.isReply

end Sys2Proof.Machine
end

