-- ==== Sys2Proof/Machine/Operands.lean ====
section
/-! DEFINITION. The encodings of chapter 11: fields, codes, record layouts, frames, and the reading of request bodies. -/

namespace Sys2Proof.Machine

/-! ### Bytes and words (R194) -/

/-- A quantity of one byte. -/
def byteOf (n : Nat) : Byte := BitVec.ofNat 8 n
/-- A quantity of two bytes, low byte first. -/
def wordOf (n : Nat) : List Byte := [byteOf (n % 256), byteOf (n / 256)]
/-- An on/off field. -/
def onOff (b : Bool) : Byte := if b then 1#8 else 0#8
/-- An absent optional field. -/
def absent : Byte := 0xFF#8
/-- An optional field of one byte. -/
def optByte {α : Type} (f : α → Byte) : Option α → Byte
  | none => absent
  | some a => f a
/-- A list: its count, then its items. -/
def counted {α : Type} (f : α → List Byte) (xs : List α) : List Byte := byteOf xs.length :: xs.flatMap f

/-- The byte at an offset of a body, as a quantity. -/
def byteAt (b : List Byte) (i : Nat) : Nat := (b.getD i 0#8).toNat
/-- The two bytes at an offset of a body, as a quantity. -/
def wordAt (b : List Byte) (i : Nat) : Nat := byteAt b i + 256 * byteAt b (i + 1)
/-- The number `k` where it is below `n`. -/
def below (n k : Nat) : Option (Fin n) := if h : k < n then some ⟨k, h⟩ else none
/-- `k` lies in a range, inclusive. -/
def inRange (lo hi k : Nat) : Bool := lo ≤ k && k ≤ hi

/-! ### Dial symbols (R194, R35, R36, R41) -/

/-- A symbol as its ASCII character. -/
def Symbol.code : Symbol → Byte
  | .digit v => byteOf (0x30 + v.val)
  | .star => 0x2A#8 | .hash => 0x23#8
  | .a => 0x41#8 | .b => 0x42#8 | .c => 0x43#8 | .d => 0x44#8
  | .pause => 0x50#8 | .flash => 0x46#8 | .waitTone => 0x57#8

/-- The symbol of a byte, none outside the dial symbol set. -/
def Symbol.ofCode (b : Byte) : Option Symbol :=
  if b = 0x2A#8 then some .star else if b = 0x23#8 then some .hash
  else if b = 0x41#8 then some .a else if b = 0x42#8 then some .b
  else if b = 0x43#8 then some .c else if b = 0x44#8 then some .d
  else if b = 0x50#8 then some .pause else if b = 0x46#8 then some .flash
  else if b = 0x57#8 then some .waitTone
  else if 0x30 ≤ b.toNat then (below 10 (b.toNat - 0x30)).map .digit else none

/-- A list of symbols read from bytes, none if one is outside the set. -/
def Symbol.readAll (bs : List Byte) : Option (List Symbol) := bs.mapM Symbol.ofCode

/-- A digit symbol, as against the controls P, F and W (spec/00 section 1.6). -/
def Symbol.isDigit : Symbol → Bool
  | .pause | .flash | .waitTone => false
  | _ => true

/-- The symbols allowed under a method (R35). -/
def Method.allows : Method → Symbol → Bool
  | .tone, _ => true
  | .pulse, .digit _ | .pulse, .pause | .pulse, .flash | .pulse, .waitTone => true
  | .pulse, _ => false

/-- Every symbol of a program is allowed under a method (R35). -/
def Method.allowsAll (m : Method) (p : List Symbol) : Bool := p.all m.allows

/-- The pulses of a pulse digit (R36). -/
def pulseCount (v : Fin 10) : Nat := if v.val = 0 then 10 else v.val

/-- The row and column frequencies of a digit symbol, in Hz (R41, nominal values, [29]). -/
def Symbol.tonePair : Symbol → Option (Nat × Nat)
  | .digit v => some <| match v with
    | 1 => (697, 1209) | 2 => (697, 1336) | 3 => (697, 1477)
    | 4 => (770, 1209) | 5 => (770, 1336) | 6 => (770, 1477)
    | 7 => (852, 1209) | 8 => (852, 1336) | 9 => (852, 1477)
    | 0 => (941, 1336)
  | .star => some (941, 1209) | .hash => some (941, 1477)
  | .a => some (697, 1633) | .b => some (770, 1633) | .c => some (852, 1633) | .d => some (941, 1633)
  | .pause | .flash | .waitTone => none

/-- The frequencies a generator produces (R54): none while FREE. -/
def Generator.tones (g : Generator) : Option (Nat × Nat) := g.bind fun c => c.symbol.tonePair

/-! ### Codes (R197, R203) -/

def Cause.code : Cause → Byte
  | .noLoop => 0x01#8 | .noDialTone => 0x02#8 | .busy => 0x03#8 | .reorder => 0x04#8 | .redialTone => 0x05#8
  | .noAnswer => 0x06#8 | .loopLost => 0x07#8 | .chainLoop => 0x08#8 | .chainLimit => 0x09#8
  | .entryBlank => 0x0A#8 | .entryDead => 0x0B#8 | .invalidForMethod => 0x0C#8 | .released => 0x0D#8
  | .farEnd => 0x0E#8 | .cancelled => 0x0F#8

def RefusalCause.code : RefusalCause → Byte
  | .notReady => 0x01#8 | .unknownKind => 0x02#8 | .badLength => 0x03#8 | .badValue => 0x04#8
  | .wrongState => 0x05#8 | .busy => 0x06#8 | .queueFull => 0x07#8 | .tableFull => 0x08#8
  | .noSuchJob => 0x09#8 | .entryBlank => 0x0A#8 | .deadBlock => 0x0B#8

def JobOutcome.code : JobOutcome → Byte
  | .done => 0#8 | .failed => 1#8 | .cancelled => 2#8

def SubmitFail.code : SubmitFail → Byte
  | .wrongState => 0x05#8 | .queueFull => 0x07#8 | .tableFull => 0x08#8 | .duplicate => 0x10#8

def ToneClass.code : ToneClass → Byte
  | .dial => 1#8 | .busy => 2#8 | .ringback => 3#8 | .reorder => 4#8 | .alertA => 5#8 | .alertB => 6#8

def ToneClass.ofCode (k : Nat) : Option ToneClass :=
  match k with
  | 1 => some .dial | 2 => some .busy | 3 => some .ringback | 4 => some .reorder | 5 => some .alertA
  | 6 => some .alertB | _ => none

def LinkError.code : LinkError → Byte
  | .badLength => 1#8 | .timeout => 2#8 | .parity => 3#8 | .framing => 4#8 | .badCheck => 5#8 | .overrun => 6#8

def OpKind.code : OpKind → Byte
  | .write => 0#8 | .erase => 1#8 | .format => 2#8 | .save => 3#8 | .clear => 4#8

def OpResult.code : OpResult → Byte
  | .ok => 0#8 | .worn => 1#8 | .settingsFail => 2#8

def OpPhase.code : OpPhase → Byte
  | .load => 0#8 | .erase => 1#8 | .program => 2#8 | .verify => 3#8

def ResetCause.code : ResetCause → Byte
  | .powerOn => 0#8 | .pin => 1#8 | .engine => 2#8

def Method.code : Method → Byte
  | .tone => 0#8 | .pulse => 1#8

def Method.ofCode (k : Nat) : Option Method :=
  match k with
  | 0 => some .tone | 1 => some .pulse | _ => none

def EntryMethod.code : EntryMethod → Byte
  | .tone => 0#8 | .pulse => 1#8 | .line => 2#8

def EntryMethod.ofCode (k : Nat) : Option EntryMethod :=
  match k with
  | 0 => some .tone | 1 => some .pulse | 2 => some .line | _ => none

/-- `method_override` (R197): NONE is 2. -/
def overrideCode : Option Method → Byte
  | none => 2#8
  | some m => m.code

def LineState.code : LineState → Byte
  | .disabled => 0#8 | .idle => 1#8 | .seizing => 2#8 | .awaitDialtone => 3#8 | .dialing => 4#8
  | .awaitProgress => 5#8 | .connected => 6#8 | .held => 7#8 | .releasing => 8#8

def SubPhase.code : SubPhase → Byte
  | .none => 0#8 | .pulseBreak => 1#8 | .pulseMake => 2#8 | .interdigit => 3#8 | .toneRequest => 4#8
  | .toneOn => 5#8 | .toneGap => 6#8 | .pause => 7#8 | .flashBreak => 8#8 | .waitTone => 9#8

def Supervision.code : Supervision → Byte
  | .off => 0#8 | .active => 1#8 | .suspended => 2#8

def Activity.code : Activity → Byte
  | .none => 0#8 | .waiting => 1#8 | .sounding => 2#8

def Basis.code : Basis → Byte
  | .reversal => 1#8 | .ringbackCeased => 2#8 | .unclassified => 3#8

/-- Last answer (R203): NONE is 0. -/
def answerCode : Option Basis → Byte
  | none => 0#8
  | some b => b.code

/-- The state of the store as STATUS and STORE STATUS carry it (R203); both are refused during CHECKING. -/
def StoreState.code : StoreState → Byte
  | .busy => 1#8
  | _ => 0#8

def Condition.code : Condition → Byte
  | .erased => 0#8 | .valid => 1#8 | .invalid => 2#8

def KeyCondition.code : KeyCondition → Byte
  | .up => 0#8 | .down => 1#8 | .deferred => 2#8 | .marked => 3#8

def JobState.code : JobState → Byte
  | .queued => 0#8 | .active => 1#8 | .retryWait => 2#8 | .finished => 3#8

def Phase.code : Phase → Byte
  | .resolve => 0#8 | .seize => 1#8 | .dialtone => 2#8 | .dial => 3#8 | .progress => 4#8 | .connected => 5#8
  | .held => 6#8

def JobKind.code : JobKind → Byte
  | .inline => 0#8 | .entry => 1#8

def Origin.code : Origin → Byte
  | .link => absent
  | .key k => byteOf k.val

def finCode {n : Nat} (i : Fin n) : Byte := byteOf i.val

/-- A current or last class, then its slot, FFh with NONE (R202, R205). -/
def classCode : Option (ToneClass × SlotNo) → List Byte
  | none => [0#8, absent]
  | some (c, k) => [c.code, finCode k]

/-! ### Records -/

/-- The job record with its collected mark (R198). -/
def Job.record (collected : Bool) (j : Job) : List Byte :=
  [ byteOf j.id, finCode j.line, j.origin.code, j.kind.code,
    byteOf ((if j.supervised then 1 else 0) + (if j.followChain then 2 else 0) + (if j.connectedOnce then 4 else 0)
      + (if collected then 8 else 0)),
    overrideCode j.methodOverride, byteOf j.attemptsOverride, j.state.code, optByte Phase.code j.phase,
    optByte Method.code j.methodInEffect, optByte finCode j.entryIndex, optByte finCode j.fallback, byteOf j.hop,
    byteOf j.attemptsThisHop, optByte byteOf j.attemptsMaxThisHop, byteOf j.attemptsTotal,
    optByte Cause.code j.lastCause, (j.lastClass.map ToneClass.code).getD 0#8,
    optByte (fun o => o.1.code) j.outcome, optByte (fun o => o.2.code) j.outcome,
    byteOf j.position, optByte byteOf j.symbolsRemaining ] ++
  counted (fun e => [finCode e]) j.visited ++ counted (fun y => [Symbol.code y]) (j.program.getD [])

/-- The line profile (R199). -/
def Profile.encode (p : Profile) : List Byte :=
  [p.method.code, byteOf p.pulseRate, byteOf p.breakPct] ++ wordOf p.interdigitMs ++
  [byteOf p.toneOnMs, byteOf p.toneGapMs] ++ wordOf p.flashMs ++ wordOf p.pauseMs ++ wordOf p.seizeTimeoutMs ++
  wordOf p.postSeizeMs ++ [onOff p.dialtoneWait] ++ wordOf p.dialtoneTimeoutMs ++
  [onOff p.blindDial, byteOf p.noAnswerS] ++ wordOf p.disconnectMs ++ wordOf p.guardMs ++ wordOf p.retryDelayS ++
  [byteOf p.attemptsDefault, onOff p.answerReversal, onOff p.answerRingbackCease] ++ wordOf p.answerGapMs ++
  [onOff p.answerUnclassified, onOff p.txmuteAuto, onOff p.rxmuteAuto, onOff p.loopback, onOff p.startEnabled]

/-- The checks of the fields of a profile in a body whose line stands at offset 0, in the order of R4 (R5, R199). -/
def profileChecks (b : List Byte) : List Bool :=
  [ inRange 0 1 (byteAt b 1), byteAt b 2 == 10 || byteAt b 2 == 20, byteAt b 3 == 60 || byteAt b 3 == 66,
    inRange 200 1000 (wordAt b 4), inRange 50 250 (byteAt b 6), inRange 50 250 (byteAt b 7),
    inRange 80 900 (wordAt b 8), inRange 500 10000 (wordAt b 10), inRange 200 5000 (wordAt b 12),
    inRange 0 2000 (wordAt b 14), inRange 0 1 (byteAt b 16), inRange 1000 15000 (wordAt b 17),
    inRange 0 1 (byteAt b 19), inRange 5 180 (byteAt b 20), inRange 100 2000 (wordAt b 21),
    inRange 200 5000 (wordAt b 23), inRange 1 300 (wordAt b 25), inRange 1 9 (byteAt b 27),
    inRange 0 1 (byteAt b 28), inRange 0 1 (byteAt b 29), inRange 2000 15000 (wordAt b 30),
    inRange 0 1 (byteAt b 32), inRange 0 1 (byteAt b 33), inRange 0 1 (byteAt b 34),
    inRange 0 1 (byteAt b 35), inRange 0 1 (byteAt b 36) ]

/-- The profile in a body that passes `profileChecks`. -/
def profileOf (b : List Byte) : Profile where
  method := (Method.ofCode (byteAt b 1)).getD .tone
  pulseRate := byteAt b 2
  breakPct := byteAt b 3
  interdigitMs := wordAt b 4
  toneOnMs := byteAt b 6
  toneGapMs := byteAt b 7
  flashMs := wordAt b 8
  pauseMs := wordAt b 10
  seizeTimeoutMs := wordAt b 12
  postSeizeMs := wordAt b 14
  dialtoneWait := byteAt b 16 == 1
  dialtoneTimeoutMs := wordAt b 17
  blindDial := byteAt b 19 == 1
  noAnswerS := byteAt b 20
  disconnectMs := wordAt b 21
  guardMs := wordAt b 23
  retryDelayS := wordAt b 25
  attemptsDefault := byteAt b 27
  answerReversal := byteAt b 28 == 1
  answerRingbackCease := byteAt b 29 == 1
  answerGapMs := wordAt b 30
  answerUnclassified := byteAt b 32 == 1
  txmuteAuto := byteAt b 33 == 1
  rxmuteAuto := byteAt b 34 == 1
  loopback := byteAt b 35 == 1
  startEnabled := byteAt b 36 == 1

/-- The index of the first check that fails, counted from `i`. -/
def firstFailure : Nat → List Bool → Option Nat
  | _, [] => none
  | i, c :: cs => if c then firstFailure (i + 1) cs else some i

/-- A segment (R201). -/
def Segment.encode (g : Segment) : List Byte :=
  wordOf g.onMin ++ wordOf g.onMax ++ wordOf g.offMin ++ wordOf g.offMax

/-- The result of READ CADENCE (R201). -/
def templateResult (k : SlotNo) : Option Template → List Byte
  | none => [finCode k, absent, absent]
  | some t =>
    match t.form with
    | .steady m => [finCode k, t.cls.code, 0#8] ++ wordOf m
    | .cadenced g c => [finCode k, t.cls.code, 1#8] ++ counted Segment.encode g ++ [byteOf c]

/-- The result of READ ENTRY (R200). -/
def entryResult (e : EntryNo) (dead : Bool) : Entry → List Byte
  | .blank => [finCode e, 0#8, onOff dead]
  | .valid f => [finCode e, 1#8, onOff dead, f.method.code, byteOf f.maxAttempts, optByte finCode f.fallback] ++
      counted (fun y => [Symbol.code y]) f.digits ++ counted (fun c => [c]) f.label

/-- The binding, its line, and its entry or symbol, as READ BINDING carries them (R208; action codes R196). -/
def Binding.encode : Binding → List Byte
  | .none => [0#8, absent, absent]
  | .job n e => [1#8, finCode n, finCode e]
  | .release n => [2#8, finCode n, absent]
  | .cancel n => [3#8, finCode n, absent]
  | .digit n y => [4#8, finCode n, y.code]

/-- The identifier of the live job, 0 for NONE and PENDING (R164). -/
def LiveJob.code : LiveJob → Byte
  | .job id => byteOf id
  | _ => 0#8

/-- A transition record (R208). -/
def KeyRecord.encode (r : KeyRecord) : List Byte := [finCode r.key, onOff r.down] ++ wordOf r.time

/-- A generator in the pool report (R205). -/
def Generator.encode (g : Generator) : List Byte :=
  match g with
  | none => [absent, absent]
  | some c => [finCode c.line, c.symbol.code]

/-- A classifier report (R205, R94). -/
def Classifier.report (c : Classifier) : List Byte :=
  [onOff c.listening, onOff c.filtered] ++ classCode c.current ++
  [onOff c.ringbackSeen, byteOf c.unmatched, answerCode c.lastAnswer] ++
  counted (fun i => onOff i.on :: wordOf i.units) c.history

/-- The physical block of an operation (R203): FEh for the settings block. -/
def OpTarget.physical : OpTarget → Byte
  | .block _ p _ => finCode p
  | .settings _ => 0xFE#8

/-- The logical block of an operation (R207): FFh for SAVE and CLEAR. -/
def OpTarget.logical : OpTarget → Byte
  | .block b _ _ => finCode b
  | .settings _ => absent

/-! ### Frames and replies (R195, R197) -/

/-- CHECK (R195): 256 less the sum of LEN through BODY, modulo 256. -/
def frameCheck (payload : List Byte) : Byte :=
  0#8 - payload.foldl (· + ·) (byteOf payload.length)

/-- The bytes of a frame (R195), from SYNC through CHECK; `payload` is KIND, TAG and BODY. -/
def frameBytes (payload : List Byte) : List Byte :=
  [Config.sync, byteOf payload.length] ++ payload ++ [frameCheck payload]

/-- The frame of a record of the outbound queue (R187, R196): REPLY 80h with the request's TAG, NOTE 81h with TAG 0. -/
def OutRecord.frame : OutRecord → List Byte
  | .reply tag body _ => frameBytes (0x80#8 :: tag :: body)
  | .note _ body => frameBytes (0x81#8 :: 0#8 :: body)

/-- The settings a record applies when its last byte leaves TXD (R182). -/
def OutRecord.settings : OutRecord → Option LinkSettings
  | .reply _ _ p => p
  | .note _ _ => none

/-- Parity (R196): NONE 0, EVEN 1. -/
def LinkSettings.encode (p : LinkSettings) : List Byte := [byteOf p.speed, onOff p.even]

/-- The record queued for a reply (R197, R204). -/
def Reply.record (tag : Byte) : Reply → OutRecord
  | .ok r => .reply tag (0#8 :: r) none
  | .okSettings p => .reply tag (0#8 :: p.encode) (some p)
  | .accepted x => .reply tag (1#8 :: x) none
  | .refused c i => .reply tag [2#8, c.code, byteOf i] none

end Sys2Proof.Machine
end

