-- ==== Sys2Proof/Machine/Flags.lean ====
section
/-! DEFINITION. The flags of the Event Unit: their bits, the details of each source, the NOTE, latching and notices
(chapter 9, R202). -/

namespace Sys2Proof.Machine

/-- The bit of a flag in its source's bytes (R202): its position in the priority list of R171. -/
def Flag.bit : Flag → Nat
  | .jobEnd => 0 | .attemptFail => 1 | .glare => 2 | .progress => 3 | .loopChg => 4 | .revChg => 5 | .ring => 6
  | .submitFail => 0 | .jam => 1 | .overflow => 2 | .key => 3
  | .blockCleared => 0 | .blockRetired => 1 | .settingsLost => 2 | .opDone => 3
  | .reset => 0 | .linkBreak => 1 | .linkErr => 2 | .resultDiscarded => 3

/-- The flag as a set of one flag. -/
def Flag.mask (f : Flag) : Byte := 1#8 <<< f.bit

/-- The flags a source has (R202): seven for LINE n, four for the others. -/
def flagsOf (src : SourceNo) : Byte := if src.val < 4 then 0x7F#8 else 0x0F#8

/-- The lowest-numbered bit set, the top flag of a NOTE (R174, R202). -/
def topBit (b : Byte) : Nat := ((List.range 8).find? fun i => b.getLsbD i).getD 0

/-- The details of source LINE n (R172, R202). -/
def Line.details (l : Line) : List Byte :=
  [byteOf l.ring.count, onOff l.loop.taken, onOff l.rev.taken] ++ classCode l.lastClass ++
  [optByte Cause.code l.lastCause] ++
  (match l.lastJob with
   | none => [0#8, absent, absent]
   | some (id, o, c) => [byteOf id, o.code, c.code])

/-- The details of source KEYS (R172, R202). -/
def KeyScanner.details (k : KeyScanner) : List Byte :=
  (match k.lastFail with
   | none => [absent, absent, absent, absent]
   | some f => [finCode f.key, finCode f.line, finCode f.entry, f.cause.code]) ++ [byteOf k.queue.length]

/-- The details of source STORE (R172, R202). -/
def Store.details (st : Store) : List Byte :=
  (match st.lastOp with
   | none => [absent, absent, absent]
   | some (k, i, r) => [k.code, optByte finCode i, r.code]) ++
  [optByte finCode st.lastRetired, optByte finCode st.lastCleared]

/-- The details of source SYSTEM (R172, R202). -/
def EventUnit.details (e : EventUnit) : List Byte :=
  [e.resetCause.code, optByte LinkError.code e.lastLinkError] ++
  (match e.lastDiscarded with
   | none => [0#8, absent, absent, absent]
   | some d => [byteOf d.id, finCode d.line, optByte (fun o => o.1.code) d.outcome,
       optByte (fun o => o.2.code) d.outcome])

/-- The details of a source as they stand (R172). -/
def State.details (s : State) (src : SourceNo) : List Byte :=
  match src with
  | 0 => (s.line 0).details
  | 1 => (s.line 1).details
  | 2 => (s.line 2).details
  | 3 => (s.line 3).details
  | 4 => s.keys.details
  | 5 => s.store.details
  | 6 => s.events.details

/-- The body of a NOTE (R174, R202): source, top flag, latched flags, details. -/
def State.noteBody (s : State) (src : SourceNo) : List Byte :=
  let r := s.source src
  [finCode src, byteOf (topBit (r.latched &&& r.mask)), r.latched] ++ s.details src

/-- The source calls for a notice (R173): notice-pending clear, and a latched flag in the mask. -/
def Source.calls (r : Source) : Bool := !r.noticePending && r.latched &&& r.mask != 0#8

/-- A notice queued for a source that calls for one, and its notice-pending set (R173). -/
def State.queueNotice (src : SourceNo) (s : State) : State :=
  if (s.source src).calls then
    (s.onLink fun k => { k with outbound := k.outbound ++ [.note src (s.noteBody src)] }).putSource src
      { s.source src with noticePending := true }
  else s

/-- A flag latched (R171): one already latched changes nothing; one in the mask calls for a notice (R173). The
notice joins the queue at the latch, so those of one step stand in the order of its latches: DESIGN CHOICE [43]. -/
def State.latch (src : SourceNo) (f : Flag) (s : State) : State :=
  let r := s.source src
  if r.latched.getLsbD f.bit then s
  else
    let s := s.putSource src { r with latched := r.latched ||| f.mask }
    if r.mask.getLsbD f.bit then s.queueNotice src else s

/-- Notices queued for every source that calls for one, in order of source number (R173, R178, R180). -/
def State.queueNotices (s : State) : State := (List.finRange 7).foldl (fun s src => s.queueNotice src) s

/-- A flag of LINE n latched. -/
def State.latchLine (n : LineNo) (f : Flag) (s : State) : State := s.latch (lineSource n) f

/-- The NOTE of a source removed from the outbound queue (R175, R179). -/
def State.dropNote (src : SourceNo) (s : State) : State :=
  s.onLink fun k => { k with outbound := k.outbound.filter fun r => !r.isNoteOf src }

end Sys2Proof.Machine
end

