-- ==== Sys2Proof/Machine/Pool.lean ====
section
/-! DEFINITION. The Generator Arbiter (chapter 3): requests, grants, releases with handover, withdrawals, and how a
line takes a grant. -/

namespace Sys2Proof.Machine

/-- A request taken (R57): the FREE generator of lower number is granted, else the request joins the wait list tail. -/
def Pool.request (c : Claim) (p : Pool) : Pool :=
  if p.gens.get 0 = none then { p with gens := p.gens.set 0 (some c) }
  else if p.gens.get 1 = none then { p with gens := p.gens.set 1 (some c) }
  else { p with wait := p.wait ++ [c] }

/-- A request is granted at once (R57, R60): a generator is FREE. -/
def Pool.hasFree (p : Pool) : Bool := (p.gens.get 0).isNone || (p.gens.get 1).isNone

/-- The generator a line holds, TG0 first (R54: a line holds at most one). -/
def Pool.heldBy (n : LineNo) (p : Pool) : Option (Fin 2) :=
  if (p.gens.get 0).map (·.line) = some n then some 0
  else if (p.gens.get 1).map (·.line) = some n then some 1
  else none

/-- Generator `g` released (R59): handed to the head of the wait list, or FREE where the list is empty. -/
def Pool.release (g : Fin 2) (p : Pool) : Pool :=
  match p.wait with
  | [] => { p with gens := p.gens.set g none }
  | c :: rest => { gens := p.gens.set g (some c), wait := rest }

/-- The wait list entry of a line removed (R61). -/
def Pool.withdraw (n : LineNo) (p : Pool) : Pool := { p with wait := p.wait.filter fun c => c.line != n }

/-- A line that takes a grant (R58): TONE_REQUEST becomes TONE_ON, manual WAITING becomes SOUNDING, each with its timer
for `tone_on_ms`. No other condition waits for a grant (R56, [23]). -/
def Line.takeGrant (now : Nat) (l : Line) : Line :=
  if l.st = .dialing ∧ l.cursor.sub = .toneRequest then
    { l with cursor := { l.cursor with sub := .toneOn }
             timers := { l.timers with tone := some (now + l.committed.toneOnMs) } }
  else if l.st = .connected ∧ l.manual.activity = .waiting then
    { l with manual := { l.manual with activity := .sounding }
             timers := { l.timers with minTone := some (now + l.committed.toneOnMs) } }
  else l

/-- A grant delivered to line `n` (R57, R58). -/
def State.takeGrant (n : LineNo) (s : State) : State := s.onLine n (Line.takeGrant s.now)

/-- The claim of line `n` for a generator (R57). -/
def State.requestTone (n : LineNo) (y : Symbol) (s : State) : State :=
  let granted := s.pool.hasFree
  let s := { s with pool := s.pool.request ⟨n, y⟩ }
  if granted then s.takeGrant n else s

/-- The generator of line `n`, if it holds one, released; the head of the wait list takes its grant (R59, R63). -/
def State.releaseTone (n : LineNo) (s : State) : State :=
  match s.pool.heldBy n with
  | none => s
  | some g =>
    let next := s.pool.wait.head?
    let s := { s with pool := s.pool.release g }
    match next with
    | none => s
    | some c => s.takeGrant c.line

/-- The wait list entry of line `n` withdrawn (R61). -/
def State.withdrawTone (n : LineNo) (s : State) : State := { s with pool := s.pool.withdraw n }

end Sys2Proof.Machine
end

