-- ==== Sys2Proof/Machine/Jobs.lean ====
section
/-! DEFINITION. The Job Engine (chapters 5 and 6): identifiers, submission, starting and resolution, failure and course,
finishing. What reaches a line stands in Machine/LineOps.lean. -/

namespace Sys2Proof.Machine

/-! ### Finishing (R113) -/

/-- `symbols_remaining` at a finish (R113). -/
def Job.remaining (j : Job) : Nat := (j.program.getD []).length - j.position

/-- The record of a job that finishes (R113 steps 1 and 2). -/
def Job.finish (o : JobOutcome) (c : Cause) (j : Job) : Job :=
  { j with
    state := .finished
    phase := none
    outcome := some (o, c)
    symbolsRemaining := if o = .done then none else some j.remaining }

/-- The live job of a key cleared where it still names `id` (R113 step 5, R165). -/
def Key.jobFinished (id : Nat) (k : Key) : Key := if k.live = .job id then { k with live := .none } else k

/-- The Key Scanner told of a finish (R113 step 5). -/
def State.tellScanner (j : Job) (s : State) : State :=
  match j.origin with
  | .link => s
  | .key k => { s with keys := { s.keys with all := s.keys.all.set k ((s.keys.all.get k).jobFinished j.id) } }

/-- A job finishes (R113 steps 1 to 5). The retry timer of a job that leaves RETRY_WAIT stops (R126); the next head job
starts by JOB_START ([4]). -/
def State.finishJob (j : Job) (o : JobOutcome) (c : Cause) (s : State) : State :=
  let s := s.onJob j.id fun _ => j.finish o c
  let s := s.onJobs fun e =>
    { e with
      queues := e.queues.set j.line ((e.queues.get j.line).erase j.id)
      finished := e.finished ++ [j.id]
      retry := if j.state = .retryWait then e.retry.set j.line .stopped else e.retry }
  let s := s.onLine j.line fun l => { l with lastJob := some (j.id, o, c) }
  (s.latchLine j.line .jobEnd).tellScanner j

/-! ### A failed attempt and its course (R112, R124) -/

/-- The counts of a failed attempt (R112 steps 1 and 2). -/
def Job.failed (c : Cause) (j : Job) : Job :=
  { j with attemptsThisHop := j.attemptsThisHop + 1, attemptsTotal := j.attemptsTotal + 1, lastCause := some c }

/-- The courses open after a failure (R124). -/
inductive Course where
  | retry
  | hop (e : EntryNo)
  | finish (c : Cause)
  deriving DecidableEq, Repr

/-- The course of a job whose counts are raised (R124), `c` the cause of the attempt. -/
def Job.course (c : Cause) (j : Job) : Course :=
  if j.attemptsThisHop < j.attemptsMaxThisHop.getD 0 then .retry
  else
    match j.followChain, j.fallback with
    | true, some e =>
      if e ∈ j.visited then .finish .chainLoop
      else if j.hop = 8 then .finish .chainLimit
      else .hop e
    | _, _ => .finish c

/-- The record after a decision to retry the hop (R125). -/
def Job.retryHop (j : Job) : Job := { j with state := .retryWait, phase := none, position := 0 }

/-- The record after a decision to take a new hop (R128). -/
def Job.newHop (e : EntryNo) (j : Job) : Job :=
  { j with
    state := .retryWait
    phase := none
    hop := j.hop + 1
    entryIndex := some e
    program := none
    methodInEffect := none
    fallback := none
    attemptsMaxThisHop := none
    attemptsThisHop := 0
    position := 0 }

/-- The retry timer of line `n` started for `retry_delay_s` (R125, R126). -/
def State.startRetry (n : LineNo) (s : State) : State :=
  s.setRetry n (.running (s.now + 1000 * (s.line n).committed.retryDelayS))

/-- The course carried out on job `j`, whose counts are raised (R124). -/
def State.takeCourse (j : Job) (c : Cause) (s : State) : State :=
  match j.course c with
  | .retry => (s.onJob j.id Job.retryHop).startRetry j.line
  | .hop e => (s.onJob j.id (Job.newHop e)).startRetry j.line
  | .finish c' => s.finishJob j .failed c'

/-- The attempt of the ACTIVE head job of line `n` failed (R112). -/
def State.attemptFailed (n : LineNo) (c : Cause) (s : State) : State :=
  match s.headJob n with
  | none => s
  | some j =>
    let j' := j.failed c
    let s := s.onJob j.id fun _ => j'
    let s := s.onLine n fun l => { l with lastCause := some c }
    (s.latchLine n .attemptFail).takeCourse j' c

/-- The head job of line `n` finishes by a report of its line (R3, R113). -/
def State.finishHead (n : LineNo) (o : JobOutcome) (c : Cause) (s : State) : State :=
  match s.headJob n with
  | none => s
  | some j => s.finishJob j o c

/-! ### Identifiers and submission (R99, R101 to R104) -/

/-- The identifier after `k`, 256 becoming 1 (R99). -/
def succId (k : Nat) : Nat := if 255 ≤ k then 1 else k + 1

/-- The first identifier from `k` on that is not in use (R99 steps 2 to 4). -/
def searchId (used : List Nat) : Nat → Nat → Nat
  | 0, k => k
  | f + 1, k => if used.contains k then searchId used f (succId k) else k

/-- The identifier a submission is issued (R99). -/
def JobEngine.nextId (e : JobEngine) : Nat := searchId (e.table.map (·.id)) 255 (succId e.lastId)

/-- The oldest finished job evicted (R102). -/
def State.evict (s : State) : State :=
  match s.jobs.finished with
  | [] => s
  | id :: rest =>
    let d := (s.job id).map fun j => (⟨j.id, j.line, j.outcome⟩ : Discarded)
    let s := s.onJobs fun e => { e with table := e.table.filter fun j => j.id != id, finished := rest }
    let s := { s with events := { s.events with lastDiscarded := d } }
    s.latch systemSource .resultDiscarded

/-- The record of a new job (R96, R103). -/
def Submission.record (id : Nat) (b : Submission) : Job where
  id := id
  line := b.line
  origin := b.origin
  kind := match b.target with | .inline _ => .inline | .entry _ => .entry
  supervised := b.supervised
  followChain := b.followChain
  methodOverride := b.methodOverride
  attemptsOverride := b.attemptsOverride
  state := .queued
  phase := none
  program := match b.target with | .inline p => some p | .entry _ => none
  methodInEffect := none
  fallback := none
  entryIndex := match b.target with | .inline _ => none | .entry e => some e
  hop := 1
  visited := []
  position := 0
  attemptsThisHop := 0
  attemptsMaxThisHop := none
  attemptsTotal := 0
  lastCause := none
  lastClass := none
  connectedOnce := false
  outcome := none
  symbolsRemaining := none

/-- The checks of a submission after its fields and method (R101 steps 2 to 4). -/
def State.submitFailure (b : Submission) (s : State) : Option SubmitFail :=
  if (s.line b.line).st = .disabled then some .wrongState
  else if 8 ≤ (s.queue b.line).length then some .queueFull
  else if 24 ≤ s.jobs.table.length ∧ s.jobs.finished = [] then some .tableFull
  else none

/-- The slot of a submission made free (R102). -/
def State.freeSlot (s : State) : State := if 24 ≤ s.jobs.table.length then s.evict else s

/-- A submission that passes its checks: its slot, its identifier, its record, its place in the queue (R99, R102,
R103). -/
def State.acceptJob (b : Submission) (s : State) : State :=
  let s := s.freeSlot
  let id := s.jobs.nextId
  s.onJobs fun e =>
    { e with
      table := e.table ++ [b.record id]
      queues := e.queues.set b.line (e.queues.get b.line ++ [id])
      lastId := id }

/-! ### Starting and resolution (R100, R106 to R109) -/

/-- The conditions of a start of the head job of line `n` (R100): it is QUEUED, or in RETRY_WAIT with its delay run out,
and the line is IDLE. The head job is the one job of a line that can be ACTIVE (R97). -/
def State.startable (n : LineNo) (s : State) : Bool :=
  (s.line n).st == .idle &&
  match s.headJob n with
  | none => false
  | some j => j.state == .queued || (j.state == .retryWait && s.jobs.retry.get n == .expired)

/-- The attempt limit of a hop (R123), `entryMax` the entry's `max_attempts` or 0. -/
def attemptLimit (override entryMax default : Nat) : Nat :=
  if override ≠ 0 then override else if entryMax ≠ 0 then entryMax else default

/-- The method of an ENTRY job (R108 step 4). -/
def entryMethod (override : Option Method) (m : EntryMethod) (line : Method) : Method :=
  match override, m with
  | some x, _ => x
  | none, .tone => .tone
  | none, .pulse => .pulse
  | none, .line => line

/-- What reading its program makes of a job (R106, R108): resolved, or failed with a cause. -/
inductive Resolution where
  | resolved (j : Job)
  | failed (j : Job) (c : Cause)
  deriving DecidableEq, Repr

/-- An INLINE job resolved under the profile of its line (R106). -/
def Job.resolveInline (p : Profile) (j : Job) : Resolution :=
  let m := j.methodOverride.getD p.method
  let j := { j with methodInEffect := some m }
  if m.allowsAll (j.program.getD []) then
    .resolved { j with attemptsMaxThisHop := some (attemptLimit j.attemptsOverride 0 p.attemptsDefault) }
  else .failed j .invalidForMethod

/-- An ENTRY job resolved from the entry read (R108); `method_in_effect` is written at step 4, before the check of step
5 ([27]). -/
def Job.resolveEntry (p : Profile) (dead : Bool) (i : EntryNo) (e : Entry) (j : Job) : Resolution :=
  if dead then .failed j .entryDead
  else
    match e with
    | .blank => .failed j .entryBlank
    | .valid f =>
      let m := entryMethod j.methodOverride f.method p.method
      let j := { j with program := some f.digits, fallback := f.fallback, methodInEffect := some m }
      if m.allowsAll f.digits then
        .resolved { j with
          attemptsMaxThisHop := some (attemptLimit j.attemptsOverride f.maxAttempts p.attemptsDefault)
          visited := j.visited ++ [i] }
      else .failed j .invalidForMethod

/-- A resolution carried out on its job: offered to the line (R110), or finished FAILED (R109). -/
def State.takeResolution (r : Resolution) (s : State) : State :=
  match r with
  | .resolved j => s.onJob j.id fun _ => j
  | .failed j c => (s.onJob j.id fun _ => j).finishJob j .failed c

/-- The read of an ENTRY job from the store as it stands (R108). -/
def State.readEntryFor (j : Job) (i : EntryNo) (s : State) : State :=
  s.takeResolution
    (j.resolveEntry (s.line j.line).committed (s.store.dead (blockOf i)) i (s.store.entry i))

/-- A job ACTIVE in RESOLVE and not resolved: an INLINE job is resolved at once, an ENTRY job waits while an operation
covers its block and is read otherwise (R106, R107). -/
def State.resolve (j : Job) (s : State) : State :=
  match j.entryIndex with
  | none => s.takeResolution (j.resolveInline (s.line j.line).committed)
  | some i => if s.store.covers (blockOf i) then s else s.readEntryFor j i

/-- The head job of line `n` started (R100). -/
def State.startHead (n : LineNo) (s : State) : State :=
  match s.headJob n with
  | none => s
  | some j =>
    let j := { j with state := .active, phase := some .resolve }
    let s := (s.onJob j.id fun _ => j).setRetry n .stopped
    if j.methodInEffect.isSome then s else s.resolve j

/-- The job of line `n` that waits on the store read (R107, R145 step 4). -/
def State.resolveWaiting (n : LineNo) (s : State) : State :=
  match s.headJob n with
  | none => s
  | some j => if j.waitsOnStore then s.resolve j else s

/-! ### Resets (R120, R121, R134) -/

/-- The Job Engine after an engine reset: all empty, the counter kept. -/
def JobEngine.engineReset (e : JobEngine) : JobEngine := { JobEngine.reset with lastId := e.lastId }

end Sys2Proof.Machine
end

