-- ==== Sys2Proof/Machine/LineOps.lean ====
section
/-! DEFINITION. What the Line Controllers do (chapters 1 and 2): sessions, supervision, the entry to RELEASING, the course
of an attempt, the sub-phases of DIALING, manual digits, releases and cancellations. -/

namespace Sys2Proof.Machine

/-! ### Listening sessions (R76, R77) -/

/-- A fresh session of the classifier at the moment `now` (R77). -/
def Classifier.startSession (now : Nat) (c : Classifier) : Classifier :=
  { c with
    listening := true
    history := []
    openOn := none
    matchers := Bank.fill 8 ⟨0, 0, false⟩
    unmatched := 0
    current := none
    ringbackSeen := false
    gapWatch := none
    interval := some ⟨c.filtered, now, true⟩ }

/-- The session stopped (R76); everything else stays as the session left it (R75). -/
def Classifier.stopSession (c : Classifier) : Classifier := { c with listening := false }

/-- A line whose classifier starts a fresh session. -/
def Line.startSession (now : Nat) (l : Line) : Line := { l with pc := l.pc.startSession now }
/-- A line whose classifier stops. -/
def Line.stopSession (l : Line) : Line := { l with pc := l.pc.stopSession }

/-! ### Supervision (R22, R23) -/

/-- Supervision begins where it was OFF; with LOOP absent the disconnect timer starts (R22). -/
def Line.supervise (now : Nat) (l : Line) : Line :=
  if l.supervision = .off then
    { l with
      supervision := .active
      timers := { l.timers with
        disconnect := if l.loop.taken then none else some (now + l.committed.disconnectMs) } }
  else l

/-- The start of a break (R23). -/
def Line.suspend (l : Line) : Line :=
  { l with supervision := .suspended, timers := { l.timers with disconnect := none, make := none } }

/-- The make that ends a break (R23): the make timer starts, and LOOP present already counts as taken at once. -/
def Line.makeEnds (now : Nat) (l : Line) : Line :=
  if l.loop.taken then { l with supervision := .active, timers := { l.timers with make := none } }
  else { l with timers := { l.timers with make := some (now + l.committed.disconnectMs) } }

/-- A change of LOOP taken by supervision (R22, R23): the level is `l.loop.taken`. -/
def Line.superviseLoop (now : Nat) (l : Line) : Line :=
  match l.supervision, l.loop.taken with
  | .active, true => { l with timers := { l.timers with disconnect := none } }
  | .active, false => { l with timers := { l.timers with disconnect := some (now + l.committed.disconnectMs) } }
  | .suspended, true =>
    if l.timers.make.isSome then
      { l with supervision := .active, timers := { l.timers with make := none } }
    else l
  | .suspended, false => l
  | .off, _ => l

/-! ### Leaving an attempt (R18) -/

/-- The line on entry to RELEASING (R18, R31, R45). -/
def Line.releasing (now : Nat) (l : Line) : Line :=
  { l.stopSession with
    st := .releasing
    cursor := { l.cursor with sendProgram := [], sub := .none, pulses := 0 }
    postAnswer := false
    supervision := .off
    manual := Manual.idle
    attempt := none
    timers := { LineTimers.stopped with guard := some (now + l.committed.guardMs) } }

/-- The entry to RELEASING: the line, its place in the wait list and its generator (R18, R61, R63). -/
def State.enterReleasing (n : LineNo) (s : State) : State :=
  ((s.onLine n (Line.releasing s.now)).withdrawTone n).releaseTone n

/-- An attempt failure (R3): RELEASING, then the engine's decision (R112). -/
def State.failAttempt (n : LineNo) (c : Cause) (s : State) : State := (s.enterReleasing n).attemptFailed n c

/-- An ending that finishes the head job (R3): RELEASING, then the finish (R113). -/
def State.endCall (n : LineNo) (o : JobOutcome) (c : Cause) (s : State) : State :=
  (s.enterReleasing n).finishHead n o c

/-- Loop lost declared (R22). -/
def State.loopLost (n : LineNo) (s : State) : State :=
  let l := s.line n
  match l.st with
  | .awaitDialtone | .awaitProgress => s.failAttempt n .loopLost
  | .dialing => if l.postAnswer then s.endCall n .done .farEnd else s.failAttempt n .loopLost
  | .connected | .held => s.endCall n .done .farEnd
  | .disabled | .idle | .seizing | .releasing => s

/-- A release (R20): none where the line state refuses it. -/
def State.release (n : LineNo) (s : State) : Option State :=
  let l := s.line n
  match l.st with
  | .connected | .held => some (s.endCall n .done .released)
  | .dialing => some (s.endCall n (if l.postAnswer then .done else .cancelled) .released)
  | .seizing | .awaitDialtone | .awaitProgress => some (s.endCall n .cancelled .released)
  | .disabled | .idle | .releasing => none

/-- A live job cancelled (R114, R21): the line of a job past RESOLVE abandons the attempt. -/
def State.cancelJob (j : Job) (s : State) : State :=
  if j.state = .active ∧ j.phase ≠ some .resolve then s.endCall j.line .cancelled .cancelled
  else s.finishJob j .cancelled .cancelled

/-! ### States after dialing (R14, R15) -/

/-- Entry to CONNECTED (R15): a fresh session, supervision kept. -/
def Line.enterConnected (now : Nat) (l : Line) : Line :=
  { l.startSession now with
    st := .connected
    cursor := { l.cursor with sub := .none, sendProgram := [], pulses := 0 }
    postAnswer := false
    timers := { l.timers with noAnswer := none } }

/-- Entry to CONNECTED, reported to the engine (R3). -/
def State.enterConnected (n : LineNo) (s : State) : State :=
  (s.onLine n (Line.enterConnected s.now)).reportPhase n .connected

/-- Entry to CONNECTED from AWAIT_PROGRESS or at the end of a dial-only program: `connected_once` is set (R3, R111). -/
def State.connect (n : LineNo) (s : State) : State :=
  (s.enterConnected n).onActive n fun j => { j with connectedOnce := true }

/-- Entry to AWAIT_PROGRESS (R14). -/
def Line.enterAwaitProgress (now : Nat) (l : Line) : Line :=
  { l.startSession now with
    st := .awaitProgress
    cursor := { l.cursor with sub := .none, pulses := 0 }
    timers := { l.timers with noAnswer := some (now + 1000 * l.committed.noAnswerS) } }

/-- Entry to AWAIT_PROGRESS, reported to the engine (R3). -/
def State.enterAwaitProgress (n : LineNo) (s : State) : State :=
  (s.onLine n (Line.enterAwaitProgress s.now)).reportPhase n .progress

/-- The end of the program (R12): back to CONNECTED after post-answer digits, AWAIT_PROGRESS for a supervised job,
CONNECTED for a dial-only one. -/
def State.endProgram (n : LineNo) (s : State) : State :=
  let l := s.line n
  if l.postAnswer then s.enterConnected n
  else if (l.attempt.map (·.supervised)).getD false then s.enterAwaitProgress n
  else s.connect n

/-! ### Sub-phases (R31 to R45) -/

/-- The program the cursor sends (R31). -/
def Line.program (l : Line) : List Symbol :=
  match l.cursor.source with
  | .job => (l.attempt.map (·.program)).getD []
  | .send => l.cursor.sendProgram

/-- The method in effect (R32); a line off hook has an attempt ([23]). -/
def Line.method (l : Line) : Method := (l.attempt.map (·.method)).getD .tone

/-- The length of a break (R36). -/
def Profile.breakMs (p : Profile) : Nat :=
  match p.pulseRate, p.breakPct with
  | 20, 66 => 33
  | 20, _ => 30
  | _, 66 => 66
  | _, _ => 60

/-- The pulse period (R36). -/
def Profile.periodMs (p : Profile) : Nat := if p.pulseRate = 20 then 50 else 100

/-- The length of a make (R36). -/
def Profile.makeMs (p : Profile) : Nat := p.periodMs - p.breakMs

/-- The line in a sub-phase of DIALING. -/
def Line.inSub (p : SubPhase) (l : Line) : Line := { l with cursor := { l.cursor with sub := p } }

/-- PULSE_BREAK (R37). -/
def Line.pulseBreak (now : Nat) (l : Line) : Line :=
  (l.suspend.inSub .pulseBreak).withTimers fun t => { t with breakT := some (now + l.committed.breakMs) }

/-- A pulse digit begins (R32, R36). -/
def Line.pulseDigit (now : Nat) (v : Fin 10) (l : Line) : Line :=
  { l.pulseBreak now with cursor := { (l.pulseBreak now).cursor with pulses := pulseCount v - 1 } }

/-- PULSE_MAKE (R37). -/
def Line.pulseMake (now : Nat) (l : Line) : Line :=
  ((l.makeEnds now).inSub .pulseMake).withTimers fun t => { t with makePeriod := some (now + l.committed.makeMs) }

/-- INTERDIGIT (R38). -/
def Line.interdigit (now : Nat) (l : Line) : Line :=
  (l.inSub .interdigit).withTimers fun t => { t with interdigit := some (now + l.committed.interdigitMs) }

/-- TONE_GAP (R40). -/
def Line.toneGap (now : Nat) (l : Line) : Line :=
  (l.inSub .toneGap).withTimers fun t => { t with toneGap := some (now + l.committed.toneGapMs) }

/-- PAUSE (R42). -/
def Line.pause (now : Nat) (l : Line) : Line :=
  (l.inSub .pause).withTimers fun t => { t with pause := some (now + l.committed.pauseMs) }

/-- FLASH_BREAK (R43). -/
def Line.flashBreak (now : Nat) (l : Line) : Line :=
  (l.suspend.inSub .flashBreak).withTimers fun t => { t with flash := some (now + l.committed.flashMs) }

/-- WAIT_TONE (R44). -/
def Line.waitTone (now : Nat) (l : Line) : Line :=
  ((l.startSession now).inSub .waitTone).withTimers fun t =>
    { t with dialTone := some (now + l.committed.dialtoneTimeoutMs) }

/-- A symbol dispatched (R32). Under PULSE the symbols with no pulse signal are not reached (R35); they are sent as
tones here ([23]). -/
def State.dispatch (n : LineNo) (y : Symbol) (s : State) : State :=
  match y, (s.line n).method with
  | .pause, _ => s.onLine n (Line.pause s.now)
  | .flash, _ => s.onLine n (Line.flashBreak s.now)
  | .waitTone, _ => s.onLine n (Line.waitTone s.now)
  | .digit v, .pulse => s.onLine n (Line.pulseDigit s.now v)
  | _, _ => (s.onLine n (Line.inSub .toneRequest)).requestTone n y

/-- The symbol the index names begins; with none left the program has ended (R32, R33). -/
def State.beginSymbol (n : LineNo) (s : State) : State :=
  let l := s.line n
  match l.program[l.cursor.index]? with
  | none => s.endProgram n
  | some y => s.dispatch n y

/-- The symbol ends (R33): the index advances. -/
def State.endSymbol (n : LineNo) (s : State) : State :=
  (s.onLine n fun l => { l with cursor := { l.cursor with index := l.cursor.index + 1 } }).beginSymbol n

/-- The symbol is counted as sent (R34). -/
def State.countSymbol (n : LineNo) (s : State) : State :=
  match (s.line n).cursor.source with
  | .job => s.onActive n fun j => { j with position := j.position + 1 }
  | .send => s

/-! ### The course of an attempt (R9 to R13) -/

/-- The job's position, from which the cursor starts (R31). -/
def State.position (n : LineNo) (s : State) : Nat := ((s.headJob n).map (·.position)).getD 0

/-- The line on entry to DIALING with the job's program at index `i` (R12, R31). -/
def Line.enterDialing (now i : Nat) (l : Line) : Line :=
  ({ l.stopSession with st := .dialing, cursor := ⟨.job, [], i, .none, 0⟩ } : Line).supervise now

/-- Entry to DIALING at the job's position (R10, R11); a program of one `W` already counted has ended (R11). -/
def State.enterDialing (n : LineNo) (s : State) : State :=
  let i := s.position n
  if i < ((s.line n).attempt.map (·.program.length)).getD 0 then
    ((s.onLine n (Line.enterDialing s.now i)).reportPhase n .dial).beginSymbol n
  else s.endProgram n

/-- The line on entry to AWAIT_DIALTONE (R11). -/
def Line.enterAwaitDialtone (now : Nat) (l : Line) : Line :=
  (({ l with
      st := .awaitDialtone
      timers := { l.timers with dialTone := some (now + l.committed.dialtoneTimeoutMs) } } : Line).startSession
    now).supervise now

/-- Entry to AWAIT_DIALTONE, reported to the engine (R3). -/
def State.enterAwaitDialtone (n : LineNo) (s : State) : State :=
  (s.onLine n (Line.enterAwaitDialtone s.now)).reportPhase n .dialtone

/-- The first symbol of the attempt's program is `W`. -/
def Line.startsWithWait (l : Line) : Bool := (l.attempt.bind (·.program.head?)) == some .waitTone

/-- Loop current seen while SEIZING waits for it (R10). -/
def State.loopSeized (n : LineNo) (s : State) : State :=
  let s := s.onLine n (Line.withTimers fun t => { t with seize := none })
  let l := s.line n
  if l.committed.dialtoneWait || l.startsWithWait then s.enterAwaitDialtone n
  else if l.committed.postSeizeMs = 0 then s.enterDialing n
  else s.onLine n (Line.withTimers fun t => { t with postSeize := some (s.now + l.committed.postSeizeMs) })

/-- The `W` that AWAIT_DIALTONE serves is counted, and dialing goes on (R11). -/
def State.dialtoneServed (n : LineNo) (s : State) : State :=
  let s := s.onLine n (Line.withTimers fun t => { t with dialTone := none })
  let s := if (s.line n).startsWithWait then s.onActive n fun j => { j with position := j.position + 1 } else s
  s.enterDialing n

/-- WAIT_TONE ends by DIAL confirmed or by expiry with `blind_dial` on: the session stops, the symbol is counted and
ends (R44). -/
def State.waitToneServed (n : LineNo) (s : State) : State :=
  let s := s.onLine n fun l => l.stopSession.withTimers fun t => { t with dialTone := none }
  (s.countSymbol n).endSymbol n

/-- The line on entry to SEIZING (R9). -/
def Line.seize (now : Nat) (a : Attempt) (l : Line) : Line :=
  { l with
    st := .seizing
    attempt := some a
    supervision := .off
    ring := { l.ring with count := 0, glareDue := none }
    timers := { l.timers with seize := some (now + l.committed.seizeTimeoutMs) } }

/-- The line takes the start of an attempt (R9): the glare check (R25), then SEIZING; LOOP already present counts at
once (R10). -/
def State.takeStart (n : LineNo) (j : Job) (s : State) : State :=
  let a : Attempt := ⟨j.program.getD [], j.methodInEffect.getD .tone, j.supervised⟩
  let s := if (s.line n).ring.glareDue.isSome then s.latchLine n .glare else s
  let s := (s.onLine n (Line.seize s.now a)).reportPhase n .seize
  if (s.line n).loop.taken then s.loopSeized n else s

/-- The offer to line `n` (R9, R110): the line IDLE and its head job ACTIVE in RESOLVE and resolved. -/
def State.offer (n : LineNo) (s : State) : Option Job :=
  if (s.line n).st = .idle then (s.headJob n).filter Job.offered else none

/-! ### Manual digits and SEND DIGITS (R17, R46 to R53) -/

/-- The checks of SEND DIGITS from the line state on (R17 steps 3 to 5), with the field index of the refusal. -/
def Line.sendRefusal (p : List Symbol) (l : Line) : Option (RefusalCause × Nat) :=
  if l.st ≠ .connected then some (.wrongState, 0)
  else if l.manual.activity ≠ .none then some (.busy, 0)
  else if !l.method.allowsAll p then some (.badValue, 2)
  else none

/-- The line on entry to post-answer DIALING (R17, R46). -/
def Line.startSend (p : List Symbol) (l : Line) : Line :=
  { l.stopSession with st := .dialing, postAnswer := true, cursor := ⟨.send, p, 0, .none, 0⟩ }

/-- Post-answer DIALING begins with the first symbol (R17). -/
def State.startSend (n : LineNo) (p : List Symbol) (s : State) : State :=
  ((s.onLine n (Line.startSend p)).reportPhase n .dial).beginSymbol n

/-- A manual tone begins (R49). -/
def State.startManual (n : LineNo) (k : KeyNo) (y : Symbol) (s : State) : State :=
  (s.onLine n fun l => { l with manual := ⟨.waiting, some k, some y, false, false⟩ }).requestTone n y

/-- The line with no manual digit. -/
def Line.dropManual (l : Line) : Line :=
  { l with manual := Manual.idle, timers := { l.timers with minTone := none } }

/-- A manual digit ended or withdrawn (R50, R51, R16): the activity becomes NONE, the request is withdrawn, the
generator released. -/
def State.endManual (n : LineNo) (s : State) : State :=
  ((s.onLine n Line.dropManual).withdrawTone n).releaseTone n

/-- A DIGIT press handed to line `n` (R48, R53). -/
def State.digitPress (n : LineNo) (k : KeyNo) (y : Symbol) (s : State) : State :=
  let l := s.line n
  if l.st = .connected ∧ l.manual.activity = .none then
    if l.method = .tone ∧ y.isDigit then s.startManual n k y
    else if l.sendRefusal [y] = none then s.startSend n [y]
    else s
  else s

/-- The UP of key `k` delivered to line `n` (R47, R50, R51). -/
def State.manualUp (k : KeyNo) (n : LineNo) (s : State) : State :=
  let m := (s.line n).manual
  if m.key = some k then
    match m.activity with
    | .none => s
    | .waiting => s.endManual n
    | .sounding =>
      if m.minElapsed then s.endManual n
      else s.onLine n fun l => { l with manual := { l.manual with keyReleased := true } }
  else s

/-! ### Answers and classes (R13, R87) -/

/-- An answer decision (R87): recorded as last answer, then CONNECTED. -/
def State.answer (n : LineNo) (b : Basis) (s : State) : State :=
  (s.onLine n fun l => { l with pc := { l.pc with lastAnswer := some b } }).connect n

/-- What a line does with a confirmed class (R13). BUSY or REORDER in WAIT_TONE is reported only, post-answer or not (R13,
R44), although the table of R113 lists post-answer DIALING beside CONNECTED and HELD: DESIGN CHOICE [42]. -/
def State.classAction (n : LineNo) (c : ToneClass) (s : State) : State :=
  let l := s.line n
  match l.st, c with
  | .awaitDialtone, .dial => s.dialtoneServed n
  | .dialing, .dial => if l.cursor.sub = .waitTone then s.waitToneServed n else s
  | .awaitProgress, .dial => s.failAttempt n .redialTone
  | .awaitProgress, .busy => s.failAttempt n .busy
  | .awaitProgress, .reorder => s.failAttempt n .reorder
  | .connected, .busy | .connected, .reorder | .held, .busy | .held, .reorder => s.endCall n .done .farEnd
  | _, _ => s

/-- The classifier of a line on a delivered class (R85, R89): ringback-seen is set by a RINGBACK in AWAIT_PROGRESS. -/
def Line.noteClass (c : ToneClass) (k : SlotNo) (l : Line) : Line :=
  let pc := { l.pc with current := some (c, k) }
  { l with
    lastClass := some (c, k)
    pc := if c = .ringback ∧ l.st = .awaitProgress then { pc with ringbackSeen := true, unmatched := 0 } else pc }

/-- A confirmation (R85): of a new class it is delivered, of the current class it changes nothing. -/
def State.confirm (n : LineNo) (c : ToneClass) (k : SlotNo) (s : State) : State :=
  if ((s.line n).pc.current.map (·.1)) = some c then s
  else
    let s := (s.onLine n (Line.noteClass c k)).latchLine n .progress
    (s.onActive n fun j => { j with lastClass := some c }).classAction n c

end Sys2Proof.Machine
end

