-- ==== Sys2Proof/Machine/Classifier.lean ====
section
/-! DEFINITION. The Progress Classifier (chapter 4): intervals, pairs and matching, steady confirmations, the gap watch,
and changes of the cadence table. -/

namespace Sys2Proof.Machine

/-! ### Matching (R81, R82) -/

/-- A pair fits a segment (R81). -/
def Segment.fits (on off : Nat) (g : Segment) : Bool := inRange g.onMin g.onMax on && inRange g.offMin g.offMax off

/-- What a pair makes of one matcher (R81, R82). -/
structure Matched where
  m : Matcher
  advanced : Bool
  confirmed : Bool
  deriving DecidableEq, Repr

/-- A matcher that advanced (R82): at its confirming count it confirms, and count and position return to 0. -/
def Matcher.advance (m : Matcher) (pos count total : Nat) : Matched :=
  if count = total then ⟨{ m with pos := 0, count := 0 }, true, true⟩
  else ⟨{ m with pos := pos, count := count }, true, false⟩

/-- A pair offered to a CADENCED template (R81). -/
def Matcher.offerPair (segs : List Segment) (cycles on off : Nat) (m : Matcher) : Matched :=
  let total := segs.length * cycles
  if (segs[m.pos]?.map (Segment.fits on off)).getD false then
    m.advance ((m.pos + 1) % segs.length) (m.count + 1) total
  else if (segs[0]?.map (Segment.fits on off)).getD false then
    m.advance (if segs.length = 1 then 0 else 1) 1 total
  else ⟨{ m with pos := 0, count := 0 }, false, false⟩

/-- A pair offered to one slot: empty slots and STEADY templates take no part (R81). -/
def offerSlot (t : Option Template) (on off : Nat) (m : Matcher) : Matched :=
  match t with
  | some ⟨_, .cadenced segs cycles⟩ => m.offerPair segs cycles on off
  | _ => ⟨m, false, false⟩

/-- A pair offered to every slot (R81). -/
def Classifier.offerAll (table : Bank 8 (Option Template)) (on off : Nat) (c : Classifier) : Bank 8 Matched :=
  Bank.tabulate fun k => offerSlot (table.get k) on off (c.matchers.get k)

/-- The lowest-numbered slot of those that satisfy `p` (R84). -/
def lowestSlot (p : SlotNo → Bool) : Option SlotNo := (List.finRange 8).find? p

/-! ### Intervals (R79, R80) -/

/-- The length of an interval in 10 ms units (R79): 1001 for one longer than 10 000 ms. -/
def intervalUnits (ms : Nat) : Nat := if 10000 < ms then 1001 else ms / 10

/-- A completed interval in the history (R79): the last eight. -/
def pushHistory (i : HistoryItem) (h : List HistoryItem) : List HistoryItem :=
  let h := h ++ [i]
  h.drop (h.length - 8)

/-- The matchers with every steady mark clear. -/
def clearSteady (b : Bank 8 Matcher) : Bank 8 Matcher := b.map fun m => { m with steady := false }

/-- The interval `i` ended at moment `e` and one of the other kind begun there (R79, R80, R83, R89). `watch` holds the
length of the gap watch where it would start now. -/
def Classifier.endInterval (i : Interval) (e : Nat) (watch : Option Nat) (c : Classifier) : Classifier :=
  let u := intervalUnits (e - i.began)
  let history := if i.atStart then c.history else pushHistory ⟨i.on, u⟩ c.history
  let next : Option Interval := some ⟨!i.on, e, false⟩
  if i.on then
    { c with
      history := history
      interval := next
      openOn := if i.atStart then none else some u
      matchers := clearSteady c.matchers
      gapWatch := watch.map fun g => e + g }
  else { c with history := history, interval := next, openOn := none, gapWatch := none }

/-- The pair an ended interval completes (R80): the open on interval and the OFF interval just ended. -/
def Classifier.pair (i : Interval) (e : Nat) (c : Classifier) : Option (Nat × Nat) :=
  if i.on then none else c.openOn.map fun on => (on, intervalUnits (e - i.began))

/-- The gap watch a line keeps on an OFF interval whose edge is taken now (R89). Ringback-seen is read as it stands when the
edge is taken, 10 ms after it (R78): the model's reading of "begins after ringback-seen was set" ([39]). -/
def Line.watchLength (l : Line) : Option Nat :=
  if l.pc.ringbackSeen ∧ l.st = .awaitProgress ∧ l.committed.answerRingbackCease then some l.committed.answerGapMs
  else none

/-- The matchers and the unmatched count after a pair (R81, R86). -/
def Classifier.matched (r : Bank 8 Matched) (c : Classifier) : Classifier :=
  { c with
    matchers := r.map (·.m)
    unmatched := if r.items.any (·.advanced) then 0 else min 255 (c.unmatched + 1) }

/-- An unmatched pair makes the answer decision UNCLASSIFIED (R90). -/
def Line.unclassifiedAnswer (r : Bank 8 Matched) (l : Line) : Bool :=
  !r.items.any (·.advanced) && l.pc.unmatched == 3 && l.pc.ringbackSeen && l.st == .awaitProgress &&
    l.committed.answerUnclassified

/-- The class of the template in a slot. -/
def State.slotClass (s : State) (k : SlotNo) : Option ToneClass := (s.cadence.get k).map (·.cls)

/-- The template in slot `k` confirms on line `n` (R84, R85). -/
def State.confirmSlot (n : LineNo) (k : SlotNo) (s : State) : State :=
  match s.slotClass k with
  | none => s
  | some c => s.confirm n c k

/-- A complete pair on line `n` (R81 to R86, R90). -/
def State.takePair (n : LineNo) (on off : Nat) (s : State) : State :=
  let r := (s.line n).pc.offerAll s.cadence on off
  let s := s.onLine n fun l => { l with pc := l.pc.matched r }
  match lowestSlot fun k => (r.get k).confirmed with
  | some k => s.confirmSlot n k
  | none => if (s.line n).unclassifiedAnswer r then s.answer n .unclassified else s

/-- A change of the filtered level at moment `e` within a session (R79). A change that stands at or before the moment
the session began makes the kind of its first interval what the filtered level was then ([12]). -/
def State.sessionChange (n : LineNo) (i : Interval) (e : Nat) (s : State) : State :=
  if e ≤ i.began then
    s.onLine n fun l => { l with pc := { l.pc with interval := some { i with on := !i.on } } }
  else
    let pair := (s.line n).pc.pair i e
    let s := s.onLine n fun l => { l with pc := l.pc.endInterval i e l.watchLength }
    match pair with
    | none => s
    | some (on, off) => s.takePair n on off

/-- A change of the filtered level of line `n`, known 10 ms after its moment `e` (R78, R79); the raw edges after it go on
through the filter. -/
def State.filteredChange (n : LineNo) (e : Nat) (s : State) : State :=
  let s := s.advanceTo (e + Config.cptFilterMs)
  let s := s.onLine n fun l => { l with pc := { l.pc with filtered := !l.pc.filtered, edges := l.pc.edges.tail } }
  let c := (s.line n).pc
  match c.listening, c.interval with
  | true, some i => s.sessionChange n i e
  | _, _ => s

/-! ### STEADY templates (R83, R84) -/

/-- The `min_on` of the STEADY template in a slot that has not confirmed in this interval. -/
def steadyLength (t : Option Template) (m : Matcher) : Option Nat :=
  match t with
  | some ⟨_, .steady minOn⟩ => if m.steady then none else some minOn
  | _ => none

/-- The on interval in progress has lasted longer than `units`, the level still on after that length: no raw edge stands
at or before the moment it was reached (R83). -/
def Classifier.outlasts (began units : Nat) (c : Classifier) : Bool :=
  match c.edges.head? with
  | none => true
  | some e => began + 10 * units < e

/-- The moment an ON interval of a session began. -/
def Classifier.onSince (c : Classifier) : Option Nat :=
  if c.listening && c.filtered then (c.interval.filter (·.on)).map (·.began) else none

/-- The unmarked lengths of the table, slot by slot. -/
def Classifier.steadyLengths (table : Bank 8 (Option Template)) (c : Classifier) : List Nat :=
  (List.finRange 8).filterMap fun k => steadyLength (table.get k) (c.matchers.get k)

/-- The shortest of some lengths. -/
def shortest : List Nat → Option Nat
  | [] => none
  | x :: xs => some (xs.foldl min x)

/-- The next STEADY confirmation of a classifier: where the on interval began and the `min_on` it reaches next. -/
def Classifier.nextSteady (table : Bank 8 (Option Template)) (c : Classifier) : Option (Nat × Nat) :=
  match c.onSince, shortest (c.steadyLengths table) with
  | some b, some u => if c.outlasts b u then some (b, u) else none
  | _, _ => none

/-- The steady marks set on the unmarked STEADY templates whose `min_on` satisfies `p`. -/
def Classifier.markSteady (table : Bank 8 (Option Template)) (p : Nat → Bool) (c : Classifier) : Classifier :=
  { c with
    matchers := Bank.tabulate fun k =>
      let m := c.matchers.get k
      if ((steadyLength (table.get k) m).map p).getD false then { m with steady := true } else m }

/-- The STEADY templates of line `n` whose `min_on` satisfies `p` confirm at one moment (R83, R84). -/
def State.confirmSteady (n : LineNo) (p : Nat → Bool) (s : State) : State :=
  let c := (s.line n).pc
  let slot := lowestSlot fun k => ((steadyLength (s.cadence.get k) (c.matchers.get k)).map p).getD false
  let s := s.onLine n fun l => { l with pc := l.pc.markSteady s.cadence p }
  match slot with
  | none => s
  | some k => s.confirmSlot n k

/-! ### Changes of the table (R92) -/

/-- A listening classifier on a table change (R92). -/
def Classifier.tableChanged (c : Classifier) : Classifier :=
  { c with matchers := Bank.fill 8 ⟨0, 0, false⟩, unmatched := 0 }

/-- The STEADY templates retested against the interval in progress of a listening line (R92): its filtered level is known
up to 10 ms ago ([11]). -/
def State.retestSteady (n : LineNo) (s : State) : State :=
  let c := (s.line n).pc
  match c.onSince with
  | none => s
  | some b => s.confirmSteady n fun u => c.outlasts b u && b + 10 * u + Config.cptFilterMs < s.now

/-- A table change at line `n` (R92); a classifier that is not listening is untouched. -/
def State.tableChangeAt (n : LineNo) (s : State) : State :=
  if (s.line n).pc.listening then
    (s.onLine n fun l => { l with pc := l.pc.tableChanged }).retestSteady n
  else s

/-- Slot `k` written (R72, R74, R92). -/
def State.writeSlot (k : SlotNo) (t : Option Template) (s : State) : State :=
  { s with cadence := s.cadence.set k t }.eachLine State.tableChangeAt

/-! ### The gap watch (R89) -/

/-- The gap watch of line `n` can decide: the line listens in AWAIT_PROGRESS, and no raw edge stands at or before the
moment `m` (R89). -/
def Line.gapDecides (m : Nat) (l : Line) : Bool :=
  l.pc.listening && l.st == .awaitProgress &&
    match l.pc.edges.head? with
    | none => true
    | some e => m < e

end Sys2Proof.Machine
end

