-- ==== Sys2Proof/Machine/ExInputs.lean ====
section
/-! DEFINITION. The meanings of the changes of LOOP, REV and RING (R1, R24, R25). -/

namespace Sys2Proof.Machine

/-- A pin of line `n` changed by `f`: while the part is held only the pin stands ([9]). -/
def State.setPin (n : LineNo) (f : Line → Line) (s : State) : State :=
  if s.held then { s with lines := s.lines.set n (f (s.line n)) } else s.onLine n f

/-- LINE_INPUT_CHANGE (R1): a raw change of LOOP or REV, which starts or ends its debounce. -/
def execLineInputChange (n : LineNo) (input : LineInput) (level : Bool) (s : State) :
    Host.Outcome State Fault Refusal :=
  .next (s.setPin n fun l =>
    match input with
    | .loop => { l with loop := { l.loop with pin := level } }
    | .rev => { l with rev := { l.rev with pin := level } })

/-- The debounced level changes (R1). -/
def Debounced.toggle (d : Debounced) : Debounced := { d with taken := !d.taken, since := none }

/-- A flag of LINE n latched for an input, in any state but DISABLED (R1). -/
def State.latchInput (n : LineNo) (f : Flag) (s : State) : State :=
  if (s.line n).st = .disabled then s else s.latchLine n f

/-- A change of LOOP taken (R1): it drives the seizure (R10) and loop supervision (R22, R23). -/
def State.takeLoop (n : LineNo) (s : State) : State :=
  let s := (s.onLine n fun l => { l with loop := l.loop.toggle }).latchInput n .loopChg
  let l := s.line n
  if l.st = .seizing ∧ l.timers.seize.isSome ∧ l.loop.taken then s.loopSeized n
  else s.onLine n (Line.superviseLoop s.now)

/-- LOOP_CHANGE (R1): the new level has held for 10 ms. -/
def execLoopChange (n : LineNo) (s : State) : Host.Outcome State Fault Refusal :=
  .next (s.onDue ((s.line n).loop.since.map (· + Config.lineDebounceMs)) (State.takeLoop n))

/-- A change of REV taken (R1): in AWAIT_PROGRESS with `answer_reversal` on it is an answer decision (R88). -/
def State.takeRev (n : LineNo) (s : State) : State :=
  let s := (s.onLine n fun l => { l with rev := l.rev.toggle }).latchInput n .revChg
  let l := s.line n
  if l.st = .awaitProgress ∧ l.committed.answerReversal then s.answer n .reversal else s

/-- REV_CHANGE (R1, R88): the new level has held for 10 ms. -/
def execRevChange (n : LineNo) (s : State) : Host.Outcome State Fault Refusal :=
  .next (s.onDue ((s.line n).rev.since.map (· + Config.lineDebounceMs)) (State.takeRev n))

/-- RING_PIN_CHANGE (R24): the detector's measurements start or restart. -/
def execRingPinChange (n : LineNo) (level : Bool) (s : State) : Host.Outcome State Fault Refusal :=
  .next (s.setPin n fun l => { l with ring := { l.ring with pin := level } })

/-- A burst starts (R24): ring count, glare window. -/
def RingDetector.startBurst (now : Nat) (r : RingDetector) : RingDetector :=
  { r with burst := true, startDue := none, count := min 255 (r.count + 1), glareDue := some (now + Config.glareMs) }

/-- A burst starts on line `n`, and RING latches (R24). -/
def State.ringBurst (n : LineNo) (s : State) : State :=
  (s.onLine n fun l => { l with ring := l.ring.startBurst s.now }).latchLine n .ring

/-- RING_BURST_START (R24): RING active for 20 ms. -/
def execRingBurstStart (n : LineNo) (s : State) : Host.Outcome State Fault Refusal :=
  .next (s.onDue (s.line n).ring.startDue (State.ringBurst n))

/-- RING_BURST_END (R24): RING inactive for 200 ms. -/
def execRingBurstEnd (n : LineNo) (s : State) : Host.Outcome State Fault Refusal :=
  .next (s.onDue (s.line n).ring.gapDue fun s =>
    s.onLine n fun l => { l with ring := { l.ring with burst := false, gapDue := none } })

/-- GLARE_WINDOW_EXPIRY (R25): the window stops without effect. -/
def execGlareWindowExpiry (n : LineNo) (s : State) : Host.Outcome State Fault Refusal :=
  .next (s.onDue (s.line n).ring.glareDue fun s =>
    s.onLine n fun l => { l with ring := { l.ring with glareDue := none } })

end Sys2Proof.Machine
end

