-- ==== Sys2Proof/Machine/ExClassifier.lean ====
section
/-! DEFINITION. The meanings of the classifier's events (R78, R79, R83, R89). -/

namespace Sys2Proof.Machine

/-- CPT_PIN_CHANGE (R78): a raw change enters the 10 ms glitch filter. -/
def execCptPinChange (n : LineNo) (level : Bool) (s : State) : Host.Outcome State Fault Refusal :=
  .next (s.setPin n fun l => { l with pc := { l.pc with pin := level } })

/-- FILTERED_LEVEL_CHANGE (R78, R79): the oldest raw edge has held for 10 ms. -/
def execFilteredLevelChange (n : LineNo) (s : State) : Host.Outcome State Fault Refusal :=
  .next (match (s.line n).pc.edges.head? with
    | none => s
    | some e => s.filteredChange n e)

/-- STEADY_CONFIRMATION (R83, R84): the on interval outlasts the shortest unmarked `min_on`; the templates of that length
confirm, taken 10 ms after that moment (R78). It is of the session in progress: the confirmation of a session that has
stopped went with its interval (R77, R78), and the part makes this step of itself only where it is due ([1], [2]). -/
def execSteadyConfirmation (n : LineNo) (s : State) : Host.Outcome State Fault Refusal :=
  .next (match (s.line n).pc.nextSteady s.cadence with
    | none => s
    | some (b, u) => (s.advanceTo (b + 10 * u + Config.cptFilterMs)).confirmSteady n (· == u))

/-- GAP_WATCH_EXPIRY (R89): the silence outlasts `answer_gap_ms`, taken 10 ms after that moment (R78). -/
def execGapWatchExpiry (n : LineNo) (s : State) : Host.Outcome State Fault Refusal :=
  .next (match (s.line n).pc.gapWatch with
    | none => s
    | some m =>
      if (s.line n).gapDecides m then (s.advanceTo (m + Config.cptFilterMs)).answer n .ringbackCeased else s)

end Sys2Proof.Machine
end

