-- ==== Sys2Proof/Machine/ExJobs.lean ====
section
/-! DEFINITION. The meanings of the Job Engine's own steps: a start, an attempt taken, a retry delay run out (R100, R9,
R126). -/

namespace Sys2Proof.Machine

/-- ATTEMPT_START (R9): the IDLE line takes the engine's offer. -/
def execAttemptStart (n : LineNo) (s : State) : Host.Outcome State Fault Refusal :=
  .next (match s.offer n with
    | none => s
    | some j => s.takeStart n j)

/-- The moment a running retry timer is due. -/
def RetryTimer.due : RetryTimer → Option Nat
  | .running d => some d
  | _ => none

/-- RETRY_DELAY_EXPIRY (R126): the timer is EXPIRED; JOB_START is the test of R100 ([4]). -/
def execRetryDelayExpiry (n : LineNo) (s : State) : Host.Outcome State Fault Refusal :=
  .next (s.onDue (s.jobs.retry.get n).due (State.setRetry n .expired))

/-- JOB_START (R100): the head job becomes ACTIVE in RESOLVE and is resolved (R106 to R108). -/
def execJobStart (n : LineNo) (s : State) : Host.Outcome State Fault Refusal :=
  .next (if s.startable n then s.startHead n else s)

end Sys2Proof.Machine
end

