-- ==== Sys2Proof/Machine/StoreOps.lean ====
section
/-! DEFINITION. The Directory Store (chapter 7): the physical acts on a block, the phases of an operation, replacement and
death of blocks, completion, the format, the settings block, and the start-up check. -/

namespace Sys2Proof.Machine

/-! ### Physical acts on a block (R136, R142) -/

/-- A physical block changed. -/
def Store.onBlock (p : PhysicalNo) (f : PhysBlock → PhysBlock) (st : Store) : Store :=
  { st with blocks := st.blocks.set p (f (st.blocks.get p)) }

/-- The start of ERASE (R142): the erase count rises, holding at 65 535, and no old content can be read. -/
def PhysBlock.erase (b : PhysBlock) : PhysBlock :=
  { b with eraseCount := min 65535 (b.eraseCount + 1), content := none }

/-- What PROGRAM leaves (R142): the role, and the slots where the integrity check agrees. -/
def PhysBlock.program (b : LogicalNo) (slots : Bank 4 Entry) (took : Bool) (p : PhysBlock) : PhysBlock :=
  { p with role := .logical b, content := if took then some slots else none }

/-- RETIRED written into the role (R143 step 1): never written again, never read. -/
def PhysBlock.retire (p : PhysBlock) : PhysBlock := { p with role := .retired, content := none }

/-- A free value drawn from the medium ([14], [15]). -/
def State.draw (f : Nat → Bool) (s : State) : Bool × State := (f s.free, { s with free := s.free + 1 })

/-- A flag of STORE latched. -/
def State.latchStore (f : Flag) (s : State) : State := s.latch storeSource f

/-! ### Replacement (R143) -/

/-- A physical block retired after VERIFY failed, its flag and detail (R143 steps 1 and 2). -/
def State.retireBlock (p : PhysicalNo) (s : State) : State :=
  (s.onStore fun st => { st.onBlock p PhysBlock.retire with lastRetired := some p }).latchStore .blockRetired

/-- The head spare mapped to logical block `b`, its ERASE begun (R143 step 3, R153). -/
def Store.takeSpare (b : LogicalNo) (p : PhysicalNo) (rest : List PhysicalNo) (st : Store) : Store :=
  { st with map := st.map.set b (some p), spares := rest }.onBlock p PhysBlock.erase

/-- Logical block `b` goes dead (R144). -/
def Store.kill (b : LogicalNo) (st : Store) : Store := { st with map := st.map.set b none }

/-! ### Operations (R138, R142, R145) -/

/-- The operation record in its ERASE phase, begun now. -/
def OpRecord.eraseAt (t : OpTarget) (now : Nat) (op : OpRecord) : OpRecord :=
  { op with target := t, phase := .erase, since := now }

/-- An operation begins (R138): LOAD ends at once, and the ERASE of its target begins (R142). ERASE leaves the settings
block with content whose check does not agree (R148, R155). -/
def State.startOp (kind : OpKind) (index : Option EntryNo) (t : OpTarget) (s : State) : State :=
  s.onStore fun st =>
    let st := { st with st := .busy, op := some ⟨kind, index, t, .erase, false, s.now⟩ }
    match t with
    | .block _ p _ => st.onBlock p PhysBlock.erase
    | .settings _ => { st with medium := .invalid }

/-- The completion of an operation (R145): detail, OP_DONE, READY, then the jobs that wait on the store read. -/
def State.completeOp (op : OpRecord) (r : OpResult) (s : State) : State :=
  let s := s.onStore fun st => { st with lastOp := some (op.kind, op.index, r) }
  let s := s.latchStore .opDone
  let s := s.onStore fun st => { st with op := none, st := .ready }
  s.eachLine State.resolveWaiting

/-- The first logical block from `k` on that is mapped, with its physical block (R147). -/
def Store.nextMapped (k : Nat) (st : Store) : Option (LogicalNo × PhysicalNo) :=
  (List.finRange 32).findSome? fun b => if k ≤ b.val then (st.map.get b).map fun p => (b, p) else none

/-- The format goes on from logical block `k` (R147): the next mapped block is erased, or the format completes. -/
def State.formatFrom (op : OpRecord) (k : Nat) (s : State) : State :=
  match s.store.nextMapped k with
  | none => s.completeOp op (if op.worn then .worn else .ok)
  | some (b, p) =>
    s.onStore fun st =>
      { st with op := some (op.eraseAt (.block b p blankSlots) s.now) }.onBlock p PhysBlock.erase

/-- A block operation done with its logical block (R142, R147). -/
def State.blockDone (op : OpRecord) (b : LogicalNo) (s : State) : State :=
  match op.kind with
  | .format => s.formatFrom op (b.val + 1)
  | _ => s.completeOp op .ok

/-- A logical block gone dead in an operation (R144): WORN, or within FORMAT the worn mark. -/
def State.blockWorn (op : OpRecord) (b : LogicalNo) (s : State) : State :=
  match op.kind with
  | .format => s.formatFrom { op with worn := true } (b.val + 1)
  | _ => s.completeOp op .worn

/-- The settings block left in a condition by a SAVE or CLEAR that completes (R149, R150). -/
def State.settingsDone (op : OpRecord) (m : Medium) (c : Condition) (r : OpResult) (s : State) : State :=
  (s.onStore fun st => { st with medium := m, settingsCondition := c }).completeOp op r

/-- The end of ERASE in an operation (R142, R149, R150): PROGRAM, or for CLEAR its verify. -/
def State.opEraseEnd (op : OpRecord) (s : State) : State :=
  match op.target with
  | .block _ _ _ => s.onStore fun st => { st with op := some { op with phase := .program, since := s.now } }
  | .settings (some _) =>
    s.onStore fun st =>
      { st with op := some { op with phase := .program, since := s.now }, medium := .erased }
  | .settings none =>
    let (took, s) := s.draw Config.eraseTook
    s.onStore fun st =>
      { st with
        op := some { op with phase := .verify, since := s.now }
        medium := if took then .erased else .invalid }

/-- The end of PROGRAM in an operation (R142, R149): the buffer is written, VERIFY follows. Whether the integrity check
agrees is the medium's, free until VERIFY has judged it ([14]). -/
def State.opProgramEnd (op : OpRecord) (s : State) : State :=
  let (took, s) := s.draw Config.programTook
  s.onStore fun st =>
    let st := { st with op := some { op with phase := .verify, since := s.now } }
    match op.target with
    | .block b p buf => st.onBlock p (PhysBlock.program b buf took)
    | .settings (some c) => { st with medium := if took then .valid c else .invalid }
    | .settings none => st

/-- VERIFY passes in an operation (R142, R147, R149, R150). -/
def State.opVerifyPass (op : OpRecord) (s : State) : State :=
  match op.target with
  | .block b p buf => (s.onStore fun st => st.onBlock p (PhysBlock.program b buf true)).blockDone op b
  | .settings (some c) => s.settingsDone op (.valid c) .valid .ok
  | .settings none => s.settingsDone op .erased .erased .ok

/-- VERIFY fails in an operation (R143, R144, R149, R150). -/
def State.opVerifyFail (op : OpRecord) (s : State) : State :=
  match op.target with
  | .block b p buf =>
    let s := s.retireBlock p
    match s.store.spares with
    | q :: rest =>
      s.onStore fun st => { st.takeSpare b q rest with op := some (op.eraseAt (.block b q buf) s.now) }
    | [] => (s.onStore (Store.kill b)).blockWorn op b
  | .settings _ => s.settingsDone op .invalid .invalid .settingsFail

/-! ### The start-up check (R152, R153) -/

/-- The header of physical block `p` claims logical block `b`. -/
def Store.claims (st : Store) (b : LogicalNo) (p : PhysicalNo) : Bool := (st.blocks.get p).role == .logical b

/-- The map and the spare list rebuilt from the headers (R152). -/
def Store.rebuild (st : Store) : Store :=
  { st with
    map := Bank.tabulate fun b => (List.finRange 36).find? (st.claims b)
    spares := (List.finRange 36).filter fun p => (st.blocks.get p).role == .spare }

/-- The check goes on to logical block `k` with nothing in progress. -/
def State.checkAt (k : Nat) (s : State) : State := s.onStore fun st => { st with check := some ⟨k, none⟩ }

/-- The check's blank rewrite of `b` on `p` in a phase begun now (R153). -/
def State.rewriteAt (b : LogicalNo) (p : PhysicalNo) (ph : OpPhase) (s : State) : State :=
  s.onStore fun st => { st with check := some ⟨b.val, some ⟨b, p, ph, s.now⟩⟩ }

/-- A logical block cleared by the check: its flag and detail (R153). -/
def State.clearBlock (b : LogicalNo) (s : State) : State :=
  (s.onStore fun st => { st with lastCleared := some b }).latchStore .blockCleared

/-- A spare written blank for `b`, or `b` dead where no spare is left (R153, R143, R144). -/
def State.rewriteOnSpare (b : LogicalNo) (s : State) : State :=
  match s.store.spares with
  | q :: rest => (s.onStore (Store.takeSpare b q rest)).rewriteAt b q .erase
  | [] => (s.onStore (Store.kill b)).checkAt (b.val + 1)

/-- The check makes logical block `b` sound (R153). -/
def State.checkBlock (b : LogicalNo) (s : State) : State :=
  match s.store.map.get b with
  | some p =>
    match (s.store.blocks.get p).content with
    | some _ => s.checkAt (b.val + 1)
    | none => ((s.onStore fun st => st.onBlock p PhysBlock.erase).rewriteAt b p .erase).clearBlock b
  | none =>
    match s.store.spares with
    | [] => s.checkAt (b.val + 1)
    | _ :: _ => (s.rewriteOnSpare b).clearBlock b

/-- The end of PROGRAM in a rewrite of the check. -/
def State.rewriteProgramEnd (r : Rewrite) (s : State) : State :=
  let (took, s) := s.draw Config.programTook
  (s.onStore fun st => st.onBlock r.p (PhysBlock.program r.b blankSlots took)).rewriteAt r.b r.p .verify

/-- VERIFY passes in a rewrite of the check: the block is sound and blank. -/
def State.rewriteVerifyPass (r : Rewrite) (s : State) : State :=
  (s.onStore fun st => st.onBlock r.p (PhysBlock.program r.b blankSlots true)).checkAt (r.b.val + 1)

/-- VERIFY fails in a rewrite of the check (R153, R143, R144). -/
def State.rewriteVerifyFail (r : Rewrite) (s : State) : State := (s.retireBlock r.p).rewriteOnSpare r.b

/-! ### The phase a command ends -/

/-- What the store has in hand: the operation in flight or the rewrite of the check, in phase `ph`. -/
inductive StoreWork where
  | op (o : OpRecord)
  | rewrite (r : Rewrite)
  deriving DecidableEq, Repr

/-- The rewrite the check has in progress. -/
def Store.rewriteNow (st : Store) : Option Rewrite := st.check.bind (·.rewrite)

/-- The work in hand, if its phase is `ph`. -/
def Store.workIn (ph : OpPhase) (st : Store) : Option StoreWork :=
  match st.op, st.rewriteNow with
  | some o, _ => if o.phase = ph then some (.op o) else none
  | none, some r => if r.phase = ph then some (.rewrite r) else none
  | none, none => none

/-! ### Settings (R148, R149) -/

/-- The snapshot of SAVE SETTINGS (R148, R149). -/
def State.snapshot (s : State) : Settings where
  profiles := s.lines.map (·.committed)
  enabled := s.lines.map fun l => l.st != .disabled
  cadence := s.cadence
  bindings := s.keys.all.map (·.binding)
  active := s.keys.active
  debounceMs := s.keys.debounceMs
  masks := s.events.sources.map (·.mask)

/-! ### Resets (R155) -/

/-- What a power-on or pin reset makes of a phase interrupted now: inside PROGRAM the role may be written and the content
does not read back; between ERASE and PROGRAM the block stands as its ERASE left it ([15], [16]). -/
def State.interruptBlock (b : LogicalNo) (p : PhysicalNo) (ph : OpPhase) (since : Nat) (s : State) : State :=
  if ph = .program ∧ since < s.now then
    let (written, s) := s.draw Config.roleWritten
    if written then s.onStore fun st => st.onBlock p fun x => { x with role := .logical b } else s
  else s

/-- What a power-on or pin reset leaves of the work in hand (R155). -/
def State.interruptStore (s : State) : State :=
  match s.store.op, s.store.rewriteNow with
  | some o, _ =>
    match o.target with
    | .block b p _ => s.interruptBlock b p o.phase o.since
    | .settings _ =>
      if o.phase = .program ∧ o.since < s.now then s.onStore fun st => { st with medium := .invalid } else s
  | none, some r => s.interruptBlock r.b r.p r.phase r.since
  | none, none => s

/-- The store after power-on or pin reset (R138, R172): CHECKING, no operation, no detail; what the medium holds is
kept. -/
def Store.powerOn (st : Store) : Store :=
  { st with st := .checking, op := none, check := none, lastOp := none, lastRetired := none, lastCleared := none }

/-- The start of the check (R152), with no operation in flight (R138). -/
def Store.startCheck (st : Store) : Store := { st.rebuild with st := .checking, op := none, check := some ⟨0, none⟩ }

end Sys2Proof.Machine
end

