-- ==== Sys2Proof/Machine/KeyOps.lean ====
section
/-! DEFINITION. The Key Scanner (chapter 8): debounce, transitions, the key event queue, jam, bindings, scan settings. -/

namespace Sys2Proof.Machine

/-- The Key Scanner changed by `f`. -/
def State.onKeys (f : KeyScanner → KeyScanner) (s : State) : State := { s with keys := f s.keys }

/-- The record of key `k` changed by `f`. -/
def State.onKey (k : KeyNo) (f : Key → Key) (s : State) : State :=
  s.onKeys fun ks => { ks with all := ks.all.set k (f (ks.all.get k)) }

/-- The record of key `k`. -/
def State.key (s : State) (k : KeyNo) : Key := s.keys.all.get k

/-- A matrix key, as against a direct input (R156). -/
def isMatrix (k : KeyNo) : Bool := k.val < 16

/-- The direct input of a key number 16 to 19 (R156). -/
def directOf (k : KeyNo) : Option (Fin 4) := if 16 ≤ k.val then below 4 (k.val - 16) else none

/-- A raw level is DOWN (R157): pressed, or at the input's active level. -/
def KeyScanner.rawDown (ks : KeyScanner) (k : KeyNo) (raw : Bool) : Bool :=
  match directOf k with
  | none => raw
  | some e => raw == ks.active.get e

/-- A raw change of a key (R157): the stability timer starts, or stops as the level returns. -/
def Key.rawChange (down raw : Bool) (now : Nat) (key : Key) : Key :=
  { key with raw := raw, since := if down = key.deb then none else some now }

/-- The held count (R161): matrix keys DOWN or MARKED. -/
def KeyScanner.heldCount (ks : KeyScanner) : Nat :=
  (List.finRange 20).countP fun k =>
    isMatrix k && ((ks.all.get k).cond == .down || (ks.all.get k).cond == .marked)

/-- A flag of KEYS latched. -/
def State.latchKeys (f : Flag) (s : State) : State := s.latch keysSource f

/-- A transition record offered to the queue (R159): it joins and latches KEY, or is dropped and latches OVERFLOW. -/
def State.offerRecord (k : KeyNo) (down : Bool) (s : State) : State :=
  if s.keys.queue.length < 16 then
    (s.onKeys fun ks => { ks with queue := ks.queue ++ [⟨k, down, s.timeStamp⟩] }).latchKeys .key
  else s.latchKeys .overflow

/-- A submission failure of a key (R165): the detail, then SUBMIT_FAIL. -/
def State.submitFailed (k : KeyNo) (n : LineNo) (e : EntryNo) (c : SubmitFail) (s : State) : State :=
  (s.onKeys fun ks => { ks with lastFail := some ⟨k, n, e, c⟩ }).latchKeys .submitFail

/-- The submission of a JOB binding (R104). -/
def keySubmission (k : KeyNo) (n : LineNo) (e : EntryNo) : Submission where
  line := n
  origin := .key k
  target := .entry e
  supervised := true
  followChain := true
  methodOverride := none
  attemptsOverride := 0

/-- The live job of a key whose submission the engine answers (R165 step 3): only one still PENDING changes. -/
def Key.answered (live : LiveJob) (key : Key) : Key := if key.live = .pending then { key with live := live } else key

/-- The engine takes a submission of a key (R104, R165 step 3): accepted, its identifier is recorded in the same event;
refused, the failure is reported. -/
def State.takeHandover (h : Handed) (s : State) : State :=
  let b := keySubmission h.key h.line h.entry
  match s.submitFailure b with
  | some c => (s.onKey h.key (Key.answered .none)).submitFailed h.key h.line h.entry c
  | none =>
    let s := s.acceptJob b
    s.onKey h.key (Key.answered (.job s.jobs.lastId))

/-- A submission handed to the engine (R165 step 2): taken by it in the same step, or on its way ([25]). -/
def State.handOver (h : Handed) (s : State) : State :=
  match s.keys.turns with
  | [] => s.takeHandover h
  | .within :: rest => (s.onKeys fun ks => { ks with turns := rest }).takeHandover h
  | .later :: rest => s.onKeys fun ks => { ks with turns := rest, handed := ks.handed ++ [h] }

/-- The engine takes the oldest submission on its way (R165; [25]). -/
def State.takeHandovers (s : State) : State :=
  match s.keys.handed with
  | [] => s
  | h :: rest => (s.onKeys fun ks => { ks with handed := rest }).takeHandover h

/-- A taken DOWN of a key bound JOB (R165): refused as a duplicate, or PENDING and handed to the engine. -/
def State.jobPress (k : KeyNo) (n : LineNo) (e : EntryNo) (s : State) : State :=
  if (s.key k).live ≠ .none then s.submitFailed k n e .duplicate
  else (s.onKey k fun key => { key with live := .pending }).handOver ⟨k, n, e⟩

/-- A taken DOWN of a key bound RELEASE (R166): a refusal is silent. -/
def State.releasePress (n : LineNo) (s : State) : State := (s.release n).getD s

/-- A taken DOWN of a key bound CANCEL (R166): the head job of the line is cancelled. -/
def State.cancelPress (n : LineNo) (s : State) : State :=
  match s.headJob n with
  | none => s
  | some j => s.cancelJob j

/-- The binding of key `k` carried out (R165, R166). -/
def State.carryOut (k : KeyNo) (b : Binding) (s : State) : State :=
  match b with
  | .none => s
  | .job n e => s.jobPress k n e
  | .release n => s.releasePress n
  | .cancel n => s.cancelPress n
  | .digit n y => s.digitPress n k y

/-- The DOWN of key `k` taken (R158): condition, record, binding. -/
def State.takeDown (k : KeyNo) (s : State) : State :=
  let b := (s.key k).binding
  ((s.onKey k fun key => { key with cond := .down }).offerRecord k true).carryOut k b

/-- The UP of key `k` taken (R158): condition, record, and its delivery to a manual digit it began (R47). -/
def State.takeUp (k : KeyNo) (s : State) : State :=
  ((s.onKey k fun key => { key with cond := .up }).offerRecord k false).eachLine (State.manualUp k)

/-- Deferred keys taken while the held count stays below 3 (R162), at most `fuel` of them. -/
def State.takeDeferred : Nat → State → State
  | 0, s => s
  | fuel + 1, s =>
    match s.keys.deferred with
    | [] => s
    | k :: rest =>
      if s.keys.heldCount < 3 then
        ((s.onKeys fun ks => { ks with deferred := rest }).takeDown k).takeDeferred fuel
      else s

/-- The deferred keys after a matrix key went up: a count below 3 takes at most three of them (R162). -/
def State.afterUp (k : KeyNo) (s : State) : State := if isMatrix k then s.takeDeferred 3 else s

/-- A matrix key deferred (R162). -/
def State.deferKey (k : KeyNo) (s : State) : State :=
  ((s.onKey k fun key => { key with cond := .deferred }).onKeys fun ks =>
    { ks with deferred := ks.deferred ++ [k] }).latchKeys .jam

/-- The debounced level of key `k` changed to DOWN (R158). -/
def State.wentDown (k : KeyNo) (s : State) : State :=
  match (s.key k).cond with
  | .up => if isMatrix k && 3 ≤ s.keys.heldCount then s.deferKey k else s.takeDown k
  | .down | .deferred | .marked => s

/-- The debounced level of key `k` changed to UP (R158). -/
def State.wentUp (k : KeyNo) (s : State) : State :=
  match (s.key k).cond with
  | .up => s
  | .down => (s.takeUp k).afterUp k
  | .deferred =>
    (s.onKey k fun key => { key with cond := .up }).onKeys fun ks => { ks with deferred := ks.deferred.erase k }
  | .marked => (s.onKey k fun key => { key with cond := .up }).afterUp k

/-- The debounced level of key `k` changes (R157); while the store is CHECKING no transition is taken (R168). -/
def State.debouncedChange (k : KeyNo) (s : State) : State :=
  let s := s.onKey k fun key => { key with deb := !key.deb, since := none }
  if s.store.st = .checking then s
  else if (s.key k).deb then s.wentDown k
  else s.wentUp k

/-- A direct input whose active level SET SCAN changes (R167), read against the new level without debounce. -/
def State.relevel (e : Fin 4) (level : Bool) (s : State) : State :=
  if s.keys.active.get e = level then s
  else
    let k : KeyNo := ⟨16 + e.val, by omega⟩
    let s := s.onKeys fun ks => { ks with active := ks.active.set e level }
    let down := (s.key k).raw == level
    let before := (s.key k).cond
    let s := s.onKey k fun key => { key with deb := down, since := none }
    match before, down with
    | .up, true => s.onKey k fun key => { key with cond := .marked }
    | .marked, false => s.onKey k fun key => { key with cond := .up }
    | .down, false => s.takeUp k
    | _, _ => s

/-- The stability timer of key `k` has run for `debounce_ms` (R157). -/
def State.overdue (k : KeyNo) (s : State) : Bool := (s.key k).since.any fun d => d + s.keys.debounceMs ≤ s.now

/-- The stability timer of key `k` expires where it is overdue (R157). -/
def State.expireKey (s : State) (k : KeyNo) : State := if s.overdue k then s.debouncedChange k else s

/-- The stability timers that a change of `debounce_ms` makes overdue expire at the moment it is taken (R157), key 0 first
and key 19 last: DESIGN CHOICE [40]. -/
def State.expireKeys (s : State) : State := (List.finRange 20).foldl State.expireKey s

/-- The key records at the load of settings (R154, R168): a direct input whose active level changes reads its debounced
level the other way ([30]); a key DOWN is MARKED, any other UP. -/
def KeyScanner.markAll (active : Bank 4 Bool) (ks : KeyScanner) : KeyScanner :=
  { ks with
    active := active
    all := Bank.tabulate fun k =>
      let key := ks.all.get k
      let flip := match directOf k with
        | none => false
        | some e => ks.active.get e != active.get e
      let deb := key.deb != flip
      { key with deb := deb, cond := if deb then .marked else .up } }

/-- The scanner after an engine reset (R169). A submission on its way to the engine stays on it (R165). -/
def KeyScanner.engineReset (ks : KeyScanner) : KeyScanner :=
  { ks with
    all := ks.all.map fun key => { key with live := .none, cond := if key.deb then .marked else key.cond }
    queue := []
    deferred := []
    lastFail := none }

/-- The scanner in the power-on state (R168), its pins kept. -/
def KeyScanner.powerOn (ks : KeyScanner) : KeyScanner :=
  { ks with
    all := ks.all.map fun key => Key.reset key.raw false
    debounceMs := 20
    active := Bank.fill 4 false
    queue := []
    deferred := []
    handed := []
    lastFail := none }

/-- The scanner as the part starts: the debounced levels stand as the pins ([8]). -/
def KeyScanner.start (ks : KeyScanner) : KeyScanner :=
  { ks with
    all := Bank.tabulate fun k =>
      let key := ks.all.get k
      { key with deb := ks.rawDown k key.raw, since := none } }

end Sys2Proof.Machine
end

