-- ==== Sys2Proof/Machine/ExKeys.lean ====
section
/-! DEFINITION. The meanings of the Key Scanner's events (R157, R158). -/

namespace Sys2Proof.Machine

/-- KEY_RAW_CHANGE (R157): a raw change starts or restarts the stability timer; while the part is held only the level
stands ([9]). A level that stands already is no change. -/
def execKeyRawChange (k : KeyNo) (level : Bool) (s : State) : Host.Outcome State Fault Refusal :=
  .next (
    if (s.key k).raw = level then s
    else if s.held then s.onKey k fun key => { key with raw := level }
    else s.onKey k (Key.rawChange (s.keys.rawDown k level) level s.now))

/-- KEY_TRANSITION (R157, R158): the stability timer, measured against `debounce_ms` in force, expires. -/
def execKeyTransition (k : KeyNo) (s : State) : Host.Outcome State Fault Refusal :=
  .next (s.onDue ((s.key k).since.map (· + s.keys.debounceMs)) (State.debouncedChange k))

end Sys2Proof.Machine
end

