-- ==== Sys2Proof/Machine/LinkOps.lean ====
section
/-! DEFINITION. The Link Port's receiver, its errors, the break, and replies (chapter 10). The taking of requests stands
in Machine/Requests.lean. -/

namespace Sys2Proof.Machine

/-- A frame discarded with a link error (R184): HUNT, the detail, LINK_ERR. -/
def State.linkError (e : LinkError) (s : State) : State :=
  let s := s.onLink fun k => { k with rx := Receiver.hunting }
  let s := { s with events := { s.events with lastLinkError := some e } }
  s.latch systemSource .linkErr

/-- The error mark after a byte (R183): the kind of the first error. -/
def Receiver.marked (err : ByteError) (r : Receiver) : Option LinkError :=
  match r.mark, err with
  | some e, _ => some e
  | none, .clean => none
  | none, .parity => some .parity
  | none, .framing => some .framing

/-- The error a byte counts as: under parity NONE no parity error arises (R183; [28]). -/
def LinkPort.errorOf (k : LinkPort) (err : ByteError) : ByteError :=
  if err = .parity ∧ k.settings.even = false then .clean else err

/-- The sum of the bytes from LEN through CHECK is 0 modulo 256 (R184). -/
def sumIsZero (expected : Nat) (bytes : List Byte) (check : Byte) : Bool :=
  bytes.foldl (· + ·) (byteOf expected) + check == 0#8

/-- What a byte makes of the receiver (R183): on, with a frame to judge, or discarded as BAD_LENGTH. -/
inductive ByteResult where
  | receiving (r : Receiver)
  | judge (mark : Option LinkError) (sumOk : Bool) (bytes : List Byte)
  | badLength
  deriving DecidableEq, Repr

/-- A byte taken by the receiver (R183) at the moment `now`. -/
def Receiver.take (b : Byte) (err : ByteError) (now : Nat) (r : Receiver) : ByteResult :=
  let gap := some (now + Config.byteGapMs)
  match r.st with
  | .hunt => .receiving (if b = Config.sync ∧ err = .clean then ⟨.length, [], 0, none, gap⟩ else r)
  | .length =>
    if 2 ≤ b.toNat then .receiving ⟨.body, [], b.toNat, r.marked err, gap⟩ else .badLength
  | .body =>
    let bytes := r.bytes ++ [b]
    .receiving ⟨if r.expected ≤ bytes.length then .check else .body, bytes, r.expected, r.marked err, gap⟩
  | .check => .judge (r.marked err) (sumIsZero r.expected r.bytes b) r.bytes

/-- The frame of the bytes KIND, TAG and BODY (R195). -/
def Frame.ofBytes : List Byte → Option Frame
  | kind :: tag :: body => some ⟨kind, tag, body⟩
  | _ => none

/-- A reply joins the tail of the outbound queue (R185, R188). -/
def State.pushReply (tag : Byte) (r : Reply) (s : State) : State :=
  s.onLink fun k => { k with outbound := k.outbound ++ [r.record tag] }

/-- The receiver takes bytes and the port takes frames: the part has started and no break is in progress (R189,
R193). -/
def State.linkListens (s : State) : Bool := !s.held && s.link.breakSince.isNone

/-- The Link Port at a break (R189 steps 1 to 5). -/
def LinkPort.atBreak (straps : BitVec 3) (since : Nat) : LinkPort :=
  { LinkPort.reset straps with breakSince := some since }

/-- The Event Unit at a break (R180): notice-pending cleared, LINK_BREAK latched, and a notice queued for each source
that then calls for one, in order of source number. -/
def State.eventBreak (s : State) : State :=
  let s := s.putSources (s.events.sources.map fun r => { r with noticePending := false })
  let r := s.source systemSource
  (s.putSource systemSource { r with latched := r.latched ||| Flag.linkBreak.mask }).queueNotices

/-- The conditions of a frame's beginning (R188). -/
def State.canBegin (s : State) : Bool :=
  !s.held && s.link.tx == .idle && !s.link.outbound.isEmpty && !s.pins.lhold && s.link.breakSince.isNone

end Sys2Proof.Machine
end

