-- ==== Sys2Proof/Machine/System.lean ====
section
/-! DEFINITION. The resets and the start-up of the part: what every block does at power-on, pin reset, start, end of the
start-up check and engine reset (R29, R30, R67, R68, R71, R120, R121, R154, R155, R168, R169, R178, R179, R192,
R193). -/

namespace Sys2Proof.Machine

/-! ### Power-on and pin reset (R193) -/

/-- A line in its power-on state, its pins as they stand (R29, R75). -/
def Line.powerOn (l : Line) : Line := Line.reset l.loop.pin l.rev.pin l.ring.pin l.pc.pin

/-- Every block in its power-on state, the part held (R193; [9]): the store keeps what its medium holds (R155). -/
def State.toPowerOn (cause : ResetCause) (straps : BitVec 3) (s : State) : State :=
  let s := s.interruptStore
  { s with
    now := 0
    held := true
    pins := { s.pins with straps := straps }
    lines := s.lines.map Line.powerOn
    pool := Pool.empty
    cadence := factoryCadence
    jobs := JobEngine.reset
    store := s.store.powerOn
    keys := s.keys.powerOn
    events := EventUnit.reset cause
    link := LinkPort.reset straps }

/-- The part starts (R193): the straps are read, the inputs are followed from here, the store enters CHECKING with its
map rebuilt (R152), the time-stamp clock counts from 0 (R156). -/
def State.start (straps : BitVec 3) (s : State) : State :=
  { s with
    now := 0
    held := false
    pins := { s.pins with straps := straps }
    lines := s.lines.map (Line.settle 0)
    keys := s.keys.start
    store := s.store.startCheck
    link := { s.link with settings := LinkSettings.ofStraps straps } }

/-! ### The end of the start-up check (R154, R193) -/

/-- A line with no ring burst in progress, as at an entry to IDLE (R24). -/
def Line.noBurst (l : Line) : Line := { l with ring := { l.ring with burst := false, startDue := none, gapDue := none } }

/-- A line at the end of the check with VALID settings (R29): its saved profile, and IDLE where it is to come up. -/
def Line.comeUp (p : Profile) (enabled : Bool) (l : Line) : Line :=
  let l := { l with committed := p, pendingProfile := p }
  if p.startEnabled || enabled then { l.noBurst with st := .idle } else l

/-- The lines come up (R29). -/
def State.linesComeUp (c : Settings) (s : State) : State :=
  s.eachLine fun n s => s.onLine n (Line.comeUp (c.profiles.get n) (c.enabled.get n))

/-- The masks loaded and taken as SET MASK would (R178). -/
def State.loadMasks (m : Bank 7 Byte) (s : State) : State :=
  (s.putSources (Bank.tabulate fun src => { s.source src with mask := m.get src })).queueNotices

/-- The settings of a VALID block loaded (R154). A stability timer that the loaded `debounce_ms` makes overdue expires in a
KEY_TRANSITION of its own after the load: DESIGN CHOICE [45]. -/
def State.loadSettings (c : Settings) (s : State) : State :=
  let s := { s with cadence := c.cadence }.linesComeUp c
  let s := s.onKeys fun ks =>
    { ks.markAll c.active with debounceMs := c.debounceMs }
  let s := s.onKeys fun ks =>
    { ks with all := Bank.tabulate fun k => { ks.all.get k with binding := c.bindings.get k } }
  s.loadMasks c.masks

/-- The start-up check ends (R154): the settings block is read and the store becomes READY. -/
def State.endCheck (s : State) : State :=
  let s := s.onStore fun st => { st with check := none, st := .ready }
  match s.store.medium with
  | .valid c => (s.onStore fun st => { st with settingsCondition := .valid }).loadSettings c
  | .erased =>
    (s.onStore fun st => { st with settingsCondition := .erased }).onKeys fun ks => ks.markAll ks.active
  | .invalid =>
    ((s.onStore fun st => { st with settingsCondition := .invalid }).latchStore .settingsLost).onKeys fun ks =>
      ks.markAll ks.active

/-! ### Engine reset (R192) -/

/-- A line at an engine reset (R30, R172): a DISABLED line stays as it is but for the details of its source, every other
one enters RELEASING with its guard afresh and its ring detector cleared. -/
def Line.engineReset (now : Nat) (l : Line) : Line :=
  let l := { l with lastClass := none, lastCause := none, lastJob := none }
  if l.st = .disabled then l
  else
    let l := l.releasing now
    { l with ring := { l.ring with burst := false, startDue := none, gapDue := none, count := 0, glareDue := none } }

/-- The Event Unit at an engine reset (R179): flags, notice-pending and queued notices of sources 0 to 4 cleared, reset
cause ENGINE, RESET of SYSTEM latched. -/
def State.eventEngineReset (s : State) : State :=
  let s := s.onLink fun k =>
    { k with outbound := k.outbound.filter fun r => !(r.isNoteOf 0 || r.isNoteOf 1 || r.isNoteOf 2 || r.isNoteOf 3 ||
        r.isNoteOf 4) }
  let s := s.putSources (Bank.tabulate fun src =>
    if src.val < 5 then { s.source src with latched := 0#8, noticePending := false } else s.source src)
  let s := { s with events := { s.events with resetCause := .engine } }
  s.latch systemSource .reset

/-- The engine reset of every block (R192). -/
def State.engineReset (s : State) : State :=
  let s := { s with pool := Pool.empty }
  let s := s.eachLine fun n s => s.onLine n (Line.engineReset s.now)
  let s := s.onJobs JobEngine.engineReset
  let s := s.onKeys KeyScanner.engineReset
  s.eventEngineReset

end Sys2Proof.Machine
end

