-- ==== Sys2Proof/Machine/ExLineTimers.lean ====
section
/-! DEFINITION. The meanings of the expiries of a line's timers (chapters 1 and 2). -/

namespace Sys2Proof.Machine

/-- SEIZE_TIMER_EXPIRY (R10): the attempt fails NO_LOOP. -/
def execSeizeTimerExpiry (n : LineNo) (s : State) : Host.Outcome State Fault Refusal :=
  .next (s.onDue (s.line n).timers.seize fun s => s.failAttempt n .noLoop)

/-- POST_SEIZE_TIMER_EXPIRY (R10): DIALING begins. -/
def execPostSeizeTimerExpiry (n : LineNo) (s : State) : Host.Outcome State Fault Refusal :=
  .next (s.onDue (s.line n).timers.postSeize fun s =>
    (s.onLine n (Line.withTimers fun t => { t with postSeize := none })).enterDialing n)

/-- The dial-tone wait ends by expiry (R11, R44). -/
def State.dialtoneExpired (n : LineNo) (s : State) : State :=
  let s := s.onLine n (Line.withTimers fun t => { t with dialTone := none })
  let l := s.line n
  match l.st with
  | .awaitDialtone => if l.committed.blindDial then s.dialtoneServed n else s.failAttempt n .noDialTone
  | .dialing =>
    if l.committed.blindDial then s.waitToneServed n
    else
      match l.cursor.source with
      | .job => s.failAttempt n .noDialTone
      | .send => s.enterConnected n
  | _ => s

/-- DIAL_TONE_TIMER_EXPIRY (R11, R44). -/
def execDialToneTimerExpiry (n : LineNo) (s : State) : Host.Outcome State Fault Refusal :=
  .next (s.onDue (s.line n).timers.dialTone (State.dialtoneExpired n))

/-- NO_ANSWER_TIMER_EXPIRY (R14): the attempt fails NO_ANSWER. -/
def execNoAnswerTimerExpiry (n : LineNo) (s : State) : Host.Outcome State Fault Refusal :=
  .next (s.onDue (s.line n).timers.noAnswer fun s => s.failAttempt n .noAnswer)

/-- DISCONNECT_TIMER_EXPIRY (R22): loop lost. -/
def execDisconnectTimerExpiry (n : LineNo) (s : State) : Host.Outcome State Fault Refusal :=
  .next (s.onDue (s.line n).timers.disconnect fun s =>
    (s.onLine n (Line.withTimers fun t => { t with disconnect := none })).loopLost n)

/-- MAKE_TIMER_EXPIRY (R23): loop lost. -/
def execMakeTimerExpiry (n : LineNo) (s : State) : Host.Outcome State Fault Refusal :=
  .next (s.onDue (s.line n).timers.make fun s =>
    (s.onLine n (Line.withTimers fun t => { t with make := none })).loopLost n)

/-- The line on entry to IDLE at the end of its guard (R19, R24). -/
def Line.guardEnds (l : Line) : Line :=
  { l.noBurst with st := .idle, timers := { l.timers with guard := none } }

/-- GUARD_TIMER_EXPIRY (R19): the line enters IDLE. -/
def execGuardTimerExpiry (n : LineNo) (s : State) : Host.Outcome State Fault Refusal :=
  .next (s.onDue (s.line n).timers.guard fun s => s.onLine n Line.guardEnds)

/-- BREAK_TIMER_EXPIRY (R37): LCL closes, PULSE_MAKE. -/
def execBreakTimerExpiry (n : LineNo) (s : State) : Host.Outcome State Fault Refusal :=
  .next (s.onDue (s.line n).timers.breakT fun s =>
    s.onLine n fun l => (l.withTimers fun t => { t with breakT := none }).pulseMake s.now)

/-- PULSE_MAKE ends (R37): the next pulse breaks, or the digit is counted and INTERDIGIT begins. -/
def State.makePeriodEnds (n : LineNo) (s : State) : State :=
  let s := s.onLine n (Line.withTimers fun t => { t with makePeriod := none })
  let k := (s.line n).cursor.pulses
  if 0 < k then
    s.onLine n fun l => ({ l with cursor := { l.cursor with pulses := k - 1 } } : Line).pulseBreak s.now
  else (s.countSymbol n).onLine n (Line.interdigit s.now)

/-- MAKE_PERIOD_TIMER_EXPIRY (R37). -/
def execMakePeriodTimerExpiry (n : LineNo) (s : State) : Host.Outcome State Fault Refusal :=
  .next (s.onDue (s.line n).timers.makePeriod (State.makePeriodEnds n))

/-- INTERDIGIT_TIMER_EXPIRY (R38): the pulse digit ends. -/
def execInterdigitTimerExpiry (n : LineNo) (s : State) : Host.Outcome State Fault Refusal :=
  .next (s.onDue (s.line n).timers.interdigit fun s =>
    (s.onLine n (Line.withTimers fun t => { t with interdigit := none })).endSymbol n)

/-- TONE_ON ends (R40): TON is deasserted and the generator released, the symbol is counted, TONE_GAP. -/
def State.toneEnds (n : LineNo) (s : State) : State :=
  let s := s.onLine n fun l => (l.withTimers fun t => { t with tone := none }).toneGap s.now
  (s.releaseTone n).countSymbol n

/-- TONE_TIMER_EXPIRY (R40). -/
def execToneTimerExpiry (n : LineNo) (s : State) : Host.Outcome State Fault Refusal :=
  .next (s.onDue (s.line n).timers.tone (State.toneEnds n))

/-- TONE_GAP_TIMER_EXPIRY (R40): the dual-tone digit ends. -/
def execToneGapTimerExpiry (n : LineNo) (s : State) : Host.Outcome State Fault Refusal :=
  .next (s.onDue (s.line n).timers.toneGap fun s =>
    (s.onLine n (Line.withTimers fun t => { t with toneGap := none })).endSymbol n)

/-- PAUSE_TIMER_EXPIRY (R42): the symbol is counted and ends. -/
def execPauseTimerExpiry (n : LineNo) (s : State) : Host.Outcome State Fault Refusal :=
  .next (s.onDue (s.line n).timers.pause fun s =>
    ((s.onLine n (Line.withTimers fun t => { t with pause := none })).countSymbol n).endSymbol n)

/-- The make that ends a flash (R43): LCL closes. -/
def Line.flashEnds (now : Nat) (l : Line) : Line :=
  ((l.makeEnds now).inSub .none).withTimers fun t => { t with flash := none }

/-- FLASH_TIMER_EXPIRY (R43): the make, and the symbol is counted and ends. -/
def execFlashTimerExpiry (n : LineNo) (s : State) : Host.Outcome State Fault Refusal :=
  .next (s.onDue (s.line n).timers.flash fun s =>
    ((s.onLine n (Line.flashEnds s.now)).countSymbol n).endSymbol n)

/-- The minimum tone time runs out (R50). -/
def State.minimumElapsed (n : LineNo) (s : State) : State :=
  let s := s.onLine n fun l =>
    { l with
      manual := { l.manual with minElapsed := true }
      timers := { l.timers with minTone := none } }
  if (s.line n).manual.keyReleased then s.endManual n else s

/-- MINIMUM_TONE_TIMER_EXPIRY (R50). -/
def execMinimumToneTimerExpiry (n : LineNo) (s : State) : Host.Outcome State Fault Refusal :=
  .next (s.onDue (s.line n).timers.minTone (State.minimumElapsed n))

end Sys2Proof.Machine
end

