-- ==== Sys2Proof/Machine/Requests.lean ====
section
/-! DEFINITION. What the owning block answers to each request, and the taking of requests (R185 to R187): `answer…` takes
the BODY and gives the state after the request's effects and the reply composed for it. -/

namespace Sys2Proof.Machine

/-! ### Checks (R186) -/

/-- A refusal other than BAD_VALUE. -/
def refuse (c : RefusalCause) (s : State) : State × Reply := (s, .refused c 0)
/-- A BAD_VALUE refusal naming field `i`. -/
def badValue (i : Nat) (s : State) : State × Reply := (s, .refused .badValue i)

/-- The start-up check is running: a request other than IDENTIFY and EVENTS is refused NOT_READY (R186 step 4). -/
def State.checking (s : State) : Bool := s.store.st == .checking

/-- The order of R186: length, fields in order, start-up, then the owning block's own checks and effects. -/
def checked (length : Bool) (fields : List Bool) (act : State → State × Reply) (s : State) : State × Reply :=
  if !length then refuse .badLength s
  else
    match firstFailure 1 fields with
    | some i => badValue i s
    | none => if s.checking then refuse .notReady s else act s

/-- A request whose body is one number below `n`, field 1. -/
def numbered (n : Nat) (b : List Byte) (act : Fin n → State → State × Reply) (s : State) : State × Reply :=
  checked (b.length == 1) [byteAt b 0 < n]
    (fun s => match below n (byteAt b 0) with
      | none => badValue 1 s
      | some i => act i s) s

/-- A request with no body. -/
def bare (b : List Byte) (act : State → State × Reply) (s : State) : State × Reply := checked b.isEmpty [] act s

/-- OK with a result, nothing changed. -/
def answered (r : List Byte) (s : State) : State × Reply := (s, .ok r)

/-! ### System requests (R182, R190 to R192, R175, R176) -/

/-- IDENTIFY (R190, R197): taken in every state. -/
def answerIdentify (b : List Byte) (s : State) : State × Reply :=
  if b.isEmpty then
    answered [0x15#8, 0x7A#8, 0x40#8, 0x04#8, 0x01#8, 4#8, 128#8, s.events.resetCause.code, onOff !s.checking] s
  else refuse .badLength s

/-- A line block of STATUS (R205). -/
def State.lineBlock (s : State) (n : LineNo) : List Byte :=
  let l := s.line n
  [l.st.code, l.cursor.sub.code, onOff l.postAnswer, l.manual.activity.code, l.supervision.code,
   byteOf ((s.queue n).head?.getD 0), byteOf (s.queue n).length]

/-- The result of STATUS (R191, R205). -/
def State.statusResult (s : State) : List Byte :=
  [s.store.st.code, optByte (fun o => o.kind.code) s.store.op] ++ s.link.settings.encode ++
  (List.finRange 4).flatMap s.lineBlock ++
  [byteOf (24 - s.jobs.table.length), byteOf s.jobs.finished.length] ++
  (s.pool.gens.get 0).encode ++ (s.pool.gens.get 1).encode ++
  counted (fun c => [finCode c.line, c.symbol.code]) s.pool.wait ++
  (List.finRange 4).flatMap fun n => (s.line n).pc.report

/-- STATUS (R191). -/
def answerStatus (b : List Byte) (s : State) : State × Reply := bare b (fun s => answered s.statusResult s) s

/-- SET LINK (R182, R196, R204): the settings are pending in the reply. -/
def answerSetLink (b : List Byte) (s : State) : State × Reply :=
  checked (b.length == 2) [byteAt b 0 ≤ 4, byteAt b 1 ≤ 1]
    (fun s => (s, .okSettings ⟨byteAt b 0, byteAt b 1 == 1⟩)) s

/-- RESET ENGINE (R192). -/
def answerResetEngine (b : List Byte) (s : State) : State × Reply := bare b (fun s => (s.engineReset, .ok [])) s

/-- The snapshot of EVENTS (R175, R202). -/
def State.eventsResult (s : State) (src : SourceNo) : List Byte :=
  let r := s.source src
  [finCode src, r.latched, r.mask, onOff r.noticePending] ++ s.details src

/-- What EVENTS does to its source (R175 steps 2 to 4). -/
def State.clearSource (src : SourceNo) (s : State) : State :=
  (s.putSource src { s.source src with latched := 0#8, noticePending := false }).dropNote src

/-- EVENTS (R175): taken in every state. -/
def answerEvents (b : List Byte) (s : State) : State × Reply :=
  if b.length = 1 then
    match below 7 (byteAt b 0) with
    | none => badValue 1 s
    | some src => (s.clearSource src, .ok (s.eventsResult src))
  else refuse .badLength s

/-- A mask names only flags its source has (R176, R202). -/
def maskFits (b : List Byte) : Bool :=
  match below 7 (byteAt b 0) with
  | none => true
  | some src => b.getD 1 0#8 &&& ~~~(flagsOf src) == 0#8

/-- The mask of a source replaced, acting at once (R176). -/
def State.setMask (src : SourceNo) (m : Byte) (s : State) : State :=
  (s.putSource src { s.source src with mask := m }).queueNotice src

/-- SET MASK (R176). -/
def answerSetMask (b : List Byte) (s : State) : State × Reply :=
  checked (b.length == 2) [byteAt b 0 < 7, maskFits b]
    (fun s => match below 7 (byteAt b 0) with
      | none => badValue 1 s
      | some src => (s.setMask src (b.getD 1 0#8), .ok [])) s

/-! ### Line requests (R5 to R8, R16, R17, R20) -/

/-- A profile written (R5): to both profiles in DISABLED, else to the pending one. -/
def Line.writeProfile (p : Profile) (l : Line) : Line :=
  if l.st = .disabled then { l with committed := p, pendingProfile := p } else { l with pendingProfile := p }

/-- SET PROFILE (R5, R199). -/
def answerSetProfile (b : List Byte) (s : State) : State × Reply :=
  checked (b.length == 37) (decide (byteAt b 0 < 4) :: profileChecks b)
    (fun s => match below 4 (byteAt b 0) with
      | none => badValue 1 s
      | some n => (s.onLine n (Line.writeProfile (profileOf b)), .ok [])) s

/-- READ PROFILE (R6, R204). -/
def answerReadProfile (b : List Byte) (s : State) : State × Reply :=
  numbered 4 b (fun n s =>
    let l := s.line n
    answered ([l.st.code] ++ l.committed.encode ++ l.pendingProfile.encode ++
      [onOff (l.committed != l.pendingProfile)]) s) s

/-- The line ENABLE LINE takes to IDLE (R7, R24). -/
def Line.enable (l : Line) : Line :=
  { l.noBurst with st := .idle, committed := l.pendingProfile, supervision := .off }

/-- ENABLE LINE (R7). -/
def answerEnableLine (b : List Byte) (s : State) : State × Reply :=
  numbered 4 b (fun n s =>
    if (s.line n).st = .disabled then (s.onLine n Line.enable, .ok []) else refuse .wrongState s) s

/-- DISABLE LINE (R8). -/
def answerDisableLine (b : List Byte) (s : State) : State × Reply :=
  numbered 4 b (fun n s =>
    if (s.line n).st = .idle ∧ s.queue n = [] then
      (s.onLine n fun l => { l with st := .disabled }, .ok [])
    else refuse .busy s) s

/-- RELEASE LINE (R20). -/
def answerReleaseLine (b : List Byte) (s : State) : State × Reply :=
  numbered 4 b (fun n s =>
    match s.release n with
    | none => refuse .wrongState s
    | some s' => (s', .ok [])) s

/-- The line on entry to HELD (R16). -/
def Line.enterHeld (now : Nat) (l : Line) : Line := { l.startSession now with st := .held }

/-- HOLD in CONNECTED (R16, R52): the manual digit ends, the line enters HELD. -/
def State.hold (n : LineNo) (s : State) : State :=
  let s := s.endManual n
  (s.onLine n (Line.enterHeld s.now)).reportPhase n .held

/-- HOLD (R16). -/
def answerHold (b : List Byte) (s : State) : State × Reply :=
  numbered 4 b (fun n s =>
    if (s.line n).st = .connected then (s.hold n, .ok []) else refuse .wrongState s) s

/-- UNHOLD (R16). -/
def answerUnhold (b : List Byte) (s : State) : State × Reply :=
  numbered 4 b (fun n s =>
    if (s.line n).st = .held then (s.enterConnected n, .ok []) else refuse .wrongState s) s

/-- The items of a counted list that begins at offset `i` of a body. -/
def itemsAt (b : List Byte) (i : Nat) : List Byte := (b.drop (i + 1)).take (byteAt b i)

/-- A program of `lo` to `hi` symbols of the set (R17, R101, R140). -/
def programFits (lo hi : Nat) (bs : List Byte) : Bool :=
  inRange lo hi bs.length && (Symbol.readAll bs).isSome

/-- SEND DIGITS (R17, R196). -/
def answerSendDigits (b : List Byte) (s : State) : State × Reply :=
  let items := itemsAt b 1
  checked (2 ≤ b.length && b.length == 2 + byteAt b 1) [byteAt b 0 < 4, programFits 1 32 items]
    (fun s => match below 4 (byteAt b 0), Symbol.readAll items with
      | some n, some p =>
        match (s.line n).sendRefusal p with
        | some (c, i) => (s, .refused c i)
        | none => (s.startSend n p, .ok [])
      | _, _ => badValue 1 s) s

/-! ### Job requests (R101, R114 to R119) -/

/-- The body of SUBMIT JOB has the length its kind and count call for (R101, R198). -/
def submitLength (b : List Byte) : Bool :=
  7 ≤ b.length && (if byteAt b 1 = 0 then b.length == 7 + byteAt b 6 else b.length == 7)

/-- The last field of SUBMIT JOB (R101 and its method check, R35, R198 index 7): the program, allowed under an override
of PULSE, or the entry index. -/
def submitTargetFits (b : List Byte) : Bool :=
  if byteAt b 1 = 0 then
    programFits 1 32 (itemsAt b 6) &&
      (byteAt b 4 != 1 || ((Symbol.readAll (itemsAt b 6)).map (Method.allowsAll .pulse)).getD false)
  else byteAt b 6 < 128

/-- The fields of SUBMIT JOB (R101). -/
def submitChecks (b : List Byte) : List Bool :=
  [ byteAt b 0 < 4, byteAt b 1 ≤ 1, byteAt b 2 ≤ 1, byteAt b 3 == 0 || (byteAt b 3 == 1 && byteAt b 1 == 1),
    byteAt b 4 ≤ 2, byteAt b 5 ≤ 9, submitTargetFits b ]

/-- What a body that passes its checks dials. -/
def submitTarget (b : List Byte) : Option Target :=
  if byteAt b 1 = 0 then (Symbol.readAll (itemsAt b 6)).map .inline else (below 128 (byteAt b 6)).map .entry

/-- The submission of a body that passes its checks (R101). -/
def submissionOf (b : List Byte) : Option Submission :=
  match below 4 (byteAt b 0), submitTarget b with
  | some n, some t =>
    some { line := n, origin := .link, target := t, supervised := byteAt b 2 == 1, followChain := byteAt b 3 == 1
           methodOverride := Method.ofCode (byteAt b 4), attemptsOverride := byteAt b 5 }
  | _, _ => none

/-- The refusal a submission failure gives on the link (R101). -/
def SubmitFail.refusal : SubmitFail → RefusalCause
  | .wrongState => .wrongState
  | .queueFull => .queueFull
  | .tableFull => .tableFull
  | .duplicate => .badValue

/-- SUBMIT JOB (R101 to R103). -/
def answerSubmitJob (b : List Byte) (s : State) : State × Reply :=
  checked (submitLength b) (submitChecks b)
    (fun s => match submissionOf b with
      | none => badValue 1 s
      | some x =>
        match s.submitFailure x with
        | some f => refuse f.refusal s
        | none =>
          let s := s.acceptJob x
          (s, .accepted [byteOf s.jobs.lastId])) s

/-- A request that names a job (R95): an identifier of 0 is BAD_VALUE, one that no slot holds NO_SUCH_JOB. -/
def onNamedJob (b : List Byte) (act : Job → State → State × Reply) (s : State) : State × Reply :=
  checked (b.length == 1) [byteAt b 0 != 0]
    (fun s => match s.job (byteAt b 0) with
      | none => refuse .noSuchJob s
      | some j => act j s) s

/-- CANCEL JOB (R114). -/
def answerCancelJob (b : List Byte) (s : State) : State × Reply :=
  onNamedJob b (fun j s => if j.state = .finished then refuse .wrongState s else (s.cancelJob j, .ok [])) s

/-- QUERY JOB (R116). -/
def answerQueryJob (b : List Byte) (s : State) : State × Reply :=
  onNamedJob b (fun j s => answered (j.record false) s) s

/-- A FINISHED job collected (R117): it leaves the finished list and the table. -/
def State.collect (j : Job) (s : State) : State :=
  s.onJobs fun e => { e with table := e.table.filter fun x => x.id != j.id, finished := e.finished.erase j.id }

/-- COLLECT JOB (R117). -/
def answerCollectJob (b : List Byte) (s : State) : State × Reply :=
  onNamedJob b (fun j s =>
    if j.state = .finished then (s.collect j, .ok (j.record true)) else answered (j.record false) s) s

/-- COLLECT OLDEST (R118). -/
def answerCollectOldest (b : List Byte) (s : State) : State × Reply :=
  bare b (fun s =>
    match s.jobs.finished.head?.bind s.job with
    | none => refuse .noSuchJob s
    | some j => (s.collect j, .ok (j.record true))) s

/-- The result of LIST JOBS (R119, R206). -/
def JobEngine.listing (e : JobEngine) : List Byte :=
  (List.finRange 4).flatMap (fun n => counted (fun i => [byteOf i]) (e.queues.get n)) ++
  counted (fun i => [byteOf i]) e.finished ++ [byteOf (24 - e.table.length), byteOf e.lastId]

/-- LIST JOBS (R119). -/
def answerListJobs (b : List Byte) (s : State) : State × Reply := bare b (fun s => answered s.jobs.listing s) s

/-! ### Cadence requests (R72 to R74) -/

/-- The body of LOAD CADENCE has the length its form and count call for (R201). -/
def cadenceLength (b : List Byte) : Bool :=
  if byteAt b 2 = 1 then 4 ≤ b.length && b.length == 5 + 8 * byteAt b 3 else b.length == 5

/-- The segment `i` of a LOAD CADENCE body (R201). -/
def segmentAt (b : List Byte) (i : Nat) : Segment :=
  ⟨wordAt b (4 + 8 * i), wordAt b (6 + 8 * i), wordAt b (8 + 8 * i), wordAt b (10 + 8 * i)⟩

/-- The checks of a segment's windows in order (R72): each in range, and no maximum below its minimum. -/
def Segment.checks (g : Segment) : List Bool :=
  [ inRange 1 1000 g.onMin, inRange 1 1000 g.onMax && g.onMin ≤ g.onMax,
    inRange 1 1000 g.offMin, inRange 1 1000 g.offMax && g.offMin ≤ g.offMax ]

/-- The segments of a CADENCED body, as its count carries them; a count out of range has failed before they are read. -/
def segmentsOf (b : List Byte) : List Segment := (List.range (min 4 (byteAt b 3))).map (segmentAt b)

/-- `confirm_cycles` of a CADENCED body. -/
def cyclesOf (b : List Byte) : Nat := byteAt b (4 + 8 * byteAt b 3)

/-- The fields of LOAD CADENCE (R72, R201). -/
def cadenceChecks (b : List Byte) : List Bool :=
  ([ byteAt b 0 < 8, inRange 1 6 (byteAt b 1), byteAt b 2 ≤ 1 ] : List Bool) ++
  (if byteAt b 2 = 1 then
    [inRange 1 4 (byteAt b 3)] ++ (segmentsOf b).flatMap Segment.checks ++ [inRange 1 4 (cyclesOf b)]
  else [inRange 10 1000 (wordAt b 3)])

/-- The template of a body that passes its checks. -/
def templateOf (b : List Byte) : Option Template :=
  (ToneClass.ofCode (byteAt b 1)).map fun c =>
    ⟨c, if byteAt b 2 = 1 then .cadenced (segmentsOf b) (cyclesOf b) else .steady (wordAt b 3)⟩

/-- LOAD CADENCE (R72, R92). -/
def answerLoadCadence (b : List Byte) (s : State) : State × Reply :=
  checked (cadenceLength b) (cadenceChecks b)
    (fun s => match below 8 (byteAt b 0), templateOf b with
      | some k, some t => (s.writeSlot k (some t), .ok [])
      | _, _ => badValue 1 s) s

/-- READ CADENCE (R73). -/
def answerReadCadence (b : List Byte) (s : State) : State × Reply :=
  numbered 8 b (fun k s => answered (templateResult k (s.cadence.get k)) s) s

/-- CLEAR CADENCE (R74). -/
def answerClearCadence (b : List Byte) (s : State) : State × Reply :=
  numbered 8 b (fun k s => (s.writeSlot k none, .ok [])) s

/-! ### Store requests (R139 to R151) -/

/-- READ ENTRY (R139). -/
def answerReadEntry (b : List Byte) (s : State) : State × Reply :=
  numbered 128 b (fun e s =>
    if s.store.covers (blockOf e) then refuse .busy s
    else answered (entryResult e (s.store.dead (blockOf e)) (s.store.entry e)) s) s

/-- The digits of a WRITE ENTRY body. -/
def entryDigits (b : List Byte) : List Byte := itemsAt b 4
/-- The offset of the label's count in a WRITE ENTRY body. -/
def labelAt (b : List Byte) : Nat := 5 + byteAt b 4

/-- The body of WRITE ENTRY has the length its counts call for (R140, R200). -/
def entryLength (b : List Byte) : Bool :=
  6 + byteAt b 4 ≤ b.length && b.length == 6 + byteAt b 4 + byteAt b (labelAt b)

/-- A printable character (R135). -/
def printable (c : Byte) : Bool := inRange 0x20 0x7E c.toNat

/-- The fields of WRITE ENTRY in the order of R140: index, method, max_attempts, fallback, digits, label. -/
def entryChecks (b : List Byte) : List Bool :=
  [ byteAt b 0 < 128, byteAt b 1 ≤ 2, byteAt b 2 ≤ 9,
    byteAt b 3 == 0xFF || (byteAt b 3 < 128 && byteAt b 3 != byteAt b 0),
    programFits 1 24 (entryDigits b), byteAt b (labelAt b) ≤ 12 && (itemsAt b (labelAt b)).all printable ]

/-- The pulse digits of WRITE ENTRY (R140 step 7). -/
def entryPulseFits (b : List Byte) : Bool :=
  byteAt b 1 != 1 || ((Symbol.readAll (entryDigits b)).map (Method.allowsAll .pulse)).getD false

/-- The entry of a body that passes its checks. -/
def entryOf (b : List Byte) : Option EntryFields :=
  match EntryMethod.ofCode (byteAt b 1), Symbol.readAll (entryDigits b) with
  | some m, some d => some ⟨m, byteAt b 2, below 128 (byteAt b 3), d, itemsAt b (labelAt b)⟩
  | _, _ => none

/-- A WRITE or ERASE begun on the block of entry `e` (R140 to R142): LOAD copies the block and changes the slot. -/
def State.startEntryOp (kind : OpKind) (e : EntryNo) (p : PhysicalNo) (x : Entry) (s : State) : State :=
  let b := blockOf e
  s.startOp kind (some e) (.block b p ((s.store.slots b).set (slotOf e) x))

/-- WRITE ENTRY (R140): digits of a PULSE entry are checked after the label and name field 5. -/
def answerWriteEntry (b : List Byte) (s : State) : State × Reply :=
  if !entryLength b then refuse .badLength s
  else
    match firstFailure 1 (entryChecks b) with
    | some i => badValue i s
    | none =>
      if !entryPulseFits b then badValue 5 s
      else if s.checking then refuse .notReady s
      else if s.store.st = .busy then refuse .busy s
      else
        match below 128 (byteAt b 0), entryOf b with
        | some e, some f =>
          match s.store.map.get (blockOf e) with
          | none => refuse .deadBlock s
          | some p => (s.startEntryOp .write e p (.valid f), .accepted [])
        | _, _ => badValue 1 s

/-- ERASE ENTRY (R141). -/
def answerEraseEntry (b : List Byte) (s : State) : State × Reply :=
  numbered 128 b (fun e s =>
    if s.store.st = .busy then refuse .busy s
    else
      match s.store.map.get (blockOf e) with
      | none => refuse .deadBlock s
      | some p =>
        if s.store.entry e = .blank then refuse .entryBlank s
        else (s.startEntryOp .erase e p .blank, .accepted [])) s

/-- FORMAT begun (R147): the first mapped block is erased; with every block dead the format completes at once ([35]). -/
def State.startFormat (s : State) : State :=
  match s.store.nextMapped 0 with
  | some (b, p) => s.startOp .format none (.block b p blankSlots)
  | none => s.completeOp ⟨.format, none, .settings none, .load, false, s.now⟩ .ok

/-- FORMAT STORE (R147). -/
def answerFormatStore (b : List Byte) (s : State) : State × Reply :=
  bare b (fun s => if s.store.st = .busy then refuse .busy s else (s.startFormat, .accepted [])) s

/-- The items of the operation record in STORE STATUS (R151, R207). -/
def operationItems : Option OpRecord → List Byte
  | none => [absent, absent, absent, absent, absent]
  | some o => [o.kind.code, optByte finCode o.index, o.target.logical, o.target.physical, o.phase.code]

/-- The result of STORE STATUS (R151, R207). -/
def Store.statusResult (st : Store) : List Byte :=
  [st.st.code] ++ operationItems st.op ++ st.map.items.map (optByte finCode) ++
  [byteOf (st.blocks.items.countP fun p => p.role == .retired)] ++
  st.blocks.items.flatMap (fun p => wordOf p.eraseCount) ++ [st.settingsCondition.code] ++
  counted (fun p => [finCode p]) st.spares

/-- STORE STATUS (R151). -/
def answerStoreStatus (b : List Byte) (s : State) : State × Reply :=
  bare b (fun s => answered s.store.statusResult s) s

/-- SAVE SETTINGS (R149). -/
def answerSaveSettings (b : List Byte) (s : State) : State × Reply :=
  bare b (fun s =>
    if s.store.st = .busy then refuse .busy s
    else (s.startOp .save none (.settings (some s.snapshot)), .accepted [])) s

/-- CLEAR SETTINGS (R150). -/
def answerClearSettings (b : List Byte) (s : State) : State × Reply :=
  bare b (fun s =>
    if s.store.st = .busy then refuse .busy s
    else (s.startOp .clear none (.settings none), .accepted [])) s

/-! ### Key requests (R160, R163, R164, R167) -/

/-- The length of a BIND KEY body for its action byte (R196). -/
def bindLength (b : List Byte) : Bool :=
  2 ≤ b.length &&
    match byteAt b 1 with
    | 1 => b.length == 4
    | 2 => b.length == 3
    | 3 => b.length == 3
    | 4 => b.length == 4
    | _ => b.length == 2

/-- The fields of BIND KEY (R163). -/
def bindChecks (b : List Byte) : List Bool :=
  [byteAt b 0 < 20, byteAt b 1 ≤ 4, byteAt b 1 == 0 || byteAt b 2 < 4,
    match byteAt b 1 with
    | 1 => byteAt b 3 < 128
    | 4 => (Symbol.ofCode (b.getD 3 0#8)).isSome
    | _ => true]

/-- The binding of a body that passes its checks. -/
def bindingOf (b : List Byte) : Option Binding :=
  match byteAt b 1, below 4 (byteAt b 2) with
  | 0, _ => some .none
  | 1, some n => (below 128 (byteAt b 3)).map (.job n)
  | 2, some n => some (.release n)
  | 3, some n => some (.cancel n)
  | 4, some n => (Symbol.ofCode (b.getD 3 0#8)).map (.digit n)
  | _, _ => none

/-- BIND KEY (R163). -/
def answerBindKey (b : List Byte) (s : State) : State × Reply :=
  checked (bindLength b) (bindChecks b)
    (fun s => match below 20 (byteAt b 0), bindingOf b with
      | some k, some x => (s.onKey k fun key => { key with binding := x }, .ok [])
      | _, _ => badValue 1 s) s

/-- READ BINDING (R164, R208). -/
def answerReadBinding (b : List Byte) (s : State) : State × Reply :=
  numbered 20 b (fun k s =>
    let key := s.key k
    answered (key.binding.encode ++ [key.live.code, key.cond.code]) s) s

/-- SET SCAN (R167): E0 is read first and E3 last, DESIGN CHOICE [41]. Then the stability timers that the new `debounce_ms`
makes overdue expire (R157); an input whose active level changed has none left, since its re-read stopped it: that the
re-read comes first is DESIGN CHOICE [44]. -/
def answerSetScan (b : List Byte) (s : State) : State × Reply :=
  checked (b.length == 5)
    [inRange 10 50 (byteAt b 0), byteAt b 1 ≤ 1, byteAt b 2 ≤ 1, byteAt b 3 ≤ 1, byteAt b 4 ≤ 1]
    (fun s =>
      let s := s.onKeys fun ks => { ks with debounceMs := byteAt b 0 }
      let s := ((s.relevel 0 (byteAt b 1 == 1)).relevel 1 (byteAt b 2 == 1)).relevel 2 (byteAt b 3 == 1)
      ((s.relevel 3 (byteAt b 4 == 1)).expireKeys, .ok [])) s

/-- The result of READ KEYS (R160, R208). -/
def KeyScanner.readResult (ks : KeyScanner) : List Byte :=
  let down := (List.finRange 20).filter fun k => (ks.all.get k).cond == .down
  counted KeyRecord.encode (ks.queue.take 8) ++
  [byteOf (ks.queue.length - 8), onOff (!ks.deferred.isEmpty)] ++ counted (fun k => [finCode k]) down

/-- READ KEYS (R160). -/
def answerReadKeys (b : List Byte) (s : State) : State × Reply :=
  bare b (fun s =>
    (s.onKeys fun ks => { ks with queue := ks.queue.drop 8 }, .ok s.keys.readResult)) s

/-! ### Taking requests (R185, R186) -/

/-- The request a KIND names, carried to its owning block; a KIND that names none is refused UNKNOWN_KIND (R186 step
1, R196). -/
def answerRequest (f : Frame) (s : State) : State × Reply :=
  match f.kind.toNat with
  | 0x01 => answerIdentify f.body s
  | 0x02 => answerStatus f.body s
  | 0x03 => answerSetLink f.body s
  | 0x04 => answerResetEngine f.body s
  | 0x05 => answerEvents f.body s
  | 0x06 => answerSetMask f.body s
  | 0x10 => answerSetProfile f.body s
  | 0x11 => answerReadProfile f.body s
  | 0x12 => answerEnableLine f.body s
  | 0x13 => answerDisableLine f.body s
  | 0x14 => answerReleaseLine f.body s
  | 0x15 => answerHold f.body s
  | 0x16 => answerUnhold f.body s
  | 0x17 => answerSendDigits f.body s
  | 0x20 => answerSubmitJob f.body s
  | 0x21 => answerCancelJob f.body s
  | 0x22 => answerQueryJob f.body s
  | 0x23 => answerCollectJob f.body s
  | 0x24 => answerCollectOldest f.body s
  | 0x25 => answerListJobs f.body s
  | 0x30 => answerLoadCadence f.body s
  | 0x31 => answerReadCadence f.body s
  | 0x32 => answerClearCadence f.body s
  | 0x40 => answerReadEntry f.body s
  | 0x41 => answerWriteEntry f.body s
  | 0x42 => answerEraseEntry f.body s
  | 0x43 => answerFormatStore f.body s
  | 0x44 => answerStoreStatus f.body s
  | 0x45 => answerSaveSettings f.body s
  | 0x46 => answerClearSettings f.body s
  | 0x50 => answerBindKey f.body s
  | 0x51 => answerReadBinding f.body s
  | 0x52 => answerSetScan f.body s
  | 0x53 => answerReadKeys f.body s
  | _ => refuse .unknownKind s

/-- A frame taken as a request (R185): its effects, then its reply at the tail of the queue. -/
def State.takeFrame (f : Frame) (s : State) : State :=
  let r := answerRequest f s
  r.1.pushReply f.tag r.2

/-- Frames taken from the head of the inbound buffer while fewer than 3 replies stand (R185), at most `fuel` of them. -/
def State.drain : Nat → State → State
  | 0, s => s
  | fuel + 1, s =>
    match s.link.inbound with
    | [] => s
    | f :: rest =>
      if s.link.replies < 3 then
        ((s.onLink fun k => { k with inbound := rest }).takeFrame f).drain fuel
      else s

/-- A good frame (R184 steps 3 and 4): OVERRUN with two frames in the buffer, else it joins the tail, and the port
tests whether to take (R185). The buffer holds at most two, and taking a request adds none. -/
def State.goodFrame (f : Frame) (s : State) : State :=
  if 2 ≤ s.link.inbound.length then s.linkError .overrun
  else (s.onLink fun k => { k with inbound := k.inbound ++ [f] }).drain 2

/-- A complete good frame arriving on RXD ([3]). -/
def State.arrive (kind tag : Byte) (body : List Byte) (s : State) : State :=
  if s.linkListens then s.goodFrame ⟨kind, tag, body⟩ else s

/-- A frame judged at its CHECK byte (R184). -/
def State.judge (mark : Option LinkError) (sumOk : Bool) (bytes : List Byte) (s : State) : State :=
  match mark with
  | some e => s.linkError e
  | none =>
    if !sumOk then s.linkError .badCheck
    else
      let s := s.onLink fun k => { k with rx := Receiver.hunting }
      match Frame.ofBytes bytes with
      | none => s
      | some f => s.goodFrame f

/-- The head record leaves the queue and its frame begins; where it is a reply, the port tests whether to take a frame
(R188, R185). -/
def State.beginFrame (s : State) : State :=
  match s.link.outbound with
  | [] => s
  | r :: rest =>
    let s := s.onLink fun k => { k with outbound := rest, tx := .sending r r.frame }
    if r.isReply then s.drain 2 else s

end Sys2Proof.Machine
end

