-- ==== Sys2Proof/Machine/ExLink.lean ====
section
/-! DEFINITION. The meanings of the events on RXD, TXD and LHOLD (chapter 10). -/

namespace Sys2Proof.Machine

/-- A byte taken while the receiver listens (R183, R184). -/
def State.takeByte (b : Byte) (err : ByteError) (s : State) : State :=
  match s.link.rx.take b (s.link.errorOf err) s.now with
  | .receiving r => s.onLink fun k => { k with rx := r }
  | .judge mark sumOk bytes => s.judge mark sumOk bytes
  | .badLength => s.linkError .badLength

/-- RECEIVE_BYTE (R183): nothing while the part is held (R193) or a break is in progress (R189). -/
def execReceiveByte (b : Byte) (err : ByteError) (s : State) : Host.Outcome State Fault Refusal :=
  .next (if s.linkListens then s.takeByte b err else s)

/-- INTER_BYTE_GAP_TIMER_EXPIRY (R183): the frame is discarded with TIMEOUT ([13]). -/
def execInterByteGapTimerExpiry (s : State) : Host.Outcome State Fault Refusal :=
  .next (s.onDue s.link.rx.gap (State.linkError .timeout))

/-- A break taken (R189): the Link Port, then the Event Unit (R180). RXD has stood at space for 25 ms ([26]). -/
def State.takeBreak (straps : BitVec 3) (s : State) : State :=
  { s with
    pins := { s.pins with straps := straps }
    link := LinkPort.atBreak straps (s.now - Config.breakMs) }.eventBreak

/-- BREAK (R189): one break until RXD has returned to mark. -/
def execLinkBreak (straps : BitVec 3) (s : State) : Host.Outcome State Fault Refusal :=
  .next (if s.linkListens then s.takeBreak straps else s)

/-- BREAK_END (R189): RXD returns to mark. -/
def execBreakEnd (s : State) : Host.Outcome State Fault Refusal :=
  .next (s.onLink fun k => { k with breakSince := none })

/-- LHOLD_CHANGE (R188): the level that FRAME_BEGIN reads. -/
def execLholdChange (active : Bool) (s : State) : Host.Outcome State Fault Refusal :=
  .next { s with pins := { s.pins with lhold := active } }

/-- FRAME_BEGIN (R188). -/
def execFrameBegin (s : State) : Host.Outcome State Fault Refusal :=
  .next (if s.canBegin then s.beginFrame else s)

/-- FRAME_END (R188, R182): the transmitter becomes IDLE, and a SET LINK reply applies its settings. -/
def execFrameEnd (s : State) : Host.Outcome State Fault Refusal :=
  .next (match s.link.tx with
    | .idle => s
    | .sending r _ => s.onLink fun k => { k with tx := .idle, settings := r.settings.getD k.settings })

end Sys2Proof.Machine
end

