-- ==== Sys2Proof/Machine/ExRequests.lean ====
section
/-! DEFINITION. The meanings of the requests: a complete good frame of the kind arrives on RXD ([3]); when the port takes
it, the answer of Machine/Requests.lean is carried out (R185). -/

namespace Sys2Proof.Machine

/-- IDENTIFY (R190, answered by `answerIdentify`). -/
def execIdentify (tag : Byte) (body : List Byte) (s : State) : Host.Outcome State Fault Refusal :=
  .next (s.arrive 0x01#8 tag body)

/-- STATUS (R191, answered by `answerStatus`). -/
def execStatus (tag : Byte) (body : List Byte) (s : State) : Host.Outcome State Fault Refusal :=
  .next (s.arrive 0x02#8 tag body)

/-- SET_LINK (R182, answered by `answerSetLink`). -/
def execSetLink (tag : Byte) (body : List Byte) (s : State) : Host.Outcome State Fault Refusal :=
  .next (s.arrive 0x03#8 tag body)

/-- RESET_ENGINE (R192, answered by `answerResetEngine`). -/
def execResetEngine (tag : Byte) (body : List Byte) (s : State) : Host.Outcome State Fault Refusal :=
  .next (s.arrive 0x04#8 tag body)

/-- EVENTS (R175, answered by `answerEvents`). -/
def execEvents (tag : Byte) (body : List Byte) (s : State) : Host.Outcome State Fault Refusal :=
  .next (s.arrive 0x05#8 tag body)

/-- SET_MASK (R176, answered by `answerSetMask`). -/
def execSetMask (tag : Byte) (body : List Byte) (s : State) : Host.Outcome State Fault Refusal :=
  .next (s.arrive 0x06#8 tag body)

/-- SET_PROFILE (R5, answered by `answerSetProfile`). -/
def execSetProfile (tag : Byte) (body : List Byte) (s : State) : Host.Outcome State Fault Refusal :=
  .next (s.arrive 0x10#8 tag body)

/-- READ_PROFILE (R6, answered by `answerReadProfile`). -/
def execReadProfile (tag : Byte) (body : List Byte) (s : State) : Host.Outcome State Fault Refusal :=
  .next (s.arrive 0x11#8 tag body)

/-- ENABLE_LINE (R7, answered by `answerEnableLine`). -/
def execEnableLine (tag : Byte) (body : List Byte) (s : State) : Host.Outcome State Fault Refusal :=
  .next (s.arrive 0x12#8 tag body)

/-- DISABLE_LINE (R8, answered by `answerDisableLine`). -/
def execDisableLine (tag : Byte) (body : List Byte) (s : State) : Host.Outcome State Fault Refusal :=
  .next (s.arrive 0x13#8 tag body)

/-- RELEASE_LINE (R20, answered by `answerReleaseLine`). -/
def execReleaseLine (tag : Byte) (body : List Byte) (s : State) : Host.Outcome State Fault Refusal :=
  .next (s.arrive 0x14#8 tag body)

/-- HOLD (R16, answered by `answerHold`). -/
def execHold (tag : Byte) (body : List Byte) (s : State) : Host.Outcome State Fault Refusal :=
  .next (s.arrive 0x15#8 tag body)

/-- UNHOLD (R16, answered by `answerUnhold`). -/
def execUnhold (tag : Byte) (body : List Byte) (s : State) : Host.Outcome State Fault Refusal :=
  .next (s.arrive 0x16#8 tag body)

/-- SEND_DIGITS (R17, answered by `answerSendDigits`). -/
def execSendDigits (tag : Byte) (body : List Byte) (s : State) : Host.Outcome State Fault Refusal :=
  .next (s.arrive 0x17#8 tag body)

/-- SUBMIT_JOB (R101, answered by `answerSubmitJob`). -/
def execSubmitJob (tag : Byte) (body : List Byte) (s : State) : Host.Outcome State Fault Refusal :=
  .next (s.arrive 0x20#8 tag body)

/-- CANCEL_JOB (R114, answered by `answerCancelJob`). -/
def execCancelJob (tag : Byte) (body : List Byte) (s : State) : Host.Outcome State Fault Refusal :=
  .next (s.arrive 0x21#8 tag body)

/-- QUERY_JOB (R116, answered by `answerQueryJob`). -/
def execQueryJob (tag : Byte) (body : List Byte) (s : State) : Host.Outcome State Fault Refusal :=
  .next (s.arrive 0x22#8 tag body)

/-- COLLECT_JOB (R117, answered by `answerCollectJob`). -/
def execCollectJob (tag : Byte) (body : List Byte) (s : State) : Host.Outcome State Fault Refusal :=
  .next (s.arrive 0x23#8 tag body)

/-- COLLECT_OLDEST (R118, answered by `answerCollectOldest`). -/
def execCollectOldest (tag : Byte) (body : List Byte) (s : State) : Host.Outcome State Fault Refusal :=
  .next (s.arrive 0x24#8 tag body)

/-- LIST_JOBS (R119, answered by `answerListJobs`). -/
def execListJobs (tag : Byte) (body : List Byte) (s : State) : Host.Outcome State Fault Refusal :=
  .next (s.arrive 0x25#8 tag body)

/-- LOAD_CADENCE (R72, answered by `answerLoadCadence`). -/
def execLoadCadence (tag : Byte) (body : List Byte) (s : State) : Host.Outcome State Fault Refusal :=
  .next (s.arrive 0x30#8 tag body)

/-- READ_CADENCE (R73, answered by `answerReadCadence`). -/
def execReadCadence (tag : Byte) (body : List Byte) (s : State) : Host.Outcome State Fault Refusal :=
  .next (s.arrive 0x31#8 tag body)

/-- CLEAR_CADENCE (R74, answered by `answerClearCadence`). -/
def execClearCadence (tag : Byte) (body : List Byte) (s : State) : Host.Outcome State Fault Refusal :=
  .next (s.arrive 0x32#8 tag body)

/-- READ_ENTRY (R139, answered by `answerReadEntry`). -/
def execReadEntry (tag : Byte) (body : List Byte) (s : State) : Host.Outcome State Fault Refusal :=
  .next (s.arrive 0x40#8 tag body)

/-- WRITE_ENTRY (R140, answered by `answerWriteEntry`). -/
def execWriteEntry (tag : Byte) (body : List Byte) (s : State) : Host.Outcome State Fault Refusal :=
  .next (s.arrive 0x41#8 tag body)

/-- ERASE_ENTRY (R141, answered by `answerEraseEntry`). -/
def execEraseEntry (tag : Byte) (body : List Byte) (s : State) : Host.Outcome State Fault Refusal :=
  .next (s.arrive 0x42#8 tag body)

/-- FORMAT_STORE (R147, answered by `answerFormatStore`). -/
def execFormatStore (tag : Byte) (body : List Byte) (s : State) : Host.Outcome State Fault Refusal :=
  .next (s.arrive 0x43#8 tag body)

/-- STORE_STATUS (R151, answered by `answerStoreStatus`). -/
def execStoreStatus (tag : Byte) (body : List Byte) (s : State) : Host.Outcome State Fault Refusal :=
  .next (s.arrive 0x44#8 tag body)

/-- SAVE_SETTINGS (R149, answered by `answerSaveSettings`). -/
def execSaveSettings (tag : Byte) (body : List Byte) (s : State) : Host.Outcome State Fault Refusal :=
  .next (s.arrive 0x45#8 tag body)

/-- CLEAR_SETTINGS (R150, answered by `answerClearSettings`). -/
def execClearSettings (tag : Byte) (body : List Byte) (s : State) : Host.Outcome State Fault Refusal :=
  .next (s.arrive 0x46#8 tag body)

/-- BIND_KEY (R163, answered by `answerBindKey`). -/
def execBindKey (tag : Byte) (body : List Byte) (s : State) : Host.Outcome State Fault Refusal :=
  .next (s.arrive 0x50#8 tag body)

/-- READ_BINDING (R164, answered by `answerReadBinding`). -/
def execReadBinding (tag : Byte) (body : List Byte) (s : State) : Host.Outcome State Fault Refusal :=
  .next (s.arrive 0x51#8 tag body)

/-- SET_SCAN (R167, answered by `answerSetScan`). -/
def execSetScan (tag : Byte) (body : List Byte) (s : State) : Host.Outcome State Fault Refusal :=
  .next (s.arrive 0x52#8 tag body)

/-- READ_KEYS (R160, answered by `answerReadKeys`). -/
def execReadKeys (tag : Byte) (body : List Byte) (s : State) : Host.Outcome State Fault Refusal :=
  .next (s.arrive 0x53#8 tag body)

/-- UNKNOWN_KIND (R186 step 1): a frame whose KIND names no request. -/
def execUnknownKind (kind tag : Byte) (body : List Byte) (s : State) : Host.Outcome State Fault Refusal :=
  .next (s.arrive kind tag body)

end Sys2Proof.Machine
end

