-- ==== Sys2Proof/Machine/ExStore.lean ====
section
/-! DEFINITION. The meanings of the ends of the store's phases (R142, R143, R153). -/

namespace Sys2Proof.Machine

/-- STORE_ERASE_END (R142): PROGRAM begins. -/
def execStoreEraseEnd (s : State) : Host.Outcome State Fault Refusal :=
  .next (match s.store.workIn .erase with
    | none => s
    | some (.op o) => s.opEraseEnd o
    | some (.rewrite r) => s.rewriteAt r.b r.p .program)

/-- STORE_PROGRAM_END (R142): VERIFY begins. -/
def execStoreProgramEnd (s : State) : Host.Outcome State Fault Refusal :=
  .next (match s.store.workIn .program with
    | none => s
    | some (.op o) => s.opProgramEnd o
    | some (.rewrite r) => s.rewriteProgramEnd r)

/-- STORE_VERIFY_PASS (R142): the store medium passes the comparison ([24]). -/
def execStoreVerifyPass (s : State) : Host.Outcome State Fault Refusal :=
  .next (match s.store.workIn .verify with
    | none => s
    | some (.op o) => s.opVerifyPass o
    | some (.rewrite r) => s.rewriteVerifyPass r)

/-- STORE_VERIFY_FAIL (R143, R144): the store medium fails the comparison ([24]). -/
def execStoreVerifyFail (s : State) : Host.Outcome State Fault Refusal :=
  .next (match s.store.workIn .verify with
    | none => s
    | some (.op o) => s.opVerifyFail o
    | some (.rewrite r) => s.rewriteVerifyFail r)

end Sys2Proof.Machine
end

