-- ==== Sys2Proof/Machine/ExSystem.lean ====
section
/-! DEFINITION. The meanings of the resets, the start and the start-up check. -/

namespace Sys2Proof.Machine

/-- POWER_ON (R193): every block in its power-on state, the straps read, reset cause POWER_ON. It is taken at any time
([34]). -/
def execPowerOn (straps : BitVec 3) (s : State) : Host.Outcome State Fault Refusal :=
  .next (s.toPowerOn .powerOn straps)

/-- PIN_RESET (R193): every block in its power-on state, reset cause PIN. -/
def execPinReset (s : State) : Host.Outcome State Fault Refusal := .next (s.toPowerOn .pin s.pins.straps)

/-- PART_START (R193): a held part starts. -/
def execPartStart (straps : BitVec 3) (s : State) : Host.Outcome State Fault Refusal :=
  .next (if s.held then s.start straps else s)

/-- The logical block the check takes next, with no rewrite in progress. -/
def Store.nextCheck (st : Store) : Option Nat :=
  match st.check with
  | some ⟨k, none⟩ => some k
  | _ => none

/-- START_UP_BLOCK_CHECK (R153): the check takes its next logical block. -/
def execStartUpBlockCheck (s : State) : Host.Outcome State Fault Refusal :=
  .next (match s.store.nextCheck.bind (below 32) with
    | none => s
    | some b => s.checkBlock b)

/-- STARTUP_CHECK_END (R154): every logical block done, the settings block is read. -/
def execStartupCheckEnd (s : State) : Host.Outcome State Fault Refusal :=
  .next (if s.store.nextCheck = some 32 then s.endCheck else s)

end Sys2Proof.Machine
end

