-- ==== Sys2Proof/Machine/Dispatch.lean ====
section
/-! DEFINITION. The dispatch of a command to its meaning, one arm per row of spec/opcode_table.json. -/

namespace Sys2Proof.Machine

/-- The effect of a command on everything but the queue. -/
def exec (i : Instr) (s : State) : Host.Outcome State Fault Refusal :=
  match i with
  | .powerOn straps => Sys2Proof.Machine.execPowerOn straps s
  | .pinReset => Sys2Proof.Machine.execPinReset s
  | .partStart straps => Sys2Proof.Machine.execPartStart straps s
  | .startUpBlockCheck => Sys2Proof.Machine.execStartUpBlockCheck s
  | .startupCheckEnd => Sys2Proof.Machine.execStartupCheckEnd s
  | .identify tag body => Sys2Proof.Machine.execIdentify tag body s
  | .status tag body => Sys2Proof.Machine.execStatus tag body s
  | .setLink tag body => Sys2Proof.Machine.execSetLink tag body s
  | .resetEngine tag body => Sys2Proof.Machine.execResetEngine tag body s
  | .events tag body => Sys2Proof.Machine.execEvents tag body s
  | .setMask tag body => Sys2Proof.Machine.execSetMask tag body s
  | .setProfile tag body => Sys2Proof.Machine.execSetProfile tag body s
  | .readProfile tag body => Sys2Proof.Machine.execReadProfile tag body s
  | .enableLine tag body => Sys2Proof.Machine.execEnableLine tag body s
  | .disableLine tag body => Sys2Proof.Machine.execDisableLine tag body s
  | .releaseLine tag body => Sys2Proof.Machine.execReleaseLine tag body s
  | .hold tag body => Sys2Proof.Machine.execHold tag body s
  | .unhold tag body => Sys2Proof.Machine.execUnhold tag body s
  | .sendDigits tag body => Sys2Proof.Machine.execSendDigits tag body s
  | .submitJob tag body => Sys2Proof.Machine.execSubmitJob tag body s
  | .cancelJob tag body => Sys2Proof.Machine.execCancelJob tag body s
  | .queryJob tag body => Sys2Proof.Machine.execQueryJob tag body s
  | .collectJob tag body => Sys2Proof.Machine.execCollectJob tag body s
  | .collectOldest tag body => Sys2Proof.Machine.execCollectOldest tag body s
  | .listJobs tag body => Sys2Proof.Machine.execListJobs tag body s
  | .loadCadence tag body => Sys2Proof.Machine.execLoadCadence tag body s
  | .readCadence tag body => Sys2Proof.Machine.execReadCadence tag body s
  | .clearCadence tag body => Sys2Proof.Machine.execClearCadence tag body s
  | .readEntry tag body => Sys2Proof.Machine.execReadEntry tag body s
  | .writeEntry tag body => Sys2Proof.Machine.execWriteEntry tag body s
  | .eraseEntry tag body => Sys2Proof.Machine.execEraseEntry tag body s
  | .formatStore tag body => Sys2Proof.Machine.execFormatStore tag body s
  | .storeStatus tag body => Sys2Proof.Machine.execStoreStatus tag body s
  | .saveSettings tag body => Sys2Proof.Machine.execSaveSettings tag body s
  | .clearSettings tag body => Sys2Proof.Machine.execClearSettings tag body s
  | .bindKey tag body => Sys2Proof.Machine.execBindKey tag body s
  | .readBinding tag body => Sys2Proof.Machine.execReadBinding tag body s
  | .setScan tag body => Sys2Proof.Machine.execSetScan tag body s
  | .readKeys tag body => Sys2Proof.Machine.execReadKeys tag body s
  | .unknownKind kind tag body => Sys2Proof.Machine.execUnknownKind kind tag body s
  | .receiveByte b err => Sys2Proof.Machine.execReceiveByte b err s
  | .interByteGapTimerExpiry => Sys2Proof.Machine.execInterByteGapTimerExpiry s
  | .linkBreak straps => Sys2Proof.Machine.execLinkBreak straps s
  | .breakEnd => Sys2Proof.Machine.execBreakEnd s
  | .lholdChange active => Sys2Proof.Machine.execLholdChange active s
  | .frameBegin => Sys2Proof.Machine.execFrameBegin s
  | .frameEnd => Sys2Proof.Machine.execFrameEnd s
  | .lineInputChange n input level => Sys2Proof.Machine.execLineInputChange n input level s
  | .loopChange n => Sys2Proof.Machine.execLoopChange n s
  | .revChange n => Sys2Proof.Machine.execRevChange n s
  | .ringPinChange n level => Sys2Proof.Machine.execRingPinChange n level s
  | .ringBurstStart n => Sys2Proof.Machine.execRingBurstStart n s
  | .ringBurstEnd n => Sys2Proof.Machine.execRingBurstEnd n s
  | .glareWindowExpiry n => Sys2Proof.Machine.execGlareWindowExpiry n s
  | .cptPinChange n level => Sys2Proof.Machine.execCptPinChange n level s
  | .filteredLevelChange n => Sys2Proof.Machine.execFilteredLevelChange n s
  | .steadyConfirmation n => Sys2Proof.Machine.execSteadyConfirmation n s
  | .gapWatchExpiry n => Sys2Proof.Machine.execGapWatchExpiry n s
  | .attemptStart n => Sys2Proof.Machine.execAttemptStart n s
  | .seizeTimerExpiry n => Sys2Proof.Machine.execSeizeTimerExpiry n s
  | .postSeizeTimerExpiry n => Sys2Proof.Machine.execPostSeizeTimerExpiry n s
  | .dialToneTimerExpiry n => Sys2Proof.Machine.execDialToneTimerExpiry n s
  | .noAnswerTimerExpiry n => Sys2Proof.Machine.execNoAnswerTimerExpiry n s
  | .disconnectTimerExpiry n => Sys2Proof.Machine.execDisconnectTimerExpiry n s
  | .makeTimerExpiry n => Sys2Proof.Machine.execMakeTimerExpiry n s
  | .guardTimerExpiry n => Sys2Proof.Machine.execGuardTimerExpiry n s
  | .breakTimerExpiry n => Sys2Proof.Machine.execBreakTimerExpiry n s
  | .makePeriodTimerExpiry n => Sys2Proof.Machine.execMakePeriodTimerExpiry n s
  | .interdigitTimerExpiry n => Sys2Proof.Machine.execInterdigitTimerExpiry n s
  | .toneTimerExpiry n => Sys2Proof.Machine.execToneTimerExpiry n s
  | .toneGapTimerExpiry n => Sys2Proof.Machine.execToneGapTimerExpiry n s
  | .pauseTimerExpiry n => Sys2Proof.Machine.execPauseTimerExpiry n s
  | .flashTimerExpiry n => Sys2Proof.Machine.execFlashTimerExpiry n s
  | .minimumToneTimerExpiry n => Sys2Proof.Machine.execMinimumToneTimerExpiry n s
  | .retryDelayExpiry n => Sys2Proof.Machine.execRetryDelayExpiry n s
  | .jobStart n => Sys2Proof.Machine.execJobStart n s
  | .keyRawChange k level => Sys2Proof.Machine.execKeyRawChange k level s
  | .keyTransition k => Sys2Proof.Machine.execKeyTransition k s
  | .storeEraseEnd => Sys2Proof.Machine.execStoreEraseEnd s
  | .storeProgramEnd => Sys2Proof.Machine.execStoreProgramEnd s
  | .storeVerifyPass => Sys2Proof.Machine.execStoreVerifyPass s
  | .storeVerifyFail => Sys2Proof.Machine.execStoreVerifyFail s

end Sys2Proof.Machine
end

