-- ==== Sys2Proof/Machine/Clock.lean ====
section
/-! DEFINITION. What the part does when no command waits ([1]): the engine takes a submission on its way from a key, or the
first of the part's own steps whose moment has come is made, or a millisecond passes. -/

namespace Sys2Proof.Machine

/-- The command `c` where its timer is due by `now`. -/
def whenDue (now : Nat) (due : Option Nat) (c : Instr) : List Instr :=
  match due with
  | none => []
  | some t => if t ≤ now then [c] else []

/-- The command `c` where `b` holds. -/
def whenever (b : Bool) (c : Instr) : List Instr := if b then [c] else []

/-- The moment the next STEADY confirmation of a line is taken (R78, R83). -/
def State.steadyDue (s : State) (n : LineNo) : Option Nat :=
  ((s.line n).pc.nextSteady s.cadence).map fun x => x.1 + 10 * x.2 + Config.cptFilterMs

/-- The moment the gap watch of a line decides (R78, R89). -/
def Line.gapDue (l : Line) : Option Nat :=
  (l.pc.gapWatch.filter l.gapDecides).map (· + Config.cptFilterMs)

/-- The steps of line `n`, its classifier and its job whose moment has come. -/
def State.lineSteps (s : State) (n : LineNo) : List Instr :=
  let l := s.line n
  let t := l.timers
  whenDue s.now (l.loop.since.map (· + Config.lineDebounceMs)) (.loopChange n) ++
  whenDue s.now (l.rev.since.map (· + Config.lineDebounceMs)) (.revChange n) ++
  whenDue s.now l.ring.startDue (.ringBurstStart n) ++
  whenDue s.now l.ring.gapDue (.ringBurstEnd n) ++
  whenDue s.now l.ring.glareDue (.glareWindowExpiry n) ++
  whenDue s.now (l.pc.edges.head?.map (· + Config.cptFilterMs)) (.filteredLevelChange n) ++
  whenDue s.now (s.steadyDue n) (.steadyConfirmation n) ++
  whenDue s.now l.gapDue (.gapWatchExpiry n) ++
  whenDue s.now t.seize (.seizeTimerExpiry n) ++
  whenDue s.now t.postSeize (.postSeizeTimerExpiry n) ++
  whenDue s.now t.dialTone (.dialToneTimerExpiry n) ++
  whenDue s.now t.noAnswer (.noAnswerTimerExpiry n) ++
  whenDue s.now t.disconnect (.disconnectTimerExpiry n) ++
  whenDue s.now t.make (.makeTimerExpiry n) ++
  whenDue s.now t.guard (.guardTimerExpiry n) ++
  whenDue s.now t.breakT (.breakTimerExpiry n) ++
  whenDue s.now t.makePeriod (.makePeriodTimerExpiry n) ++
  whenDue s.now t.interdigit (.interdigitTimerExpiry n) ++
  whenDue s.now t.tone (.toneTimerExpiry n) ++
  whenDue s.now t.toneGap (.toneGapTimerExpiry n) ++
  whenDue s.now t.pause (.pauseTimerExpiry n) ++
  whenDue s.now t.flash (.flashTimerExpiry n) ++
  whenDue s.now t.minTone (.minimumToneTimerExpiry n) ++
  whenDue s.now (s.jobs.retry.get n).due (.retryDelayExpiry n) ++
  whenever (s.startable n) (.jobStart n) ++
  whenever (s.offer n).isSome (.attemptStart n)

/-- The steps of the part whose moment has come, in the order it makes them ([1]). The end of a frame and the phases of the
store are not among them: their times are the link's and the medium's, and come as commands ([1], [24]). -/
def State.ownSteps (s : State) : List Instr :=
  if s.held then []
  else
    whenDue s.now s.link.rx.gap .interByteGapTimerExpiry ++
    whenever (s.store.nextCheck.any (· < 32)) .startUpBlockCheck ++
    whenever (s.store.nextCheck == some 32) .startupCheckEnd ++
    (List.finRange 20).flatMap (fun k =>
      whenDue s.now ((s.key k).since.map (· + s.keys.debounceMs)) (.keyTransition k)) ++
    (List.finRange 4).flatMap s.lineSteps ++
    whenever s.canBegin .frameBegin

/-- What a running part does with no command waiting ([1]): the engine takes the oldest submission a key has handed over
([25]); with none on its way the first of the part's own steps is made; with none of those a millisecond passes. Only the
first is made, for it may stop or restart what the next one was due for: a result of a session that has stopped is dropped
(R78), and so is the expiry of a timer that has been started anew. -/
def State.runOn (s : State) : Host.Outcome State Fault Refusal :=
  match s.keys.handed, s.ownSteps with
  | _ :: _, _ => .next s.takeHandovers
  | [], [] => .next { s with now := s.now + 1 }
  | [], c :: _ => exec c s

/-- What a step does with no command waiting ([1]): a held part and its clock stand ([9]). -/
def State.idle (s : State) : Host.Outcome State Fault Refusal := if s.held then .next s else s.runOn

end Sys2Proof.Machine
end

