-- ==== Sys2Proof/Machine/Step.lean ====
section
/-! DEFINITION. One step of the block: the command at the front of the queue, or the part's own time where none waits. -/

namespace Sys2Proof.Machine

/-- The command at the front of the queue, run on the state with the queue's rest; on an empty queue the part goes
on by itself: a step of its own, or a millisecond ([1]). -/
def step (s : State) : Host.Outcome State Fault Refusal :=
  match s.pending with
  | [] => s.idle
  | c :: rest => exec c { s with pending := rest }

/-- The state with the command a table word spells at the front of its queue; no row gives bits ([22]). -/
def State.withFetchWord (s : State) (nbits w : Nat) : State :=
  match decodeTableWord nbits w with
  | none => s
  | some c => { s with pending := c :: s.pending }

end Sys2Proof.Machine
end

