-- ==== Sys2Proof/Safety.lean ====
section
/-! DEFINITION. What it means for the block to be safe: steps that go on, invariants that every step keeps, and the
invariants of each block that the rules speak of. -/

namespace Sys2Proof

/-- The step of a state answers a next state: no fault and no refusal. -/
def Goes (s : Machine.State) : Prop := ∃ t, Machine.step s = .next t

/-- `t` follows from `s` in one step. -/
def Steps (s t : Machine.State) : Prop := Machine.step s = .next t

/-- An invariant every step keeps. -/
def Kept (Inv : Machine.State → Prop) : Prop := ∀ s t, Inv s → Steps s t → Inv t

namespace Machine

/-! ### Conditions and results the statements speak of -/

/-- A frame that arrives is taken at once as a request (R185, R189, R193): the part has started, no break is in
progress, no frame waits, and fewer than three replies stand in the outbound queue. -/
structure State.TakesFrames (s : State) : Prop where
  started : s.held = false
  noBreak : s.link.breakSince = none
  noneWaits : s.link.inbound = []
  room : s.link.replies < 3

/-- A request that arrives is taken at once, and is not refused NOT_READY (R185, R186): the start-up check is done. -/
structure State.TakesRequests (s : State) : Prop extends State.TakesFrames s where
  ready : s.store.st ≠ .checking

/-- The frame a request command stands for ([3]; R195, R196): none for the other commands. -/
def frameOf : Instr → Option Frame
  | .identify t b => some ⟨0x01#8, t, b⟩ | .status t b => some ⟨0x02#8, t, b⟩
  | .setLink t b => some ⟨0x03#8, t, b⟩ | .resetEngine t b => some ⟨0x04#8, t, b⟩
  | .events t b => some ⟨0x05#8, t, b⟩ | .setMask t b => some ⟨0x06#8, t, b⟩
  | .setProfile t b => some ⟨0x10#8, t, b⟩ | .readProfile t b => some ⟨0x11#8, t, b⟩
  | .enableLine t b => some ⟨0x12#8, t, b⟩ | .disableLine t b => some ⟨0x13#8, t, b⟩
  | .releaseLine t b => some ⟨0x14#8, t, b⟩ | .hold t b => some ⟨0x15#8, t, b⟩
  | .unhold t b => some ⟨0x16#8, t, b⟩ | .sendDigits t b => some ⟨0x17#8, t, b⟩
  | .submitJob t b => some ⟨0x20#8, t, b⟩ | .cancelJob t b => some ⟨0x21#8, t, b⟩
  | .queryJob t b => some ⟨0x22#8, t, b⟩ | .collectJob t b => some ⟨0x23#8, t, b⟩
  | .collectOldest t b => some ⟨0x24#8, t, b⟩ | .listJobs t b => some ⟨0x25#8, t, b⟩
  | .loadCadence t b => some ⟨0x30#8, t, b⟩ | .readCadence t b => some ⟨0x31#8, t, b⟩
  | .clearCadence t b => some ⟨0x32#8, t, b⟩ | .readEntry t b => some ⟨0x40#8, t, b⟩
  | .writeEntry t b => some ⟨0x41#8, t, b⟩ | .eraseEntry t b => some ⟨0x42#8, t, b⟩
  | .formatStore t b => some ⟨0x43#8, t, b⟩ | .storeStatus t b => some ⟨0x44#8, t, b⟩
  | .saveSettings t b => some ⟨0x45#8, t, b⟩ | .clearSettings t b => some ⟨0x46#8, t, b⟩
  | .bindKey t b => some ⟨0x50#8, t, b⟩ | .readBinding t b => some ⟨0x51#8, t, b⟩
  | .setScan t b => some ⟨0x52#8, t, b⟩ | .readKeys t b => some ⟨0x53#8, t, b⟩
  | .unknownKind k t b => some ⟨k, t, b⟩
  | _ => none

/-- `s` with a reply of this TAG and body (status byte first) at the tail of the outbound queue (R185, R187). -/
def State.replied (tag : Byte) (body : List Byte) (s : State) : State :=
  { s with link := { s.link with outbound := s.link.outbound ++ [.reply tag body none] } }

/-- The body of a REFUSED reply (R187, R197). -/
def refusal (c : RefusalCause) (field : Nat) : List Byte := [2#8, c.code, byteOf field]

/-- Every field of a profile lies in its range of R4. -/
structure Profile.InRange (p : Profile) : Prop where
  pulseRate : p.pulseRate = 10 ∨ p.pulseRate = 20
  breakPct : p.breakPct = 60 ∨ p.breakPct = 66
  interdigitMs : 200 ≤ p.interdigitMs ∧ p.interdigitMs ≤ 1000
  toneOnMs : 50 ≤ p.toneOnMs ∧ p.toneOnMs ≤ 250
  toneGapMs : 50 ≤ p.toneGapMs ∧ p.toneGapMs ≤ 250
  flashMs : 80 ≤ p.flashMs ∧ p.flashMs ≤ 900
  pauseMs : 500 ≤ p.pauseMs ∧ p.pauseMs ≤ 10000
  seizeTimeoutMs : 200 ≤ p.seizeTimeoutMs ∧ p.seizeTimeoutMs ≤ 5000
  postSeizeMs : p.postSeizeMs ≤ 2000
  dialtoneTimeoutMs : 1000 ≤ p.dialtoneTimeoutMs ∧ p.dialtoneTimeoutMs ≤ 15000
  noAnswerS : 5 ≤ p.noAnswerS ∧ p.noAnswerS ≤ 180
  disconnectMs : 100 ≤ p.disconnectMs ∧ p.disconnectMs ≤ 2000
  guardMs : 200 ≤ p.guardMs ∧ p.guardMs ≤ 5000
  retryDelayS : 1 ≤ p.retryDelayS ∧ p.retryDelayS ≤ 300
  attemptsDefault : 1 ≤ p.attemptsDefault ∧ p.attemptsDefault ≤ 9
  answerGapMs : 2000 ≤ p.answerGapMs ∧ p.answerGapMs ≤ 15000

/-- A line `x` as it stands when `l` is written at the moment `now` (R1, R2, R24, R26 to R28, R78; log entry 20): its outputs
at the levels its state calls for, its inputs measured from the levels it then sees. -/
structure Line.MeasuredAt (now : Nat) (l x : Line) : Prop where
  /-- Nothing else of the line changes. -/
  rest : x = { l with
    out := x.out, loop := x.loop, rev := x.rev, ring := x.ring, pc := { l.pc with edges := x.pc.edges } }
  /-- LOOP and REV: a level seen stands against the level taken since the first moment it differs (R1, R28). -/
  loop : x.loop = { l.loop with
    since := if (if l.committed.loopback then x.out.lcl else l.loop.pin) = l.loop.taken then none
      else some (l.loop.since.getD now) }
  rev : x.rev = { l.rev with
    since := if (!l.committed.loopback && l.rev.pin) = l.rev.taken then none else some (l.rev.since.getD now) }
  /-- CPT: a raw change is a new edge of the filter, unless it ends an excursion shorter than 10 ms (R28, R78). -/
  edges : x.pc.edges =
    if (if l.committed.loopback then x.out.ton else l.pc.pin) =
        (if l.pc.edges.length % 2 = 0 then l.pc.filtered else !l.pc.filtered) then l.pc.edges
    else match l.pc.edges.getLast? with
      | none => [now]
      | some e => if e + 10 ≤ now then l.pc.edges ++ [now] else l.pc.edges.dropLast
  /-- RING is measured in DISABLED and IDLE alone (R24). -/
  watched : l.st = .disabled ∨ l.st = .idle →
    let rings := !l.committed.loopback && l.ring.pin
    x.ring = { l.ring with
      startDue := if rings && !l.ring.burst then some (l.ring.startDue.getD (now + 20)) else none
      gapDue := if !rings && l.ring.burst then some (l.ring.gapDue.getD (now + 200)) else none }
  unwatched : l.st ≠ .disabled → l.st ≠ .idle →
    x.ring = { l.ring with burst := false, startDue := none, gapDue := none }
  /-- The outputs by line state (R2, R26, R27). -/
  onHook : l.st = .disabled ∨ l.st = .idle ∨ l.st = .releasing → x.out = ⟨false, false, false, false, false⟩
  offHook : l.st = .seizing ∨ l.st = .awaitDialtone ∨ l.st = .awaitProgress →
    x.out = ⟨true, false, false, false, false⟩
  held : l.st = .held → x.out = ⟨true, true, true, false, false⟩
  connected : l.st = .connected →
    let sounds := l.manual.activity == .sounding
    x.out = ⟨true, false, l.committed.txmuteAuto && sounds, false, sounds⟩
  dialing : l.st = .dialing →
    let breaks := l.cursor.sub == .pulseBreak || l.cursor.sub == .flashBreak
    let pulses := l.cursor.sub == .pulseMake || l.cursor.sub == .interdigit
    x.out = ⟨!breaks, false, l.committed.txmuteAuto, l.committed.rxmuteAuto && (breaks || pulses),
      l.cursor.sub == .toneOn⟩

/-! ### The part's own steps -/

/-- What began or fell due at `t` has come, `ms` milliseconds after it, by the moment `now`. -/
def cameBy (now : Nat) (t : Option Nat) (ms : Nat) : Prop := ∃ m, t = some m ∧ m + ms ≤ now

/-- The STEADY confirmation of line `n` that comes next is taken by now, 10 ms after its moment (R78, R83): the ON interval in
progress reaches the shortest `min_on` not yet confirmed in it, and no raw edge stands before. -/
def State.SteadyDue (s : State) (n : LineNo) : Prop :=
  let c := (s.line n).pc
  c.listening = true ∧ c.filtered = true ∧ ∃ (b u : Nat) (first : Bool) (k : SlotNo) (t : ToneClass),
    c.interval = some ⟨true, b, first⟩ ∧ s.cadence.get k = some ⟨t, .steady u⟩ ∧ (c.matchers.get k).steady = false ∧
    (∀ j t' u', s.cadence.get j = some ⟨t', .steady u'⟩ → (c.matchers.get j).steady = false → u ≤ u') ∧
    (∀ e, c.edges.head? = some e → b + 10 * u < e) ∧ b + 10 * u + 10 ≤ s.now

/-- A step of a running part whose moment has come: a timer that runs has run out (R1, R24, R25, R78, R126, R157, R183,
sections 1.5, 2.1), a confirmation or a gap watch decides (R83, R89), the start-up check goes on (R153, R154), a job starts
(R100), an attempt is taken (R9, R110), a frame begins (R188). -/
def State.Due (s : State) : Instr → Prop
  | .interByteGapTimerExpiry => cameBy s.now s.link.rx.gap 0
  | .startUpBlockCheck => ∃ k, s.store.check = some ⟨k, none⟩ ∧ k < 32
  | .startupCheckEnd => s.store.check = some ⟨32, none⟩
  | .keyTransition k => cameBy s.now (s.key k).since s.keys.debounceMs
  | .loopChange n => cameBy s.now (s.line n).loop.since 10
  | .revChange n => cameBy s.now (s.line n).rev.since 10
  | .ringBurstStart n => cameBy s.now (s.line n).ring.startDue 0
  | .ringBurstEnd n => cameBy s.now (s.line n).ring.gapDue 0
  | .glareWindowExpiry n => cameBy s.now (s.line n).ring.glareDue 0
  | .filteredLevelChange n => cameBy s.now (s.line n).pc.edges.head? 10
  | .steadyConfirmation n => s.SteadyDue n
  | .gapWatchExpiry n => (s.line n).pc.listening = true ∧ (s.line n).st = .awaitProgress ∧ ∃ m,
      (s.line n).pc.gapWatch = some m ∧ (∀ e, (s.line n).pc.edges.head? = some e → m < e) ∧ m + 10 ≤ s.now
  | .seizeTimerExpiry n => cameBy s.now (s.line n).timers.seize 0
  | .postSeizeTimerExpiry n => cameBy s.now (s.line n).timers.postSeize 0
  | .dialToneTimerExpiry n => cameBy s.now (s.line n).timers.dialTone 0
  | .noAnswerTimerExpiry n => cameBy s.now (s.line n).timers.noAnswer 0
  | .disconnectTimerExpiry n => cameBy s.now (s.line n).timers.disconnect 0
  | .makeTimerExpiry n => cameBy s.now (s.line n).timers.make 0
  | .guardTimerExpiry n => cameBy s.now (s.line n).timers.guard 0
  | .breakTimerExpiry n => cameBy s.now (s.line n).timers.breakT 0
  | .makePeriodTimerExpiry n => cameBy s.now (s.line n).timers.makePeriod 0
  | .interdigitTimerExpiry n => cameBy s.now (s.line n).timers.interdigit 0
  | .toneTimerExpiry n => cameBy s.now (s.line n).timers.tone 0
  | .toneGapTimerExpiry n => cameBy s.now (s.line n).timers.toneGap 0
  | .pauseTimerExpiry n => cameBy s.now (s.line n).timers.pause 0
  | .flashTimerExpiry n => cameBy s.now (s.line n).timers.flash 0
  | .minimumToneTimerExpiry n => cameBy s.now (s.line n).timers.minTone 0
  | .retryDelayExpiry n => ∃ d, s.jobs.retry.get n = .running d ∧ d ≤ s.now
  | .jobStart n => (s.line n).st = .idle ∧ ∃ j, s.headJob n = some j ∧
      (j.state = .queued ∨ (j.state = .retryWait ∧ s.jobs.retry.get n = .expired))
  | .attemptStart n => (s.line n).st = .idle ∧ ∃ j, s.headJob n = some j ∧ j.state = .active ∧
      j.phase = some .resolve ∧ j.methodInEffect ≠ none
  | .frameBegin => s.link.outbound ≠ [] ∧ s.link.tx = .idle ∧ s.pins.lhold = false ∧ s.link.breakSince = none
  | _ => False

/-- The part's own steps of line `n`, in the order it makes them ([1]). -/
def stepsOfLine (n : LineNo) : List Instr :=
  [.loopChange n, .revChange n, .ringBurstStart n, .ringBurstEnd n, .glareWindowExpiry n, .filteredLevelChange n,
   .steadyConfirmation n, .gapWatchExpiry n, .seizeTimerExpiry n, .postSeizeTimerExpiry n, .dialToneTimerExpiry n,
   .noAnswerTimerExpiry n, .disconnectTimerExpiry n, .makeTimerExpiry n, .guardTimerExpiry n, .breakTimerExpiry n,
   .makePeriodTimerExpiry n, .interdigitTimerExpiry n, .toneTimerExpiry n, .toneGapTimerExpiry n, .pauseTimerExpiry n,
   .flashTimerExpiry n, .minimumToneTimerExpiry n, .retryDelayExpiry n, .jobStart n, .attemptStart n]

/-- The part's own steps, in the order it makes them ([1]). -/
def ownOrder : List Instr :=
  [.interByteGapTimerExpiry, .startUpBlockCheck, .startupCheckEnd] ++ (List.finRange 20).map Instr.keyTransition ++
  (List.finRange 4).flatMap stepsOfLine ++ [.frameBegin]

/-! ### Refusals before the owning block looks (R186, R194) -/

/-- A request is refused BAD_LENGTH where its body does not fit, then BAD_VALUE naming the first field that fails, then
NOT_READY during the start-up check (R186). `fields` gives the checks in order, each with its field index. -/
structure State.RefusesFirst (s : State) (tag : Byte) (mk : Byte → List Byte → Instr) (fits : List Byte → Bool)
    (fields : List Byte → List (Nat × Bool)) : Prop where
  badLength : ∀ b, fits b = false → exec (mk tag b) s = .next (s.replied tag (refusal .badLength 0))
  badValue : ∀ b (i f : Nat), fits b = true → (fields b)[i]? = some (f, false) →
    (∀ j : Nat, j < i → ∃ g, (fields b)[j]? = some (g, true)) →
    exec (mk tag b) s = .next (s.replied tag (refusal .badValue f))
  notReady : ∀ b, fits b = true → (∀ x ∈ fields b, x.2 = true) → s.store.st = .checking →
    exec (mk tag b) s = .next (s.replied tag (refusal .notReady 0))

/-- Checks numbered from 1, as the fields of a body are (R194). -/
def numberedFrom1 (checks : List Bool) : List (Nat × Bool) := checks.mapIdx fun i x => (i + 1, x)

/-- Every byte is a dial symbol (R194). -/
def allSymbols (bs : List Byte) : Bool := bs.all fun c =>
  (0x30 ≤ c.toNat && c.toNat ≤ 0x39) || (0x41 ≤ c.toNat && c.toNat ≤ 0x44) ||
    c == 0x2A#8 || c == 0x23#8 || c == 0x50#8 || c == 0x46#8 || c == 0x57#8

/-- Every byte is a symbol allowed under PULSE (R35). -/
def allPulse (bs : List Byte) : Bool := bs.all fun c =>
  (0x30 ≤ c.toNat && c.toNat ≤ 0x39) || c == 0x50#8 || c == 0x46#8 || c == 0x57#8

/-- Item `i` of a body, 0 past its end. -/
def item (b : List Byte) (i : Nat) : Nat := (b.getD i 0#8).toNat

/-- The word whose low byte is item `i` of a body (R194). -/
def itemWord (b : List Byte) (i : Nat) : Nat := item b i + 256 * item b (i + 1)

/-- A value from `lo` to `hi`. -/
def within (lo hi v : Nat) : Bool := decide (lo ≤ v ∧ v ≤ hi)

/-- The fields of SET PROFILE with their ranges (R4, R5, R199): the line, then the 26 fields of the profile. -/
def profileFields (b : List Byte) : List (Nat × Bool) :=
  let x := item b
  let w := itemWord b
  [ (1, within 0 3 (x 0)), (2, within 0 1 (x 1)), (3, x 2 == 10 || x 2 == 20), (4, x 3 == 60 || x 3 == 66),
    (5, within 200 1000 (w 4)), (6, within 50 250 (x 6)), (7, within 50 250 (x 7)), (8, within 80 900 (w 8)),
    (9, within 500 10000 (w 10)), (10, within 200 5000 (w 12)), (11, within 0 2000 (w 14)), (12, within 0 1 (x 16)),
    (13, within 1000 15000 (w 17)), (14, within 0 1 (x 19)), (15, within 5 180 (x 20)), (16, within 100 2000 (w 21)),
    (17, within 200 5000 (w 23)), (18, within 1 300 (w 25)), (19, within 1 9 (x 27)), (20, within 0 1 (x 28)),
    (21, within 0 1 (x 29)), (22, within 2000 15000 (w 30)), (23, within 0 1 (x 32)), (24, within 0 1 (x 33)),
    (25, within 0 1 (x 34)), (26, within 0 1 (x 35)), (27, within 0 1 (x 36)) ]

/-- The fields of SET LINK (R182, R196). -/
def linkFields (b : List Byte) : List (Nat × Bool) := [(1, within 0 4 (item b 0)), (2, within 0 1 (item b 1))]

/-- The fields of SET MASK (R176, R202): a source, and flags of that source alone. -/
def maskFields (b : List Byte) : List (Nat × Bool) :=
  [(1, within 0 6 (item b 0)), (2, b.getD 1 0#8 &&& (if item b 0 < 4 then 0x80#8 else 0xF0#8) == 0#8)]

/-- The fields of SET SCAN (R167). -/
def scanFields (b : List Byte) : List (Nat × Bool) :=
  [(1, within 10 50 (item b 0)), (2, within 0 1 (item b 1)), (3, within 0 1 (item b 2)), (4, within 0 1 (item b 3)),
   (5, within 0 1 (item b 4))]

/-- A body of SEND DIGITS has the length its count gives (R17, R194). -/
def sendFits (b : List Byte) : Bool := decide (2 ≤ b.length ∧ b.length = 2 + item b 1)

/-- The fields of SEND DIGITS (R17). -/
def sendFields (b : List Byte) : List (Nat × Bool) :=
  [(1, within 0 3 (item b 0)), (2, within 1 32 (item b 1) && allSymbols (b.drop 2))]

/-- A body of SUBMIT JOB has the length its kind and count give (R101, R198). -/
def submitFits (b : List Byte) : Bool :=
  decide (7 ≤ b.length ∧ b.length = if item b 1 = 0 then 7 + item b 6 else 7)

/-- The fields of SUBMIT JOB (R101): that the method allows the digits is checked with field 7. -/
def submitFields (b : List Byte) : List (Nat × Bool) :=
  [(1, within 0 3 (item b 0)), (2, within 0 1 (item b 1)), (3, within 0 1 (item b 2)),
   (4, within 0 (if item b 1 = 1 then 1 else 0) (item b 3)), (5, within 0 2 (item b 4)), (6, within 0 9 (item b 5)),
   (7, if item b 1 = 0 then within 1 32 (item b 6) && allSymbols (b.drop 7) && (item b 4 != 1 || allPulse (b.drop 7))
     else within 0 127 (item b 6))]

/-- A body of LOAD CADENCE has the length its form and segment count give (R72, R201). -/
def cadenceFits (b : List Byte) : Bool :=
  if item b 2 = 1 then decide (4 ≤ b.length ∧ b.length = 5 + 8 * item b 3) else b.length == 5

/-- The fields of LOAD CADENCE (R70, R72, R201), numbered as they stand. -/
def cadenceFields (b : List Byte) : List (Nat × Bool) :=
  numberedFrom1 ([within 0 7 (item b 0), within 1 6 (item b 1), within 0 1 (item b 2)] ++
    (if item b 2 = 1 then
      [within 1 4 (item b 3)] ++
      (List.range (min 4 (item b 3))).flatMap (fun g =>
        let onMin := itemWord b (4 + 8 * g)
        let onMax := itemWord b (6 + 8 * g)
        let offMin := itemWord b (8 + 8 * g)
        let offMax := itemWord b (10 + 8 * g)
        [within 1 1000 onMin, within 1 1000 onMax && decide (onMin ≤ onMax), within 1 1000 offMin,
         within 1 1000 offMax && decide (offMin ≤ offMax)]) ++
      [within 1 4 (item b (4 + 8 * item b 3))]
    else [within 10 1000 (itemWord b 3)]))

/-- A body of WRITE ENTRY has the length its two counts give (R140, R200). -/
def writeFits (b : List Byte) : Bool :=
  decide (6 + item b 4 ≤ b.length ∧ b.length = 6 + item b 4 + item b (5 + item b 4))

/-- The fields of WRITE ENTRY (R135, R140, R200), in the order checked: the digits of a PULSE entry after the label. -/
def writeFields (b : List Byte) : List (Nat × Bool) :=
  let digits := (b.drop 5).take (item b 4)
  let label := b.drop (6 + item b 4)
  [(1, within 0 127 (item b 0)), (2, within 0 2 (item b 1)), (3, within 0 9 (item b 2)),
   (4, item b 3 == 0xFF || (within 0 127 (item b 3) && item b 3 != item b 0)),
   (5, within 1 24 (item b 4) && allSymbols digits),
   (6, within 0 12 (item b (5 + item b 4)) && label.all fun c => within 0x20 0x7E c.toNat),
   (5, item b 1 != 1 || allPulse digits)]

/-- A body of BIND KEY has the length its action gives (R163, R196). -/
def bindFits (b : List Byte) : Bool :=
  decide (2 ≤ b.length ∧ b.length = match item b 1 with | 1 => 4 | 2 => 3 | 3 => 3 | 4 => 4 | _ => 2)

/-- The fields of BIND KEY (R163, R196). -/
def bindFields (b : List Byte) : List (Nat × Bool) :=
  [(1, within 0 19 (item b 0)), (2, within 0 4 (item b 1)), (3, item b 1 == 0 || within 0 3 (item b 2)),
   (4, match item b 1 with | 1 => within 0 127 (item b 3) | 4 => allSymbols (b.drop 3) | _ => true)]

/-! ### Jobs accepted and resolved -/

/-- The record of a new job (R96, R103): what the submission gives, QUEUED, everything else at its beginning. -/
structure Job.New (b : Submission) (j : Job) : Prop where
  given : j.line = b.line ∧ j.origin = b.origin ∧ j.supervised = b.supervised ∧ j.followChain = b.followChain ∧
    j.methodOverride = b.methodOverride ∧ j.attemptsOverride = b.attemptsOverride
  inline : ∀ p, b.target = .inline p → j.kind = .inline ∧ j.program = some p ∧ j.entryIndex = none
  entry : ∀ e, b.target = .entry e → j.kind = .entry ∧ j.program = none ∧ j.entryIndex = some e
  begins : j.state = .queued ∧ j.phase = none ∧ j.methodInEffect = none ∧ j.fallback = none ∧ j.hop = 1 ∧
    j.visited = [] ∧ j.position = 0 ∧ j.attemptsThisHop = 0 ∧ j.attemptsMaxThisHop = none ∧ j.attemptsTotal = 0 ∧
    j.lastCause = none ∧ j.lastClass = none ∧ j.connectedOnce = false ∧ j.outcome = none ∧ j.symbolsRemaining = none

/-- `t` is what the acceptance of submission `b` under identifier `id` leaves of `s`: with a full table the oldest finished
job is evicted first (R102); the identifier is the first after the last issued, 256 becoming 1, that no slot holds (R99);
the new record joins the table and the tail of the queue of its line (R103). -/
def State.Accepts (b : Submission) (id : Nat) (s t : State) : Prop :=
  ∃ (u : State) (j : Job),
    (s.jobs.table.length < 24 → u = s) ∧
    (∀ old rest d, s.jobs.table.length = 24 → s.jobs.finished = old :: rest → s.job old = some d →
      u = State.latch systemSource .resultDiscarded { s with
        jobs := { s.jobs with table := s.jobs.table.filter fun i => i.id != old, finished := rest }
        events := { s.events with lastDiscarded := some ⟨old, d.line, d.outcome⟩ } }) ∧
    (∃ k, k < 255 ∧ id = (s.jobs.lastId + k) % 255 + 1 ∧ id ∉ u.jobs.table.map (·.id) ∧
      ∀ i, i < k → (s.jobs.lastId + i) % 255 + 1 ∈ u.jobs.table.map (·.id)) ∧
    j.id = id ∧ j.New b ∧
    t = { u with jobs := { u.jobs with
      table := u.jobs.table ++ [j]
      queues := u.jobs.queues.set b.line (u.queue b.line ++ [id])
      lastId := id } }

/-- `t` is what reading its program makes of a job `j` ACTIVE in RESOLVE and not resolved (R106 to R109, R123), `put` being
the state with a record of the job written: a store operation on its block makes it wait (R107), a program that cannot be
dialled finishes it FAILED. That the method is written before its check is the model's reading (log entry 27). -/
structure State.Resolves (put : Job → State) (j : Job) (s t : State) : Prop where
  inline : j.entryIndex = none →
    let p := (s.line j.line).committed
    let m := j.methodOverride.getD p.method
    let r := { j with methodInEffect := some m }
    (m.allowsAll (j.program.getD []) = true → t = put { r with
      attemptsMaxThisHop := some (if j.attemptsOverride ≠ 0 then j.attemptsOverride else p.attemptsDefault) }) ∧
    (m.allowsAll (j.program.getD []) = false → t = (put r).finishJob r .failed .invalidForMethod)
  waits : ∀ i, j.entryIndex = some i → s.store.covers (blockOf i) = true → t = put j
  dead : ∀ i, j.entryIndex = some i → s.store.covers (blockOf i) = false → s.store.map.get (blockOf i) = none →
    t = (put j).finishJob j .failed .entryDead
  blank : ∀ i, j.entryIndex = some i → s.store.covers (blockOf i) = false → s.store.map.get (blockOf i) ≠ none →
    s.store.entry i = .blank → t = (put j).finishJob j .failed .entryBlank
  valid : ∀ i f, j.entryIndex = some i → s.store.covers (blockOf i) = false → s.store.map.get (blockOf i) ≠ none →
    s.store.entry i = .valid f →
    let p := (s.line j.line).committed
    let m := j.methodOverride.getD (match f.method with | .tone => .tone | .pulse => .pulse | .line => p.method)
    let r := { j with program := some f.digits, fallback := f.fallback, methodInEffect := some m }
    (m.allowsAll f.digits = true → t = put { r with
      attemptsMaxThisHop := some (if j.attemptsOverride ≠ 0 then j.attemptsOverride
        else if f.maxAttempts ≠ 0 then f.maxAttempts else p.attemptsDefault)
      visited := j.visited ++ [i] }) ∧
    (m.allowsAll f.digits = false → t = (put r).finishJob r .failed .invalidForMethod)

/-! ### Invariants -/

/-- The outputs of every line stand at the levels its state calls for (R2, R26, R27). -/
def State.Driven (s : State) : Prop := ∀ n, (s.line n).out = (s.line n).outputs

/-- While a line waits, both generators are held (R60). -/
def Pool.Sound (p : Pool) : Prop := p.wait ≠ [] → ∀ g, (p.gens.get g).isSome = true

/-- The ids of a table of jobs. -/
def Job.ids (table : List Job) : List Nat := table.map (·.id)

/-- The Job Engine's table, queues and finished list agree (R95, R97, R98, R99, R126). -/
structure JobEngine.Sound (e : JobEngine) : Prop where
  /-- No more records than slots (R95). -/
  room : e.table.length ≤ 24
  /-- No two slots hold one identifier (R95, R99). -/
  distinct : (Job.ids e.table).Nodup
  /-- Identifiers are 1 to 255 (R99). -/
  idRange : ∀ j ∈ e.table, 1 ≤ j.id ∧ j.id ≤ 255
  /-- The next-identifier counter is 0 to 255 (R99). -/
  counter : e.lastId ≤ 255
  /-- The finished list names each FINISHED job once, and no other (R98). -/
  finishedNodup : e.finished.Nodup
  finishedIff : ∀ j ∈ e.table, j.id ∈ e.finished ↔ j.state = .finished
  finishedHeld : ∀ id ∈ e.finished, id ∈ Job.ids e.table
  /-- A queue holds up to eight live jobs of its line, each once (R97). -/
  queueLength : ∀ n, (e.queues.get n).length ≤ 8
  queueNodup : ∀ n, (e.queues.get n).Nodup
  queueHeld : ∀ n, ∀ id ∈ e.queues.get n, id ∈ Job.ids e.table
  queueIff : ∀ n, ∀ j ∈ e.table, j.id ∈ e.queues.get n ↔ (j.line = n ∧ j.state ≠ .finished)
  /-- Behind the head every job is QUEUED (R97). -/
  behindHead : ∀ n, ∀ j ∈ e.table, j.id ∈ (e.queues.get n).tail → j.state = .queued

/-- The block map and the spare list agree with the headers (R136, R137, R152). -/
structure Store.Mapped (st : Store) : Prop where
  /-- No two logical blocks are mapped to one physical block (R137). -/
  injective : ∀ a b p, st.map.get a = some p → st.map.get b = some p → a = b
  /-- The spare list names a block once, and none that is mapped (R137). -/
  sparesNodup : st.spares.Nodup
  sparesFree : ∀ b, ∀ p ∈ st.spares, st.map.get b ≠ some p
  /-- No block in use or in reserve is RETIRED (R136). -/
  live : ∀ b p, st.map.get b = some p → (st.blocks.get p).role ≠ .retired
  sparesLive : ∀ p ∈ st.spares, (st.blocks.get p).role ≠ .retired

/-- The map and the work in hand agree (R138, R152, R153). -/
structure Store.Sound (st : Store) : Prop where
  mapped : st.Mapped
  /-- Work in hand writes the block its logical block is mapped to (R138, R153). -/
  opMapped : ∀ o b p buf, st.op = some o → o.target = .block b p buf → st.map.get b = some p
  rewriteMapped : ∀ r, st.rewriteNow = some r → st.map.get r.b = some r.p
  /-- The store is BUSY while, and only while, an operation is in flight (R138). -/
  busyIff : st.st = .busy ↔ st.op.isSome = true
  /-- The start-up check runs in CHECKING (R138, R152). -/
  checking : st.check.isSome = true → st.st = .checking

/-- What a line wants of the Generator Arbiter (R56). -/
inductive Want where
  | nothing
  | asks
  | sounds
  deriving DecidableEq, Repr

/-- What the state of a line says it wants (R56): in TONE_REQUEST or manual WAITING it waits, in TONE_ON or SOUNDING it
holds a generator, in any other condition neither. -/
def Line.want (l : Line) : Want :=
  match l.st with
  | .dialing =>
    match l.cursor.sub with
    | .toneRequest => .asks
    | .toneOn => .sounds
    | _ => .nothing
  | .connected =>
    match l.manual.activity with
    | .waiting => .asks
    | .sounding => .sounds
    | .none => .nothing
  | _ => .nothing

/-- The pool agrees with what the lines want (R54 to R56). -/
structure Pool.Serves (p : Pool) (want : LineNo → Want) : Prop where
  /-- No line holds two generators (R54). -/
  one : ∀ n y z, p.gens.get 0 = some ⟨n, y⟩ → p.gens.get 1 ≠ some ⟨n, z⟩
  /-- No line stands twice in the wait list (R55). -/
  once : (p.wait.map (·.line)).Nodup
  /-- A line holds a generator if and only if it sounds (R56). -/
  holds : ∀ n, (∃ g y, p.gens.get g = some ⟨n, y⟩) ↔ want n = .sounds
  /-- A line stands in the wait list if and only if it asks (R56). -/
  waits : ∀ n, n ∈ p.wait.map (·.line) ↔ want n = .asks

/-- A timer of a line runs only in the condition that starts it (sections 1.5, 1.6, 2.1 to 2.5, 2.8). -/
structure Line.Shaped (l : Line) : Prop where
  seize : l.timers.seize.isSome = true → l.st = .seizing ∧ l.timers.postSeize = none
  postSeize : l.timers.postSeize.isSome = true → l.st = .seizing
  dialTone : l.timers.dialTone.isSome = true → l.st = .awaitDialtone ∨ (l.st = .dialing ∧ l.cursor.sub = .waitTone)
  noAnswer : l.timers.noAnswer.isSome = true → l.st = .awaitProgress
  guard : l.timers.guard.isSome = true → l.st = .releasing
  breakT : l.timers.breakT.isSome = true → l.st = .dialing ∧ l.cursor.sub = .pulseBreak
  makePeriod : l.timers.makePeriod.isSome = true → l.st = .dialing ∧ l.cursor.sub = .pulseMake
  interdigit : l.timers.interdigit.isSome = true → l.st = .dialing ∧ l.cursor.sub = .interdigit
  tone : l.timers.tone.isSome = true → l.st = .dialing ∧ l.cursor.sub = .toneOn
  toneGap : l.timers.toneGap.isSome = true → l.st = .dialing ∧ l.cursor.sub = .toneGap
  pause : l.timers.pause.isSome = true → l.st = .dialing ∧ l.cursor.sub = .pause
  flash : l.timers.flash.isSome = true → l.st = .dialing ∧ l.cursor.sub = .flashBreak
  minTone : l.timers.minTone.isSome = true → l.st = .connected ∧ l.manual.activity = .sounding
  /-- A manual digit is of a CONNECTED line (R47). -/
  manual : l.manual.activity ≠ .none → l.st = .connected

/-- A held part stands before its start-up check, with no part of it begun (R193). -/
structure State.Waits (s : State) : Prop where
  store : s.store.Sound
  held : s.held = true → s.store.st = .checking ∧ s.store.check = none

/-- Lines, timers and pool agree (R54 to R56), and no line leaves DISABLED before the end of the start-up check (R29). -/
structure State.Claimed (s : State) : Prop extends State.Waits s where
  checking : s.store.st = .checking → ∀ n, (s.line n).st = .disabled
  shaped : ∀ n, (s.line n).Shaped
  serves : s.pool.Serves fun n => (s.line n).want

/-- The Key Scanner's queue, deferred list and conditions agree (R159, R161, R162). -/
structure KeyScanner.Sound (ks : KeyScanner) : Prop where
  /-- At most 16 records (R159). -/
  queue : ks.queue.length ≤ 16
  /-- The deferred list names each DEFERRED key once, and matrix keys alone (R162). -/
  once : ks.deferred.Nodup
  deferred : ∀ k, k ∈ ks.deferred ↔ (ks.all.get k).cond = .deferred
  matrix : ∀ k ∈ ks.deferred, k.val < 16
  /-- A DEFERRED key's debounced level is DOWN, an UP key's UP (R158, R162). -/
  levels : ∀ k, (ks.all.get k).deb = true ↔ (ks.all.get k).cond ≠ .up
  /-- While a key is deferred, three or more matrix keys are DOWN or MARKED (R161, R162). -/
  jam : ks.deferred ≠ [] → 3 ≤ (List.finRange 20).countP fun k =>
    decide (k.val < 16) && ((ks.all.get k).cond == KeyCondition.down || (ks.all.get k).cond == KeyCondition.marked)

/-- The scanner's law: before the end of the start-up check it has taken no transition (R168), after it its records
agree. -/
structure State.Scanned (s : State) : Prop extends State.Waits s where
  checking : s.store.st = .checking →
    (∀ k, (s.key k).cond = .up) ∧ s.keys.queue = [] ∧ s.keys.deferred = []
  sound : s.store.st ≠ .checking → s.keys.Sound

/-- The source records, ATTN and the queued notices agree (R173, R176, R177). -/
structure State.Noted (s : State) : Prop where
  /-- At most one notice of a source stands in the outbound queue (R173). -/
  oneNote : ∀ src, s.link.outbound.countP (OutRecord.isNoteOf src) ≤ 1
  /-- A source whose notice stands in the queue has notice-pending set (R173). -/
  marked : ∀ src, 1 ≤ s.link.outbound.countP (OutRecord.isNoteOf src) → (s.source src).noticePending = true
  /-- No source is owed a notice: a latched flag in its mask has notice-pending set (R173, R176). -/
  called : ∀ src, (s.source src).calls = false
  /-- ATTN stands while, and only while, a latched flag of some source is in its mask (R177). -/
  attn : s.events.attn = attnLevel s.events.sources

/-- The outbound queue and the inbound buffer keep their limits (R184, R185). -/
structure LinkPort.Bounded (k : LinkPort) : Prop where
  /-- At most three replies stand in the outbound queue (R185). -/
  replies : k.replies ≤ 3
  /-- At most two frames wait in the inbound buffer (R184). -/
  inbound : k.inbound.length ≤ 2
  /-- A frame waits only while three replies stand (R185). -/
  waits : k.inbound ≠ [] → k.replies = 3

/-- A physical block stays RETIRED (R136, R143). -/
def State.RetiredAt (p : PhysicalNo) (s : State) : Prop :=
  s.store.Sound ∧ (s.store.blocks.get p).role = .retired

end Machine

end Sys2Proof
end

