-- ==== Sys2Proof/WellFormed.lean ====
section
/-! DEFINITION. Which commands the link can carry: a frame's BODY holds 0 to 253 bytes (R195), and the KIND of an
UNKNOWN_KIND frame is none of the codes of R196 that name a request. Line, key and slot numbers are bounded by
their types. -/

namespace Sys2Proof

/-- The kind codes of R196 that name a request of the part. -/
def requestCodes : List Byte :=
  [0x01#8, 0x02#8, 0x03#8, 0x04#8, 0x05#8, 0x06#8] ++
  [0x10#8, 0x11#8, 0x12#8, 0x13#8, 0x14#8, 0x15#8, 0x16#8, 0x17#8] ++
  [0x20#8, 0x21#8, 0x22#8, 0x23#8, 0x24#8, 0x25#8] ++
  [0x30#8, 0x31#8, 0x32#8] ++
  [0x40#8, 0x41#8, 0x42#8, 0x43#8, 0x44#8, 0x45#8, 0x46#8] ++
  [0x50#8, 0x51#8, 0x52#8, 0x53#8]

/-- A BODY that fits in a frame (R195). -/
def bodyFits (body : List Byte) : Bool := body.length ≤ 253

/-- The check of a command. -/
def Instr.wellFormed : Instr → Bool
  | .identify _ b | .status _ b | .setLink _ b | .resetEngine _ b | .events _ b | .setMask _ b => bodyFits b
  | .setProfile _ b | .readProfile _ b | .enableLine _ b | .disableLine _ b | .releaseLine _ b => bodyFits b
  | .hold _ b | .unhold _ b | .sendDigits _ b => bodyFits b
  | .submitJob _ b | .cancelJob _ b | .queryJob _ b | .collectJob _ b | .collectOldest _ b | .listJobs _ b => bodyFits b
  | .loadCadence _ b | .readCadence _ b | .clearCadence _ b => bodyFits b
  | .readEntry _ b | .writeEntry _ b | .eraseEntry _ b | .formatStore _ b | .storeStatus _ b => bodyFits b
  | .saveSettings _ b | .clearSettings _ b => bodyFits b
  | .bindKey _ b | .readBinding _ b | .setScan _ b | .readKeys _ b => bodyFits b
  | .unknownKind k _ b => bodyFits b && !requestCodes.contains k
  | .powerOn _ | .pinReset | .partStart _ | .startUpBlockCheck | .startupCheckEnd => true
  | .receiveByte _ _ | .interByteGapTimerExpiry | .linkBreak _ | .breakEnd | .lholdChange _ => true
  | .frameBegin | .frameEnd => true
  | .lineInputChange _ _ _ | .loopChange _ | .revChange _ => true
  | .ringPinChange _ _ | .ringBurstStart _ | .ringBurstEnd _ | .glareWindowExpiry _ => true
  | .cptPinChange _ _ | .filteredLevelChange _ | .steadyConfirmation _ | .gapWatchExpiry _ => true
  | .attemptStart _ | .seizeTimerExpiry _ | .postSeizeTimerExpiry _ | .dialToneTimerExpiry _ => true
  | .noAnswerTimerExpiry _ | .disconnectTimerExpiry _ | .makeTimerExpiry _ | .guardTimerExpiry _ => true
  | .breakTimerExpiry _ | .makePeriodTimerExpiry _ | .interdigitTimerExpiry _ => true
  | .toneTimerExpiry _ | .toneGapTimerExpiry _ | .pauseTimerExpiry _ | .flashTimerExpiry _ => true
  | .minimumToneTimerExpiry _ | .retryDelayExpiry _ | .jobStart _ => true
  | .keyRawChange _ _ | .keyTransition _ => true
  | .storeEraseEnd | .storeProgramEnd | .storeVerifyPass | .storeVerifyFail => true

end Sys2Proof
end

