-- ==== Sys2Proof/Certificates/Slice0/Obligations.lean ====
section
/-! DEFINITION. The statements for the provers: what the commands and the block do, from the rules of spec/. In them
`exec c s = .next t` says that command `c` completes from `s`, with `t` what it leaves. -/

open Sys2Proof Sys2Proof.Machine

/-! ### The step -/

/-- A step takes the command at the front of the queue and runs it on the state with the queue's rest. -/
def Obligations.StepRunsFrontCommand : Prop :=
  ∀ (c : Instr) (rest : List Instr) (s : State),
    step { s with pending := c :: rest } = exec c { s with pending := rest }

/-- With no command waiting (the model's choice, log entries 1, 9, 25): a held part stands; else the engine takes the oldest
submission a key handed over; with none on its way the first of its own steps that are due is made, as the command it is;
with none due one millisecond passes. The own steps are those whose moment has come (`State.Due`), in a fixed order. -/
def Obligations.StepWithoutCommand : Prop :=
  ∀ s : State,
    (s.pending = [] →
      (s.held = true → step s = .next s) ∧
      (s.held = false →
        (∀ h rest, s.keys.handed = h :: rest →
          step s = .next (State.takeHandover h { s with keys := { s.keys with handed := rest } })) ∧
        (s.keys.handed = [] → s.ownSteps = [] → step s = .next { s with now := s.now + 1 }) ∧
        (∀ c later, s.keys.handed = [] → s.ownSteps = c :: later → step s = exec c s))) ∧
    (s.held = true → s.ownSteps = []) ∧
    (s.held = false →
      (∀ c, c ∈ s.ownSteps ↔ s.Due c) ∧ s.ownSteps.Sublist ownOrder ∧ ((∀ c, ¬ s.Due c) → s.ownSteps = [])) ∧
    ownOrder.Nodup

/-- Every command, from every state, answers a next state, and leaves the queue of waiting commands alone. That no event
stops the part, and that a command out of its condition has no effect, are the model's readings (log entries 33, 32). -/
def Obligations.EveryCommandGoesOn : Prop :=
  ∀ (c : Instr) (s : State), ∃ t, exec c s = .next t ∧ t.pending = s.pending

/-- The state after reset: the values the rules give a part that starts on a store as shipped. Its clock, its pins, the
held mark, that it has started already, and two marks of the manual digit are the model's choices (log entries 1, 5, 6, 9, 38). -/
def Obligations.ResetState : Prop :=
  State.reset.pending = [] ∧ State.reset.held = false ∧
  (∀ n, let l := State.reset.line n
    l.st = .disabled ∧ l.committed = Profile.default ∧ l.pendingProfile = Profile.default ∧
    l.out = ⟨false, false, false, false, false⟩ ∧ l.loop.taken = false ∧ l.rev.taken = false ∧
    l.ring.burst = false ∧ l.ring.count = 0 ∧ l.ring.glareDue = none ∧ l.supervision = .off ∧
    l.manual = Manual.idle ∧ l.postAnswer = false ∧ l.timers = LineTimers.stopped ∧ l.cursor.sub = .none ∧
    l.cursor.sendProgram = [] ∧ l.cursor.pulses = 0 ∧ l.pc = Classifier.reset l.pc.pin ∧
    l.lastClass = none ∧ l.lastCause = none ∧ l.lastJob = none) ∧
  State.reset.pool.gens = Bank.fill 2 none ∧ State.reset.pool.wait = [] ∧
  State.reset.cadence = factoryCadence ∧
  State.reset.jobs = ⟨[], Bank.fill 4 [], [], 0, Bank.fill 4 .stopped⟩ ∧
  State.reset.store.st = .checking ∧ State.reset.store.op = none ∧ State.reset.store.spares = [32, 33, 34, 35] ∧
  (∀ b : LogicalNo, ∃ p : PhysicalNo, p.val = b.val ∧ State.reset.store.map.get b = some p) ∧
  (∀ e : EntryNo, State.reset.store.entry e = .blank) ∧
  (∀ p, (State.reset.store.blocks.get p).eraseCount = 0) ∧ State.reset.store.medium = .erased ∧
  (∀ k, let key := State.reset.key k
    key.binding = .none ∧ key.live = .none ∧ key.cond = .up ∧ key.since = none) ∧
  State.reset.keys.debounceMs = 20 ∧ State.reset.keys.active = Bank.fill 4 false ∧ State.reset.keys.queue = [] ∧
  State.reset.keys.deferred = [] ∧ State.reset.keys.handed = [] ∧ State.reset.keys.lastFail = none ∧
  (∀ src, State.reset.source src = ⟨if src = 6 then 1#8 else 0#8, 0#8, false⟩) ∧ State.reset.events.attn = false ∧
  State.reset.events.resetCause = .powerOn ∧ State.reset.events.lastLinkError = none ∧
  State.reset.events.lastDiscarded = none ∧
  State.reset.link.settings.even = false ∧ State.reset.link.rx = Receiver.hunting ∧ State.reset.link.inbound = [] ∧
  State.reset.link.outbound = [] ∧ State.reset.link.tx = .idle ∧ State.reset.link.breakSince = none

/-! ### Resets, the start, and the start-up check -/

/-- Power-on and pin reset (R193, R29, R31, R67, R71, R120, R138, R168, R170): every block in its power-on state. The model's
are: the pins stand as they are and the part is held until it starts (log entries 6, 8, 9, 34), a pin reset sets the link by
the straps last read (10), map, spares and the settings' condition stand until the check (21), a submission on its way is
gone (25), and two marks of the manual digit stand clear (38). -/
def Obligations.PowerOnState : Prop :=
  ∀ (c : Instr) (cause : ResetCause) (straps : BitVec 3) (s : State),
    (c = .powerOn straps ∧ cause = .powerOn) ∨ (c = .pinReset ∧ cause = .pin ∧ straps = s.pins.straps) →
    ∃ t, exec c s = .next t ∧ t.pending = s.pending ∧ t.held = true ∧ t.now = 0 ∧ t.pins = ⟨straps, s.pins.lhold⟩ ∧
      (∀ n, let l := t.line n
        l.st = .disabled ∧ l.committed = Profile.default ∧ l.pendingProfile = Profile.default ∧
        l.out = ⟨false, false, false, false, false⟩ ∧ l.loop = ⟨(s.line n).loop.pin, false, none⟩ ∧
        l.rev = ⟨(s.line n).rev.pin, false, none⟩ ∧ l.ring = ⟨(s.line n).ring.pin, false, none, none, 0, none⟩ ∧
        l.supervision = .off ∧ l.manual = Manual.idle ∧ l.postAnswer = false ∧ l.attempt = none ∧
        l.cursor.sub = .none ∧ l.cursor.sendProgram = [] ∧ l.cursor.pulses = 0 ∧
        l.timers = LineTimers.stopped ∧ l.pc = Classifier.reset (s.line n).pc.pin ∧
        l.lastClass = none ∧ l.lastCause = none ∧ l.lastJob = none) ∧
      t.pool = ⟨Bank.fill 2 none, []⟩ ∧ t.cadence = factoryCadence ∧
      t.jobs = ⟨[], Bank.fill 4 [], [], 0, Bank.fill 4 .stopped⟩ ∧
      t.store.st = .checking ∧ t.store.op = none ∧ t.store.check = none ∧ t.store.lastOp = none ∧
      t.store.lastRetired = none ∧ t.store.lastCleared = none ∧ t.store.map = s.store.map ∧
      t.store.spares = s.store.spares ∧ t.store.settingsCondition = s.store.settingsCondition ∧
      (∀ k, t.key k = ⟨(s.key k).raw, false, none, .up, .none, .none⟩) ∧ t.keys.debounceMs = 20 ∧
      t.keys.active = Bank.fill 4 false ∧ t.keys.queue = [] ∧ t.keys.deferred = [] ∧ t.keys.handed = [] ∧
      t.keys.lastFail = none ∧
      (∀ src, t.source src = ⟨if src = 6 then 1#8 else 0#8, 0#8, false⟩) ∧ t.events.attn = false ∧
      t.events.resetCause = cause ∧ t.events.lastLinkError = none ∧ t.events.lastDiscarded = none ∧
      t.link = ⟨⟨if straps.toNat ≤ 4 then straps.toNat else 0, false⟩, Receiver.hunting, [], [], .idle, none⟩

/-- What a power-on or pin reset leaves of the store's medium (R153, R155): with no work in hand, or work in ERASE or VERIFY,
all of it as it stands; a SAVE inside PROGRAM leaves the settings block INVALID, one between ERASE and PROGRAM (at the
moment ERASE ended, log entry 16) as the erase left it. An entry block of an operation, or of a blank rewrite of the
start-up check, inside PROGRAM keeps its erase count and has its content unreadable as it was; its role stands as it was
or is that of the logical block written (free, log entry 15). -/
def Obligations.ResetDuringStoreWork : Prop :=
  ∀ (c : Instr) (s : State), (∃ straps, c = .powerOn straps) ∨ c = .pinReset → ∃ t, exec c s = .next t ∧
    (let written : LogicalNo → PhysicalNo → OpPhase → Nat → Prop := fun b p ph since =>
       t.store.medium = s.store.medium ∧
       (ph ≠ .program ∨ s.now ≤ since → t.store.blocks = s.store.blocks) ∧
       (∀ q, q ≠ p → t.store.blocks.get q = s.store.blocks.get q) ∧
       (t.store.blocks.get p).eraseCount = (s.store.blocks.get p).eraseCount ∧
       (t.store.blocks.get p).content = (s.store.blocks.get p).content ∧
       ((t.store.blocks.get p).role = (s.store.blocks.get p).role ∨ (t.store.blocks.get p).role = .logical b)
     (s.store.op = none → s.store.rewriteNow = none →
       t.store.blocks = s.store.blocks ∧ t.store.medium = s.store.medium) ∧
     (∀ o b, s.store.op = some o → o.target = .settings b →
       t.store.blocks = s.store.blocks ∧
       t.store.medium = if o.phase = .program ∧ o.since < s.now then .invalid else s.store.medium) ∧
     (∀ o b p buf, s.store.op = some o → o.target = .block b p buf → written b p o.phase o.since) ∧
     (∀ r, s.store.op = none → s.store.rewriteNow = some r → written r.b r.p r.phase r.since))

/-- The part starts (R193, R152, R156, R181): the straps are read, the time-stamp clock counts from 0, the store enters
CHECKING with its map and spare list rebuilt from the headers, each line is measured from its pins, each key's debounced
level is its pin's (the model's choice, log entry 8), and everything else stands as the reset left it. A part that has
started ignores it (log entry 32). -/
def Obligations.PartStarts : Prop :=
  ∀ (straps : BitVec 3) (s : State),
    (s.held = false → exec (.partStart straps) s = .next s) ∧
    (s.held = true → ∃ t, exec (.partStart straps) s = .next t ∧
      (∀ n, (s.line n).MeasuredAt 0 (t.line n)) ∧
      (∀ k : KeyNo, t.key k = { s.key k with
        deb := if h : 16 ≤ k.val then (s.key k).raw == s.keys.active.get ⟨k.val - 16, by omega⟩ else (s.key k).raw
        since := none }) ∧
      (∀ b p, t.store.map.get b = some p → (s.store.blocks.get p).role = .logical b) ∧
      (∀ b, t.store.map.get b = none → ∀ p, (s.store.blocks.get p).role ≠ .logical b) ∧
      (∀ p, p ∈ t.store.spares ↔ (s.store.blocks.get p).role = .spare) ∧ t.store.spares.Pairwise (· < ·) ∧
      t = { s with
        now := 0, held := false, pins := { s.pins with straps := straps }, lines := t.lines
        keys := { s.keys with all := t.keys.all }
        link := { s.link with settings := ⟨if straps.toNat ≤ 4 then straps.toNat else 0, false⟩ }
        store := { s.store with
          st := .checking, op := none, check := some ⟨0, none⟩, map := t.store.map, spares := t.store.spares } })

/-- The start-up check takes its next logical block (R153): sound, it is kept; unsound, its erase begins and
BLOCK_CLEARED latches; unclaimed, the head spare is mapped to it and its erase begins, or with no spare it is dead. -/
def Obligations.BlockCheckMakesSound : Prop :=
  ∀ (b : LogicalNo) (s : State), s.store.check = some ⟨b.val, none⟩ →
    (∀ p slots, s.store.map.get b = some p → (s.store.blocks.get p).content = some slots →
      exec .startUpBlockCheck s = .next { s with store := { s.store with check := some ⟨b.val + 1, none⟩ } }) ∧
    (∀ p, s.store.map.get b = some p → (s.store.blocks.get p).content = none →
      exec .startUpBlockCheck s = .next
        (State.latch storeSource .blockCleared { s with
          store := { s.store with
            blocks := s.store.blocks.set p { s.store.blocks.get p with
              eraseCount := min 65535 ((s.store.blocks.get p).eraseCount + 1) }
            check := some ⟨b.val, some ⟨b, p, .erase, s.now⟩⟩
            lastCleared := some b } })) ∧
    (∀ q rest, s.store.map.get b = none → s.store.spares = q :: rest →
      exec .startUpBlockCheck s = .next
        (State.latch storeSource .blockCleared { s with
          store := { s.store with
            blocks := s.store.blocks.set q { s.store.blocks.get q with
              eraseCount := min 65535 ((s.store.blocks.get q).eraseCount + 1), content := none }
            map := s.store.map.set b (some q)
            spares := rest
            check := some ⟨b.val, some ⟨b, q, .erase, s.now⟩⟩
            lastCleared := some b } })) ∧
    (s.store.map.get b = none → s.store.spares = [] →
      exec .startUpBlockCheck s = .next { s with store := { s.store with check := some ⟨b.val + 1, none⟩ } })

/-- The start-up check ends (R154, R29, R168, R178): READY; with ERASED settings the defaults stay and nothing latches;
with INVALID ones SETTINGS_LOST latches; with VALID ones profiles, table, bindings, levels, debounce and masks load, a
line enters IDLE where its saved profile or mark says so, a key held DOWN is MARKED, and the notices the masks call for
join in order of source number. The ring detector of a line that comes up starts anew (the model's reading, log entry 31),
an input whose active level the load changes reads its level the other way (30), and no stability timer expires (45). -/
def Obligations.CheckEndLoadsSettings : Prop :=
  ∀ s : State, s.store.check = some ⟨32, none⟩ →
    ∃ t, exec .startupCheckEnd s = .next t ∧ t.store.st = .ready ∧ t.store.check = none ∧
      t.store.blocks = s.store.blocks ∧ t.store.map = s.store.map ∧ t.store.medium = s.store.medium ∧
      t.jobs = s.jobs ∧ t.pool = s.pool ∧
      (s.store.medium = .erased →
        t.lines = s.lines ∧ t.cadence = s.cadence ∧ t.events = s.events ∧ t.link = s.link ∧
        t.store.settingsCondition = .erased) ∧
      (s.store.medium = .invalid →
        t.lines = s.lines ∧ t.cadence = s.cadence ∧ t.store.settingsCondition = .invalid ∧
        (t.source storeSource).latched = (s.source storeSource).latched ||| Flag.settingsLost.mask) ∧
      (s.store.medium = .erased ∨ s.store.medium = .invalid →
        ∀ k, t.key k = { s.key k with cond := if (s.key k).deb then .marked else .up }) ∧
      (∀ c, s.store.medium = .valid c →
        let called : SourceNo → Bool := fun src => (s.source src).latched &&& c.masks.get src != 0#8
        t.store.settingsCondition = .valid ∧ t.cadence = c.cadence ∧
        (∀ n, let up := (c.profiles.get n).startEnabled || c.enabled.get n
          Line.MeasuredAt s.now { s.line n with
            committed := c.profiles.get n
            pendingProfile := c.profiles.get n
            st := if up then .idle else (s.line n).st
            ring := if up then { (s.line n).ring with burst := false, startDue := none, gapDue := none }
              else (s.line n).ring } (t.line n)) ∧
        t.keys = { s.keys with all := t.keys.all, active := c.active, debounceMs := c.debounceMs } ∧
        (∀ k : KeyNo,
          let turned := if h : 16 ≤ k.val then
            s.keys.active.get ⟨k.val - 16, by omega⟩ != c.active.get ⟨k.val - 16, by omega⟩ else false
          let deb := if turned then !(s.key k).deb else (s.key k).deb
          t.key k = { s.key k with deb := deb, cond := if deb then .marked else .up, binding := c.bindings.get k }) ∧
        (∀ src, t.source src =
          ⟨(s.source src).latched, c.masks.get src, (s.source src).noticePending || called src⟩) ∧
        t.events = { s.events with sources := t.events.sources, attn := (List.finRange 7).any called } ∧
        (let note : SourceNo → OutRecord := fun src => .note src
           ([finCode src, byteOf (topBit ((s.source src).latched &&& c.masks.get src)), (s.source src).latched] ++
             t.details src)
         let noted := (List.finRange 7).filter fun src => !(s.source src).noticePending && called src
         t.link = { s.link with outbound := s.link.outbound ++ noted.map note }))

/-! ### Requests -/

/-- IDENTIFY (R190, R197) is answered in every state of the store, and changes nothing. -/
def Obligations.IdentifyAnswers : Prop :=
  ∀ (tag : Byte) (body : List Byte) (s : State), s.TakesFrames →
    (body = [] → exec (.identify tag body) s = .next (s.replied tag
      [0#8, 0x15#8, 0x7A#8, 0x40#8, 0x04#8, 0x01#8, 4#8, 128#8, s.events.resetCause.code,
       if s.store.st = .checking then 0#8 else 1#8])) ∧
    (body ≠ [] → exec (.identify tag body) s = .next (s.replied tag (refusal .badLength 0)))

/-- The reports without a field: STATUS (R191, R205), LIST JOBS (R119, R206), STORE STATUS (R151, R207) answer OK with
their snapshot and change nothing. -/
def Obligations.ReportsAnswer : Prop :=
  ∀ (tag : Byte) (s : State), s.TakesRequests →
    exec (.status tag []) s = .next (s.replied tag (
      [0#8, s.store.st.code, optByte (fun o => o.kind.code) s.store.op, byteOf s.link.settings.speed,
       onOff s.link.settings.even] ++
      (List.finRange 4).flatMap (fun n =>
        [(s.line n).st.code, (s.line n).cursor.sub.code, onOff (s.line n).postAnswer,
         (s.line n).manual.activity.code, (s.line n).supervision.code, byteOf ((s.queue n).head?.getD 0),
         byteOf (s.queue n).length]) ++
      [byteOf (24 - s.jobs.table.length), byteOf s.jobs.finished.length] ++
      (s.pool.gens.get 0).encode ++ (s.pool.gens.get 1).encode ++
      byteOf s.pool.wait.length :: s.pool.wait.flatMap (fun c => [finCode c.line, c.symbol.code]) ++
      (List.finRange 4).flatMap (fun n =>
        [onOff (s.line n).pc.listening, onOff (s.line n).pc.filtered] ++ classCode (s.line n).pc.current ++
        [onOff (s.line n).pc.ringbackSeen, byteOf (s.line n).pc.unmatched, answerCode (s.line n).pc.lastAnswer,
         byteOf (s.line n).pc.history.length] ++
        (s.line n).pc.history.flatMap fun i => onOff i.on :: wordOf i.units))) ∧
    exec (.listJobs tag []) s = .next (s.replied tag (0#8 ::
      ((List.finRange 4).flatMap (fun n => byteOf (s.queue n).length :: (s.queue n).map byteOf) ++
       byteOf s.jobs.finished.length :: s.jobs.finished.map byteOf ++
       [byteOf (24 - s.jobs.table.length), byteOf s.jobs.lastId]))) ∧
    exec (.storeStatus tag []) s = .next (s.replied tag (
      [0#8, s.store.st.code] ++
      (match s.store.op with
       | none => [absent, absent, absent, absent, absent]
       | some o => [o.kind.code, optByte finCode o.index, o.target.logical, o.target.physical, o.phase.code]) ++
      s.store.map.items.map (optByte finCode) ++
      [byteOf (s.store.blocks.items.countP fun p => p.role == .retired)] ++
      s.store.blocks.items.flatMap (fun p => wordOf p.eraseCount) ++ [s.store.settingsCondition.code] ++
      byteOf s.store.spares.length :: s.store.spares.map finCode))

/-- The reports that name a record: READ PROFILE (R6), READ CADENCE (R73), READ ENTRY (R139), READ BINDING (R164) and
QUERY JOB (R116) answer OK with it, and change nothing; READ ENTRY is refused BUSY while an operation covers the block,
QUERY JOB NO_SUCH_JOB where no slot holds the identifier. -/
def Obligations.RecordReportsAnswer : Prop :=
  ∀ (tag : Byte) (s : State), s.TakesRequests →
    (∀ n : LineNo, exec (.readProfile tag [finCode n]) s = .next (s.replied tag (
      [0#8, (s.line n).st.code] ++ (s.line n).committed.encode ++ (s.line n).pendingProfile.encode ++
      [if (s.line n).committed = (s.line n).pendingProfile then 0#8 else 1#8]))) ∧
    (∀ k : SlotNo,
      (s.cadence.get k = none →
        exec (.readCadence tag [finCode k]) s = .next (s.replied tag [0#8, finCode k, absent, absent])) ∧
      (∀ c m, s.cadence.get k = some ⟨c, .steady m⟩ →
        exec (.readCadence tag [finCode k]) s = .next (s.replied tag ([0#8, finCode k, c.code, 0#8] ++ wordOf m))) ∧
      (∀ c g y, s.cadence.get k = some ⟨c, .cadenced g y⟩ →
        exec (.readCadence tag [finCode k]) s = .next (s.replied tag (
          [0#8, finCode k, c.code, 1#8, byteOf g.length] ++ g.flatMap Segment.encode ++ [byteOf y])))) ∧
    (∀ e : EntryNo,
      (s.store.covers (blockOf e) = true →
        exec (.readEntry tag [finCode e]) s = .next (s.replied tag (refusal .busy 0))) ∧
      (s.store.covers (blockOf e) = false → s.store.map.get (blockOf e) = none →
        exec (.readEntry tag [finCode e]) s = .next (s.replied tag [0#8, finCode e, 0#8, 1#8])) ∧
      (s.store.covers (blockOf e) = false → s.store.map.get (blockOf e) ≠ none → s.store.entry e = .blank →
        exec (.readEntry tag [finCode e]) s = .next (s.replied tag [0#8, finCode e, 0#8, 0#8])) ∧
      (∀ f, s.store.covers (blockOf e) = false → s.store.entry e = .valid f →
        exec (.readEntry tag [finCode e]) s = .next (s.replied tag (
          [0#8, finCode e, 1#8, 0#8, f.method.code, byteOf f.maxAttempts, optByte finCode f.fallback,
           byteOf f.digits.length] ++ f.digits.map Symbol.code ++ byteOf f.label.length :: f.label)))) ∧
    (∀ k : KeyNo, exec (.readBinding tag [finCode k]) s = .next (s.replied tag (
      0#8 :: (s.key k).binding.encode ++ [(s.key k).live.code, (s.key k).cond.code]))) ∧
    (∀ id : Nat, 1 ≤ id → id ≤ 255 →
      (s.job id = none → exec (.queryJob tag [byteOf id]) s = .next (s.replied tag (refusal .noSuchJob 0))) ∧
      (∀ j, s.job id = some j → exec (.queryJob tag [byteOf id]) s = .next (s.replied tag (0#8 :: j.record false))))

/-- SET LINK (R182) queues its reply with the new settings pending in it; FRAME_BEGIN (R188, R185) moves the head record
to TXD, and takes a frame that waits where the record is a reply; FRAME_END ends it, and the settings of a SET LINK
reply come into force. Out of its condition each changes nothing (the model's reading, log entries 32, 9). -/
def Obligations.TransmitterSends : Prop :=
  (∀ (tag : Byte) (speed par : Nat) (s : State), s.TakesRequests → speed ≤ 255 → par ≤ 255 →
    (speed ≤ 4 → par ≤ 1 → exec (.setLink tag [byteOf speed, byteOf par]) s = .next
      { s with link := { s.link with
          outbound := s.link.outbound ++ [OutRecord.reply tag [0#8, byteOf speed, byteOf par] (some ⟨speed, par == 1⟩)] } }) ∧
    (4 < speed → exec (.setLink tag [byteOf speed, byteOf par]) s = .next (s.replied tag (refusal .badValue 1))) ∧
    (speed ≤ 4 → 1 < par →
      exec (.setLink tag [byteOf speed, byteOf par]) s = .next (s.replied tag (refusal .badValue 2)))) ∧
  (∀ (r : OutRecord) (rest : List OutRecord) (s : State), s.link.outbound = r :: rest →
    (s.held = true ∨ s.link.tx ≠ .idle ∨ s.pins.lhold = true ∨ s.link.breakSince ≠ none →
      exec .frameBegin s = .next s) ∧
    (s.held = false → s.link.tx = .idle → s.pins.lhold = false → s.link.breakSince = none →
      let u := { s with link := { s.link with outbound := rest, tx := .sending r r.frame } }
      (r.isReply = false ∨ s.link.inbound = [] → exec .frameBegin s = .next u) ∧
      (∀ f fs, r.isReply = true → s.link.inbound = f :: fs → s.link.replies = 3 →
        exec .frameBegin s = .next ({ u with link := { u.link with inbound := fs } }.takeFrame f)))) ∧
  (∀ s : State, s.link.outbound = [] → exec .frameBegin s = .next s) ∧
  (∀ s : State, s.link.tx = .idle → exec .frameEnd s = .next s) ∧
  (∀ (tag : Byte) (body bytes : List Byte) (p : Option LinkSettings) (s : State),
    s.link.tx = .sending (.reply tag body p) bytes →
    exec .frameEnd s = .next { s with link := { s.link with tx := .idle, settings := p.getD s.link.settings } }) ∧
  (∀ (src : SourceNo) (body bytes : List Byte) (s : State), s.link.tx = .sending (.note src body) bytes →
    exec .frameEnd s = .next { s with link := { s.link with tx := .idle } })

/-- RESET ENGINE (R192, R30, R68, R93, R121, R169, R179): jobs, claims, key events and the flags of sources 0 to 4 are
gone; every line that is not DISABLED guards; the store, the table, profiles, bindings, masks, the replies and the notices
of STORE and SYSTEM stay; RESET of SYSTEM latches, and calls for a notice ahead of the reply. The model's are: two marks of
the manual digit (log entry 38), the cursor's source and index (7), submissions on their way (25), no notice where RESET is
latched already (36). -/
def Obligations.ResetEngineClears : Prop :=
  ∀ (tag : Byte) (s : State), s.TakesRequests →
    ∃ t : State, exec (.resetEngine tag []) s = .next (t.replied tag [0#8]) ∧
      t = { s with lines := t.lines, pool := Pool.empty, jobs := t.jobs, keys := t.keys, events := t.events,
                   link := { s.link with outbound := t.link.outbound } } ∧
      t.jobs = ⟨[], Bank.fill 4 [], [], s.jobs.lastId, Bank.fill 4 .stopped⟩ ∧
      (∀ n, (s.line n).st = .disabled → t.line n =
        { s.line n with lastClass := none, lastCause := none, lastJob := none }.settle s.now) ∧
      (∀ n, (s.line n).st ≠ .disabled → t.line n =
        { s.line n with
          st := .releasing
          cursor := { (s.line n).cursor with sendProgram := [], sub := .none, pulses := 0 }
          postAnswer := false
          supervision := .off
          manual := Manual.idle
          attempt := none
          timers := { LineTimers.stopped with guard := some (s.now + (s.line n).committed.guardMs) }
          ring := ⟨(s.line n).ring.pin, false, none, none, 0, none⟩
          pc := { (s.line n).pc with listening := false }
          lastClass := none, lastCause := none, lastJob := none }.settle s.now) ∧
      (∀ k, t.key k = { s.key k with
        live := .none, cond := if (s.key k).deb then .marked else (s.key k).cond }) ∧
      t.keys = { s.keys with all := t.keys.all, queue := [], deferred := [], lastFail := none } ∧
      (∀ src, (t.source src).mask = (s.source src).mask) ∧
      (∀ src : SourceNo, src.val < 5 → (t.source src).latched = 0#8 ∧ (t.source src).noticePending = false) ∧
      t.source storeSource = s.source storeSource ∧
      (t.source systemSource).latched = (s.source systemSource).latched ||| Flag.reset.mask ∧
      t.events = { s.events with sources := t.events.sources, attn := t.events.attn, resetCause := .engine } ∧
      (let sys := s.source systemSource
       let called := sys.latched.getLsbD 0 = false ∧ sys.mask.getLsbD 0 = true ∧ sys.noticePending = false
       let stays : OutRecord → Bool := fun r => match r with | .reply _ _ _ => true | .note src _ => decide (5 ≤ src.val)
       (called → (t.source systemSource).noticePending = true ∧ t.link.outbound = s.link.outbound.filter stays ++
         [OutRecord.note systemSource ([6#8, 0#8, sys.latched ||| 1#8] ++ t.details systemSource)]) ∧
       (¬ called → (t.source systemSource).noticePending = sys.noticePending ∧
         t.link.outbound = s.link.outbound.filter stays)) ∧
      t.events.attn = (List.finRange 7).any fun src => (t.source src).latched &&& (t.source src).mask != 0#8

/-- EVENTS (R175) answers the record and details of a source, and clears its flags, its notice-pending and its queued
notice; SET MASK (R176, R173) replaces its mask, which acts at once. -/
def Obligations.EventRequestsAct : Prop :=
  (∀ (tag : Byte) (src : SourceNo) (s : State), s.TakesFrames →
    ∃ t : State, exec (.events tag [finCode src]) s = .next (t.replied tag (
        [0#8, finCode src, (s.source src).latched, (s.source src).mask, onOff (s.source src).noticePending] ++
        s.details src)) ∧
      t.source src = ⟨0#8, (s.source src).mask, false⟩ ∧ (∀ m, m ≠ src → t.source m = s.source m) ∧
      t.link = { s.link with outbound := s.link.outbound.filter fun r => !r.isNoteOf src } ∧
      t = { s with events := { s.events with sources := t.events.sources, attn := attnLevel t.events.sources },
                   link := t.link }) ∧
  (∀ (tag : Byte) (src : SourceNo) (m : Byte) (s : State), s.TakesRequests →
    (m &&& ~~~(flagsOf src) ≠ 0#8 →
      exec (.setMask tag [finCode src, m]) s = .next (s.replied tag (refusal .badValue 2))) ∧
    (m &&& ~~~(flagsOf src) = 0#8 →
      ((s.source src).noticePending = true ∨ (s.source src).latched &&& m = 0#8 →
        exec (.setMask tag [finCode src, m]) s = .next
          ((s.putSource src { s.source src with mask := m }).replied tag [0#8])) ∧
      ((s.source src).noticePending = false → (s.source src).latched &&& m ≠ 0#8 →
        exec (.setMask tag [finCode src, m]) s = .next
          ({ s.putSource src ⟨(s.source src).latched, m, true⟩ with
             link := { s.link with outbound := s.link.outbound ++ [OutRecord.note src (
               [finCode src, byteOf (topBit ((s.source src).latched &&& m)), (s.source src).latched] ++
               s.details src)] } }.replied tag [0#8]))))

/-- SET PROFILE (R5, R199) is refused BAD_LENGTH, BAD_VALUE naming the first field out of its range, or NOT_READY; else it
writes the pending profile, and in DISABLED the committed one too. ENABLE LINE (R7) commits it and takes a DISABLED line to
IDLE with no ring burst in progress and RING measured anew (R24; that this holds at ENABLE LINE too is the model's reading,
log entry 31); DISABLE LINE (R8) takes an IDLE line with no job to DISABLED. -/
def Obligations.LineConfigured : Prop :=
  ∀ (tag : Byte) (n : LineNo) (s : State),
    (s.TakesFrames → s.RefusesFirst tag Instr.setProfile (fun b => b.length == 37) profileFields) ∧
    (s.TakesRequests →
      (∀ p : Profile, p.InRange →
        exec (.setProfile tag (finCode n :: p.encode)) s = .next ((s.putLine n
          { s.line n with
            pendingProfile := p
            committed := if (s.line n).st = .disabled then p else (s.line n).committed }).replied tag [0#8])) ∧
      ((s.line n).st = .disabled → exec (.enableLine tag [finCode n]) s = .next ((s.putLine n
        { s.line n with
          st := .idle
          committed := (s.line n).pendingProfile
          supervision := .off
          ring := { (s.line n).ring with burst := false, startDue := none, gapDue := none } }).replied tag [0#8])) ∧
      ((s.line n).st ≠ .disabled →
        exec (.enableLine tag [finCode n]) s = .next (s.replied tag (refusal .wrongState 0))) ∧
      ((s.line n).st = .idle → s.queue n = [] → exec (.disableLine tag [finCode n]) s = .next
        ((s.putLine n { s.line n with st := .disabled }).replied tag [0#8])) ∧
      ((s.line n).st ≠ .idle ∨ s.queue n ≠ [] →
        exec (.disableLine tag [finCode n]) s = .next (s.replied tag (refusal .busy 0))))

/-- RELEASE LINE (R20): an attempt under way is CANCELLED, an answered call DONE, each with cause RELEASED; the line
enters RELEASING first (R18), then the head job finishes (R113). -/
def Obligations.ReleaseLineEnds : Prop :=
  ∀ (tag : Byte) (n : LineNo) (s : State), s.TakesRequests →
    ((s.line n).st = .connected ∨ (s.line n).st = .held ∨
        ((s.line n).st = .dialing ∧ (s.line n).postAnswer = true) →
      exec (.releaseLine tag [finCode n]) s = .next
        (((s.enterReleasing n).finishHead n .done .released).replied tag [0#8])) ∧
    ((s.line n).st = .seizing ∨ (s.line n).st = .awaitDialtone ∨ (s.line n).st = .awaitProgress ∨
        ((s.line n).st = .dialing ∧ (s.line n).postAnswer = false) →
      exec (.releaseLine tag [finCode n]) s = .next
        (((s.enterReleasing n).finishHead n .cancelled .released).replied tag [0#8])) ∧
    ((s.line n).st = .disabled ∨ (s.line n).st = .idle ∨ (s.line n).st = .releasing →
      exec (.releaseLine tag [finCode n]) s = .next (s.replied tag (refusal .wrongState 0)))

/-- HOLD (R16, R52) ends a manual digit and takes a CONNECTED line to HELD; UNHOLD (R16, R15) takes it back to CONNECTED;
each starts a fresh session of the classifier (R77). Two marks of a manual digit that ended, and the cursor's source and index
outside DIALING, are the model's choices (log entries 38, 7). -/
def Obligations.HoldAndUnhold : Prop :=
  ∀ (tag : Byte) (n : LineNo) (s : State), s.TakesRequests →
    ((s.line n).st = .connected →
      let l := s.line n
      let u := ((s.putLine n
        { l with manual := Manual.idle, timers := { l.timers with minTone := none } }).withdrawTone n).releaseTone n
      exec (.hold tag [finCode n]) s = .next (((u.putLine n
        { u.line n with
          st := .held
          pc := { (u.line n).pc with
            listening := true, history := [], openOn := none, matchers := Bank.fill 8 ⟨0, 0, false⟩, unmatched := 0
            current := none, ringbackSeen := false, gapWatch := none
            interval := some ⟨(u.line n).pc.filtered, u.now, true⟩ } }).reportPhase n .held).replied tag [0#8])) ∧
    ((s.line n).st ≠ .connected →
      exec (.hold tag [finCode n]) s = .next (s.replied tag (refusal .wrongState 0))) ∧
    ((s.line n).st = .held →
      let l := s.line n
      exec (.unhold tag [finCode n]) s = .next (((s.putLine n
        { l with
          st := .connected
          cursor := { l.cursor with sub := .none, sendProgram := [], pulses := 0 }
          postAnswer := false
          timers := { l.timers with noAnswer := none }
          pc := { l.pc with
            listening := true, history := [], openOn := none, matchers := Bank.fill 8 ⟨0, 0, false⟩, unmatched := 0
            current := none, ringbackSeen := false, gapWatch := none
            interval := some ⟨l.pc.filtered, s.now, true⟩ } }).reportPhase n .connected).replied tag [0#8])) ∧
    ((s.line n).st ≠ .held →
      exec (.unhold tag [finCode n]) s = .next (s.replied tag (refusal .wrongState 0)))

/-- SEND DIGITS (R17, R46): a CONNECTED line with no manual digit enters post-answer DIALING, its session stopped, and the
first symbol begins; else WRONG_STATE, then BUSY, then BAD_VALUE naming the digits where the method does not allow one. -/
def Obligations.SendDigitsDials : Prop :=
  ∀ (tag : Byte) (n : LineNo) (p : List Symbol) (s : State), s.TakesRequests → 1 ≤ p.length → p.length ≤ 32 →
    let c : Instr := .sendDigits tag (finCode n :: byteOf p.length :: p.map Symbol.code)
    ((s.line n).st ≠ .connected → exec c s = .next (s.replied tag (refusal .wrongState 0))) ∧
    ((s.line n).st = .connected → (s.line n).manual.activity ≠ .none →
      exec c s = .next (s.replied tag (refusal .busy 0))) ∧
    ((s.line n).st = .connected → (s.line n).manual.activity = .none → (s.line n).method.allowsAll p = false →
      exec c s = .next (s.replied tag (refusal .badValue 2))) ∧
    ((s.line n).st = .connected → (s.line n).manual.activity = .none → (s.line n).method.allowsAll p = true →
      exec c s = .next ((((s.putLine n
        { s.line n with
          st := .dialing
          postAnswer := true
          cursor := ⟨.send, p, 0, .none, 0⟩
          pc := { (s.line n).pc with listening := false } }).reportPhase n .dial).beginSymbol n).replied tag [0#8]))

/-- SUBMIT JOB (R101 to R103, R99): a line that is not DISABLED, with room in its queue and in the table, takes the job
(`State.Accepts`): with a full table the oldest finished job is evicted, the next free identifier is issued, and a QUEUED
record joins the tail of the queue. A full table with none finished is refused TABLE_FULL. -/
def Obligations.SubmitJobQueues : Prop :=
  ∀ (tag : Byte) (b : Submission) (s : State),
    s.TakesRequests → s.jobs.Sound → b.origin = .link → b.attemptsOverride ≤ 9 →
    (∀ p, b.target = .inline p →
      1 ≤ p.length ∧ p.length ≤ 32 ∧ b.followChain = false ∧
        (b.methodOverride = some .pulse → Method.allowsAll .pulse p)) →
    let items : List Byte := match b.target with
      | .inline p => byteOf p.length :: p.map Symbol.code
      | .entry e => [finCode e]
    let kind : Byte := match b.target with | .inline _ => 0#8 | .entry _ => 1#8
    let c : Instr := .submitJob tag ([finCode b.line, kind, onOff b.supervised, onOff b.followChain,
      overrideCode b.methodOverride, byteOf b.attemptsOverride] ++ items)
    ((s.line b.line).st = .disabled → exec c s = .next (s.replied tag (refusal .wrongState 0))) ∧
    ((s.line b.line).st ≠ .disabled → 8 ≤ (s.queue b.line).length →
      exec c s = .next (s.replied tag (refusal .queueFull 0))) ∧
    ((s.line b.line).st ≠ .disabled → (s.queue b.line).length < 8 → s.jobs.table.length = 24 → s.jobs.finished = [] →
      exec c s = .next (s.replied tag (refusal .tableFull 0))) ∧
    ((s.line b.line).st ≠ .disabled → (s.queue b.line).length < 8 →
        (s.jobs.table.length < 24 ∨ s.jobs.finished ≠ []) →
      ∃ (id : Nat) (t : State), s.Accepts b id t ∧ exec c s = .next (t.replied tag [1#8, byteOf id]))

/-- CANCEL JOB (R114, R21) finishes a live job CANCELLED, its line abandoning an attempt past RESOLVE; COLLECT JOB (R117)
returns the record, and with COLLECT OLDEST (R118) takes a FINISHED job out of the table. -/
def Obligations.JobsEndAndLeave : Prop :=
  ∀ (tag : Byte) (id : Nat) (j : Job) (s : State), s.TakesRequests → 1 ≤ id → id ≤ 255 → s.job id = some j →
    (j.state = .finished →
      exec (.cancelJob tag [byteOf id]) s = .next (s.replied tag (refusal .wrongState 0))) ∧
    (j.state = .active → j.phase ≠ some .resolve → exec (.cancelJob tag [byteOf id]) s = .next
      (((s.enterReleasing j.line).finishHead j.line .cancelled .cancelled).replied tag [0#8])) ∧
    (j.state = .queued ∨ j.state = .retryWait ∨ (j.state = .active ∧ j.phase = some .resolve) →
      exec (.cancelJob tag [byteOf id]) s = .next ((s.finishJob j .cancelled .cancelled).replied tag [0#8])) ∧
    (j.state ≠ .finished →
      exec (.collectJob tag [byteOf id]) s = .next (s.replied tag (0#8 :: j.record false))) ∧
    (j.state = .finished →
      let t := { s with jobs := { s.jobs with
        table := s.jobs.table.filter fun i => i.id != id
        finished := s.jobs.finished.erase id } }
      exec (.collectJob tag [byteOf id]) s = .next (t.replied tag (0#8 :: j.record true)) ∧
      (∀ rest, s.jobs.finished = id :: rest →
        exec (.collectOldest tag []) s = .next (t.replied tag (0#8 :: j.record true)))) ∧
    (s.jobs.finished = [] → exec (.collectOldest tag []) s = .next (s.replied tag (refusal .noSuchJob 0)))

/-- LOAD CADENCE and CLEAR CADENCE (R72, R74, R92) write a slot, and the table change acts on each listening line, 0 first
(the model's choice, log entry 19): matchers and unmatched count return to 0, and the STEADY templates that the on interval
in progress is known to have outlasted (as far as the filter knows it, log entry 11) confirm, the lowest slot delivering
its class. With no on interval in progress nothing else changes. -/
def Obligations.CadenceWritten : Prop :=
  (∀ (tag : Byte) (k : SlotNo) (s : State), s.TakesRequests →
    let t : Option Template → State := fun x =>
      State.tableChangeAt 3 (State.tableChangeAt 2 (State.tableChangeAt 1 (State.tableChangeAt 0
        { s with cadence := s.cadence.set k x })))
    exec (.clearCadence tag [finCode k]) s = .next ((t none).replied tag [0#8]) ∧
    (∀ (c : ToneClass) (m : Nat), 10 ≤ m → m ≤ 1000 →
      exec (.loadCadence tag ([finCode k, c.code, 0#8] ++ wordOf m)) s = .next
        ((t (some ⟨c, .steady m⟩)).replied tag [0#8])) ∧
    (∀ (c : ToneClass) (g : List Segment) (y : Nat), 1 ≤ g.length → g.length ≤ 4 → 1 ≤ y → y ≤ 4 →
      (∀ x ∈ g, 1 ≤ x.onMin ∧ x.onMin ≤ x.onMax ∧ x.onMax ≤ 1000 ∧ 1 ≤ x.offMin ∧ x.offMin ≤ x.offMax ∧
        x.offMax ≤ 1000) →
      exec (.loadCadence tag ([finCode k, c.code, 1#8, byteOf g.length] ++ g.flatMap Segment.encode ++ [byteOf y])) s =
        .next ((t (some ⟨c, .cadenced g y⟩)).replied tag [0#8])) ∧
    ((∀ n, (s.line n).pc.listening = true → (s.line n).pc.onSince = none) → ∀ x, t x =
      { s with cadence := s.cadence.set k x, lines := s.lines.map fun l =>
          if l.pc.listening then
            { l with pc := { l.pc with matchers := Bank.fill 8 ⟨0, 0, false⟩, unmatched := 0 } }.settle s.now
          else l })) ∧
  (∀ (n : LineNo) (s : State),
    let u := s.putLine n { s.line n with pc := { (s.line n).pc with
      matchers := Bank.fill 8 ⟨0, 0, false⟩, unmatched := 0 } }
    let c := (u.line n).pc
    ((s.line n).pc.listening = false → s.tableChangeAt n = s) ∧
    ((s.line n).pc.listening = true → c.filtered = false ∨ (∀ i, c.interval = some i → i.on = false) →
      s.tableChangeAt n = u) ∧
    (∀ (b : Nat) (first : Bool), (s.line n).pc.listening = true → c.filtered = true →
      c.interval = some ⟨true, b, first⟩ →
      let lasted : SlotNo → Bool := fun k => match s.cadence.get k with
        | some ⟨_, .steady m⟩ => decide (b + 10 * m + 10 < s.now) && c.edges.head?.all fun e => decide (b + 10 * m < e)
        | _ => false
      let v := u.putLine n { u.line n with pc := { c with matchers := Bank.tabulate fun k => ⟨0, 0, lasted k⟩ } }
      ((∀ k, lasted k = false) → s.tableChangeAt n = v) ∧
      (∀ k t, lasted k = true → (∀ j, j < k → lasted j = false) → s.cadence.get k = some t →
        s.tableChangeAt n = v.confirm n t.cls k)))

/-- WRITE ENTRY and ERASE ENTRY (R140 to R142): on a READY store, and an entry whose block is not dead (nor, for ERASE,
BLANK), the operation begins: BUSY, the four slots in the buffer with the one changed, and the ERASE of the block. -/
def Obligations.EntryRequestsBegin : Prop :=
  ∀ (tag : Byte) (e : EntryNo) (f : EntryFields) (s : State), s.TakesRequests →
    f.maxAttempts ≤ 9 → f.fallback ≠ some e → 1 ≤ f.digits.length → f.digits.length ≤ 24 → f.label.length ≤ 12 →
    (∀ c ∈ f.label, 0x20 ≤ c.toNat ∧ c.toNat ≤ 0x7E) → (f.method = .pulse → Method.allowsAll .pulse f.digits) →
    let w : Instr := .writeEntry tag ([finCode e, f.method.code, byteOf f.maxAttempts, optByte finCode f.fallback,
      byteOf f.digits.length] ++ f.digits.map Symbol.code ++ [byteOf f.label.length] ++ f.label)
    let t : OpKind → PhysicalNo → Entry → State := fun kind p x => { s with store := { s.store with
      st := .busy
      op := some ⟨kind, some e, .block (blockOf e) p ((s.store.slots (blockOf e)).set (slotOf e) x), .erase, false, s.now⟩
      blocks := s.store.blocks.set p { s.store.blocks.get p with
        eraseCount := min 65535 ((s.store.blocks.get p).eraseCount + 1), content := none } } }
    (s.store.st = .busy →
      exec w s = .next (s.replied tag (refusal .busy 0)) ∧
      exec (.eraseEntry tag [finCode e]) s = .next (s.replied tag (refusal .busy 0))) ∧
    (s.store.st = .ready → s.store.map.get (blockOf e) = none →
      exec w s = .next (s.replied tag (refusal .deadBlock 0)) ∧
      exec (.eraseEntry tag [finCode e]) s = .next (s.replied tag (refusal .deadBlock 0))) ∧
    (∀ p, s.store.st = .ready → s.store.map.get (blockOf e) = some p →
      exec w s = .next ((t .write p (.valid f)).replied tag [1#8]) ∧
      (s.store.entry e = .blank →
        exec (.eraseEntry tag [finCode e]) s = .next (s.replied tag (refusal .entryBlank 0))) ∧
      (s.store.entry e ≠ .blank →
        exec (.eraseEntry tag [finCode e]) s = .next ((t .erase p .blank).replied tag [1#8])))

/-- FORMAT STORE, SAVE SETTINGS and CLEAR SETTINGS (R147, R149, R150): BUSY while an operation is in flight; on a READY
store the operation begins with its ERASE: the first logical block that is mapped with blank slots, or the settings
block with the snapshot of the settings (SAVE) or none (CLEAR). A FORMAT that finds every logical block dead completes at
once with result OK (the model's reading, log entry 35). -/
def Obligations.StoreRequestsBegin : Prop :=
  ∀ (tag : Byte) (s : State), s.TakesRequests →
    (s.store.st = .busy →
      exec (.formatStore tag []) s = .next (s.replied tag (refusal .busy 0)) ∧
      exec (.saveSettings tag []) s = .next (s.replied tag (refusal .busy 0)) ∧
      exec (.clearSettings tag []) s = .next (s.replied tag (refusal .busy 0))) ∧
    (∀ b p, s.store.st = .ready → s.store.map.get b = some p → (∀ a, a < b → s.store.map.get a = none) →
      exec (.formatStore tag []) s = .next ({ s with store := { s.store with
        st := .busy
        op := some ⟨.format, none, .block b p (Bank.fill 4 .blank), .erase, false, s.now⟩
        blocks := s.store.blocks.set p { s.store.blocks.get p with
          eraseCount := min 65535 ((s.store.blocks.get p).eraseCount + 1), content := none } } }.replied tag [1#8])) ∧
    (s.store.st = .ready →
      exec (.saveSettings tag []) s = .next ({ s with store := { s.store with
        st := .busy
        op := some ⟨.save, none, .settings (some
          { profiles := s.lines.map Line.committed
            enabled := s.lines.map fun l : Line => decide (l.st ≠ LineState.disabled)
            cadence := s.cadence
            bindings := s.keys.all.map Key.binding
            active := s.keys.active
            debounceMs := s.keys.debounceMs
            masks := s.events.sources.map Source.mask }), .erase, false, s.now⟩
        medium := .invalid } }.replied tag [1#8]) ∧
      exec (.clearSettings tag []) s = .next ({ s with store := { s.store with
        st := .busy
        op := some ⟨.clear, none, .settings none, .erase, false, s.now⟩
        medium := .invalid } }.replied tag [1#8])) ∧
    (s.store.st = .ready → (∀ b, s.store.map.get b = none) → ∃ o : OpRecord, o.kind = .format ∧ o.index = none ∧
      exec (.formatStore tag []) s = .next ((s.completeOp o .ok).replied tag [1#8]))

/-- BIND KEY (R163) binds an action to a key; SET SCAN (R167) sets the debounce time and the active levels, a changed
level read at once without debounce, E0 first and E3 last (the model's choice, log entry 41): an input DOWN that reads
inactive goes UP with its record and the delivery of its UP to a manual digit, line 0 first (log entry 19). Then the
stability timers that have run for the new debounce time expire (R157), each as its KEY_TRANSITION, key 0 first and after
the re-read (the model's choices, log entries 40, 44). READ KEYS (R160) takes up to eight records from the queue's head. -/
def Obligations.KeyRequestsAct : Prop :=
  (∀ (tag : Byte) (s : State), s.TakesRequests →
    (∀ (k : KeyNo) (x : Binding),
      let items : List Byte := match x with
        | .none => [0#8]
        | .job n e => [1#8, finCode n, finCode e]
        | .release n => [2#8, finCode n]
        | .cancel n => [3#8, finCode n]
        | .digit n y => [4#8, finCode n, y.code]
      exec (.bindKey tag (finCode k :: items)) s = .next ({ s with
        keys := { s.keys with all := s.keys.all.set k { s.key k with binding := x } } }.replied tag [0#8])) ∧
    (∀ (d : Nat) (a : Fin 4 → Bool), 10 ≤ d → d ≤ 50 →
      let t := State.relevel 3 (a 3) (State.relevel 2 (a 2) (State.relevel 1 (a 1) (State.relevel 0 (a 0)
        { s with keys := { s.keys with debounceMs := d } })))
      let c : Instr := .setScan tag [byteOf d, onOff (a 0), onOff (a 1), onOff (a 2), onOff (a 3)]
      (∃ u : Nat → State, u 0 = t ∧ exec c s = .next ((u 20).replied tag [0#8]) ∧ ∀ k : KeyNo,
        (cameBy (u k.val).now ((u k.val).key k).since (u k.val).keys.debounceMs →
          exec (.keyTransition k) (u k.val) = .next (u (k.val + 1))) ∧
        (¬ cameBy (u k.val).now ((u k.val).key k).since (u k.val).keys.debounceMs → u (k.val + 1) = u k.val)) ∧
      ((∀ k, ¬ cameBy s.now (t.key k).since d) → exec c s = .next (t.replied tag [0#8])) ∧
      t.keys.debounceMs = d ∧ (∀ e, t.keys.active.get e = a e) ∧
      (∀ k : KeyNo, k.val < 16 → t.key k = s.key k) ∧
      (∀ (e : Fin 4) (k : KeyNo), k.val = 16 + e.val →
        (s.keys.active.get e = a e → t.key k = s.key k) ∧
        (s.keys.active.get e ≠ a e →
          t.key k = { s.key k with
            deb := (s.key k).raw == a e
            since := none
            cond := match (s.key k).cond, (s.key k).raw == a e with
              | .up, true => .marked
              | .marked, false => .up
              | .down, false => .up
              | c, _ => c })) ∧
      ((∀ (e : Fin 4) (k : KeyNo), k.val = 16 + e.val → s.keys.active.get e ≠ a e → (s.key k).cond = .down →
          (s.key k).raw = a e) →
        t = { s with keys := { s.keys with all := t.keys.all, debounceMs := d, active := t.keys.active } })) ∧
    exec (.readKeys tag []) s = .next ({ s with keys := { s.keys with queue := s.keys.queue.drop 8 } }.replied tag (
      [0#8, byteOf (min 8 s.keys.queue.length)] ++
      (s.keys.queue.take 8).flatMap (fun r : KeyRecord => [finCode r.key, onOff r.down] ++ wordOf r.time) ++
      [byteOf (s.keys.queue.length - 8), if s.keys.deferred = [] then 0#8 else 1#8] ++
      (let down := (List.finRange 20).filter fun k : KeyNo => (s.key k).cond == KeyCondition.down
       byteOf down.length :: down.map finCode)))) ∧
  (∀ (e : Fin 4) (level : Bool) (s : State),
    let k : KeyNo := ⟨16 + e.val, by omega⟩
    let reads := (s.key k).raw == level
    let set : KeyCondition → State := fun c => { s with keys := { s.keys with
      active := s.keys.active.set e level
      all := s.keys.all.set k { s.key k with deb := reads, since := none, cond := c } } }
    let up := set .up
    let v := if s.keys.queue.length < 16 then State.latch keysSource .key
        { up with keys := { up.keys with queue := s.keys.queue ++ [⟨k, false, s.now % 65536⟩] } }
      else State.latch keysSource .overflow up
    (s.keys.active.get e = level → s.relevel e level = s) ∧
    (s.keys.active.get e ≠ level →
      ((s.key k).cond = .up → s.relevel e level = set (if reads then .marked else .up)) ∧
      ((s.key k).cond = .marked → s.relevel e level = set (if reads then .marked else .up)) ∧
      ((s.key k).cond = .down → reads = true → s.relevel e level = set .down) ∧
      ((s.key k).cond = .down → reads = false → s.relevel e level =
        State.manualUp k 3 (State.manualUp k 2 (State.manualUp k 1 (State.manualUp k 0 v))))))

/-- The refusals common to the requests (R186, R194, R196): BAD_LENGTH, BAD_VALUE naming the first field that fails,
NOT_READY during the start-up check, NO_SUCH_JOB for an identifier no slot holds, UNKNOWN_KIND. For a body of variable
length the expected length follows its counts as carried (R17, R72, R101, R140, R163, R198, R200, R201); the digits of a
PULSE entry are checked after its label (R140). That the method check of SUBMIT JOB comes before the start-up check is the
model's reading (log entry 37). A refused request changes nothing. -/
def Obligations.RequestsRefused : Prop :=
  ∀ (tag : Byte) (s : State), s.TakesFrames →
    (∀ mk : Byte → List Byte → Instr, mk ∈ [Instr.status, Instr.resetEngine, Instr.collectOldest, Instr.listJobs,
        Instr.formatStore, Instr.storeStatus, Instr.saveSettings, Instr.clearSettings, Instr.readKeys] →
      s.RefusesFirst tag mk (fun b => b.length == 0) (fun _ => [])) ∧
    (∀ (mk : Byte → List Byte → Instr) (limit : Nat), (mk, limit) ∈ [(Instr.readProfile, 4), (Instr.enableLine, 4),
        (Instr.disableLine, 4), (Instr.releaseLine, 4), (Instr.hold, 4), (Instr.unhold, 4), (Instr.readCadence, 8),
        (Instr.clearCadence, 8), (Instr.readEntry, 128), (Instr.eraseEntry, 128), (Instr.readBinding, 20)] →
      s.RefusesFirst tag mk (fun b => b.length == 1) fun b => [(1, decide (item b 0 < limit))]) ∧
    (∀ mk : Byte → List Byte → Instr, mk ∈ [Instr.cancelJob, Instr.queryJob, Instr.collectJob] →
      s.RefusesFirst tag mk (fun b => b.length == 1) (fun b => [(1, item b 0 != 0)]) ∧
      (∀ x : Byte, x ≠ 0#8 → s.store.st ≠ .checking → s.job x.toNat = none →
        exec (mk tag [x]) s = .next (s.replied tag (refusal .noSuchJob 0)))) ∧
    s.RefusesFirst tag Instr.setLink (fun b => b.length == 2) linkFields ∧
    s.RefusesFirst tag Instr.setMask (fun b => b.length == 2) maskFields ∧
    s.RefusesFirst tag Instr.setScan (fun b => b.length == 5) scanFields ∧
    s.RefusesFirst tag Instr.sendDigits sendFits sendFields ∧
    s.RefusesFirst tag Instr.submitJob submitFits submitFields ∧
    s.RefusesFirst tag Instr.loadCadence cadenceFits cadenceFields ∧
    s.RefusesFirst tag Instr.writeEntry writeFits writeFields ∧
    s.RefusesFirst tag Instr.bindKey bindFits bindFields ∧
    (∀ body, body.length ≠ 1 → exec (.events tag body) s = .next (s.replied tag (refusal .badLength 0))) ∧
    (∀ x : Byte, 7 ≤ x.toNat → exec (.events tag [x]) s = .next (s.replied tag (refusal .badValue 1))) ∧
    (∀ (kind : Byte) (body : List Byte), kind ∉ requestCodes →
      exec (.unknownKind kind tag body) s = .next (s.replied tag (refusal .unknownKind 0)))

/-- A good frame that arrives (R184, R185, R189, R193): ignored while the part is held or in a break; taken at once where
none waits and fewer than three replies stand; else it waits, and with two waiting it is lost with OVERRUN. A request
command stands for its arriving frame (log entry 3). -/
def Obligations.FramesArrive : Prop :=
  ∀ (c : Instr) (f : Frame) (s : State), frameOf c = some f →
    (s.held = true ∨ s.link.breakSince ≠ none → exec c s = .next s) ∧
    (s.TakesFrames → exec c s = .next (s.takeFrame f)) ∧
    (s.held = false → s.link.breakSince = none → s.link.inbound.length < 2 → 3 ≤ s.link.replies →
      exec c s = .next { s with link := { s.link with inbound := s.link.inbound ++ [f] } }) ∧
    (s.held = false → s.link.breakSince = none → 2 ≤ s.link.inbound.length →
      exec c s = .next (State.latch systemSource .linkErr { s with
        link := { s.link with rx := Receiver.hunting }
        events := { s.events with lastLinkError := some .overrun } }))

/-- RECEIVE_BYTE (R183, R184): SYNC begins a frame, then LEN, the bytes of KIND, TAG and BODY, and CHECK; a good frame
does what its request does, a damaged one latches LINK_ERR with its error. INTER_BYTE_GAP_TIMER_EXPIRY: TIMEOUT. That the
gap timer is due at 31 ms and that a parity error under parity NONE is none are the model's (log entries 2, 13, 28). -/
def Obligations.ReceiverFollows : Prop :=
  ∀ (b : Byte) (err : ByteError) (s : State),
    let r := s.link.rx
    let gap := some (s.now + 31)
    let e : Option LinkError := match err with
      | .clean => none
      | .framing => some .framing
      | .parity => if s.link.settings.even then some .parity else none
    let mark := r.mark.or e
    let put : Receiver → State := fun x => { s with link := { s.link with rx := x } }
    let bad : LinkError → State → State := fun x u => State.latch systemSource .linkErr { u with
      link := { u.link with rx := Receiver.hunting }
      events := { u.events with lastLinkError := some x } }
    (s.held = true ∨ s.link.breakSince ≠ none → exec (.receiveByte b err) s = .next s) ∧
    (s.held = false → s.link.breakSince = none →
      (r.st = .hunt → b = 0xC3#8 → e = none →
        exec (.receiveByte b err) s = .next (put ⟨.length, [], 0, none, gap⟩)) ∧
      (r.st = .hunt → b ≠ 0xC3#8 ∨ e ≠ none → exec (.receiveByte b err) s = .next s) ∧
      (r.st = .length → 2 ≤ b.toNat → exec (.receiveByte b err) s = .next (put ⟨.body, [], b.toNat, mark, gap⟩)) ∧
      (r.st = .length → b.toNat < 2 → exec (.receiveByte b err) s = .next (bad .badLength s)) ∧
      (r.st = .body → r.bytes.length + 1 < r.expected →
        exec (.receiveByte b err) s = .next (put ⟨.body, r.bytes ++ [b], r.expected, mark, gap⟩)) ∧
      (r.st = .body → r.expected ≤ r.bytes.length + 1 →
        exec (.receiveByte b err) s = .next (put ⟨.check, r.bytes ++ [b], r.expected, mark, gap⟩)) ∧
      (∀ x, r.st = .check → mark = some x → exec (.receiveByte b err) s = .next (bad x s)) ∧
      (r.st = .check → mark = none → (byteOf r.expected :: r.bytes ++ [b]).foldl (· + ·) 0#8 ≠ 0#8 →
        exec (.receiveByte b err) s = .next (bad .badCheck s)) ∧
      (∀ c kind tag body, r.st = .check → mark = none →
        (byteOf r.expected :: r.bytes ++ [b]).foldl (· + ·) 0#8 = 0#8 → r.bytes = kind :: tag :: body →
        frameOf c = some ⟨kind, tag, body⟩ →
        exec (.receiveByte b err) s = exec c (put Receiver.hunting))) ∧
    (r.gap = none → exec .interByteGapTimerExpiry s = .next s) ∧
    (∀ d, r.gap = some d → exec .interByteGapTimerExpiry s = .next (bad .timeout { s with now := max s.now d }))

/-- BREAK (R189, R180): receiver, inbound buffer, outbound queue and TXD are cleared, the strap settings come into force,
LINK_BREAK latches, and a notice stands for each source whose flags call for one. BREAK_END and LHOLD_CHANGE (R188).
RXD has stood at space for the 25 ms before (the model's record, log entry 26). -/
def Obligations.BreakClearsLink : Prop :=
  ∀ (straps : BitVec 3) (s : State),
    (s.held = true ∨ s.link.breakSince ≠ none → exec (.linkBreak straps) s = .next s) ∧
    (s.held = false → s.link.breakSince = none →
      ∃ t : State, exec (.linkBreak straps) s = .next t ∧
        t = { s with pins := { s.pins with straps := straps }, link := t.link,
                     events := { s.events with sources := t.events.sources, attn := attnLevel t.events.sources } } ∧
        (∀ src, t.source src =
          let flags := (s.source src).latched ||| (if src = systemSource then Flag.linkBreak.mask else 0#8)
          ⟨flags, (s.source src).mask, flags &&& (s.source src).mask != 0#8⟩) ∧
        t.link = { settings := ⟨if straps.toNat ≤ 4 then straps.toNat else 0, false⟩, rx := Receiver.hunting
                   inbound := [], tx := .idle, breakSince := some (s.now - 25)
                   outbound := (List.finRange 7).filterMap fun src =>
                     if (t.source src).noticePending then some (.note src (t.noteBody src)) else none }) ∧
    exec .breakEnd s = .next { s with link := { s.link with breakSince := none } } ∧
    (∀ active, exec (.lholdChange active) s = .next { s with pins := { s.pins with lhold := active } })

/-- The encodings of what replies and notices carry: bytes and words (R194), codes (R197, R203), the job record (R198), the
profile (R199), flags, details and the top flag of a NOTE (R202), generators (R205), bindings and live jobs (R208), and
the frame (R195, R196). -/
def Obligations.RecordsEncoded : Prop :=
  (∀ v : Nat, byteOf v = BitVec.ofNat 8 v ∧ wordOf v = [BitVec.ofNat 8 v, BitVec.ofNat 8 (v / 256)]) ∧
  onOff false = 0#8 ∧ onOff true = 1#8 ∧
  (∀ (α : Type) (f : α → Byte) (a : α), optByte f (some a) = f a ∧ optByte f none = 0xFF#8) ∧
  (∀ (n : Nat) (i : Fin n), finCode i = BitVec.ofNat 8 i.val) ∧
  (∀ v : Fin 10, (Symbol.digit v).code = 0x30#8 + BitVec.ofNat 8 v.val) ∧
  [Symbol.star, .hash, .a, .b, .c, .d, .pause, .flash, .waitTone].map Symbol.code =
    [0x2A#8, 0x23#8, 0x41#8, 0x42#8, 0x43#8, 0x44#8, 0x50#8, 0x46#8, 0x57#8] ∧
  [RefusalCause.notReady, .unknownKind, .badLength, .badValue, .wrongState, .busy, .queueFull, .tableFull, .noSuchJob,
    .entryBlank, .deadBlock].map RefusalCause.code = [1#8, 2#8, 3#8, 4#8, 5#8, 6#8, 7#8, 8#8, 9#8, 10#8, 11#8] ∧
  [Cause.noLoop, .noDialTone, .busy, .reorder, .redialTone, .noAnswer, .loopLost, .chainLoop, .chainLimit, .entryBlank,
    .entryDead, .invalidForMethod, .released, .farEnd, .cancelled].map Cause.code =
    [1#8, 2#8, 3#8, 4#8, 5#8, 6#8, 7#8, 8#8, 9#8, 10#8, 11#8, 12#8, 13#8, 14#8, 15#8] ∧
  [JobOutcome.done, .failed, .cancelled].map JobOutcome.code = [0#8, 1#8, 2#8] ∧
  [SubmitFail.wrongState, .queueFull, .tableFull, .duplicate].map SubmitFail.code = [5#8, 7#8, 8#8, 16#8] ∧
  [ToneClass.dial, .busy, .ringback, .reorder, .alertA, .alertB].map ToneClass.code = [1#8, 2#8, 3#8, 4#8, 5#8, 6#8] ∧
  [LinkError.badLength, .timeout, .parity, .framing, .badCheck, .overrun].map LinkError.code =
    [1#8, 2#8, 3#8, 4#8, 5#8, 6#8] ∧
  [OpKind.write, .erase, .format, .save, .clear].map OpKind.code = [0#8, 1#8, 2#8, 3#8, 4#8] ∧
  [OpResult.ok, .worn, .settingsFail].map OpResult.code = [0#8, 1#8, 2#8] ∧
  [OpPhase.load, .erase, .program, .verify].map OpPhase.code = [0#8, 1#8, 2#8, 3#8] ∧
  [ResetCause.powerOn, .pin, .engine].map ResetCause.code = [0#8, 1#8, 2#8] ∧
  [Method.tone, .pulse].map Method.code = [0#8, 1#8] ∧
  [none, some Method.tone, some .pulse].map overrideCode = [2#8, 0#8, 1#8] ∧
  [EntryMethod.tone, .pulse, .line].map EntryMethod.code = [0#8, 1#8, 2#8] ∧
  [LineState.disabled, .idle, .seizing, .awaitDialtone, .dialing, .awaitProgress, .connected, .held, .releasing].map
    LineState.code = [0#8, 1#8, 2#8, 3#8, 4#8, 5#8, 6#8, 7#8, 8#8] ∧
  [SubPhase.none, .pulseBreak, .pulseMake, .interdigit, .toneRequest, .toneOn, .toneGap, .pause, .flashBreak,
    .waitTone].map SubPhase.code = [0#8, 1#8, 2#8, 3#8, 4#8, 5#8, 6#8, 7#8, 8#8, 9#8] ∧
  [Supervision.off, .active, .suspended].map Supervision.code = [0#8, 1#8, 2#8] ∧
  [Activity.none, .waiting, .sounding].map Activity.code = [0#8, 1#8, 2#8] ∧
  [none, some Basis.reversal, some .ringbackCeased, some .unclassified].map answerCode = [0#8, 1#8, 2#8, 3#8] ∧
  [StoreState.ready, .busy].map StoreState.code = [0#8, 1#8] ∧
  [Condition.erased, .valid, .invalid].map Condition.code = [0#8, 1#8, 2#8] ∧
  [KeyCondition.up, .down, .deferred, .marked].map KeyCondition.code = [0#8, 1#8, 2#8, 3#8] ∧
  [JobState.queued, .active, .retryWait, .finished].map JobState.code = [0#8, 1#8, 2#8, 3#8] ∧
  [Phase.resolve, .seize, .dialtone, .dial, .progress, .connected, .held].map Phase.code =
    [0#8, 1#8, 2#8, 3#8, 4#8, 5#8, 6#8] ∧
  (∀ (collected : Bool) (j : Job), j.record collected =
    [ byteOf j.id, finCode j.line, (match j.origin with | .link => 0xFF#8 | .key k => finCode k),
      (match j.kind with | .inline => 0#8 | .entry => 1#8),
      onOff j.supervised ||| onOff j.followChain <<< 1 ||| onOff j.connectedOnce <<< 2 ||| onOff collected <<< 3,
      overrideCode j.methodOverride, byteOf j.attemptsOverride, j.state.code, optByte Phase.code j.phase,
      optByte Method.code j.methodInEffect, optByte finCode j.entryIndex, optByte finCode j.fallback, byteOf j.hop,
      byteOf j.attemptsThisHop, optByte byteOf j.attemptsMaxThisHop, byteOf j.attemptsTotal,
      optByte Cause.code j.lastCause, (match j.lastClass with | none => 0#8 | some c => c.code),
      (match j.outcome with | none => 0xFF#8 | some (o, _) => o.code),
      (match j.outcome with | none => 0xFF#8 | some (_, c) => c.code), byteOf j.position,
      optByte byteOf j.symbolsRemaining ] ++
    byteOf j.visited.length :: j.visited.map finCode ++
    (match j.program with | none => [0#8] | some p => byteOf p.length :: p.map Symbol.code)) ∧
  (∀ p : Profile, p.encode =
    [p.method.code, byteOf p.pulseRate, byteOf p.breakPct] ++ wordOf p.interdigitMs ++
    [byteOf p.toneOnMs, byteOf p.toneGapMs] ++ wordOf p.flashMs ++ wordOf p.pauseMs ++ wordOf p.seizeTimeoutMs ++
    wordOf p.postSeizeMs ++ [onOff p.dialtoneWait] ++ wordOf p.dialtoneTimeoutMs ++
    [onOff p.blindDial, byteOf p.noAnswerS] ++ wordOf p.disconnectMs ++ wordOf p.guardMs ++ wordOf p.retryDelayS ++
    [byteOf p.attemptsDefault, onOff p.answerReversal, onOff p.answerRingbackCease] ++ wordOf p.answerGapMs ++
    [onOff p.answerUnclassified, onOff p.txmuteAuto, onOff p.rxmuteAuto, onOff p.loopback, onOff p.startEnabled]) ∧
  (∀ g : Segment, g.encode = wordOf g.onMin ++ wordOf g.onMax ++ wordOf g.offMin ++ wordOf g.offMax) ∧
  [Flag.jobEnd, .attemptFail, .glare, .progress, .loopChg, .revChg, .ring].map Flag.bit = [0, 1, 2, 3, 4, 5, 6] ∧
  [Flag.submitFail, .jam, .overflow, .key].map Flag.bit = [0, 1, 2, 3] ∧
  [Flag.blockCleared, .blockRetired, .settingsLost, .opDone].map Flag.bit = [0, 1, 2, 3] ∧
  [Flag.reset, .linkBreak, .linkErr, .resultDiscarded].map Flag.bit = [0, 1, 2, 3] ∧
  (∀ (b : Byte) (i : Nat), b.getLsbD i = true → (∀ j, j < i → b.getLsbD j = false) → topBit b = i) ∧
  (∀ src : SourceNo, flagsOf src = if src.val < 4 then 0x7F#8 else 0x0F#8) ∧
  (∀ (n : LineNo) (s : State), s.details (lineSource n) =
    [byteOf (s.line n).ring.count, onOff (s.line n).loop.taken, onOff (s.line n).rev.taken] ++
    (match (s.line n).lastClass with | none => [0#8, 0xFF#8] | some (c, k) => [c.code, finCode k]) ++
    [optByte Cause.code (s.line n).lastCause] ++
    (match (s.line n).lastJob with
     | none => [0#8, 0xFF#8, 0xFF#8]
     | some (id, o, c) => [byteOf id, o.code, c.code])) ∧
  (∀ s : State, s.details keysSource =
    (match s.keys.lastFail with
     | none => [0xFF#8, 0xFF#8, 0xFF#8, 0xFF#8]
     | some f => [finCode f.key, finCode f.line, finCode f.entry, f.cause.code]) ++ [byteOf s.keys.queue.length]) ∧
  (∀ s : State, s.details storeSource =
    (match s.store.lastOp with
     | none => [0xFF#8, 0xFF#8, 0xFF#8]
     | some (k, i, r) => [k.code, optByte finCode i, r.code]) ++
    [optByte finCode s.store.lastRetired, optByte finCode s.store.lastCleared]) ∧
  (∀ s : State, s.details systemSource =
    [s.events.resetCause.code, optByte LinkError.code s.events.lastLinkError] ++
    (match s.events.lastDiscarded with
     | none => [0#8, 0xFF#8, 0xFF#8, 0xFF#8]
     | some d => [byteOf d.id, finCode d.line] ++
       (match d.outcome with | none => [0xFF#8, 0xFF#8] | some (o, c) => [o.code, c.code]))) ∧
  Generator.encode none = [0xFF#8, 0xFF#8] ∧
  (∀ (n : LineNo) (y : Symbol), Generator.encode (some ⟨n, y⟩) = [finCode n, y.code]) ∧
  Binding.none.encode = [0#8, 0xFF#8, 0xFF#8] ∧
  (∀ n e, (Binding.job n e).encode = [1#8, finCode n, finCode e]) ∧
  (∀ n, (Binding.release n).encode = [2#8, finCode n, 0xFF#8]) ∧
  (∀ n, (Binding.cancel n).encode = [3#8, finCode n, 0xFF#8]) ∧
  (∀ n y, (Binding.digit n y).encode = [4#8, finCode n, y.code]) ∧
  LiveJob.none.code = 0#8 ∧ LiveJob.pending.code = 0#8 ∧ (∀ id, (LiveJob.job id).code = byteOf id) ∧
  (∀ (r : OutRecord) (kind tag : Byte) (body : List Byte),
    (∃ p, r = .reply tag body p ∧ kind = 0x80#8) ∨ (∃ src, r = .note src body ∧ kind = 0x81#8 ∧ tag = 0#8) →
    ∃ check : Byte, r.frame = [0xC3#8, byteOf (2 + body.length), kind, tag] ++ body ++ [check] ∧
      body.foldl (· + ·) (byteOf (2 + body.length) + kind + tag) + check = 0#8)

/-- A line written (R1, R2, R24, R26 to R28, R78; `Line.MeasuredAt`): its outputs stand at the levels its state calls for,
its inputs are measured from the levels it then sees (at once: log entry 20), and no other line changes. A raw change of
LOOP, REV, RING or CPT writes its pin so; while the part is held the pin alone stands (log entry 9). -/
def Obligations.LineWritten : Prop :=
  (∀ (n : LineNo) (l : Line) (s : State),
    let t := s.putLine n l
    (∀ m, m ≠ n → t.line m = s.line m) ∧ t = { s with lines := t.lines } ∧ l.MeasuredAt s.now (t.line n)) ∧
  (∀ (n : LineNo) (v : Bool) (s : State),
    let l := s.line n
    let put : Line → State := fun l => if s.held then { s with lines := s.lines.set n l } else s.putLine n l
    exec (.lineInputChange n .loop v) s = .next (put { l with loop := { l.loop with pin := v } }) ∧
    exec (.lineInputChange n .rev v) s = .next (put { l with rev := { l.rev with pin := v } }) ∧
    exec (.ringPinChange n v) s = .next (put { l with ring := { l.ring with pin := v } }) ∧
    exec (.cptPinChange n v) s = .next (put { l with pc := { l.pc with pin := v } }))

/-! ### The course of a call -/

/-- The entries to the line's states (R11, R12, R14, R15, R18, R22, R31, R45, R61, R63, R76, R77): AWAIT_DIALTONE, DIALING,
what follows a program, CONNECTED, AWAIT_PROGRESS and RELEASING, each with what it starts and stops. Two marks of the
manual digit in RELEASING, the cursor's source and index outside DIALING, and what a line without an attempt does are the
model's choices (log entries 38, 7, 23). -/
def Obligations.StatesEntered : Prop :=
  ∀ (n : LineNo) (s : State),
    let l := s.line n
    let listens : Classifier :=
      { l.pc with
        listening := true, history := [], openOn := none, matchers := Bank.fill 8 ⟨0, 0, false⟩, unmatched := 0
        current := none, ringbackSeen := false, gapWatch := none, interval := some ⟨l.pc.filtered, s.now, true⟩ }
    let begins : LineTimers → LineTimers := fun t =>
      if l.supervision = .off then
        { t with disconnect := if l.loop.taken then none else some (s.now + l.committed.disconnectMs) }
      else t
    let supervised := if l.supervision = .off then .active else l.supervision
    s.enterAwaitDialtone n = (s.putLine n { l with
      st := .awaitDialtone, pc := listens, supervision := supervised
      timers := begins { l.timers with dialTone := some (s.now + l.committed.dialtoneTimeoutMs) } }).reportPhase n
        .dialtone ∧
    (s.position n < (l.attempt.map fun q : Attempt => q.program.length).getD 0 →
      s.enterDialing n = ((s.putLine n { l with
        st := .dialing, cursor := ⟨.job, [], s.position n, .none, 0⟩, supervision := supervised
        pc := { l.pc with listening := false }, timers := begins l.timers }).reportPhase n .dial).beginSymbol n) ∧
    ((l.attempt.map fun q : Attempt => q.program.length).getD 0 ≤ s.position n → s.enterDialing n = s.endProgram n) ∧
    (l.postAnswer = true → s.endProgram n = s.enterConnected n) ∧
    (l.postAnswer = false → (l.attempt.map fun q : Attempt => q.supervised).getD false = true →
      s.endProgram n = s.enterAwaitProgress n) ∧
    (l.postAnswer = false → (l.attempt.map fun q : Attempt => q.supervised).getD false = false → s.endProgram n = s.connect n) ∧
    s.enterConnected n = (s.putLine n { l with
      st := .connected, pc := listens, cursor := { l.cursor with sub := .none, sendProgram := [], pulses := 0 }
      postAnswer := false, timers := { l.timers with noAnswer := none } }).reportPhase n .connected ∧
    s.connect n = (s.enterConnected n).onActive n (fun j => { j with connectedOnce := true }) ∧
    s.enterAwaitProgress n = (s.putLine n { l with
      st := .awaitProgress, pc := listens, cursor := { l.cursor with sub := .none, pulses := 0 }
      timers := { l.timers with noAnswer := some (s.now + 1000 * l.committed.noAnswerS) } }).reportPhase n
        .progress ∧
    s.enterReleasing n = ((s.putLine n { l with
      st := .releasing, pc := { l.pc with listening := false }
      cursor := { l.cursor with sendProgram := [], sub := .none, pulses := 0 }
      postAnswer := false, supervision := .off, manual := Manual.idle, attempt := none
      timers := { LineTimers.stopped with guard := some (s.now + l.committed.guardMs) } }).withdrawTone n).releaseTone n

/-- ATTEMPT_START (R9, R10, R25): an IDLE line takes the attempt of its head job that is ACTIVE and resolved; a running
glare window latches GLARE. LOOP present already counts at once. Without an offer nothing happens. That the taking is a
step of its own after JOB_START is the model's (log entry 4). -/
def Obligations.AttemptStarts : Prop :=
  ∀ (n : LineNo) (s : State),
    (∀ j m, (s.line n).st = .idle → s.headJob n = some j → j.state = .active → j.phase = some .resolve →
      j.methodInEffect = some m →
      let u := if (s.line n).ring.glareDue = none then s else s.latch (lineSource n) .glare
      let v := (u.putLine n { u.line n with
        st := .seizing
        attempt := some ⟨j.program.getD [], m, j.supervised⟩
        supervision := .off
        ring := { (u.line n).ring with count := 0, glareDue := none }
        timers := { (u.line n).timers with seize := some (u.now + (u.line n).committed.seizeTimeoutMs) } }).reportPhase n
          .seize
      exec (.attemptStart n) s = .next (if (s.line n).loop.taken then v.loopSeized n else v)) ∧
    ((s.line n).st ≠ .idle ∨ s.headJob n = none → exec (.attemptStart n) s = .next s) ∧
    (∀ j, s.headJob n = some j → (j.state ≠ .active ∨ j.phase ≠ some .resolve ∨ j.methodInEffect = none) →
      exec (.attemptStart n) s = .next s)

/-- LOOP_CHANGE (R1, R10, R22, R23): the level taken changes, LOOP_CHG latches but in DISABLED, and the change drives the
seizure that waits for loop current, or loop supervision. Loop current in SEIZING goes on to AWAIT_DIALTONE, to
DIALING, or to the post-seizure delay. A change taken late is taken at the clock as it stands (log entry 2). -/
def Obligations.LoopTaken : Prop :=
  ∀ (n : LineNo) (s : State),
    ((s.line n).loop.since = none → exec (.loopChange n) s = .next s) ∧
    (∀ d, (s.line n).loop.since = some d →
      let v := !(s.line n).loop.taken
      let u := (s.advanceTo (d + 10)).putLine n { s.line n with loop := ⟨(s.line n).loop.pin, v, none⟩ }
      let w := if (s.line n).st = .disabled then u else u.latch (lineSource n) .loopChg
      let l := u.line n
      ((s.line n).st = .seizing → (s.line n).timers.seize ≠ none → v = true →
        exec (.loopChange n) s = .next (w.loopSeized n)) ∧
      ((s.line n).st ≠ .seizing ∨ (s.line n).timers.seize = none ∨ v = false →
        ((s.line n).supervision = .off → exec (.loopChange n) s = .next w) ∧
        ((s.line n).supervision = .active → v = true → exec (.loopChange n) s = .next
          (w.putLine n { l with timers := { l.timers with disconnect := none } })) ∧
        ((s.line n).supervision = .active → v = false → exec (.loopChange n) s = .next
          (w.putLine n { l with timers := { l.timers with
            disconnect := some (u.now + l.committed.disconnectMs) } })) ∧
        ((s.line n).supervision = .suspended → v = true → (s.line n).timers.make ≠ none →
          exec (.loopChange n) s = .next
            (w.putLine n { l with supervision := .active, timers := { l.timers with make := none } })) ∧
        ((s.line n).supervision = .suspended → v = false ∨ (s.line n).timers.make = none →
          exec (.loopChange n) s = .next w))) ∧
    (let u := s.putLine n { s.line n with timers := { (s.line n).timers with seize := none } }
     let waits := (s.line n).committed.dialtoneWait = true ∨
       ((s.line n).attempt.bind fun q : Attempt => q.program.head?) = some .waitTone
     (waits → s.loopSeized n = u.enterAwaitDialtone n) ∧
     (¬ waits → (s.line n).committed.postSeizeMs = 0 → s.loopSeized n = u.enterDialing n) ∧
     (¬ waits → (s.line n).committed.postSeizeMs ≠ 0 → s.loopSeized n = u.putLine n
       { u.line n with timers := { (u.line n).timers with
         postSeize := some (s.now + (s.line n).committed.postSeizeMs) } }))

/-- REV_CHANGE (R1, R88): a change of REV is taken after its 10 ms and latches REV_CHG but in DISABLED; in
AWAIT_PROGRESS with `answer_reversal` on it is an answer decision with basis REVERSAL, and in no other case one. The clock
brought up to the due moment, and no effect where no change runs, are the model's (log entry 2). -/
def Obligations.ReversalAnswers : Prop :=
  ∀ (n : LineNo) (s : State),
    ((s.line n).rev.since = none → exec (.revChange n) s = .next s) ∧
    (∀ d, (s.line n).rev.since = some d →
      let u := (s.advanceTo (d + 10)).putLine n
        { s.line n with rev := ⟨(s.line n).rev.pin, !(s.line n).rev.taken, none⟩ }
      let w := if (s.line n).st = .disabled then u else u.latch (lineSource n) .revChg
      ((s.line n).st = .awaitProgress → (s.line n).committed.answerReversal = true →
        exec (.revChange n) s = .next
          ((w.putLine n { u.line n with pc := { (u.line n).pc with lastAnswer := some .reversal } }).connect n)) ∧
      ((s.line n).st ≠ .awaitProgress ∨ (s.line n).committed.answerReversal = false →
        exec (.revChange n) s = .next w))

/-- RING_BURST_START, RING_BURST_END and GLARE_WINDOW_EXPIRY (R24, R25): a burst counts to 255, restarts the glare window
of 6 s and latches RING; its end and the window's end change nothing else. GUARD_TIMER_EXPIRY (R19, R24): the line enters
IDLE, no burst in progress. MINIMUM_TONE_TIMER_EXPIRY (R50): a manual tone whose key is up ends, the generator released;
one whose key is still down goes on. Minimum elapsed and key released stand clear with no manual digit (log entry 38). An
expiry brings the clock up to its moment if it has not passed it (log entry 2), here and in the statements on timers
below. -/
def Obligations.RingsCounted : Prop :=
  ∀ (n : LineNo) (s : State),
    let l := s.line n
    (l.ring.startDue = none → exec (.ringBurstStart n) s = .next s) ∧
    (∀ d, l.ring.startDue = some d → exec (.ringBurstStart n) s = .next
      (State.latch (lineSource n) .ring ((s.advanceTo d).putLine n { l with ring := { l.ring with
        burst := true
        startDue := none
        count := min 255 (l.ring.count + 1)
        glareDue := some (max s.now d + 6000) } }))) ∧
    (l.ring.gapDue = none → exec (.ringBurstEnd n) s = .next s) ∧
    (∀ d, l.ring.gapDue = some d → exec (.ringBurstEnd n) s = .next
      ((s.advanceTo d).putLine n { l with ring := { l.ring with burst := false, gapDue := none } })) ∧
    (l.ring.glareDue = none → exec (.glareWindowExpiry n) s = .next s) ∧
    (∀ d, l.ring.glareDue = some d → exec (.glareWindowExpiry n) s = .next
      ((s.advanceTo d).putLine n { l with ring := { l.ring with glareDue := none } })) ∧
    (l.timers.guard = none → exec (.guardTimerExpiry n) s = .next s) ∧
    (∀ d, l.timers.guard = some d → exec (.guardTimerExpiry n) s = .next ((s.advanceTo d).putLine n { l with
      st := .idle
      ring := { l.ring with burst := false, startDue := none, gapDue := none }
      timers := { l.timers with guard := none } })) ∧
    (l.timers.minTone = none → exec (.minimumToneTimerExpiry n) s = .next s) ∧
    (∀ d, l.timers.minTone = some d →
      let u := (s.advanceTo d).putLine n { l with
        manual := { l.manual with minElapsed := true }, timers := { l.timers with minTone := none } }
      (l.manual.keyReleased = false → exec (.minimumToneTimerExpiry n) s = .next u) ∧
      (l.manual.keyReleased = true → exec (.minimumToneTimerExpiry n) s = .next
        (((u.putLine n { u.line n with
          manual := ⟨.none, none, none, false, false⟩
          timers := { (u.line n).timers with minTone := none } }).withdrawTone n).releaseTone n)))

/-- The expiries that end a wait of an attempt: SEIZE (R10), POST_SEIZE (R10), DIAL_TONE in AWAIT_DIALTONE and in
WAIT_TONE with `blind_dial` off or on (R11, R44), NO_ANSWER (R14). DISCONNECT and MAKE expiries declare loop lost (R22, R23):
before an answer the attempt fails LOOP_LOST, after one the job is DONE with cause FAR_END. A timer that does not run does
nothing (log entry 2 for the clock). -/
def Obligations.AttemptTimersExpire : Prop :=
  ∀ (n : LineNo) (s : State),
    let t := (s.line n).timers
    let l := s.line n
    let loses : Instr → State → Prop := fun c u =>
      (l.st = .awaitDialtone ∨ l.st = .awaitProgress ∨ (l.st = .dialing ∧ l.postAnswer = false) →
        exec c s = .next ((u.enterReleasing n).attemptFailed n .loopLost)) ∧
      (l.st = .connected ∨ l.st = .held ∨ (l.st = .dialing ∧ l.postAnswer = true) →
        exec c s = .next ((u.enterReleasing n).finishHead n .done .farEnd)) ∧
      (l.st = .disabled ∨ l.st = .idle ∨ l.st = .seizing ∨ l.st = .releasing → exec c s = .next u)
    (t.seize = none → exec (.seizeTimerExpiry n) s = .next s) ∧
    (t.postSeize = none → exec (.postSeizeTimerExpiry n) s = .next s) ∧
    (t.dialTone = none → exec (.dialToneTimerExpiry n) s = .next s) ∧
    (t.noAnswer = none → exec (.noAnswerTimerExpiry n) s = .next s) ∧
    (t.disconnect = none → exec (.disconnectTimerExpiry n) s = .next s) ∧
    (t.make = none → exec (.makeTimerExpiry n) s = .next s) ∧
    (∀ d, t.seize = some d →
      exec (.seizeTimerExpiry n) s = .next (((s.advanceTo d).enterReleasing n).attemptFailed n .noLoop)) ∧
    (∀ d, t.postSeize = some d → exec (.postSeizeTimerExpiry n) s = .next
      (((s.advanceTo d).putLine n { l with timers := { t with postSeize := none } }).enterDialing n)) ∧
    (∀ d, t.noAnswer = some d →
      exec (.noAnswerTimerExpiry n) s = .next (((s.advanceTo d).enterReleasing n).attemptFailed n .noAnswer)) ∧
    (∀ d, t.disconnect = some d → loses (.disconnectTimerExpiry n)
      ((s.advanceTo d).putLine n { l with timers := { t with disconnect := none } })) ∧
    (∀ d, t.make = some d → loses (.makeTimerExpiry n)
      ((s.advanceTo d).putLine n { l with timers := { t with make := none } })) ∧
    (∀ d, t.dialTone = some d →
      let u := (s.advanceTo d).putLine n { l with timers := { t with dialTone := none } }
      (l.st = .awaitDialtone → l.committed.blindDial = false →
        exec (.dialToneTimerExpiry n) s = .next ((u.enterReleasing n).attemptFailed n .noDialTone)) ∧
      (l.st = .awaitDialtone → l.committed.blindDial = true →
        exec (.dialToneTimerExpiry n) s = .next (u.dialtoneServed n)) ∧
      (l.st = .dialing → l.committed.blindDial = true →
        exec (.dialToneTimerExpiry n) s = .next (u.waitToneServed n)) ∧
      (l.st = .dialing → l.committed.blindDial = false → l.cursor.source = .job →
        exec (.dialToneTimerExpiry n) s = .next ((u.enterReleasing n).attemptFailed n .noDialTone)) ∧
      (l.st = .dialing → l.committed.blindDial = false → l.cursor.source = .send →
        exec (.dialToneTimerExpiry n) s = .next (u.enterConnected n))) ∧
    (let v := s.putLine n { l with timers := { t with dialTone := none } }
     s.dialtoneServed n = (if (l.attempt.bind fun q : Attempt => q.program.head?) = some .waitTone
       then v.onActive n (fun j => { j with position := j.position + 1 }) else v).enterDialing n) ∧
    (let v := s.putLine n { l with pc := { l.pc with listening := false }, timers := { t with dialTone := none } }
     s.waitToneServed n = (v.countSymbol n).endSymbol n)

/-- A symbol begins (R32, R35 to R37, R40 to R44): the sub-phase its kind calls for, with the period of the line's
profile; a digit under PULSE opens the loop for its first pulse, a symbol sent as a tone asks for a generator. -/
def Obligations.SymbolBegins : Prop :=
  ∀ (n : LineNo) (s : State),
    let l := s.line n
    let p := match l.cursor.source with
      | .job => (l.attempt.map fun q : Attempt => q.program).getD []
      | .send => l.cursor.sendProgram
    let m := (l.attempt.map fun q : Attempt => q.method).getD .tone
    let opens : LineTimers → LineTimers := fun t => { t with disconnect := none, make := none }
    let breakMs := if l.committed.pulseRate = 20 then (if l.committed.breakPct = 66 then 33 else 30)
      else (if l.committed.breakPct = 66 then 66 else 60)
    (p[l.cursor.index]? = none → s.beginSymbol n = s.endProgram n) ∧
    (p[l.cursor.index]? = some .pause → s.beginSymbol n = s.putLine n { l with
      cursor := { l.cursor with sub := .pause }
      timers := { l.timers with pause := some (s.now + l.committed.pauseMs) } }) ∧
    (p[l.cursor.index]? = some .flash → s.beginSymbol n = s.putLine n { l with
      cursor := { l.cursor with sub := .flashBreak }, supervision := .suspended
      timers := { opens l.timers with flash := some (s.now + l.committed.flashMs) } }) ∧
    (p[l.cursor.index]? = some .waitTone → s.beginSymbol n = s.putLine n { l with
      cursor := { l.cursor with sub := .waitTone }
      pc := { l.pc with
        listening := true, history := [], openOn := none, matchers := Bank.fill 8 ⟨0, 0, false⟩, unmatched := 0
        current := none, ringbackSeen := false, gapWatch := none, interval := some ⟨l.pc.filtered, s.now, true⟩ }
      timers := { l.timers with dialTone := some (s.now + l.committed.dialtoneTimeoutMs) } }) ∧
    (∀ v : Fin 10, p[l.cursor.index]? = some (.digit v) → m = .pulse → s.beginSymbol n = s.putLine n { l with
      cursor := { l.cursor with sub := .pulseBreak, pulses := if v = 0 then 9 else v.val - 1 }
      supervision := .suspended
      timers := { opens l.timers with breakT := some (s.now + breakMs) } }) ∧
    (∀ y : Symbol, p[l.cursor.index]? = some y → y.isDigit = true → m = .tone →
      s.beginSymbol n = (s.putLine n { l with cursor := { l.cursor with sub := .toneRequest } }).requestTone n y)

/-- The expiries within DIALING (R37, R38, R40, R42, R43, R33, R34): break and make of a pulse, the end of the digit and of
its interdigit pause, tone and tone gap, PAUSE and FLASH; each symbol is counted once and the next one begins (log entry
2 for the clock). -/
def Obligations.SymbolsEnd : Prop :=
  ∀ (n : LineNo) (d : Nat) (s : State),
    let a := s.advanceTo d
    let l := s.line n
    let t := l.timers
    let makeMs := (if l.committed.pulseRate = 20 then 50 else 100) - l.committed.breakMs
    let closes : Line → Line := fun x =>
      if x.loop.taken then { x with supervision := .active, timers := { x.timers with make := none } }
      else { x with timers := { x.timers with make := some (a.now + x.committed.disconnectMs) } }
    (t.breakT = none → exec (.breakTimerExpiry n) s = .next s) ∧
    (t.makePeriod = none → exec (.makePeriodTimerExpiry n) s = .next s) ∧
    (t.interdigit = none → exec (.interdigitTimerExpiry n) s = .next s) ∧
    (t.tone = none → exec (.toneTimerExpiry n) s = .next s) ∧
    (t.toneGap = none → exec (.toneGapTimerExpiry n) s = .next s) ∧
    (t.pause = none → exec (.pauseTimerExpiry n) s = .next s) ∧
    (t.flash = none → exec (.flashTimerExpiry n) s = .next s) ∧
    (∀ x : Line, x.cursor.source = .send → (a.putLine n x).countSymbol n = a.putLine n x) ∧
    (∀ x : Line, x.cursor.source = .job →
      (a.putLine n x).countSymbol n = (a.putLine n x).onActive n fun j => { j with position := j.position + 1 }) ∧
    s.endSymbol n =
      (s.putLine n { l with cursor := { l.cursor with index := l.cursor.index + 1 } }).beginSymbol n ∧
    (t.breakT = some d → exec (.breakTimerExpiry n) s = .next (a.putLine n
      { closes { l with timers := { t with breakT := none } } with
        cursor := { l.cursor with sub := .pulseMake }
        timers := { (closes { l with timers := { t with breakT := none } }).timers with
          makePeriod := some (a.now + makeMs) } })) ∧
    (t.makePeriod = some d →
      let u := a.putLine n { l with timers := { t with makePeriod := none } }
      (l.cursor.pulses ≠ 0 → exec (.makePeriodTimerExpiry n) s = .next (u.putLine n
        { u.line n with
          cursor := { l.cursor with sub := .pulseBreak, pulses := l.cursor.pulses - 1 }
          supervision := .suspended
          timers := { t with makePeriod := none, disconnect := none, make := none
                             breakT := some (a.now + l.committed.breakMs) } })) ∧
      (l.cursor.pulses = 0 →
        let v := u.countSymbol n
        exec (.makePeriodTimerExpiry n) s = .next (v.putLine n
          { v.line n with
            cursor := { (v.line n).cursor with sub := .interdigit }
            timers := { (v.line n).timers with
              interdigit := some (a.now + (v.line n).committed.interdigitMs) } }))) ∧
    (t.interdigit = some d → exec (.interdigitTimerExpiry n) s = .next
      ((a.putLine n { l with timers := { t with interdigit := none } }).endSymbol n)) ∧
    (t.tone = some d → exec (.toneTimerExpiry n) s = .next (((a.putLine n { l with
      cursor := { l.cursor with sub := .toneGap }
      timers := { t with tone := none, toneGap := some (a.now + l.committed.toneGapMs) } }).releaseTone
        n).countSymbol n)) ∧
    (t.toneGap = some d → exec (.toneGapTimerExpiry n) s = .next
      ((a.putLine n { l with timers := { t with toneGap := none } }).endSymbol n)) ∧
    (t.pause = some d → exec (.pauseTimerExpiry n) s = .next
      (((a.putLine n { l with timers := { t with pause := none } }).countSymbol n).endSymbol n)) ∧
    (t.flash = some d → exec (.flashTimerExpiry n) s = .next (((a.putLine n
      { closes { l with timers := { t with flash := none } } with
        cursor := { l.cursor with sub := .none } }).countSymbol n).endSymbol n))

/-- The Generator Arbiter (R57 to R61, R63): a request is granted the FREE generator of lower number, else it waits at the
tail; a release hands the generator to the head of the list, which takes its grant, or leaves it FREE; a withdrawal
removes the line's entry alone. A held generator produces the row and column frequencies of its symbol (R41, R54; nominal
values, log entry 29), a FREE one no signal. -/
def Obligations.GeneratorsShared : Prop :=
  (∀ n : LineNo,
    let pad : List (List Symbol) := [[.digit 1, .digit 2, .digit 3, .a], [.digit 4, .digit 5, .digit 6, .b],
      [.digit 7, .digit 8, .digit 9, .c], [.star, .digit 0, .hash, .d]]
    let rows := [697, 770, 852, 941]
    let columns := [1209, 1336, 1477, 1633]
    (pad.map fun row => row.map fun y => Generator.tones (some ⟨n, y⟩)) =
      (rows.map fun r => columns.map fun c => some (r, c)) ∧
    Generator.tones none = none) ∧
  ∀ (n : LineNo) (y : Symbol) (s : State),
    (s.pool.gens.get 0 = none → s.requestTone n y =
      State.takeGrant n { s with pool := { s.pool with gens := s.pool.gens.set 0 (some ⟨n, y⟩) } }) ∧
    (s.pool.gens.get 0 ≠ none → s.pool.gens.get 1 = none → s.requestTone n y =
      State.takeGrant n { s with pool := { s.pool with gens := s.pool.gens.set 1 (some ⟨n, y⟩) } }) ∧
    (s.pool.gens.get 0 ≠ none → s.pool.gens.get 1 ≠ none → s.requestTone n y =
      { s with pool := { s.pool with wait := s.pool.wait ++ [⟨n, y⟩] } }) ∧
    (∀ (g : Fin 2) (z : Symbol), s.pool.gens.get g = some ⟨n, z⟩ →
      (∀ h, h < g → ∀ z', s.pool.gens.get h ≠ some ⟨n, z'⟩) →
      (s.pool.wait = [] → s.releaseTone n = { s with pool := { s.pool with gens := s.pool.gens.set g none } }) ∧
      (∀ c rest, s.pool.wait = c :: rest → s.releaseTone n =
        State.takeGrant c.line { s with pool := ⟨s.pool.gens.set g (some c), rest⟩ })) ∧
    ((∀ g z, s.pool.gens.get g ≠ some ⟨n, z⟩) → s.releaseTone n = s) ∧
    s.withdrawTone n = { s with pool := { s.pool with wait := s.pool.wait.filter fun c => c.line != n } } ∧
    ((s.line n).st = .dialing → (s.line n).cursor.sub = .toneRequest → s.takeGrant n = s.putLine n
      { s.line n with
        cursor := { (s.line n).cursor with sub := .toneOn }
        timers := { (s.line n).timers with tone := some (s.now + (s.line n).committed.toneOnMs) } }) ∧
    ((s.line n).st = .connected → (s.line n).manual.activity = .waiting → s.takeGrant n = s.putLine n
      { s.line n with
        manual := { (s.line n).manual with activity := .sounding }
        timers := { (s.line n).timers with minTone := some (s.now + (s.line n).committed.toneOnMs) } })

/-! ### Call-progress classification -/

/-- FILTERED_LEVEL_CHANGE (R78 to R80, R83, R89): the oldest raw edge, which has held for 10 ms, changes the filtered level;
in a session it ends the interval at the moment of the edge, in units of 10 ms, 1001 beyond 10 000 ms. A change at or
before the session's start makes the kind of its first interval, and ringback-seen is read when the edge is taken (the
model's readings, log entries 12, 39; 2 for the clock). -/
def Obligations.FilteredLevels : Prop :=
  ∀ (n : LineNo) (s : State),
    ((s.line n).pc.edges = [] → exec (.filteredLevelChange n) s = .next s) ∧
    (∀ e later, (s.line n).pc.edges = e :: later →
      let u := (s.advanceTo (e + 10)).putLine n
        { s.line n with pc := { (s.line n).pc with filtered := !(s.line n).pc.filtered, edges := later } }
      let c := (u.line n).pc
      let put : Classifier → State := fun c => u.putLine n { u.line n with pc := c }
      let units : Nat → Nat := fun b => if 10000 < e - b then 1001 else (e - b) / 10
      let kept : Interval → List HistoryItem := fun i =>
        if i.atStart then c.history
        else (c.history ++ [(⟨i.on, units i.began⟩ : HistoryItem)]).drop (c.history.length + 1 - 8)
      ((s.line n).pc.listening = false ∨ (s.line n).pc.interval = none →
        exec (.filteredLevelChange n) s = .next u) ∧
      (∀ i, (s.line n).pc.listening = true → (s.line n).pc.interval = some i →
        (e ≤ i.began →
          exec (.filteredLevelChange n) s = .next (put { c with interval := some { i with on := !i.on } })) ∧
        (i.began < e → i.on = true → exec (.filteredLevelChange n) s = .next (put { c with
          history := kept i
          interval := some ⟨false, e, false⟩
          openOn := if i.atStart then none else some (units i.began)
          matchers := c.matchers.map fun m => { m with steady := false }
          gapWatch := if c.ringbackSeen = true ∧ (s.line n).st = .awaitProgress ∧
              (s.line n).committed.answerRingbackCease = true
            then some (e + (s.line n).committed.answerGapMs) else none })) ∧
        (i.began < e → i.on = false →
          let v := put { c with history := kept i, interval := some ⟨true, e, false⟩, openOn := none, gapWatch := none }
          (c.openOn = none → exec (.filteredLevelChange n) s = .next v) ∧
          (∀ on, c.openOn = some on →
            exec (.filteredLevelChange n) s = .next (v.takePair n on (units i.began))))))

/-- A complete pair is offered to every CADENCED template (R81, R82): the segment at the matcher's position, or the first;
the matcher that reaches its confirming count confirms. The lowest slot that confirms delivers its class (R84); the
third pair in a row that matches nothing is an UNCLASSIFIED answer where the profile asks for it (R86, R90). -/
def Obligations.PairsMatch : Prop :=
  (∀ (on off : Nat) (m : Matcher), offerSlot none on off m = (⟨m, false, false⟩ : Matched) ∧
    ∀ (c : ToneClass) (u : Nat), offerSlot (some ⟨c, .steady u⟩) on off m = (⟨m, false, false⟩ : Matched)) ∧
  (∀ (c : ToneClass) (g : List Segment) (cycles on off : Nat) (m : Matcher),
    let x := offerSlot (some ⟨c, .cadenced g cycles⟩) on off m
    let fits : Nat → Prop := fun i => ∃ y, g[i]? = some y ∧ y.onMin ≤ on ∧ on ≤ y.onMax ∧ y.offMin ≤ off ∧ off ≤ y.offMax
    (fits m.pos → m.count + 1 ≠ g.length * cycles →
      x = ⟨{ m with pos := (m.pos + 1) % g.length, count := m.count + 1 }, true, false⟩) ∧
    (fits m.pos → m.count + 1 = g.length * cycles → x = ⟨{ m with pos := 0, count := 0 }, true, true⟩) ∧
    (¬ fits m.pos → fits 0 → g.length * cycles ≠ 1 →
      x = ⟨{ m with pos := if g.length = 1 then 0 else 1, count := 1 }, true, false⟩) ∧
    (¬ fits m.pos → fits 0 → g.length * cycles = 1 → x = ⟨{ m with pos := 0, count := 0 }, true, true⟩) ∧
    (¬ fits m.pos → ¬ fits 0 → x = ⟨{ m with pos := 0, count := 0 }, false, false⟩)) ∧
  (∀ (n : LineNo) (on off : Nat) (s : State),
    let x : SlotNo → Matched := fun k => offerSlot (s.cadence.get k) on off ((s.line n).pc.matchers.get k)
    let u : Nat → State := fun count => s.putLine n { s.line n with pc := { (s.line n).pc with
      matchers := Bank.tabulate fun k => (x k).m, unmatched := count } }
    let missed := min 255 ((s.line n).pc.unmatched + 1)
    (∀ k t, (x k).confirmed = true → (∀ j, j < k → (x j).confirmed = false) → s.cadence.get k = some t →
      s.takePair n on off = (u 0).confirm n t.cls k) ∧
    ((∀ k, (x k).confirmed = false) → (∃ k, (x k).advanced = true) → s.takePair n on off = u 0) ∧
    ((∀ k, (x k).advanced = false) →
      let answers := missed = 3 ∧ (s.line n).pc.ringbackSeen = true ∧ (s.line n).st = .awaitProgress ∧
        (s.line n).committed.answerUnclassified = true
      (¬ answers → s.takePair n on off = u missed) ∧
      (answers → s.takePair n on off = (((u missed).putLine n { (u missed).line n with
        pc := { ((u missed).line n).pc with lastAnswer := some .unclassified } }).connect n))))

/-- A class confirmed (R85, R13, R89): the current one again changes nothing; a new one becomes current and last class,
latches PROGRESS, is recorded with the ACTIVE job, and acts on the line by its state. That BUSY and REORDER are reported
only in a WAIT_TONE after an answer too is the model's choice (log entry 42). -/
def Obligations.ClassDelivered : Prop :=
  ∀ (n : LineNo) (c : ToneClass) (k : SlotNo) (s : State),
    let l := s.line n
    (∀ j, l.pc.current = some (c, j) → s.confirm n c k = s) ∧
    ((∀ j, l.pc.current ≠ some (c, j)) →
      let heard : Bool := c == .ringback && l.st == .awaitProgress
      let u := (State.latch (lineSource n) .progress (s.putLine n { l with
        lastClass := some (c, k)
        pc := { l.pc with
          current := some (c, k)
          ringbackSeen := heard || l.pc.ringbackSeen
          unmatched := if heard then 0 else l.pc.unmatched } })).onActive n fun j => { j with lastClass := some c }
      (l.st = .awaitDialtone → c = .dial → s.confirm n c k = u.dialtoneServed n) ∧
      (l.st = .dialing → c = .dial → l.cursor.sub = .waitTone → s.confirm n c k = u.waitToneServed n) ∧
      (l.st = .awaitProgress → c = .dial → s.confirm n c k = (u.enterReleasing n).attemptFailed n .redialTone) ∧
      (l.st = .awaitProgress → c = .busy → s.confirm n c k = (u.enterReleasing n).attemptFailed n .busy) ∧
      (l.st = .awaitProgress → c = .reorder → s.confirm n c k = (u.enterReleasing n).attemptFailed n .reorder) ∧
      (l.st = .connected ∨ l.st = .held → c = .busy ∨ c = .reorder →
        s.confirm n c k = (u.enterReleasing n).finishHead n .done .farEnd) ∧
      ((c = .ringback ∨ c = .alertA ∨ c = .alertB) ∨
          (l.st = .disabled ∨ l.st = .idle ∨ l.st = .seizing ∨ l.st = .releasing) ∨
          (c = .dial ∧ (l.st = .connected ∨ l.st = .held ∨ (l.st = .dialing ∧ l.cursor.sub ≠ .waitTone))) ∨
          ((c = .busy ∨ c = .reorder) ∧ (l.st = .awaitDialtone ∨ l.st = .dialing)) →
        s.confirm n c k = u))

/-- STEADY_CONFIRMATION (R83, R84): an on interval longer than the shortest `min_on` not yet confirmed in it confirms the
templates of that length, the lowest slot delivering its class. GAP_WATCH_EXPIRY (R89): silence beyond `answer_gap_ms`
in AWAIT_PROGRESS is an answer with basis RINGBACK_CEASED. Each is taken 10 ms later, when the filter knows it (R78; the
clock by log entry 2). -/
def Obligations.SteadyAndGap : Prop :=
  ∀ (n : LineNo) (s : State),
    let c := (s.line n).pc
    (∀ (b u : Nat) (k : SlotNo) (t : Template) (first : Bool),
      c.listening = true → c.filtered = true → c.interval = some ⟨true, b, first⟩ →
      s.cadence.get k = some t → t.form = .steady u → (c.matchers.get k).steady = false →
      (∀ j t' u', s.cadence.get j = some t' → t'.form = .steady u' → (c.matchers.get j).steady = false →
        u ≤ u' ∧ (u' = u → k ≤ j)) →
      ((∀ e, c.edges.head? = some e → b + 10 * u < e) → exec (.steadyConfirmation n) s = .next
        (((s.advanceTo (b + 10 * u + 10)).putLine n { s.line n with pc := { c with
          matchers := Bank.tabulate fun j =>
            if (s.cadence.get j).map (·.form) = some (.steady u) then { c.matchers.get j with steady := true }
            else c.matchers.get j } }).confirm n t.cls k)) ∧
      (∀ e, c.edges.head? = some e → e ≤ b + 10 * u → exec (.steadyConfirmation n) s = .next s)) ∧
    (c.listening = false ∨ c.filtered = false ∨ c.interval = none ∨ (∃ i, c.interval = some i ∧ i.on = false) ∨
        (∀ j t u, s.cadence.get j = some t → t.form = .steady u → (c.matchers.get j).steady = true) →
      exec (.steadyConfirmation n) s = .next s) ∧
    (c.gapWatch = none → exec (.gapWatchExpiry n) s = .next s) ∧
    (∀ m, c.gapWatch = some m →
      (c.listening = true → (s.line n).st = .awaitProgress → (∀ e, c.edges.head? = some e → m < e) →
        exec (.gapWatchExpiry n) s = .next
          (((s.advanceTo (m + 10)).putLine n
            { s.line n with pc := { c with lastAnswer := some .ringbackCeased } }).connect n)) ∧
      (c.listening = false ∨ (s.line n).st ≠ .awaitProgress ∨ (∃ e, c.edges.head? = some e ∧ e ≤ m) →
        exec (.gapWatchExpiry n) s = .next s))

/-! ### Jobs -/

/-- RETRY_DELAY_EXPIRY (R126) and JOB_START (R100, R106 to R110): a QUEUED head job, or one whose delay has run out, starts
on an IDLE line: ACTIVE in RESOLVE, and resolved at once (`State.Resolves`) where it is INLINE or its entry's block is free
of an operation; a program that cannot be dialled finishes it FAILED. A hop resolved before is offered again. That a start
is a step of its own, and that the method is written before its check, are the model's (log entries 4, 27; 2 for the
clock). -/
def Obligations.JobsStart : Prop :=
  ∀ (n : LineNo) (s : State),
    (∀ d, s.jobs.retry.get n = .running d → exec (.retryDelayExpiry n) s = .next { s.advanceTo d with
      jobs := { s.jobs with retry := s.jobs.retry.set n .expired } }) ∧
    ((∀ d, s.jobs.retry.get n ≠ .running d) → exec (.retryDelayExpiry n) s = .next s) ∧
    ((s.line n).st ≠ .idle ∨ s.headJob n = none → exec (.jobStart n) s = .next s) ∧
    (∀ j, s.headJob n = some j →
      (j.state = .active ∨ j.state = .finished ∨ (j.state = .retryWait ∧ s.jobs.retry.get n ≠ .expired) →
        exec (.jobStart n) s = .next s) ∧
      ((s.line n).st = .idle → (j.state = .queued ∨ (j.state = .retryWait ∧ s.jobs.retry.get n = .expired)) →
        let j := { j with state := .active, phase := some .resolve }
        let put : Job → State := fun x => { s with jobs := { s.jobs with
          table := s.jobs.table.map fun y => if y.id = j.id then x else y
          retry := s.jobs.retry.set n .stopped } }
        (j.methodInEffect ≠ none → exec (.jobStart n) s = .next (put j)) ∧
        (j.methodInEffect = none → ∃ t, exec (.jobStart n) s = .next t ∧ State.Resolves put j s t)))

/-- A failed attempt of a line's head job (R112, R124 to R128): counts and cause are raised, ATTEMPT_FAIL latches, and the
engine retries the hop, takes the fallback as a new hop, or finishes the job FAILED. -/
def Obligations.FailureDecides : Prop :=
  ∀ (n : LineNo) (c : Cause) (s : State),
    (s.headJob n = none → s.attemptFailed n c = s) ∧
    (∀ j, s.headJob n = some j → j.line = n →
      let j' := { j with
        attemptsThisHop := j.attemptsThisHop + 1, attemptsTotal := j.attemptsTotal + 1, lastCause := some c }
      let put : Job → State → State := fun x u =>
        { u with jobs := { u.jobs with table := u.jobs.table.map fun y => if y.id = j.id then x else y } }
      let u := State.latch (lineSource n) .attemptFail ((put j' s).putLine n { s.line n with lastCause := some c })
      let more := j.attemptsThisHop + 1 < j.attemptsMaxThisHop.getD 0
      let waits : Job → State := fun x =>
        let v := u.onJob j.id fun _ => x
        { v with jobs := { v.jobs with
          retry := v.jobs.retry.set n (.running (s.now + 1000 * (s.line n).committed.retryDelayS)) } }
      (more → s.attemptFailed n c = waits { j' with state := .retryWait, phase := none, position := 0 }) ∧
      (∀ e, ¬ more → j.followChain = true → j.fallback = some e →
        (e ∈ j.visited → s.attemptFailed n c = u.finishJob j' .failed .chainLoop) ∧
        (e ∉ j.visited → j.hop = 8 → s.attemptFailed n c = u.finishJob j' .failed .chainLimit) ∧
        (e ∉ j.visited → j.hop ≠ 8 → s.attemptFailed n c = waits { j' with
          state := .retryWait, phase := none, position := 0, hop := j.hop + 1, entryIndex := some e, program := none
          methodInEffect := none, fallback := none, attemptsMaxThisHop := none, attemptsThisHop := 0 })) ∧
      (¬ more → j.followChain = false ∨ j.fallback = none → s.attemptFailed n c = u.finishJob j' .failed c))

/-- What a line reports is written in the record of its ACTIVE head job (R3, R111: phase, position, last class, connected
once), and nowhere where the head job is not ACTIVE. A job finishes (R113, R98, R126, R165): FINISHED with its outcome and
cause, out of its queue and at the tail of the finished list, a running retry delay stopped, recorded with its line, JOB_END
latched, its key's live job cleared. -/
def Obligations.JobReportsAndFinish : Prop :=
  (∀ (n : LineNo) (f : Job → Job) (p : Phase) (s : State),
    (∀ j, s.headJob n = some j → j.state = .active →
      let on : (Job → Job) → State := fun f => { s with jobs := { s.jobs with
        table := s.jobs.table.map fun y => if y.id = j.id then f y else y } }
      s.onActive n f = on f ∧ s.reportPhase n p = on fun y => { y with phase := some p }) ∧
    (s.headJob n = none ∨ (∃ j, s.headJob n = some j ∧ j.state ≠ .active) →
      s.onActive n f = s ∧ s.reportPhase n p = s)) ∧
  ∀ (j : Job) (o : JobOutcome) (c : Cause) (s : State),
    let f := { j with
      state := .finished, phase := none, outcome := some (o, c)
      symbolsRemaining := if o = .done then none else some ((j.program.getD []).length - j.position) }
    let u : State := { s with jobs := { s.jobs with
      table := s.jobs.table.map fun y => if y.id = j.id then f else y
      queues := s.jobs.queues.set j.line ((s.queue j.line).erase j.id)
      finished := s.jobs.finished ++ [j.id]
      retry := if j.state = .retryWait then s.jobs.retry.set j.line .stopped else s.jobs.retry } }
    let v := State.latch (lineSource j.line) .jobEnd
      (u.putLine j.line { s.line j.line with lastJob := some (j.id, o, c) })
    (j.origin = .link → s.finishJob j o c = v) ∧
    (∀ k, j.origin = .key k → (s.key k).live = .job j.id → s.finishJob j o c = { v with
      keys := { s.keys with all := s.keys.all.set k { s.key k with live := .none } } }) ∧
    (∀ k, j.origin = .key k → (s.key k).live ≠ .job j.id → s.finishJob j o c = v) ∧
    (∀ n, s.headJob n = none → s.finishHead n o c = s) ∧
    (∀ n, s.headJob n = some j → s.finishHead n o c = s.finishJob j o c)

/-! ### Keys -/

/-- KEY_RAW_CHANGE (R157) starts, restarts or stops a key's stability timer. KEY_TRANSITION (R157 to R159, R161, R162,
R168): the debounced level changes; a DOWN is taken, or withheld while three matrix keys are held, and an UP is taken,
or passes unrecorded; while the store is CHECKING no transition is taken. That line 0 is delivered an UP first and line 3
last, a raw change while the part is held, and the clock at a late expiry are the model's (log entries 19, 9, 2). -/
def Obligations.KeysTaken : Prop :=
  ∀ (k : KeyNo) (s : State),
    let put : Key → State → State := fun key u => { u with keys := { u.keys with all := u.keys.all.set k key } }
    let matrix : Prop := k.val < 16
    let held : State → Nat := fun u => (List.finRange 20).countP fun i =>
      decide (i.val < 16) && ((u.key i).cond == KeyCondition.down || (u.key i).cond == KeyCondition.marked)
    let record : Bool → State → State := fun down u =>
      if u.keys.queue.length < 16 then State.latch keysSource .key
        { u with keys := { u.keys with queue := u.keys.queue ++ [⟨k, down, u.now % 65536⟩] } }
      else State.latch keysSource .overflow u
    (∀ level : Bool,
      let down := if h : 16 ≤ k.val then level == s.keys.active.get ⟨k.val - 16, by omega⟩ else level
      ((s.key k).raw = level → exec (.keyRawChange k level) s = .next s) ∧
      ((s.key k).raw ≠ level → s.held = true →
        exec (.keyRawChange k level) s = .next (put { s.key k with raw := level } s)) ∧
      ((s.key k).raw ≠ level → s.held = false → exec (.keyRawChange k level) s = .next
        (put { s.key k with raw := level, since := if down = (s.key k).deb then none else some s.now } s))) ∧
    ((s.key k).since = none → exec (.keyTransition k) s = .next s) ∧
    (∀ d, (s.key k).since = some d →
      let key := { s.key k with deb := !(s.key k).deb, since := none }
      let u := put key (s.advanceTo (d + s.keys.debounceMs))
      (s.store.st = .checking → exec (.keyTransition k) s = .next u) ∧
      (s.store.st ≠ .checking → (s.key k).deb = false →
        (key.cond = .up → matrix → 3 ≤ held s → exec (.keyTransition k) s = .next
          (State.latch keysSource .jam { put { key with cond := .deferred } u with
            keys := { (put { key with cond := .deferred } u).keys with deferred := s.keys.deferred ++ [k] } })) ∧
        (key.cond = .up → ¬ matrix ∨ held s < 3 → exec (.keyTransition k) s = .next
          ((record true (put { key with cond := .down } u)).carryOut k key.binding)) ∧
        (key.cond ≠ .up → exec (.keyTransition k) s = .next u)) ∧
      (s.store.st ≠ .checking → (s.key k).deb = true →
        let v := record false (put { key with cond := .up } u)
        let w := State.manualUp k 3 (State.manualUp k 2 (State.manualUp k 1 (State.manualUp k 0 v)))
        (key.cond = .up → exec (.keyTransition k) s = .next u) ∧
        (key.cond = .down → exec (.keyTransition k) s = .next (w.afterUp k)) ∧
        (key.cond = .deferred → exec (.keyTransition k) s = .next { put { key with cond := .up } u with
          keys := { (put { key with cond := .up } u).keys with deferred := s.keys.deferred.erase k } }) ∧
        (key.cond = .marked → exec (.keyTransition k) s = .next ((put { key with cond := .up } u).afterUp k)))) ∧
    (¬ matrix ∨ s.keys.deferred = [] ∨ 3 ≤ held s → s.afterUp k = s) ∧
    (∀ i rest, matrix → s.keys.deferred = i :: rest → held s < 3 →
      let u := State.takeDown i { s with keys := { s.keys with deferred := rest } }
      u.keys.deferred = [] ∨ 3 ≤ held u → s.afterUp k = u)

/-- The binding of a key carried out (R165, R166, R104, R48 to R50, R53). A JOB press is a duplicate while the key's live job
is PENDING or an identifier; else the live job is PENDING and the submission goes to the engine, which takes it within the
step or later (the model's field `turns` says when, log entry 25). The engine refuses it, or accepts it (`State.Accepts`);
its answer reaches the live job only while that is PENDING. RELEASE and CANCEL act as their requests do, silently; a DIGIT
press begins a manual tone or dials one symbol. The key's UP ends its manual tone (R47, R50, R51; log entry 38). -/
def Obligations.KeyBindingActs : Prop :=
  (∀ (k : KeyNo) (n : LineNo) (e : EntryNo) (s : State),
    let key : LiveJob → State → State := fun x u =>
      { u with keys := { u.keys with all := u.keys.all.set k { u.key k with live := x } } }
    let fails : SubmitFail → State → State := fun c u => State.latch keysSource .submitFail
      { u with keys := { u.keys with lastFail := some ⟨k, n, e, c⟩ } }
    let b : Submission := ⟨n, .key k, .entry e, true, true, none, 0⟩
    ((s.key k).live ≠ .none → s.carryOut k (.job n e) = fails .duplicate s) ∧
    ((s.key k).live = .none →
      let u := key .pending s
      (s.keys.turns = [] → s.carryOut k (.job n e) = u.takeHandover ⟨k, n, e⟩) ∧
      (∀ rest, s.keys.turns = .within :: rest → s.carryOut k (.job n e) =
        State.takeHandover ⟨k, n, e⟩ { u with keys := { u.keys with turns := rest } }) ∧
      (∀ rest, s.keys.turns = .later :: rest → s.carryOut k (.job n e) =
        { u with keys := { u.keys with turns := rest, handed := s.keys.handed ++ [⟨k, n, e⟩] } })) ∧
    (let idle := if (s.key k).live = .pending then key .none s else key (s.key k).live s
     ((s.line n).st = .disabled → s.takeHandover ⟨k, n, e⟩ = fails .wrongState idle) ∧
     ((s.line n).st ≠ .disabled → 8 ≤ (s.queue n).length → s.takeHandover ⟨k, n, e⟩ = fails .queueFull idle) ∧
     ((s.line n).st ≠ .disabled → (s.queue n).length < 8 → 24 ≤ s.jobs.table.length → s.jobs.finished = [] →
       s.takeHandover ⟨k, n, e⟩ = fails .tableFull idle)) ∧
    (s.jobs.Sound → (s.line n).st ≠ .disabled → (s.queue n).length < 8 →
        (s.jobs.table.length < 24 ∨ s.jobs.finished ≠ []) →
      ∃ (id : Nat) (t : State), s.Accepts b id t ∧ t.keys = s.keys ∧
        s.takeHandover ⟨k, n, e⟩ = if (s.key k).live = .pending then key (.job id) t else key (s.key k).live t)) ∧
  (∀ (k : KeyNo) (n : LineNo) (s : State),
    s.carryOut k .none = s ∧
    ((s.line n).st = .connected ∨ (s.line n).st = .held ∨ ((s.line n).st = .dialing ∧ (s.line n).postAnswer = true) →
      s.carryOut k (.release n) = (s.enterReleasing n).finishHead n .done .released) ∧
    ((s.line n).st = .seizing ∨ (s.line n).st = .awaitDialtone ∨ (s.line n).st = .awaitProgress ∨
        ((s.line n).st = .dialing ∧ (s.line n).postAnswer = false) →
      s.carryOut k (.release n) = (s.enterReleasing n).finishHead n .cancelled .released) ∧
    ((s.line n).st = .disabled ∨ (s.line n).st = .idle ∨ (s.line n).st = .releasing →
      s.carryOut k (.release n) = s) ∧
    (s.headJob n = none → s.carryOut k (.cancel n) = s) ∧
    (∀ j, s.headJob n = some j →
      (j.state = .active → j.phase ≠ some .resolve → s.carryOut k (.cancel n) =
        (s.enterReleasing j.line).finishHead j.line .cancelled .cancelled) ∧
      (j.state ≠ .active ∨ j.phase = some .resolve →
        s.carryOut k (.cancel n) = s.finishJob j .cancelled .cancelled)) ∧
    (∀ y : Symbol,
      ((s.line n).st ≠ .connected ∨ (s.line n).manual.activity ≠ .none → s.carryOut k (.digit n y) = s) ∧
      ((s.line n).st = .connected → (s.line n).manual.activity = .none →
        ((s.line n).method = .tone → y.isDigit = true → s.carryOut k (.digit n y) =
          (s.putLine n { s.line n with manual := ⟨.waiting, some k, some y, false, false⟩ }).requestTone n y) ∧
        ((s.line n).method = .pulse ∨ y.isDigit = false → (s.line n).method.allowsAll [y] = true →
          s.carryOut k (.digit n y) = ((s.putLine n { s.line n with
            st := .dialing
            postAnswer := true
            cursor := ⟨.send, [y], 0, .none, 0⟩
            pc := { (s.line n).pc with listening := false } }).reportPhase n .dial).beginSymbol n) ∧
        ((s.line n).method = .pulse → Method.allowsAll .pulse [y] = false → s.carryOut k (.digit n y) = s))) ∧
    (let m := (s.line n).manual
     let ends := ((s.putLine n { s.line n with
       manual := ⟨.none, none, none, false, false⟩
       timers := { (s.line n).timers with minTone := none } }).withdrawTone n).releaseTone n
     (m.key ≠ some k ∨ m.activity = .none → State.manualUp k n s = s) ∧
     (m.key = some k → m.activity = .waiting ∨ (m.activity = .sounding ∧ m.minElapsed = true) →
       State.manualUp k n s = ends) ∧
     (m.key = some k → m.activity = .sounding → m.minElapsed = false →
       State.manualUp k n s = s.putLine n { s.line n with manual := { m with keyReleased := true } })))

/-! ### The store's phases -/

/-- The ends of ERASE and PROGRAM and a VERIFY that passes (R142, R145, R147, R149, R150, R153), and the completion, which
resolves the head jobs that wait on the store (R107, R145; `State.Resolves`), line 0 first (the model's choice, log entry
19). A phase end with no such phase changes nothing (log entry 32). Whether a content just programmed or erased reads
back before VERIFY judged it is free (log entry 14): what is said holds for either value. -/
def Obligations.StorePhases : Prop :=
  ∀ s : State,
    let st := s.store
    let put : Store → State := fun x => { s with store := x }
    let goes : OpRecord → OpPhase → Store → Store := fun o ph x => { x with op := some { o with phase := ph, since := s.now } }
    let written : LogicalNo → PhysicalNo → Option (Bank 4 Entry) → Bank 36 PhysBlock := fun b p c =>
      st.blocks.set p { st.blocks.get p with role := .logical b, content := c }
    let took : Bool := Config.programTook s.free
    let idle : OpPhase → Prop := fun ph =>
      (st.op = none ∧ st.rewriteNow = none) ∨ (∃ o, st.op = some o ∧ o.phase ≠ ph) ∨
        (st.op = none ∧ ∃ r, st.rewriteNow = some r ∧ r.phase ≠ ph)
    (idle .erase → exec .storeEraseEnd s = .next s) ∧
    (idle .program → exec .storeProgramEnd s = .next s) ∧
    (idle .verify → exec .storeVerifyPass s = .next s ∧ exec .storeVerifyFail s = .next s) ∧
    (∀ o, st.op = some o → o.phase = .erase →
      (∀ b p buf, o.target = .block b p buf → exec .storeEraseEnd s = .next (put (goes o .program st))) ∧
      (∀ c, o.target = .settings (some c) →
        exec .storeEraseEnd s = .next (put { goes o .program st with medium := .erased })) ∧
      (o.target = .settings none → exec .storeEraseEnd s = .next
        { put { goes o .verify st with medium := if Config.eraseTook s.free then .erased else .invalid } with
          free := s.free + 1 })) ∧
    (∀ o, st.op = some o → o.phase = .program →
      (∀ b p buf, o.target = .block b p buf → exec .storeProgramEnd s = .next
        { put { goes o .verify st with blocks := written b p (if took then some buf else none) } with
          free := s.free + 1 }) ∧
      (∀ c, o.target = .settings (some c) → exec .storeProgramEnd s = .next
        { put { goes o .verify st with medium := if took then .valid c else .invalid } with free := s.free + 1 })) ∧
    (∀ o, st.op = some o → o.phase = .verify →
      (∀ b p buf, o.target = .block b p buf →
        let u := put { st with blocks := written b p (some buf) }
        (o.kind ≠ .format → exec .storeVerifyPass s = .next (u.completeOp o .ok)) ∧
        (o.kind = .format → exec .storeVerifyPass s = .next (u.formatFrom o (b.val + 1)))) ∧
      (∀ c, o.target = .settings (some c) → exec .storeVerifyPass s = .next
        ((put { st with medium := .valid c, settingsCondition := .valid }).completeOp o .ok)) ∧
      (o.target = .settings none → exec .storeVerifyPass s = .next
        ((put { st with medium := .erased, settingsCondition := .erased }).completeOp o .ok))) ∧
    (∀ r, st.op = none → st.rewriteNow = some r →
      let at_ : OpPhase → Store → Store := fun ph x => { x with check := some ⟨r.b.val, some ⟨r.b, r.p, ph, s.now⟩⟩ }
      (r.phase = .erase → exec .storeEraseEnd s = .next (put (at_ .program st))) ∧
      (r.phase = .program → exec .storeProgramEnd s = .next
        { put { at_ .verify st with blocks := written r.b r.p (if took then some (Bank.fill 4 .blank) else none) } with
          free := s.free + 1 }) ∧
      (r.phase = .verify → exec .storeVerifyPass s = .next (put { st with
        blocks := written r.b r.p (some (Bank.fill 4 .blank)), check := some ⟨r.b.val + 1, none⟩ }))) ∧
    (∀ o res,
      let u := State.latch storeSource .opDone (put { st with lastOp := some (o.kind, o.index, res) })
      let v := { u with store := { u.store with op := none, st := .ready } }
      s.completeOp o res = State.resolveWaiting 3 (State.resolveWaiting 2 (State.resolveWaiting 1
        (State.resolveWaiting 0 v)))) ∧
    (∀ n : LineNo,
      (s.headJob n = none → s.resolveWaiting n = s) ∧
      (∀ j, s.headJob n = some j →
        (j.state ≠ .active ∨ j.phase ≠ some .resolve ∨ j.methodInEffect ≠ none → s.resolveWaiting n = s) ∧
        (s.jobs.Sound → j.state = .active → j.phase = some .resolve → j.methodInEffect = none →
          State.Resolves (fun x => { s with jobs := { s.jobs with
            table := s.jobs.table.map fun y => if y.id = j.id then x else y } }) j s (s.resolveWaiting n)))) ∧
    (∀ o (k : Nat),
      ((∀ b : LogicalNo, k ≤ b.val → st.map.get b = none) →
        s.formatFrom o k = s.completeOp o (if o.worn then .worn else .ok)) ∧
      (∀ (b : LogicalNo) p, k ≤ b.val → st.map.get b = some p →
        (∀ a : LogicalNo, k ≤ a.val → a < b → st.map.get a = none) →
        s.formatFrom o k = put { st with
          op := some { o with target := .block b p (Bank.fill 4 .blank), phase := .erase, since := s.now }
          blocks := st.blocks.set p { st.blocks.get p with
            eraseCount := min 65535 ((st.blocks.get p).eraseCount + 1), content := none } }))

/-- A VERIFY that fails (R143, R144, R147, R149, R150, R153): the block is retired and BLOCK_RETIRED latches; the head
spare is erased in its place, or with none left the logical block is dead and the work ends WORN, a format going on
with its worn mark set, the start-up check with the next block. A settings block is left INVALID. -/
def Obligations.VerifyFails : Prop :=
  ∀ s : State,
    let st := s.store
    let retired : PhysicalNo → State := fun p => State.latch storeSource .blockRetired { s with store := { st with
      blocks := st.blocks.set p { st.blocks.get p with role := .retired, content := none }
      lastRetired := some p } }
    let put : PhysicalNo → (Store → Store) → State := fun p f => { retired p with store := f (retired p).store }
    let onSpare : LogicalNo → PhysicalNo → List PhysicalNo → Store → Store := fun b q rest x => { x with
      map := x.map.set b (some q)
      spares := rest
      blocks := x.blocks.set q { x.blocks.get q with
        eraseCount := min 65535 ((x.blocks.get q).eraseCount + 1), content := none } }
    let dead : LogicalNo → Store → Store := fun b x => { x with map := x.map.set b none }
    (∀ o b p buf, st.op = some o → o.phase = .verify → o.target = .block b p buf →
      (∀ q rest, st.spares = q :: rest → exec .storeVerifyFail s = .next (put p fun x => { onSpare b q rest x with
        op := some { o with target := .block b q buf, phase := .erase, since := s.now } })) ∧
      (st.spares = [] → o.kind ≠ .format →
        exec .storeVerifyFail s = .next ((put p (dead b)).completeOp o .worn)) ∧
      (st.spares = [] → o.kind = .format → exec .storeVerifyFail s = .next
        ((put p (dead b)).formatFrom { o with worn := true } (b.val + 1)))) ∧
    (∀ o c, st.op = some o → o.phase = .verify → o.target = .settings c → exec .storeVerifyFail s = .next
      (State.completeOp o .settingsFail
        { s with store := { st with medium := .invalid, settingsCondition := .invalid } })) ∧
    (∀ r, st.op = none → st.rewriteNow = some r → r.phase = .verify →
      (∀ q rest, st.spares = q :: rest → exec .storeVerifyFail s = .next (put r.p fun x =>
        { onSpare r.b q rest x with check := some ⟨r.b.val, some ⟨r.b, q, .erase, s.now⟩⟩ })) ∧
      (st.spares = [] → exec .storeVerifyFail s = .next (put r.p fun x =>
        { dead r.b x with check := some ⟨r.b.val + 1, none⟩ })))

/-! ### Flags -/

/-- A flag latches (R171, R173, R174, R177): latched already, it changes nothing (the model's reading, log entry 36); else it
is latched whatever the mask holds, and where it is in the mask and no notice is pending, one notice joins the outbound
queue, at the latch (the model's choice, log entry 43). -/
def Obligations.FlagLatches : Prop :=
  ∀ (src : SourceNo) (f : Flag) (s : State),
    let r := s.source src
    let flags := r.latched ||| (1#8 <<< f.bit)
    let put : Source → State := fun r =>
      { s with events := { s.events with
        sources := s.events.sources.set src r, attn := attnLevel (s.events.sources.set src r) } }
    (r.latched.getLsbD f.bit = true → s.latch src f = s) ∧
    (r.latched.getLsbD f.bit = false →
      (r.mask.getLsbD f.bit = false ∨ r.noticePending = true →
        s.latch src f = put { r with latched := flags }) ∧
      (r.mask.getLsbD f.bit = true → r.noticePending = false → s.latch src f =
        { put ⟨flags, r.mask, true⟩ with link := { s.link with outbound := s.link.outbound ++ [OutRecord.note src
          ([finCode src, byteOf (topBit (flags &&& r.mask)), flags] ++ s.details src)] } })) ∧
    (s.Noted → (s.events.attn = true ↔ ∃ m, (s.source m).latched &&& (s.source m).mask ≠ 0#8))

/-! ### Invariants every step keeps -/

/-- Every step keeps the outputs of every line at the levels its state calls for (R2, R26, R27), held part and running
part alike. -/
def Obligations.OutputsKept : Prop := Kept State.Driven

/-- Every step keeps the pool's law (R60): with a line waiting, both generators are held. So a request is granted at once
if and only if the wait list is empty and a generator is FREE, and no line waits while one is FREE; a request that
joins the list finds both held, and a withdrawal changes no generator. -/
def Obligations.PoolKept : Prop :=
  Kept (fun s => s.pool.Sound) ∧
  ∀ p : Pool, p.Sound →
    (∀ c, (p.request c).wait = p.wait ↔ p.wait = [] ∧ ∃ g, p.gens.get g = none) ∧
    (∀ c, (p.request c).wait ≠ p.wait → ∀ g, p.gens.get g ≠ none) ∧
    (∀ n, (p.withdraw n).gens = p.gens ∧ (p.withdraw n).wait = p.wait.filter fun c => c.line != n) ∧
    ((∃ g, p.gens.get g = none) → p.wait = [])

/-- Every step keeps the Job Engine's law (R95, R97 to R99, R126): at most 24 records under distinct identifiers from 1 to
255, each live job once in the queue of its line and behind its head QUEUED, each FINISHED job once in the finished
list. -/
def Obligations.JobsKept : Prop := Kept fun s => s.jobs.Sound

/-- Every step keeps the store's law (R136 to R138, R143, R152, R153): no physical block serves two logical blocks or is
both mapped and spare, none in use or in reserve is RETIRED, BUSY stands exactly while an operation is in flight; and a
RETIRED block stays RETIRED. -/
def Obligations.StoreKept : Prop := (Kept fun s => s.store.Sound) ∧ ∀ p, Kept (State.RetiredAt p)

/-- Every step keeps the law of the notices (R173, R176, R177) and the limits of the link (R184, R185): a source with a
latched flag in its mask has been noticed, at most one notice of it is queued, ATTN stands while some latched flag is
in its mask; at most three replies and two waiting frames stand, frames waiting only behind three replies. -/
def Obligations.NotesAndLinkKept : Prop := Kept State.Noted ∧ Kept fun s => s.link.Bounded

/-- Every step keeps lines, timers and pool in agreement (R54 to R56; `State.Claimed`): a line holds a generator exactly in
TONE_ON and SOUNDING and stands in the wait list, once, exactly in TONE_REQUEST and manual WAITING. So each line holds at
most one generator, no waiting line holds one, and with the law of the pool (R60) at most two lines wait. -/
def Obligations.ClaimsKept : Prop :=
  Kept State.Claimed ∧
  ∀ s : State, s.Claimed →
    (∀ n g h y z, s.pool.gens.get g = some ⟨n, y⟩ → s.pool.gens.get h = some ⟨n, z⟩ → g = h) ∧
    (∀ c ∈ s.pool.wait, ∀ g y, s.pool.gens.get g ≠ some ⟨c.line, y⟩) ∧
    (s.pool.Sound → s.pool.wait.length ≤ 2)

/-- Every step keeps the Key Scanner's law (R158, R159, R161, R162, R168; `State.Scanned`): at most 16 records, the deferred
list names each DEFERRED matrix key once and only while three or more are held, and nothing is taken before the end of the
start-up check. So at most 13 keys are deferred. -/
def Obligations.KeysKept : Prop :=
  Kept State.Scanned ∧ ∀ ks : KeyScanner, ks.Sound → ks.deferred.length ≤ 13

/-- The laws hold in the state after reset. -/
def Obligations.InvariantsAtReset : Prop :=
  State.reset.Driven ∧ State.reset.pool.Sound ∧ State.reset.jobs.Sound ∧ State.reset.store.Sound ∧
  State.reset.Noted ∧ State.reset.link.Bounded ∧ State.reset.Claimed ∧ State.reset.Scanned
end

