-- ==== Sys2Proof/Laws/State.lean ====
section
/-! SUPPORT. What each primitive update of the state does to each field. -/

namespace Sys2Proof.Machine

@[simp] theorem State.advanceTo_pending (t : Nat) (s : State) : (s.advanceTo t).pending = s.pending := rfl
@[simp] theorem State.advanceTo_now (t : Nat) (s : State) : (s.advanceTo t).now = max s.now t := rfl
@[simp] theorem State.advanceTo_free (t : Nat) (s : State) : (s.advanceTo t).free = s.free := rfl
@[simp] theorem State.advanceTo_held (t : Nat) (s : State) : (s.advanceTo t).held = s.held := rfl
@[simp] theorem State.advanceTo_pins (t : Nat) (s : State) : (s.advanceTo t).pins = s.pins := rfl
@[simp] theorem State.advanceTo_lines (t : Nat) (s : State) : (s.advanceTo t).lines = s.lines := rfl
@[simp] theorem State.advanceTo_pool (t : Nat) (s : State) : (s.advanceTo t).pool = s.pool := rfl
@[simp] theorem State.advanceTo_cadence (t : Nat) (s : State) : (s.advanceTo t).cadence = s.cadence := rfl
@[simp] theorem State.advanceTo_jobs (t : Nat) (s : State) : (s.advanceTo t).jobs = s.jobs := rfl
@[simp] theorem State.advanceTo_store (t : Nat) (s : State) : (s.advanceTo t).store = s.store := rfl
@[simp] theorem State.advanceTo_keys (t : Nat) (s : State) : (s.advanceTo t).keys = s.keys := rfl
@[simp] theorem State.advanceTo_events (t : Nat) (s : State) : (s.advanceTo t).events = s.events := rfl
@[simp] theorem State.advanceTo_link (t : Nat) (s : State) : (s.advanceTo t).link = s.link := rfl

@[simp] theorem State.putLine_pending (n : LineNo) (l : Line) (s : State) : (s.putLine n l).pending = s.pending := rfl
@[simp] theorem State.putLine_now (n : LineNo) (l : Line) (s : State) : (s.putLine n l).now = s.now := rfl
@[simp] theorem State.putLine_free (n : LineNo) (l : Line) (s : State) : (s.putLine n l).free = s.free := rfl
@[simp] theorem State.putLine_held (n : LineNo) (l : Line) (s : State) : (s.putLine n l).held = s.held := rfl
@[simp] theorem State.putLine_pins (n : LineNo) (l : Line) (s : State) : (s.putLine n l).pins = s.pins := rfl
@[simp] theorem State.putLine_lines (n : LineNo) (l : Line) (s : State) : (s.putLine n l).lines = s.lines.set n (l.settle s.now) := rfl
@[simp] theorem State.putLine_pool (n : LineNo) (l : Line) (s : State) : (s.putLine n l).pool = s.pool := rfl
@[simp] theorem State.putLine_cadence (n : LineNo) (l : Line) (s : State) : (s.putLine n l).cadence = s.cadence := rfl
@[simp] theorem State.putLine_jobs (n : LineNo) (l : Line) (s : State) : (s.putLine n l).jobs = s.jobs := rfl
@[simp] theorem State.putLine_store (n : LineNo) (l : Line) (s : State) : (s.putLine n l).store = s.store := rfl
@[simp] theorem State.putLine_keys (n : LineNo) (l : Line) (s : State) : (s.putLine n l).keys = s.keys := rfl
@[simp] theorem State.putLine_events (n : LineNo) (l : Line) (s : State) : (s.putLine n l).events = s.events := rfl
@[simp] theorem State.putLine_link (n : LineNo) (l : Line) (s : State) : (s.putLine n l).link = s.link := rfl

@[simp] theorem State.putSources_pending (b : Bank 7 Source) (s : State) : (s.putSources b).pending = s.pending := rfl
@[simp] theorem State.putSources_now (b : Bank 7 Source) (s : State) : (s.putSources b).now = s.now := rfl
@[simp] theorem State.putSources_free (b : Bank 7 Source) (s : State) : (s.putSources b).free = s.free := rfl
@[simp] theorem State.putSources_held (b : Bank 7 Source) (s : State) : (s.putSources b).held = s.held := rfl
@[simp] theorem State.putSources_pins (b : Bank 7 Source) (s : State) : (s.putSources b).pins = s.pins := rfl
@[simp] theorem State.putSources_lines (b : Bank 7 Source) (s : State) : (s.putSources b).lines = s.lines := rfl
@[simp] theorem State.putSources_pool (b : Bank 7 Source) (s : State) : (s.putSources b).pool = s.pool := rfl
@[simp] theorem State.putSources_cadence (b : Bank 7 Source) (s : State) : (s.putSources b).cadence = s.cadence := rfl
@[simp] theorem State.putSources_jobs (b : Bank 7 Source) (s : State) : (s.putSources b).jobs = s.jobs := rfl
@[simp] theorem State.putSources_store (b : Bank 7 Source) (s : State) : (s.putSources b).store = s.store := rfl
@[simp] theorem State.putSources_keys (b : Bank 7 Source) (s : State) : (s.putSources b).keys = s.keys := rfl
@[simp] theorem State.putSources_events (b : Bank 7 Source) (s : State) : (s.putSources b).events = { s.events with sources := b, attn := attnLevel b } := rfl
@[simp] theorem State.putSources_link (b : Bank 7 Source) (s : State) : (s.putSources b).link = s.link := rfl

@[simp] theorem State.onJobs_pending (f : JobEngine → JobEngine) (s : State) : (s.onJobs f).pending = s.pending := rfl
@[simp] theorem State.onJobs_now (f : JobEngine → JobEngine) (s : State) : (s.onJobs f).now = s.now := rfl
@[simp] theorem State.onJobs_free (f : JobEngine → JobEngine) (s : State) : (s.onJobs f).free = s.free := rfl
@[simp] theorem State.onJobs_held (f : JobEngine → JobEngine) (s : State) : (s.onJobs f).held = s.held := rfl
@[simp] theorem State.onJobs_pins (f : JobEngine → JobEngine) (s : State) : (s.onJobs f).pins = s.pins := rfl
@[simp] theorem State.onJobs_lines (f : JobEngine → JobEngine) (s : State) : (s.onJobs f).lines = s.lines := rfl
@[simp] theorem State.onJobs_pool (f : JobEngine → JobEngine) (s : State) : (s.onJobs f).pool = s.pool := rfl
@[simp] theorem State.onJobs_cadence (f : JobEngine → JobEngine) (s : State) : (s.onJobs f).cadence = s.cadence := rfl
@[simp] theorem State.onJobs_jobs (f : JobEngine → JobEngine) (s : State) : (s.onJobs f).jobs = f s.jobs := rfl
@[simp] theorem State.onJobs_store (f : JobEngine → JobEngine) (s : State) : (s.onJobs f).store = s.store := rfl
@[simp] theorem State.onJobs_keys (f : JobEngine → JobEngine) (s : State) : (s.onJobs f).keys = s.keys := rfl
@[simp] theorem State.onJobs_events (f : JobEngine → JobEngine) (s : State) : (s.onJobs f).events = s.events := rfl
@[simp] theorem State.onJobs_link (f : JobEngine → JobEngine) (s : State) : (s.onJobs f).link = s.link := rfl

@[simp] theorem State.onStore_pending (f : Store → Store) (s : State) : (s.onStore f).pending = s.pending := rfl
@[simp] theorem State.onStore_now (f : Store → Store) (s : State) : (s.onStore f).now = s.now := rfl
@[simp] theorem State.onStore_free (f : Store → Store) (s : State) : (s.onStore f).free = s.free := rfl
@[simp] theorem State.onStore_held (f : Store → Store) (s : State) : (s.onStore f).held = s.held := rfl
@[simp] theorem State.onStore_pins (f : Store → Store) (s : State) : (s.onStore f).pins = s.pins := rfl
@[simp] theorem State.onStore_lines (f : Store → Store) (s : State) : (s.onStore f).lines = s.lines := rfl
@[simp] theorem State.onStore_pool (f : Store → Store) (s : State) : (s.onStore f).pool = s.pool := rfl
@[simp] theorem State.onStore_cadence (f : Store → Store) (s : State) : (s.onStore f).cadence = s.cadence := rfl
@[simp] theorem State.onStore_jobs (f : Store → Store) (s : State) : (s.onStore f).jobs = s.jobs := rfl
@[simp] theorem State.onStore_store (f : Store → Store) (s : State) : (s.onStore f).store = f s.store := rfl
@[simp] theorem State.onStore_keys (f : Store → Store) (s : State) : (s.onStore f).keys = s.keys := rfl
@[simp] theorem State.onStore_events (f : Store → Store) (s : State) : (s.onStore f).events = s.events := rfl
@[simp] theorem State.onStore_link (f : Store → Store) (s : State) : (s.onStore f).link = s.link := rfl

@[simp] theorem State.onKeys_pending (f : KeyScanner → KeyScanner) (s : State) : (s.onKeys f).pending = s.pending := rfl
@[simp] theorem State.onKeys_now (f : KeyScanner → KeyScanner) (s : State) : (s.onKeys f).now = s.now := rfl
@[simp] theorem State.onKeys_free (f : KeyScanner → KeyScanner) (s : State) : (s.onKeys f).free = s.free := rfl
@[simp] theorem State.onKeys_held (f : KeyScanner → KeyScanner) (s : State) : (s.onKeys f).held = s.held := rfl
@[simp] theorem State.onKeys_pins (f : KeyScanner → KeyScanner) (s : State) : (s.onKeys f).pins = s.pins := rfl
@[simp] theorem State.onKeys_lines (f : KeyScanner → KeyScanner) (s : State) : (s.onKeys f).lines = s.lines := rfl
@[simp] theorem State.onKeys_pool (f : KeyScanner → KeyScanner) (s : State) : (s.onKeys f).pool = s.pool := rfl
@[simp] theorem State.onKeys_cadence (f : KeyScanner → KeyScanner) (s : State) : (s.onKeys f).cadence = s.cadence := rfl
@[simp] theorem State.onKeys_jobs (f : KeyScanner → KeyScanner) (s : State) : (s.onKeys f).jobs = s.jobs := rfl
@[simp] theorem State.onKeys_store (f : KeyScanner → KeyScanner) (s : State) : (s.onKeys f).store = s.store := rfl
@[simp] theorem State.onKeys_keys (f : KeyScanner → KeyScanner) (s : State) : (s.onKeys f).keys = f s.keys := rfl
@[simp] theorem State.onKeys_events (f : KeyScanner → KeyScanner) (s : State) : (s.onKeys f).events = s.events := rfl
@[simp] theorem State.onKeys_link (f : KeyScanner → KeyScanner) (s : State) : (s.onKeys f).link = s.link := rfl

@[simp] theorem State.onLink_pending (f : LinkPort → LinkPort) (s : State) : (s.onLink f).pending = s.pending := rfl
@[simp] theorem State.onLink_now (f : LinkPort → LinkPort) (s : State) : (s.onLink f).now = s.now := rfl
@[simp] theorem State.onLink_free (f : LinkPort → LinkPort) (s : State) : (s.onLink f).free = s.free := rfl
@[simp] theorem State.onLink_held (f : LinkPort → LinkPort) (s : State) : (s.onLink f).held = s.held := rfl
@[simp] theorem State.onLink_pins (f : LinkPort → LinkPort) (s : State) : (s.onLink f).pins = s.pins := rfl
@[simp] theorem State.onLink_lines (f : LinkPort → LinkPort) (s : State) : (s.onLink f).lines = s.lines := rfl
@[simp] theorem State.onLink_pool (f : LinkPort → LinkPort) (s : State) : (s.onLink f).pool = s.pool := rfl
@[simp] theorem State.onLink_cadence (f : LinkPort → LinkPort) (s : State) : (s.onLink f).cadence = s.cadence := rfl
@[simp] theorem State.onLink_jobs (f : LinkPort → LinkPort) (s : State) : (s.onLink f).jobs = s.jobs := rfl
@[simp] theorem State.onLink_store (f : LinkPort → LinkPort) (s : State) : (s.onLink f).store = s.store := rfl
@[simp] theorem State.onLink_keys (f : LinkPort → LinkPort) (s : State) : (s.onLink f).keys = s.keys := rfl
@[simp] theorem State.onLink_events (f : LinkPort → LinkPort) (s : State) : (s.onLink f).events = s.events := rfl
@[simp] theorem State.onLink_link (f : LinkPort → LinkPort) (s : State) : (s.onLink f).link = f s.link := rfl

@[simp] theorem State.draw_pending (f : Nat → Bool) (s : State) : ((s.draw f).2).pending = s.pending := rfl
@[simp] theorem State.draw_now (f : Nat → Bool) (s : State) : ((s.draw f).2).now = s.now := rfl
@[simp] theorem State.draw_free (f : Nat → Bool) (s : State) : ((s.draw f).2).free = s.free + 1 := rfl
@[simp] theorem State.draw_held (f : Nat → Bool) (s : State) : ((s.draw f).2).held = s.held := rfl
@[simp] theorem State.draw_pins (f : Nat → Bool) (s : State) : ((s.draw f).2).pins = s.pins := rfl
@[simp] theorem State.draw_lines (f : Nat → Bool) (s : State) : ((s.draw f).2).lines = s.lines := rfl
@[simp] theorem State.draw_pool (f : Nat → Bool) (s : State) : ((s.draw f).2).pool = s.pool := rfl
@[simp] theorem State.draw_cadence (f : Nat → Bool) (s : State) : ((s.draw f).2).cadence = s.cadence := rfl
@[simp] theorem State.draw_jobs (f : Nat → Bool) (s : State) : ((s.draw f).2).jobs = s.jobs := rfl
@[simp] theorem State.draw_store (f : Nat → Bool) (s : State) : ((s.draw f).2).store = s.store := rfl
@[simp] theorem State.draw_keys (f : Nat → Bool) (s : State) : ((s.draw f).2).keys = s.keys := rfl
@[simp] theorem State.draw_events (f : Nat → Bool) (s : State) : ((s.draw f).2).events = s.events := rfl
@[simp] theorem State.draw_link (f : Nat → Bool) (s : State) : ((s.draw f).2).link = s.link := rfl

theorem State.line_putLine (n m : LineNo) (l : Line) (s : State) :
    (s.putLine n l).line m = if n = m then l.settle s.now else s.line m := by
  simp [State.line, Bank.get_set]

@[simp] theorem State.line_putLine_self (n : LineNo) (l : Line) (s : State) :
    (s.putLine n l).line n = l.settle s.now := by simp [State.line]

@[simp] theorem State.line_putLine_ne {n m : LineNo} (l : Line) (s : State) (h : n ≠ m) :
    (s.putLine n l).line m = s.line m := by simp [State.line, h]

theorem State.source_putSource (a b : SourceNo) (r : Source) (s : State) :
    (s.putSource a r).source b = if a = b then r else s.source b := by
  simp [State.source, State.putSource, Bank.get_set]

@[simp] theorem State.source_putSource_self (a : SourceNo) (r : Source) (s : State) :
    (s.putSource a r).source a = r := by simp [State.source, State.putSource]

@[simp] theorem State.source_putSource_ne {a b : SourceNo} (r : Source) (s : State) (h : a ≠ b) :
    (s.putSource a r).source b = s.source b := by simp [State.source, State.putSource, h]

@[simp] theorem State.line_advanceTo (t : Nat) (s : State) (m : LineNo) : (s.advanceTo t).line m = s.line m := rfl
@[simp] theorem State.source_advanceTo (t : Nat) (s : State) (a : SourceNo) : (s.advanceTo t).source a = s.source a := rfl
@[simp] theorem State.job_advanceTo (t : Nat) (s : State) (i : Nat) : (s.advanceTo t).job i = s.job i := rfl
@[simp] theorem State.queue_advanceTo (t : Nat) (s : State) (m : LineNo) : (s.advanceTo t).queue m = s.queue m := rfl
@[simp] theorem State.headJob_advanceTo (t : Nat) (s : State) (m : LineNo) : (s.advanceTo t).headJob m = s.headJob m := rfl
@[simp] theorem State.key_advanceTo (t : Nat) (s : State) (k : KeyNo) : (s.advanceTo t).key k = s.key k := rfl
@[simp] theorem State.source_putLine (n : LineNo) (l : Line) (s : State) (a : SourceNo) : (s.putLine n l).source a = s.source a := rfl
@[simp] theorem State.job_putLine (n : LineNo) (l : Line) (s : State) (i : Nat) : (s.putLine n l).job i = s.job i := rfl
@[simp] theorem State.queue_putLine (n : LineNo) (l : Line) (s : State) (m : LineNo) : (s.putLine n l).queue m = s.queue m := rfl
@[simp] theorem State.headJob_putLine (n : LineNo) (l : Line) (s : State) (m : LineNo) : (s.putLine n l).headJob m = s.headJob m := rfl
@[simp] theorem State.key_putLine (n : LineNo) (l : Line) (s : State) (k : KeyNo) : (s.putLine n l).key k = s.key k := rfl
@[simp] theorem State.line_putSources (b : Bank 7 Source) (s : State) (m : LineNo) : (s.putSources b).line m = s.line m := rfl
@[simp] theorem State.job_putSources (b : Bank 7 Source) (s : State) (i : Nat) : (s.putSources b).job i = s.job i := rfl
@[simp] theorem State.queue_putSources (b : Bank 7 Source) (s : State) (m : LineNo) : (s.putSources b).queue m = s.queue m := rfl
@[simp] theorem State.headJob_putSources (b : Bank 7 Source) (s : State) (m : LineNo) : (s.putSources b).headJob m = s.headJob m := rfl
@[simp] theorem State.key_putSources (b : Bank 7 Source) (s : State) (k : KeyNo) : (s.putSources b).key k = s.key k := rfl
@[simp] theorem State.line_onJobs (f : JobEngine → JobEngine) (s : State) (m : LineNo) : (s.onJobs f).line m = s.line m := rfl
@[simp] theorem State.source_onJobs (f : JobEngine → JobEngine) (s : State) (a : SourceNo) : (s.onJobs f).source a = s.source a := rfl
@[simp] theorem State.key_onJobs (f : JobEngine → JobEngine) (s : State) (k : KeyNo) : (s.onJobs f).key k = s.key k := rfl
@[simp] theorem State.line_onStore (f : Store → Store) (s : State) (m : LineNo) : (s.onStore f).line m = s.line m := rfl
@[simp] theorem State.source_onStore (f : Store → Store) (s : State) (a : SourceNo) : (s.onStore f).source a = s.source a := rfl
@[simp] theorem State.job_onStore (f : Store → Store) (s : State) (i : Nat) : (s.onStore f).job i = s.job i := rfl
@[simp] theorem State.queue_onStore (f : Store → Store) (s : State) (m : LineNo) : (s.onStore f).queue m = s.queue m := rfl
@[simp] theorem State.headJob_onStore (f : Store → Store) (s : State) (m : LineNo) : (s.onStore f).headJob m = s.headJob m := rfl
@[simp] theorem State.key_onStore (f : Store → Store) (s : State) (k : KeyNo) : (s.onStore f).key k = s.key k := rfl
@[simp] theorem State.line_onKeys (f : KeyScanner → KeyScanner) (s : State) (m : LineNo) : (s.onKeys f).line m = s.line m := rfl
@[simp] theorem State.source_onKeys (f : KeyScanner → KeyScanner) (s : State) (a : SourceNo) : (s.onKeys f).source a = s.source a := rfl
@[simp] theorem State.job_onKeys (f : KeyScanner → KeyScanner) (s : State) (i : Nat) : (s.onKeys f).job i = s.job i := rfl
@[simp] theorem State.queue_onKeys (f : KeyScanner → KeyScanner) (s : State) (m : LineNo) : (s.onKeys f).queue m = s.queue m := rfl
@[simp] theorem State.headJob_onKeys (f : KeyScanner → KeyScanner) (s : State) (m : LineNo) : (s.onKeys f).headJob m = s.headJob m := rfl
@[simp] theorem State.line_onLink (f : LinkPort → LinkPort) (s : State) (m : LineNo) : (s.onLink f).line m = s.line m := rfl
@[simp] theorem State.source_onLink (f : LinkPort → LinkPort) (s : State) (a : SourceNo) : (s.onLink f).source a = s.source a := rfl
@[simp] theorem State.job_onLink (f : LinkPort → LinkPort) (s : State) (i : Nat) : (s.onLink f).job i = s.job i := rfl
@[simp] theorem State.queue_onLink (f : LinkPort → LinkPort) (s : State) (m : LineNo) : (s.onLink f).queue m = s.queue m := rfl
@[simp] theorem State.headJob_onLink (f : LinkPort → LinkPort) (s : State) (m : LineNo) : (s.onLink f).headJob m = s.headJob m := rfl
@[simp] theorem State.key_onLink (f : LinkPort → LinkPort) (s : State) (k : KeyNo) : (s.onLink f).key k = s.key k := rfl
@[simp] theorem State.line_draw (f : Nat → Bool) (s : State) (m : LineNo) : ((s.draw f).2).line m = s.line m := rfl
@[simp] theorem State.source_draw (f : Nat → Bool) (s : State) (a : SourceNo) : ((s.draw f).2).source a = s.source a := rfl
@[simp] theorem State.job_draw (f : Nat → Bool) (s : State) (i : Nat) : ((s.draw f).2).job i = s.job i := rfl
@[simp] theorem State.queue_draw (f : Nat → Bool) (s : State) (m : LineNo) : ((s.draw f).2).queue m = s.queue m := rfl
@[simp] theorem State.headJob_draw (f : Nat → Bool) (s : State) (m : LineNo) : ((s.draw f).2).headJob m = s.headJob m := rfl
@[simp] theorem State.key_draw (f : Nat → Bool) (s : State) (k : KeyNo) : ((s.draw f).2).key k = s.key k := rfl

/-! ### A settled line: every field it keeps -/

@[simp] theorem Line.settle_st (now : Nat) (l : Line) : (l.settle now).st = l.st := rfl
@[simp] theorem Line.settle_cursor (now : Nat) (l : Line) : (l.settle now).cursor = l.cursor := rfl
@[simp] theorem Line.settle_postAnswer (now : Nat) (l : Line) : (l.settle now).postAnswer = l.postAnswer := rfl
@[simp] theorem Line.settle_committed (now : Nat) (l : Line) : (l.settle now).committed = l.committed := rfl
@[simp] theorem Line.settle_pendingProfile (now : Nat) (l : Line) : (l.settle now).pendingProfile = l.pendingProfile := rfl
@[simp] theorem Line.settle_supervision (now : Nat) (l : Line) : (l.settle now).supervision = l.supervision := rfl
@[simp] theorem Line.settle_manual (now : Nat) (l : Line) : (l.settle now).manual = l.manual := rfl
@[simp] theorem Line.settle_attempt (now : Nat) (l : Line) : (l.settle now).attempt = l.attempt := rfl
@[simp] theorem Line.settle_timers (now : Nat) (l : Line) : (l.settle now).timers = l.timers := rfl
@[simp] theorem Line.settle_lastClass (now : Nat) (l : Line) : (l.settle now).lastClass = l.lastClass := rfl
@[simp] theorem Line.settle_lastCause (now : Nat) (l : Line) : (l.settle now).lastCause = l.lastCause := rfl
@[simp] theorem Line.settle_lastJob (now : Nat) (l : Line) : (l.settle now).lastJob = l.lastJob := rfl
@[simp] theorem Line.settle_out (now : Nat) (l : Line) : (l.settle now).out = l.outputs := rfl
@[simp] theorem Line.settle_loop_pin (now : Nat) (l : Line) : (l.settle now).loop.pin = l.loop.pin := rfl
@[simp] theorem Line.settle_loop_taken (now : Nat) (l : Line) : (l.settle now).loop.taken = l.loop.taken := rfl
@[simp] theorem Line.settle_rev_pin (now : Nat) (l : Line) : (l.settle now).rev.pin = l.rev.pin := rfl
@[simp] theorem Line.settle_rev_taken (now : Nat) (l : Line) : (l.settle now).rev.taken = l.rev.taken := rfl
@[simp] theorem Line.settle_ring_pin (now : Nat) (l : Line) : (l.settle now).ring.pin = l.ring.pin := by
  simp only [Line.settle, RingDetector.follow]; split <;> rfl
@[simp] theorem Line.settle_ring_count (now : Nat) (l : Line) : (l.settle now).ring.count = l.ring.count := by
  simp only [Line.settle, RingDetector.follow]; split <;> rfl
@[simp] theorem Line.settle_ring_glareDue (now : Nat) (l : Line) : (l.settle now).ring.glareDue = l.ring.glareDue := by
  simp only [Line.settle, RingDetector.follow]; split <;> rfl
@[simp] theorem Line.settle_pc_pin (now : Nat) (l : Line) : (l.settle now).pc.pin = l.pc.pin := rfl
@[simp] theorem Line.settle_pc_listening (now : Nat) (l : Line) : (l.settle now).pc.listening = l.pc.listening := rfl
@[simp] theorem Line.settle_pc_filtered (now : Nat) (l : Line) : (l.settle now).pc.filtered = l.pc.filtered := rfl
@[simp] theorem Line.settle_pc_interval (now : Nat) (l : Line) : (l.settle now).pc.interval = l.pc.interval := rfl
@[simp] theorem Line.settle_pc_openOn (now : Nat) (l : Line) : (l.settle now).pc.openOn = l.pc.openOn := rfl
@[simp] theorem Line.settle_pc_history (now : Nat) (l : Line) : (l.settle now).pc.history = l.pc.history := rfl
@[simp] theorem Line.settle_pc_matchers (now : Nat) (l : Line) : (l.settle now).pc.matchers = l.pc.matchers := rfl
@[simp] theorem Line.settle_pc_unmatched (now : Nat) (l : Line) : (l.settle now).pc.unmatched = l.pc.unmatched := rfl
@[simp] theorem Line.settle_pc_current (now : Nat) (l : Line) : (l.settle now).pc.current = l.pc.current := rfl
@[simp] theorem Line.settle_pc_ringbackSeen (now : Nat) (l : Line) : (l.settle now).pc.ringbackSeen = l.pc.ringbackSeen := rfl
@[simp] theorem Line.settle_pc_gapWatch (now : Nat) (l : Line) : (l.settle now).pc.gapWatch = l.pc.gapWatch := rfl
@[simp] theorem Line.settle_pc_lastAnswer (now : Nat) (l : Line) : (l.settle now).pc.lastAnswer = l.pc.lastAnswer := rfl
@[simp] theorem Line.settle_drivesLcl (now : Nat) (l : Line) : (l.settle now).drivesLcl = l.drivesLcl := rfl
@[simp] theorem Line.settle_drivesTon (now : Nat) (l : Line) : (l.settle now).drivesTon = l.drivesTon := rfl
@[simp] theorem Line.settle_drivesTxm (now : Nat) (l : Line) : (l.settle now).drivesTxm = l.drivesTxm := rfl
@[simp] theorem Line.settle_drivesRxm (now : Nat) (l : Line) : (l.settle now).drivesRxm = l.drivesRxm := rfl
@[simp] theorem Line.settle_outputs (now : Nat) (l : Line) : (l.settle now).outputs = l.outputs := rfl
@[simp] theorem Line.settle_watchesRing (now : Nat) (l : Line) : (l.settle now).watchesRing = l.watchesRing := rfl
@[simp] theorem Line.settle_method (now : Nat) (l : Line) : (l.settle now).method = l.method := rfl
@[simp] theorem Line.settle_program (now : Nat) (l : Line) : (l.settle now).program = l.program := rfl
@[simp] theorem Line.settle_startsWithWait (now : Nat) (l : Line) : (l.settle now).startsWithWait = l.startsWithWait := rfl

/-- The outputs of a line written are the ones its state calls for (R2). -/
theorem State.putLine_out (n : LineNo) (l : Line) (s : State) : ((s.putLine n l).line n).out = l.outputs := by simp

/-! ### Settling a line twice at one moment -/

@[simp] theorem Debounced.follow_follow (v : Bool) (now : Nat) (d : Debounced) :
    (d.follow v now).follow v now = d.follow v now := by
  unfold Debounced.follow
  by_cases h : v = d.taken <;> simp [h]

/-- A raw change makes one edge more or one fewer (R78). -/
theorem addEdge_parity (now : Nat) (edges : List Nat) :
    ((addEdge now edges).length % 2 == 1) = !(edges.length % 2 == 1) := by
  have odd : ∀ k : Nat, ((k + 1) % 2 == 1) = !(k % 2 == 1) := by
    intro k
    rw [Bool.eq_iff_iff]
    simp
    omega
  unfold addEdge
  split
  · next h => simp [List.getLast?_eq_none_iff.1 h]
  · next e h =>
    split
    · obtain ⟨r, rfl⟩ := List.getLast?_eq_some_iff.1 h
      simp [odd]
    · simp [odd]

/-- The raw level the filter saw last is the level it is given (R78). -/
@[simp] theorem Classifier.rawSeen_follow (v : Bool) (now : Nat) (c : Classifier) : (c.follow v now).rawSeen = v := by
  unfold Classifier.follow
  split
  · next h => exact h.symm
  · next h =>
    simp only [Classifier.rawSeen, addEdge_parity] at h ⊢
    revert h
    cases v <;> cases c.filtered <;> cases (c.edges.length % 2 == 1) <;> simp

@[simp] theorem Classifier.follow_follow (v : Bool) (now : Nat) (c : Classifier) :
    (c.follow v now).follow v now = c.follow v now := by
  have seen : ∀ x : Classifier, x.rawSeen = v → x.follow v now = x := fun x h => by simp [Classifier.follow, h]
  exact seen _ (c.rawSeen_follow v now)

@[simp] theorem RingDetector.follow_pin (w v : Bool) (now : Nat) (r : RingDetector) : (r.follow w v now).pin = r.pin := by
  unfold RingDetector.follow
  split <;> rfl

@[simp] theorem RingDetector.follow_follow (w v : Bool) (now : Nat) (r : RingDetector) :
    (r.follow w v now).follow w v now = r.follow w v now := by
  unfold RingDetector.follow
  cases w <;> cases v <;> cases r.burst <;> simp

/-- A line whose outputs and measurements stand as its state and pins call for is settled. -/
theorem Line.settle_fixed {now : Nat} {l : Line} (ho : l.outputs = l.out) (h1 : l.loop.follow l.loopSeen now = l.loop)
    (h2 : l.rev.follow l.revSeen now = l.rev) (h3 : l.ring.follow l.watchesRing l.ringSeen now = l.ring)
    (h4 : l.pc.follow l.cptSeen now = l.pc) : l.settle now = l := by
  have e : ({ l with out := l.outputs } : Line) = l := by rw [ho]
  unfold Line.settle
  simp only [e, h1, h2, h3, h4]

/-- The line settled at a moment is settled at that moment (R1, R2). -/
@[simp] theorem Line.settle_settle (now : Nat) (l : Line) : (l.settle now).settle now = l.settle now :=
  Line.settle_fixed rfl (Debounced.follow_follow _ now l.loop) (Debounced.follow_follow _ now l.rev)
    (by
      rw [show (l.settle now).ringSeen = Line.ringSeen { l with out := l.outputs } by simp [Line.ringSeen, Line.settle]]
      exact RingDetector.follow_follow _ _ now l.ring)
    (Classifier.follow_follow _ now l.pc)

/-- Writing a line twice at one moment is writing it once. -/
@[simp] theorem State.putLine_putLine (n : LineNo) (l m : Line) (s : State) :
    (s.putLine n l).putLine n m = s.putLine n m := by
  simp [State.putLine]

/-- Writing back a line just written changes nothing. -/
theorem State.putLine_again (n : LineNo) (l : Line) (s : State) :
    (s.putLine n l).putLine n ((s.putLine n l).line n) = s.putLine n l := by
  simp [State.putLine, State.line]

end Sys2Proof.Machine
end

