-- ==== Sys2Proof/Laws/Events.lean ====
section
/-! SUPPORT. What latching a flag, queueing a notice and dropping one can do, and the invariant of the source records. -/

namespace Sys2Proof.Machine

/-! ### Frames: only the source records, ATTN and the outbound queue change -/

/-- `t` differs from `s` in the Event Unit's records and ATTN and in the outbound queue's notices only. -/
structure OnlyNotes (s t : State) : Prop where
  frame : t = { s with
    events := { s.events with sources := t.events.sources, attn := t.events.attn }
    link := { s.link with outbound := t.link.outbound } }
  replies : t.link.replies = s.link.replies

theorem OnlyNotes.refl (s : State) : OnlyNotes s s := ⟨rfl, rfl⟩

theorem OnlyNotes.trans {s t u : State} (h : OnlyNotes s t) (k : OnlyNotes t u) : OnlyNotes s u := by
  refine ⟨?_, k.replies.trans h.replies⟩
  have e := h.frame
  rw [k.frame]
  conv_lhs => rw [e]

theorem State.putSource_only (src : SourceNo) (r : Source) (s : State) : OnlyNotes s (s.putSource src r) := ⟨rfl, rfl⟩

theorem State.putSources_only (b : Bank 7 Source) (s : State) : OnlyNotes s (s.putSources b) := ⟨rfl, rfl⟩

theorem State.queueNotice_only (src : SourceNo) (s : State) : OnlyNotes s (s.queueNotice src) := by
  unfold State.queueNotice
  split
  · exact ⟨rfl, by simp [State.putSource, LinkPort.replies, OutRecord.isReply]⟩
  · exact .refl s

theorem State.dropNote_only (src : SourceNo) (s : State) : OnlyNotes s (s.dropNote src) := by
  refine ⟨rfl, ?_⟩
  simp only [State.dropNote, State.onLink_link, LinkPort.replies, List.countP_filter]
  congr 1
  funext r
  cases r <;> simp [OutRecord.isReply, OutRecord.isNoteOf]

/-- What latching a flag can change (R171, R173). -/
theorem State.latch_only (src : SourceNo) (f : Flag) (s : State) : OnlyNotes s (s.latch src f) := by
  simp only [State.latch]
  split
  · exact .refl s
  · split
    · exact (State.putSource_only _ _ _).trans (State.queueNotice_only _ _)
    · exact State.putSource_only _ _ _

theorem State.foldNotices_only (l : List SourceNo) (s : State) :
    OnlyNotes s (l.foldl (fun s src => s.queueNotice src) s) := by
  induction l generalizing s with
  | nil => exact .refl s
  | cons a r ih => exact (State.queueNotice_only a s).trans (ih _)

theorem State.queueNotices_only (s : State) : OnlyNotes s s.queueNotices := State.foldNotices_only _ _

namespace OnlyNotes

variable {s t : State}

theorem pending (h : OnlyNotes s t) : t.pending = s.pending := by rw [h.frame]
theorem now (h : OnlyNotes s t) : t.now = s.now := by rw [h.frame]
theorem free (h : OnlyNotes s t) : t.free = s.free := by rw [h.frame]
theorem held (h : OnlyNotes s t) : t.held = s.held := by rw [h.frame]
theorem pins (h : OnlyNotes s t) : t.pins = s.pins := by rw [h.frame]
theorem lines (h : OnlyNotes s t) : t.lines = s.lines := by rw [h.frame]
theorem pool (h : OnlyNotes s t) : t.pool = s.pool := by rw [h.frame]
theorem cadence (h : OnlyNotes s t) : t.cadence = s.cadence := by rw [h.frame]
theorem jobs (h : OnlyNotes s t) : t.jobs = s.jobs := by rw [h.frame]
theorem store (h : OnlyNotes s t) : t.store = s.store := by rw [h.frame]
theorem keys (h : OnlyNotes s t) : t.keys = s.keys := by rw [h.frame]
theorem tx (h : OnlyNotes s t) : t.link.tx = s.link.tx := by rw [h.frame]
theorem rx (h : OnlyNotes s t) : t.link.rx = s.link.rx := by rw [h.frame]
theorem inbound (h : OnlyNotes s t) : t.link.inbound = s.link.inbound := by rw [h.frame]
theorem breakSince (h : OnlyNotes s t) : t.link.breakSince = s.link.breakSince := by rw [h.frame]
theorem settings (h : OnlyNotes s t) : t.link.settings = s.link.settings := by rw [h.frame]
theorem resetCause (h : OnlyNotes s t) : t.events.resetCause = s.events.resetCause := by rw [h.frame]
theorem lastLinkError (h : OnlyNotes s t) : t.events.lastLinkError = s.events.lastLinkError := by rw [h.frame]
theorem lastDiscarded (h : OnlyNotes s t) : t.events.lastDiscarded = s.events.lastDiscarded := by rw [h.frame]

end OnlyNotes

section latchFrames
variable (src : SourceNo) (f : Flag) (s : State)

@[simp] theorem State.latch_pending : (s.latch src f).pending = s.pending := (s.latch_only src f).pending
@[simp] theorem State.latch_now : (s.latch src f).now = s.now := (s.latch_only src f).now
@[simp] theorem State.latch_free : (s.latch src f).free = s.free := (s.latch_only src f).free
@[simp] theorem State.latch_held : (s.latch src f).held = s.held := (s.latch_only src f).held
@[simp] theorem State.latch_pins : (s.latch src f).pins = s.pins := (s.latch_only src f).pins
@[simp] theorem State.latch_lines : (s.latch src f).lines = s.lines := (s.latch_only src f).lines
@[simp] theorem State.latch_pool : (s.latch src f).pool = s.pool := (s.latch_only src f).pool
@[simp] theorem State.latch_cadence : (s.latch src f).cadence = s.cadence := (s.latch_only src f).cadence
@[simp] theorem State.latch_jobs : (s.latch src f).jobs = s.jobs := (s.latch_only src f).jobs
@[simp] theorem State.latch_store : (s.latch src f).store = s.store := (s.latch_only src f).store
@[simp] theorem State.latch_keys : (s.latch src f).keys = s.keys := (s.latch_only src f).keys
@[simp] theorem State.latch_inbound : (s.latch src f).link.inbound = s.link.inbound := (s.latch_only src f).inbound
@[simp] theorem State.latch_replies : (s.latch src f).link.replies = s.link.replies := (s.latch_only src f).replies
@[simp] theorem State.latch_rx : (s.latch src f).link.rx = s.link.rx := (s.latch_only src f).rx
@[simp] theorem State.latch_tx : (s.latch src f).link.tx = s.link.tx := (s.latch_only src f).tx
@[simp] theorem State.latch_breakSince : (s.latch src f).link.breakSince = s.link.breakSince :=
  (s.latch_only src f).breakSince
@[simp] theorem State.latch_settings : (s.latch src f).link.settings = s.link.settings := (s.latch_only src f).settings
@[simp] theorem State.latch_resetCause : (s.latch src f).events.resetCause = s.events.resetCause :=
  (s.latch_only src f).resetCause
@[simp] theorem State.latch_lastLinkError : (s.latch src f).events.lastLinkError = s.events.lastLinkError :=
  (s.latch_only src f).lastLinkError
@[simp] theorem State.latch_lastDiscarded : (s.latch src f).events.lastDiscarded = s.events.lastDiscarded :=
  (s.latch_only src f).lastDiscarded
@[simp] theorem State.latch_line (n : LineNo) : (s.latch src f).line n = s.line n := by simp [State.line]
@[simp] theorem State.latch_job (i : Nat) : (s.latch src f).job i = s.job i := by simp [State.job]
@[simp] theorem State.latch_queue (n : LineNo) : (s.latch src f).queue n = s.queue n := by simp [State.queue]
@[simp] theorem State.latch_headJob (n : LineNo) : (s.latch src f).headJob n = s.headJob n := by
  simp [State.headJob]
@[simp] theorem State.latch_key (k : KeyNo) : (s.latch src f).key k = s.key k := by simp [State.key]

end latchFrames

/-! ### What a source record becomes -/

/-- The details of a source rest on the lines, the scanner, the store and the details of SYSTEM (R172). -/
theorem State.details_congr {s t : State} (src : SourceNo) (hl : t.lines = s.lines) (hk : t.keys = s.keys)
    (hs : t.store = s.store) (hr : t.events.resetCause = s.events.resetCause)
    (he : t.events.lastLinkError = s.events.lastLinkError) (hd : t.events.lastDiscarded = s.events.lastDiscarded) :
    t.details src = s.details src := by
  unfold State.details State.line EventUnit.details
  rw [hl, hk, hs, hr, he, hd]

theorem State.queueNotice_calls (src : SourceNo) (s : State) : ((s.queueNotice src).source src).calls = false := by
  unfold State.queueNotice
  split
  · simp [Source.calls]
  · next h => simpa using h

theorem State.queueNotice_other {src b : SourceNo} (h : src ≠ b) (s : State) :
    (s.queueNotice src).source b = s.source b := by
  unfold State.queueNotice
  split
  · simp [h]
  · rfl

/-- The latched flags, mask and other sources are no business of a notice. -/
theorem State.queueNotice_latched (src b : SourceNo) (s : State) :
    ((s.queueNotice src).source b).latched = (s.source b).latched ∧
      ((s.queueNotice src).source b).mask = (s.source b).mask := by
  by_cases h : src = b
  · subst h
    unfold State.queueNotice
    split <;> simp
  · simp [State.queueNotice_other h]

/-- What queueing notices does to sources that have none (R173): each that calls for one has its notice at the tail, in
the order given. -/
theorem State.foldNotices_spec (l : List SourceNo) (u : State) (hn : l.Nodup)
    (hp : ∀ m ∈ l, (u.source m).noticePending = false) :
    (∀ m, (l.foldl (fun s src => s.queueNotice src) u).source m =
      if m ∈ l then ⟨(u.source m).latched, (u.source m).mask, (u.source m).latched &&& (u.source m).mask != 0#8⟩
      else u.source m) ∧
    (l.foldl (fun s src => s.queueNotice src) u).link = { u.link with
      outbound := u.link.outbound ++ l.filterMap fun m =>
        if (u.source m).latched &&& (u.source m).mask != 0#8 then some (.note m (u.noteBody m)) else none } := by
  induction l generalizing u with
  | nil => simp
  | cons a l ih =>
    rw [List.nodup_cons] at hn
    have hpa := hp a (by simp)
    have ho : ∀ m, m ≠ a → (u.queueNotice a).source m = u.source m := fun m hm => State.queueNotice_other (Ne.symm hm) u
    obtain ⟨i1, i2⟩ := ih (u.queueNotice a) hn.2 (fun m hm => by
          rw [ho m (by rintro rfl; exact hn.1 hm)]; exact hp m (by simp [hm]))
    have fr := State.queueNotice_only a u
    have nb : ∀ m, m ≠ a → (u.queueNotice a).noteBody m = u.noteBody m := by
      intro m hm
      unfold State.noteBody
      rw [ho m hm, State.details_congr m fr.lines fr.keys fr.store fr.resetCause fr.lastLinkError fr.lastDiscarded]
    have sa : (u.queueNotice a).source a = ⟨(u.source a).latched, (u.source a).mask, (u.source a).latched &&& (u.source a).mask != 0#8⟩ := by
      unfold State.queueNotice Source.calls
      cases hc : ((u.source a).latched &&& (u.source a).mask != 0#8)
      · simp [hpa]
        cases h : u.source a; simp_all
      · rw [if_pos (by simp [hpa])]
        simp [State.source, State.putSource]
    have la : (u.queueNotice a).link = { u.link with outbound := u.link.outbound ++ (if (u.source a).latched &&& (u.source a).mask != 0#8 then [.note a (u.noteBody a)] else []) } := by
      unfold State.queueNotice Source.calls
      cases hc : ((u.source a).latched &&& (u.source a).mask != 0#8)
      · rw [if_neg (by simp [hpa])]; simp
      · rw [if_pos (by simp [hpa])]; simp [State.putSource]
    simp only [List.foldl_cons]
    refine ⟨fun m => ?_, ?_⟩
    · rw [i1]
      by_cases e : m = a
      · subst e
        simp [hn.1, sa]
      · rw [ho m e]; simp [e]
    · rw [i2, la]
      have : List.filterMap (fun m => if (((u.queueNotice a).source m).latched &&& ((u.queueNotice a).source m).mask != 0#8) = true then some (OutRecord.note m ((u.queueNotice a).noteBody m)) else none) l = List.filterMap (fun m => if ((u.source m).latched &&& (u.source m).mask != 0#8) = true then some (OutRecord.note m (u.noteBody m)) else none) l := by
        apply List.filterMap_congr
        intro m hm
        have : m ≠ a := by rintro rfl; exact hn.1 hm
        rw [ho m this, nb m this]
      rw [this]
      rw [List.filterMap_cons]
      cases hc : ((u.source a).latched &&& (u.source a).mask != 0#8) <;> simp only [hc] <;> simp

theorem Flag.bit_lt (f : Flag) : f.bit < 8 := by cases f <;> decide

theorem Flag.mask_getLsbD (f : Flag) (i : Nat) (hi : i < 8) : f.mask.getLsbD i = decide (i = f.bit) := by
  have h := f.bit_lt
  simp only [Flag.mask, BitVec.getLsbD_shiftLeft, BitVec.getLsbD_one]
  by_cases e : i = f.bit
  · subst e; simp [hi]
  · by_cases l : i < f.bit
    · simp [e, l]
    · have : i - f.bit ≠ 0 := by omega
      simp [e, this]

theorem Flag.unmasked {f : Flag} {m : Byte} (h : m.getLsbD f.bit = false) (x : Byte) :
    (x ||| f.mask) &&& m = x &&& m := by
  apply BitVec.eq_of_getLsbD_eq
  intro i hi
  simp only [BitVec.getLsbD_and, BitVec.getLsbD_or, f.mask_getLsbD i hi]
  by_cases e : i = f.bit
  · subst e; simp [h]
  · simp [e]

/-- R171: a flag latched is latched. -/
theorem State.latch_latched (src : SourceNo) (f : Flag) (s : State) :
    ((s.latch src f).source src).latched = (s.source src).latched ||| f.mask := by
  simp only [State.latch]
  split
  · next h =>
    apply BitVec.eq_of_getLsbD_eq
    intro i hi
    simp only [BitVec.getLsbD_or, f.mask_getLsbD i hi]
    by_cases e : i = f.bit
    · subst e; simp [h]
    · simp [e]
  · split <;> simp [State.queueNotice_latched]

/-- Latching touches the record of its own source only. -/
theorem State.latch_other {src b : SourceNo} (h : src ≠ b) (f : Flag) (s : State) :
    (s.latch src f).source b = s.source b := by
  simp only [State.latch]
  split
  · rfl
  · split <;> simp [State.queueNotice_other, h]

/-- Latching leaves every mask (R171). -/
theorem State.latch_mask (src b : SourceNo) (f : Flag) (s : State) :
    ((s.latch src f).source b).mask = (s.source b).mask := by
  by_cases h : src = b
  · subst h
    simp only [State.latch, State.queueNotice]
    split
    · rfl
    · split <;> [split; skip] <;> simp [State.source, State.putSource]
  · rw [State.latch_other h]

/-- Latching appends at most a notice to the outbound queue (R173). -/
theorem State.latch_outbound (src : SourceNo) (f : Flag) (s : State) :
    (s.latch src f).link.outbound = s.link.outbound ∨
      ∃ body, (s.latch src f).link.outbound = s.link.outbound ++ [.note src body] := by
  simp only [State.latch, State.queueNotice]
  split
  · exact .inl rfl
  · split
    · split
      · exact .inr ⟨_, rfl⟩
      · exact .inl rfl
    · exact .inl rfl

/-! ### The invariant -/

/-- The invariant but for the notices owed. -/
structure State.NotesKept (s : State) : Prop where
  oneNote : ∀ src, s.link.outbound.countP (OutRecord.isNoteOf src) ≤ 1
  marked : ∀ src, 1 ≤ s.link.outbound.countP (OutRecord.isNoteOf src) → (s.source src).noticePending = true
  attn : s.events.attn = attnLevel s.events.sources

theorem State.Noted.kept {s : State} (h : s.Noted) : s.NotesKept := ⟨h.oneNote, h.marked, h.attn⟩

theorem State.NotesKept.noted {s : State} (h : s.NotesKept) (c : ∀ src, (s.source src).calls = false) : s.Noted :=
  ⟨h.oneNote, h.marked, c, h.attn⟩

/-- The invariant reads the outbound queue's notices, the source records and ATTN only. -/
theorem State.Noted.congr {s t : State} (h : s.Noted)
    (ho : ∀ src, t.link.outbound.countP (OutRecord.isNoteOf src) = s.link.outbound.countP (OutRecord.isNoteOf src))
    (hs : t.events.sources = s.events.sources) (ha : t.events.attn = s.events.attn) : t.Noted := by
  have hsrc : ∀ src, t.source src = s.source src := fun src => by simp [State.source, hs]
  constructor
  · intro src; rw [ho]; exact h.oneNote src
  · intro src hp; rw [hsrc]; rw [ho] at hp; exact h.marked src hp
  · intro src; rw [hsrc]; exact h.called src
  · rw [ha, hs]; exact h.attn

theorem State.NotesKept.queueNotice {s : State} (h : s.NotesKept) (src : SourceNo) : (s.queueNotice src).NotesKept := by
  unfold State.queueNotice
  split
  · next hc =>
    have hp : (s.source src).noticePending = false := by
      by_contra hne
      simp only [Bool.not_eq_false] at hne
      simp [Source.calls, hne] at hc
    have h0 : s.link.outbound.countP (OutRecord.isNoteOf src) = 0 := by
      by_contra hne
      have := h.marked src (by omega)
      rw [hp] at this; cases this
    constructor
    · intro b
      by_cases e : src = b
      · subst e; simp [State.putSource, OutRecord.isNoteOf, h0]
      · have := h.oneNote b
        simpa [State.putSource, OutRecord.isNoteOf, e] using this
    · intro b hb
      by_cases e : src = b
      · subst e; simp
      · have := h.marked b (by simpa [State.putSource, OutRecord.isNoteOf, e] using hb)
        simpa [e] using this
    · rfl
  · exact h

/-- A record written that keeps notice-pending, where no notice of it needs clearing. -/
theorem State.NotesKept.putSource {s : State} (h : s.NotesKept) (src : SourceNo) (r : Source)
    (hr : r.noticePending = (s.source src).noticePending) : (s.putSource src r).NotesKept := by
  constructor
  · exact h.oneNote
  · intro b hb
    by_cases e : src = b
    · subst e
      rw [State.source_putSource_self, hr]
      exact h.marked src hb
    · rw [State.source_putSource_ne r s e]
      exact h.marked b hb
  · rfl

theorem State.Noted.latch {s : State} (h : s.Noted) (src : SourceNo) (f : Flag) : (s.latch src f).Noted := by
  simp only [State.latch]
  split
  · exact h
  · have hk := h.kept.putSource src { s.source src with latched := (s.source src).latched ||| f.mask } rfl
    split
    · refine (hk.queueNotice src).noted fun b => ?_
      by_cases e : src = b
      · subst e; exact State.queueNotice_calls _ _
      · rw [State.queueNotice_other e, State.source_putSource_ne _ _ e]; exact h.called b
    · next hm =>
      refine hk.noted fun b => ?_
      by_cases e : src = b
      · subst e
        have := h.called src
        rw [State.source_putSource_self]
        simp only [Source.calls] at this ⊢
        rw [Flag.unmasked (by simpa using hm)]
        exact this
      · rw [State.source_putSource_ne _ _ e]; exact h.called b

theorem State.foldNotices_calls (l : List SourceNo) (s : State) (b : SourceNo)
    (h : b ∈ l ∨ (s.source b).calls = false) :
    ((l.foldl (fun s src => s.queueNotice src) s).source b).calls = false := by
  induction l generalizing s with
  | nil => simpa using h
  | cons a r ih =>
    apply ih
    by_cases e : a = b
    · subst e; exact .inr (State.queueNotice_calls _ _)
    · rw [State.queueNotice_other e]
      rcases h with h | h
      · exact .inl (by simpa [Ne.symm e] using h)
      · exact .inr h

theorem State.NotesKept.foldNotices {s : State} (h : s.NotesKept) (l : List SourceNo) :
    (l.foldl (fun s src => s.queueNotice src) s).NotesKept := by
  induction l generalizing s with
  | nil => exact h
  | cons a r ih => exact ih (h.queueNotice a)

/-- Once every source has had its call, none is owed a notice. -/
theorem State.NotesKept.queueNotices {s : State} (h : s.NotesKept) : s.queueNotices.Noted :=
  (h.foldNotices _).noted fun b => State.foldNotices_calls _ _ b (.inl (List.mem_finRange b))

end Sys2Proof.Machine
end

