-- ==== Sys2Proof/Laws/Jobs.lean ====
section
/-! SUPPORT. The Job Engine's invariant under each change of its table, queues and finished list. -/

namespace Sys2Proof.Machine

/-! ### The table -/

/-- The record of a job in a table. -/
def findJob (table : List Job) (id : Nat) : Option Job := table.find? fun j => j.id == id

theorem State.job_eq (s : State) (id : Nat) : s.job id = findJob s.jobs.table id := rfl

theorem findJob_mem {t : List Job} {id : Nat} {j : Job} (h : findJob t id = some j) : j ∈ t ∧ j.id = id :=
  ⟨List.mem_of_find?_eq_some h, by simpa using List.find?_some h⟩

theorem findJob_of_mem {t : List Job} (hd : (Job.ids t).Nodup) {j : Job} (h : j ∈ t) : findJob t j.id = some j := by
  induction t with
  | nil => cases h
  | cons a r ih =>
    simp only [Job.ids, List.map_cons, List.nodup_cons, List.mem_map, not_exists, not_and] at hd
    rcases List.mem_cons.1 h with rfl | h
    · simp [findJob]
    · have : ¬ a.id = j.id := fun e => hd.1 j h e.symm
      simpa [findJob, this] using ih hd.2 h

theorem mem_ids {t : List Job} {id : Nat} : id ∈ Job.ids t ↔ ∃ j ∈ t, j.id = id := by simp [Job.ids]

theorem findJob_of_ids {t : List Job} {id : Nat} (h : id ∈ Job.ids t) : ∃ j, findJob t id = some j := by
  obtain ⟨j, hj, e⟩ := mem_ids.1 h
  cases hf : findJob t id with
  | some j => exact ⟨j, rfl⟩
  | none => exact absurd (List.find?_eq_none.1 hf j hj) (by simp [e])

/-- A table with the job `id` changed. -/
def updateJob (id : Nat) (f : Job → Job) (t : List Job) : List Job := t.map fun j => if j.id = id then f j else j

theorem ids_updateJob {t : List Job} {id : Nat} {f : Job → Job} (h : ∀ j ∈ t, j.id = id → (f j).id = id) :
    Job.ids (updateJob id f t) = Job.ids t := by
  simp only [Job.ids, updateJob, List.map_map]
  apply List.map_congr_left
  intro j hj
  by_cases e : j.id = id
  · simp [e, h j hj e]
  · simp [e]

theorem mem_updateJob {t : List Job} {id : Nat} {f : Job → Job} {x : Job} :
    x ∈ updateJob id f t ↔ ∃ j ∈ t, x = if j.id = id then f j else j := by
  simp [updateJob, eq_comm]

/-! ### Lists -/

theorem tail_erase_subset (q : List Nat) (x : Nat) {y : Nat} (h : y ∈ (q.erase x).tail) : y ∈ q.tail := by
  cases q with
  | nil => simp at h
  | cons a r =>
    by_cases e : a = x
    · subst e; simp only [List.erase_cons_head] at h
      exact List.mem_of_mem_tail h
    · rw [List.erase_cons_tail (by simp [e])] at h
      exact List.mem_of_mem_erase (by simpa using h)

theorem tail_append_subset (q : List Nat) (x : Nat) {y : Nat} (h : y ∈ (q ++ [x]).tail) : y ∈ q.tail ∨ y = x := by
  cases q with
  | nil => simp at h
  | cons a r => simpa using h

theorem head_notMem_tail {q : List Nat} (hn : q.Nodup) {x : Nat} (h : q.head? = some x) : x ∉ q.tail := by
  cases q with
  | nil => simp at h
  | cons a r => simp only [List.head?_cons, Option.some.injEq] at h; subst h; simpa using (List.nodup_cons.1 hn).1

/-! ### Identifiers (R99) -/

/-- The identifier `i` places after `k`. -/
def idAfter (k i : Nat) : Nat := (k - 1 + i) % 255 + 1

theorem succId_idAfter {k : Nat} (i : Nat) : succId (idAfter k i) = idAfter k (i + 1) := by
  unfold succId idAfter
  split <;> omega

theorem searchId_notMem (used : List Nat) (k : Nat) :
    ∀ f i, searchId used f (idAfter k i) ∈ used → ∀ m < f, idAfter k (i + m) ∈ used := by
  intro f
  induction f with
  | zero => intro i _ m hm; omega
  | succ f ih =>
    intro i h m hm
    unfold searchId at h
    by_cases hc : used.contains (idAfter k i)
    · rw [if_pos hc, succId_idAfter] at h
      cases m with
      | zero => simpa using hc
      | succ m =>
        have := ih (i + 1) h m (by omega)
        rwa [show i + 1 + m = i + (m + 1) by omega] at this
    · rw [if_neg hc] at h
      simp [h] at hc

/-- R99: the identifier issued is free while fewer than 255 are in use. -/
theorem searchId_free (used : List Nat) {k : Nat} (h1 : 1 ≤ k) (h2 : k ≤ 255) (hl : used.length < 255) :
    searchId used 255 k ∉ used := by
  intro h
  have hk : idAfter k 0 = k := by unfold idAfter; omega
  have all := searchId_notMem used k 255 0 (by rwa [hk])
  have hs : ((List.range 255).map (idAfter k)) ⊆ used := by
    intro x hx
    obtain ⟨m, hm, rfl⟩ := List.mem_map.1 hx
    simpa using all m (List.mem_range.1 hm)
  have hn : ((List.range 255).map (idAfter k)).Nodup := by
    apply List.Nodup.map_on _ List.nodup_range
    intro a ha b hb e
    simp only [List.mem_range] at ha hb
    unfold idAfter at e
    omega
  have := (hn.subperm hs).length_le
  simp at this
  omega

theorem searchId_range (used : List Nat) : ∀ f k, 1 ≤ k → k ≤ 255 → 1 ≤ searchId used f k ∧ searchId used f k ≤ 255 := by
  intro f
  induction f with
  | zero => intro k h1 h2; exact ⟨h1, h2⟩
  | succ f ih =>
    intro k h1 h2
    unfold searchId
    split
    · exact ih _ (by unfold succId; split <;> omega) (by unfold succId; split <;> omega)
    · exact ⟨h1, h2⟩

theorem JobEngine.nextId_range (e : JobEngine) : 1 ≤ e.nextId ∧ e.nextId ≤ 255 :=
  searchId_range _ _ _ (by unfold succId; split <;> omega) (by unfold succId; split <;> omega)

theorem JobEngine.nextId_free (e : JobEngine) (h : e.table.length < 255) : e.nextId ∉ Job.ids e.table :=
  searchId_free _ (by unfold succId; split <;> omega) (by unfold succId; split <;> omega) (by simpa [Job.ids] using h)

/-- The search of R99 stops at the first identifier that is free, within `f` places, where one of them is. -/
theorem searchId_first (used : List Nat) (k : Nat) :
    ∀ f i, searchId used f (idAfter k i) ∉ used →
      ∃ m, i ≤ m ∧ m ≤ i + f ∧ searchId used f (idAfter k i) = idAfter k m ∧ ∀ l, i ≤ l → l < m → idAfter k l ∈ used := by
  intro f
  induction f with
  | zero => intro i _; exact ⟨i, by omega, by omega, rfl, by omega⟩
  | succ f ih =>
    intro i h
    unfold searchId at h ⊢
    by_cases hc : used.contains (idAfter k i)
    · rw [if_pos hc, succId_idAfter] at h ⊢
      obtain ⟨m, h1, h2, h3, h4⟩ := ih (i + 1) h
      refine ⟨m, by omega, by omega, h3, fun l hl hm => ?_⟩
      rcases Nat.eq_or_lt_of_le hl with rfl | hlt
      · simpa using hc
      · exact h4 l hlt hm
    · rw [if_neg hc]
      exact ⟨i, by omega, by omega, rfl, by omega⟩

theorem idAfter_add (k m : Nat) : idAfter k (m + 255) = idAfter k m := by unfold idAfter; omega

/-- R99: the identifier issued is the first after the counter that no slot holds. -/
theorem JobEngine.nextId_first (e : JobEngine) (hc : e.lastId ≤ 255) (hl : e.table.length < 255) :
    ∃ k, k < 255 ∧ e.nextId = (e.lastId + k) % 255 + 1 ∧ e.nextId ∉ e.table.map (·.id) ∧
      ∀ i, i < k → (e.lastId + i) % 255 + 1 ∈ e.table.map (·.id) := by
  have hk : ∀ i, idAfter (succId e.lastId) i = (e.lastId + i) % 255 + 1 := by
    intro i; unfold idAfter succId; split <;> omega
  have h0 : idAfter (succId e.lastId) 0 = succId e.lastId := by unfold idAfter succId; split <;> omega
  have hfree : e.nextId ∉ e.table.map (·.id) := e.nextId_free hl
  obtain ⟨m, -, h2, h3, h4⟩ := searchId_first (e.table.map (·.id)) (succId e.lastId) 255 0 (by rw [h0]; exact hfree)
  rw [h0] at h3
  have e3 : e.nextId = idAfter (succId e.lastId) m := h3
  have hm : m < 255 := by
    rcases Nat.lt_or_ge m 255 with h | h
    · exact h
    · obtain rfl : m = 255 := by omega
      have := h4 0 (by omega) (by omega)
      rw [← idAfter_add, Nat.zero_add, ← e3] at this
      exact absurd this hfree
  exact ⟨m, hm, by rw [e3, hk], hfree, fun i hi => by rw [← hk]; exact h4 i (by omega) hi⟩

/-! ### The invariant under each change -/

namespace JobEngine.Sound

variable {e : JobEngine}

theorem reset : JobEngine.reset.Sound := by
  constructor <;> simp [JobEngine.reset, Job.ids]

theorem engineReset (h : e.Sound) : e.engineReset.Sound := by
  constructor <;> simp [JobEngine.engineReset, JobEngine.reset, Job.ids, h.counter]

theorem withRetry (h : e.Sound) (r : Bank 4 RetryTimer) : ({ e with retry := r } : JobEngine).Sound :=
  ⟨h.room, h.distinct, h.idRange, h.counter, h.finishedNodup, h.finishedIff, h.finishedHeld, h.queueLength,
    h.queueNodup, h.queueHeld, h.queueIff, h.behindHead⟩

/-- The table's record is the one found by its identifier. -/
theorem found (h : e.Sound) {j : Job} (hj : j ∈ e.table) : findJob e.table j.id = some j :=
  findJob_of_mem h.distinct hj

/-- A change of one job that keeps its identifier, its line, and whether it is FINISHED; a job it takes out of QUEUED
stands at no place behind a head. -/
theorem update (h : e.Sound) (id : Nat) (f : Job → Job)
    (hf : ∀ j, findJob e.table id = some j →
      (f j).id = id ∧ (f j).line = j.line ∧ ((f j).state = .finished ↔ j.state = .finished) ∧
        ((f j).state = .queued ∨ ∀ n, id ∉ (e.queues.get n).tail)) :
    ({ e with table := updateJob id f e.table } : JobEngine).Sound := by
  have hf' : ∀ j ∈ e.table, j.id = id → (f j).id = id ∧ (f j).line = j.line ∧
      ((f j).state = .finished ↔ j.state = .finished) ∧
        ((f j).state = .queued ∨ ∀ n, id ∉ (e.queues.get n).tail) := by
    intro j hj he
    exact hf j (he ▸ h.found hj)
  have hi : Job.ids (updateJob id f e.table) = Job.ids e.table := ids_updateJob fun j hj he => (hf' j hj he).1
  have hm : ∀ x ∈ updateJob id f e.table, ∃ j ∈ e.table, x.id = j.id ∧ x.line = j.line ∧
      (x.state = .finished ↔ j.state = .finished) ∧
      (x = j ∨ (j.id = id ∧ (x.state = .queued ∨ ∀ n, id ∉ (e.queues.get n).tail))) := by
    intro x hx
    obtain ⟨j, hj, rfl⟩ := mem_updateJob.1 hx
    by_cases he : j.id = id
    · obtain ⟨h1, h2, h3, h4⟩ := hf' j hj he
      simp only [if_pos he]
      exact ⟨j, hj, h1.trans he.symm, h2, h3, .inr ⟨he, h4⟩⟩
    · simp only [if_neg he]
      exact ⟨j, hj, rfl, rfl, Iff.rfl, .inl rfl⟩
  constructor
  · simpa [updateJob] using h.room
  · simpa [hi] using h.distinct
  · intro x hx
    obtain ⟨j, hj, h1, -⟩ := hm x hx
    rw [h1]; exact h.idRange j hj
  · exact h.counter
  · exact h.finishedNodup
  · intro x hx
    obtain ⟨j, hj, h1, -, h3, -⟩ := hm x hx
    rw [h1, h3]; exact h.finishedIff j hj
  · intro i hi'
    simpa [hi] using h.finishedHeld i hi'
  · exact h.queueLength
  · exact h.queueNodup
  · intro n i hi'
    simpa [hi] using h.queueHeld n i hi'
  · intro n x hx
    obtain ⟨j, hj, h1, h2, h3, -⟩ := hm x hx
    rw [h1, h2, ne_eq, h3]; exact h.queueIff n j hj
  · intro n x hx hq
    obtain ⟨j, hj, h1, -, -, h4⟩ := hm x hx
    rw [h1] at hq
    rcases h4 with rfl | ⟨he, h4 | h4⟩
    · exact h.behindHead n x hj hq
    · exact h4
    · exact absurd (he ▸ hq) (h4 n)

/-- A live job finished: its record FINISHED, out of its queue, at the end of the finished list (R113). -/
theorem finish (h : e.Sound) {j0 j : Job} (r : Bank 4 RetryTimer) (hf : findJob e.table j.id = some j0)
    (hl : j.line = j0.line) (hs : j.state = .finished) (hlive : j0.state ≠ .finished) :
    ({ e with
        table := updateJob j.id (fun _ => j) e.table
        queues := e.queues.set j.line ((e.queues.get j.line).erase j.id)
        finished := e.finished ++ [j.id]
        retry := r } : JobEngine).Sound := by
  obtain ⟨hm0, hid0⟩ := findJob_mem hf
  have hi : Job.ids (updateJob j.id (fun _ => j) e.table) = Job.ids e.table := ids_updateJob fun _ _ _ => rfl
  have hq0 : ∀ n, j.id ∈ e.queues.get n ↔ n = j.line := by
    intro n
    have := h.queueIff n j0 hm0
    rw [hid0] at this
    rw [this, hl]
    simp [hlive, eq_comm]
  have hq : ∀ n i, i ∈ (e.queues.set j.line ((e.queues.get j.line).erase j.id)).get n ↔
      (i ∈ e.queues.get n ∧ i ≠ j.id) := by
    intro n i
    rw [Bank.get_set]
    split
    · next e' =>
      subst e'
      rw [(h.queueNodup _).mem_erase_iff]
      exact and_comm
    · next e' =>
      constructor
      · intro hi'
        refine ⟨hi', ?_⟩
        rintro rfl
        exact e' ((hq0 n).1 hi').symm
      · exact fun hi' => hi'.1
  have hm : ∀ x ∈ updateJob j.id (fun _ => j) e.table, x = j ∨ (x ∈ e.table ∧ x.id ≠ j.id) := by
    intro x hx
    obtain ⟨y, hy, rfl⟩ := mem_updateJob.1 hx
    by_cases he : y.id = j.id
    · simp [he]
    · simp only [if_neg he]; exact .inr ⟨hy, he⟩
  have hnf : j.id ∉ e.finished := by
    intro hin
    have := (h.finishedIff j0 hm0).1 (by rwa [hid0])
    exact hlive this
  constructor
  · simpa [updateJob] using h.room
  · simpa [hi] using h.distinct
  · intro x hx
    rcases hm x hx with rfl | ⟨hx', -⟩
    · have := h.idRange j0 hm0
      rwa [hid0] at this
    · exact h.idRange x hx'
  · exact h.counter
  · show (e.finished ++ [j.id]).Nodup
    rw [List.nodup_append]
    refine ⟨h.finishedNodup, by simp, ?_⟩
    rintro a ha b hb rfl
    simp only [List.mem_singleton] at hb
    exact hnf (hb ▸ ha)
  · intro x hx
    rcases hm x hx with rfl | ⟨hx', hne⟩
    · simp [hs]
    · simpa [hne] using h.finishedIff x hx'
  · intro i hi'
    simp only [List.mem_append, List.mem_singleton] at hi'
    simp only [hi]
    rcases hi' with hi' | rfl
    · exact h.finishedHeld i hi'
    · exact mem_ids.2 ⟨j0, hm0, hid0⟩
  · intro n
    simp only [Bank.get_set]
    split
    · next e' => subst e'; exact (List.length_erase_le).trans (h.queueLength _)
    · exact h.queueLength n
  · intro n
    simp only [Bank.get_set]
    split
    · next e' => subst e'; exact (h.queueNodup _).erase _
    · exact h.queueNodup n
  · intro n i hi'
    simp only [hi]
    exact h.queueHeld n i ((hq n i).1 hi').1
  · intro n x hx
    rw [hq]
    rcases hm x hx with rfl | ⟨hx', hne⟩
    · simp [hs]
    · simp [hne, h.queueIff n x hx']
  · intro n x hx hin
    have hq' : x.id ∈ (e.queues.set j.line ((e.queues.get j.line).erase j.id)).get n := List.mem_of_mem_tail hin
    rcases hm x hx with rfl | ⟨hx', hne⟩
    · exact absurd rfl ((hq n x.id).1 hq').2
    · simp only [Bank.get_set] at hin
      split at hin
      · next e' => subst e'; exact h.behindHead _ x hx' (tail_erase_subset _ _ hin)
      · exact h.behindHead n x hx' hin

/-- A FINISHED job taken out of the table and the finished list (R102, R117). -/
theorem remove (h : e.Sound) {id : Nat} (hfin : id ∈ e.finished) {l : List Nat}
    (hl : l = e.finished.erase id) :
    ({ e with table := e.table.filter (fun j => j.id != id), finished := l } : JobEngine).Sound := by
  subst hl
  have hids : Job.ids (e.table.filter fun j => j.id != id) = (Job.ids e.table).filter (· != id) := by
    simp [Job.ids, List.filter_map, Function.comp_def]
  have hnq : ∀ n, id ∉ e.queues.get n := by
    intro n hq
    obtain ⟨j, hj, rfl⟩ := mem_ids.1 (h.queueHeld n _ hq)
    exact ((h.queueIff n j hj).1 hq).2 ((h.finishedIff j hj).1 hfin)
  constructor
  · exact (List.length_filter_le _ _).trans h.room
  · simp only [hids]; exact h.distinct.filter _
  · intro x hx; exact h.idRange x (List.mem_filter.1 hx).1
  · exact h.counter
  · exact h.finishedNodup.erase _
  · intro x hx
    obtain ⟨hx', hne⟩ := List.mem_filter.1 hx
    have hne : x.id ≠ id := by simpa using hne
    rw [h.finishedNodup.mem_erase_iff]
    simp [hne, h.finishedIff x hx']
  · intro i hi
    rw [h.finishedNodup.mem_erase_iff] at hi
    simp only [hids, List.mem_filter]
    exact ⟨h.finishedHeld i hi.2, by simpa using hi.1⟩
  · exact h.queueLength
  · exact h.queueNodup
  · intro n i hi
    simp only [hids, List.mem_filter]
    refine ⟨h.queueHeld n i hi, ?_⟩
    have : i ≠ id := by rintro rfl; exact hnq n hi
    simpa using this
  · intro n x hx
    exact h.queueIff n x (List.mem_filter.1 hx).1
  · intro n x hx
    exact h.behindHead n x (List.mem_filter.1 hx).1

/-- A new QUEUED job at the tail of its queue, in a free slot, under a free identifier (R99, R103). -/
theorem accept (h : e.Sound) {j : Job} (hroom : e.table.length < 24) (hq : (e.queues.get j.line).length < 8)
    (hs : j.state = .queued) (hfree : j.id ∉ Job.ids e.table) (hr : 1 ≤ j.id ∧ j.id ≤ 255) :
    ({ e with
        table := e.table ++ [j]
        queues := e.queues.set j.line (e.queues.get j.line ++ [j.id])
        lastId := j.id } : JobEngine).Sound := by
  have hids : Job.ids (e.table ++ [j]) = Job.ids e.table ++ [j.id] := by simp [Job.ids]
  have hnq : ∀ n, j.id ∉ e.queues.get n := fun n hq => hfree (h.queueHeld n _ hq)
  have hnf : j.id ∉ e.finished := fun hq => hfree (h.finishedHeld _ hq)
  have hm : ∀ x ∈ e.table ++ [j], x = j ∨ (x ∈ e.table ∧ x.id ≠ j.id) := by
    intro x hx
    rcases List.mem_append.1 hx with hx | hx
    · refine .inr ⟨hx, fun he => hfree (mem_ids.2 ⟨x, hx, he⟩)⟩
    · exact .inl (by simpa using hx)
  have hqi : ∀ n i, i ∈ (e.queues.set j.line (e.queues.get j.line ++ [j.id])).get n ↔
      (i ∈ e.queues.get n ∨ (n = j.line ∧ i = j.id)) := by
    intro n i
    rw [Bank.get_set]
    split
    · next e' => subst e'; simp
    · next e' => simp [show n ≠ j.line from fun x => e' x.symm]
  constructor
  · simp only [List.length_append, List.length_singleton]; omega
  · simp only [hids]
    rw [List.nodup_append]
    refine ⟨h.distinct, by simp, ?_⟩
    rintro a ha b hb rfl
    simp only [List.mem_singleton] at hb
    exact hfree (hb ▸ ha)
  · intro x hx
    rcases hm x hx with rfl | ⟨hx', -⟩
    · exact hr
    · exact h.idRange x hx'
  · exact hr.2
  · exact h.finishedNodup
  · intro x hx
    rcases hm x hx with rfl | ⟨hx', -⟩
    · simp [hnf, hs]
    · exact h.finishedIff x hx'
  · intro i hi
    simp only [hids, List.mem_append]
    exact .inl (h.finishedHeld i hi)
  · intro n
    simp only [Bank.get_set]
    split
    · next e' => subst e'; simp only [List.length_append, List.length_singleton]; omega
    · exact h.queueLength n
  · intro n
    simp only [Bank.get_set]
    split
    · next e' =>
      subst e'
      rw [List.nodup_append]
      refine ⟨h.queueNodup _, by simp, ?_⟩
      rintro a ha b hb rfl
      simp only [List.mem_singleton] at hb
      exact hnq _ (hb ▸ ha)
    · exact h.queueNodup n
  · intro n i hi
    simp only [hids, List.mem_append, List.mem_singleton]
    rcases (hqi n i).1 hi with hi | ⟨-, rfl⟩
    · exact .inl (h.queueHeld n i hi)
    · exact .inr rfl
  · intro n x hx
    rw [hqi]
    rcases hm x hx with rfl | ⟨hx', hne⟩
    · simp [hnq, hs, eq_comm]
    · simp [hne, h.queueIff n x hx']
  · intro n x hx hin
    rcases hm x hx with rfl | ⟨hx', hne⟩
    · exact hs
    · simp only [Bank.get_set] at hin
      split at hin
      · next e' =>
        subst e'
        rcases tail_append_subset _ _ hin with h' | h'
        · exact h.behindHead _ x hx' h'
        · exact absurd h' hne
      · exact h.behindHead n x hx' hin

/-- The head of a queue is a live job of its line, and stands behind no head. -/
theorem head (h : e.Sound) {n : LineNo} {id : Nat} {j : Job} (hq : (e.queues.get n).head? = some id)
    (hj : findJob e.table id = some j) :
    j.id = id ∧ j.line = n ∧ j.state ≠ .finished ∧ ∀ m, id ∉ (e.queues.get m).tail := by
  obtain ⟨hm, rfl⟩ := findJob_mem hj
  have hin : j.id ∈ e.queues.get n := List.mem_of_mem_head? (by simp [hq])
  obtain ⟨h1, h2⟩ := (h.queueIff n j hm).1 hin
  refine ⟨rfl, h1, h2, fun m hm' => ?_⟩
  have := ((h.queueIff m j hm).1 (List.mem_of_mem_tail hm')).1
  rw [h1] at this
  subst this
  exact head_notMem_tail (h.queueNodup _) hq hm'

end JobEngine.Sound

end Sys2Proof.Machine
end

