-- ==== Sys2Proof/Laws/Store.lean ====
section
/-! SUPPORT. The store's invariant under each physical act, replacement, death and rebuild. -/

namespace Sys2Proof.Machine

@[simp] theorem Store.onBlock_map (p : PhysicalNo) (f : PhysBlock → PhysBlock) (st : Store) :
    (st.onBlock p f).map = st.map := rfl
@[simp] theorem Store.onBlock_spares (p : PhysicalNo) (f : PhysBlock → PhysBlock) (st : Store) :
    (st.onBlock p f).spares = st.spares := rfl
@[simp] theorem Store.onBlock_op (p : PhysicalNo) (f : PhysBlock → PhysBlock) (st : Store) :
    (st.onBlock p f).op = st.op := rfl
@[simp] theorem Store.onBlock_st (p : PhysicalNo) (f : PhysBlock → PhysBlock) (st : Store) :
    (st.onBlock p f).st = st.st := rfl
@[simp] theorem Store.onBlock_check (p : PhysicalNo) (f : PhysBlock → PhysBlock) (st : Store) :
    (st.onBlock p f).check = st.check := rfl
@[simp] theorem Store.onBlock_rewriteNow (p : PhysicalNo) (f : PhysBlock → PhysBlock) (st : Store) :
    (st.onBlock p f).rewriteNow = st.rewriteNow := rfl
theorem Store.onBlock_blocks (p q : PhysicalNo) (f : PhysBlock → PhysBlock) (st : Store) :
    (st.onBlock p f).blocks.get q = if p = q then f (st.blocks.get p) else st.blocks.get q := by
  simp [Store.onBlock, Bank.get_set]

@[simp] theorem PhysBlock.erase_role (b : PhysBlock) : b.erase.role = b.role := rfl
@[simp] theorem PhysBlock.program_role (b : LogicalNo) (x : Bank 4 Entry) (k : Bool) (p : PhysBlock) :
    (p.program b x k).role = .logical b := rfl
@[simp] theorem PhysBlock.retire_role (p : PhysBlock) : p.retire.role = .retired := rfl

/-- The map, the spares and the roles decide `Mapped`. -/
theorem Store.Mapped.congr {a b : Store} (h : a.Mapped) (hm : b.map = a.map) (hs : b.spares = a.spares)
    (hr : ∀ p, (a.blocks.get p).role ≠ .retired → (b.blocks.get p).role ≠ .retired) : b.Mapped := by
  constructor
  · rw [hm]; exact h.injective
  · rw [hs]; exact h.sparesNodup
  · rw [hm, hs]; exact h.sparesFree
  · rw [hm]; exact fun x p hp => hr p (h.live x p hp)
  · rw [hs]; exact fun p hp => hr p (h.sparesLive p hp)

/-- A block changed to a role that is not RETIRED, or keeping its role. -/
theorem Store.Mapped.onBlock {st : Store} (h : st.Mapped) (p : PhysicalNo) (f : PhysBlock → PhysBlock)
    (hf : ∀ x : PhysBlock, x.role ≠ .retired → (f x).role ≠ .retired) : (st.onBlock p f).Mapped := by
  refine h.congr rfl rfl fun q hq => ?_
  rw [Store.onBlock_blocks]
  split
  · next e => subst e; exact hf _ hq
  · exact hq

/-- A mapped block retired and its logical block dead (R143, R144). -/
theorem Store.Mapped.retireKill {st : Store} (h : st.Mapped) {b : LogicalNo} {p : PhysicalNo}
    (hp : st.map.get b = some p) : ((st.onBlock p PhysBlock.retire).kill b).Mapped := by
  have hmap : ∀ x q, (st.map.set b none).get x = some q → x ≠ b ∧ st.map.get x = some q := by
    intro x q hx
    rw [Bank.get_set] at hx
    split at hx
    · cases hx
    · next e => exact ⟨fun e' => e e'.symm, hx⟩
  constructor
  · intro x y q hx hy
    exact h.injective x y q (hmap x q hx).2 (hmap y q hy).2
  · exact h.sparesNodup
  · intro x q hq hx
    exact h.sparesFree x q hq (hmap x q hx).2
  · intro x q hx
    obtain ⟨hne, hx⟩ := hmap x q hx
    show ((st.onBlock p PhysBlock.retire).blocks.get q).role ≠ .retired
    rw [Store.onBlock_blocks]
    split
    · next e => subst e; exact absurd (h.injective x b p hx hp) hne
    · exact h.live x q hx
  · intro q hq
    show ((st.onBlock p PhysBlock.retire).blocks.get q).role ≠ .retired
    rw [Store.onBlock_blocks]
    split
    · next e => subst e; exact absurd hp (h.sparesFree b p hq)
    · exact h.sparesLive q hq

/-- A dead logical block mapped to the head spare. -/
theorem Store.Mapped.takeSpare {st : Store} (h : st.Mapped) {b : LogicalNo} {q : PhysicalNo} {rest : List PhysicalNo}
    (hs : st.spares = q :: rest) : (st.takeSpare b q rest).Mapped := by
  have hq : q ∈ st.spares := by simp [hs]
  have hn := h.sparesNodup
  rw [hs, List.nodup_cons] at hn
  have hmap : ∀ x y, (st.map.set b (some q)).get x = some y → (x = b ∧ y = q) ∨ (x ≠ b ∧ st.map.get x = some y) := by
    intro x y hx
    rw [Bank.get_set] at hx
    split at hx
    · next e => simp only [Option.some.injEq] at hx; exact .inl ⟨e.symm, hx.symm⟩
    · next e => exact .inr ⟨fun e' => e e'.symm, hx⟩
  have hrole : ∀ y, ((st.takeSpare b q rest).blocks.get y).role = (st.blocks.get y).role := by
    intro y
    show ((st.blocks.set q (st.blocks.get q).erase).get y).role = _
    rw [Bank.get_set]
    split
    · next e => subst e; rfl
    · rfl
  constructor
  · intro x y z hx hy
    rcases hmap x z hx with ⟨rfl, rfl⟩ | ⟨hx1, hx2⟩ <;> rcases hmap y _ hy with ⟨rfl, e⟩ | ⟨hy1, hy2⟩
    · rfl
    · exact absurd hy2 (h.sparesFree _ _ hq)
    · subst e; exact absurd hx2 (h.sparesFree _ _ hq)
    · exact h.injective x y z hx2 hy2
  · exact hn.2
  · intro x z hz hx
    have hz' : z ∈ rest := hz
    rcases hmap x z hx with ⟨rfl, rfl⟩ | ⟨-, hx2⟩
    · exact hn.1 hz'
    · exact h.sparesFree x z (by simp [hs, hz']) hx2
  · intro x z hx
    rw [hrole]
    rcases hmap x z hx with ⟨rfl, rfl⟩ | ⟨-, hx2⟩
    · exact h.sparesLive _ hq
    · exact h.live x z hx2
  · intro z hz
    have hz' : z ∈ rest := hz
    rw [hrole]
    exact h.sparesLive z (by simp [hs, hz'])

/-- The map rebuilt from the headers agrees with them, whatever stood before (R152). -/
theorem Store.rebuild_mapped (st : Store) : st.rebuild.Mapped := by
  have hm : ∀ b p, st.rebuild.map.get b = some p → (st.blocks.get p).role = .logical b := by
    intro b p h
    have h : (List.finRange 36).find? (st.claims b) = some p := by simpa [Store.rebuild] using h
    have := List.find?_some h
    simpa [Store.claims] using this
  have hsp : ∀ p, p ∈ st.rebuild.spares ↔ (st.blocks.get p).role = .spare := by
    intro p; simp [Store.rebuild, List.mem_finRange]
  constructor
  · intro a b p ha hb
    have := (hm a p ha).symm.trans (hm b p hb)
    simpa using this
  · show ((List.finRange 36).filter fun p => (st.blocks.get p).role == .spare).Nodup
    exact (List.nodup_finRange 36).filter _
  · intro b p hp hb
    have := ((hsp p).1 hp).symm.trans (hm b p hb)
    simp at this
  · intro b p hb
    show (st.blocks.get p).role ≠ .retired
    rw [hm b p hb]; simp
  · intro p hp
    show (st.blocks.get p).role ≠ .retired
    rw [(hsp p).1 hp]; simp

theorem Store.nextMapped_some {st : Store} {k : Nat} {b : LogicalNo} {p : PhysicalNo}
    (h : st.nextMapped k = some (b, p)) : st.map.get b = some p ∧ k ≤ b.val := by
  obtain ⟨x, -, hx⟩ := List.exists_of_findSome?_eq_some h
  split at hx
  · next hk =>
    cases hg : st.map.get x with
    | none => simp [hg] at hx
    | some y =>
      simp only [hg, Option.map_some, Option.some.injEq, Prod.mk.injEq] at hx
      obtain ⟨rfl, rfl⟩ := hx
      exact ⟨hg, hk⟩
  · cases hx

namespace Store.Sound

variable {st : Store}

/-- A RETIRED block is not the one an operation or a rewrite writes. -/
theorem mapped_ne_retired (h : st.Sound) {b : LogicalNo} {p q : PhysicalNo} (hb : st.map.get b = some p)
    (hq : (st.blocks.get q).role = .retired) : q ≠ p := by
  rintro rfl
  exact h.mapped.live b q hb hq

theorem spare_ne_retired (h : st.Mapped) {p q : PhysicalNo} (hp : p ∈ st.spares)
    (hq : (st.blocks.get q).role = .retired) : q ≠ p := by
  rintro rfl
  exact h.sparesLive q hp hq

/-- An operation in flight excludes the start-up check. -/
theorem noCheck (h : st.Sound) (ho : st.op.isSome = true) : st.check = none := by
  cases hc : st.check with
  | none => rfl
  | some c =>
    have h1 := h.checking (by simp [hc])
    have h2 := h.busyIff.2 ho
    rw [h1] at h2; cases h2

theorem noRewrite (h : st.Sound) (ho : st.op.isSome = true) : st.rewriteNow = none := by
  simp [Store.rewriteNow, h.noCheck ho]

/-- Details, the settings block and its condition take no part in the invariant. -/
theorem congr (h : st.Sound) {t : Store} (h1 : t.map = st.map) (h2 : t.spares = st.spares)
    (h3 : ∀ p, (st.blocks.get p).role ≠ .retired → (t.blocks.get p).role ≠ .retired)
    (h4 : t.op = st.op) (h5 : t.check = st.check) (h6 : t.st = st.st) : t.Sound := by
  refine ⟨h.mapped.congr h1 h2 h3, ?_, ?_, ?_, ?_⟩
  · rw [h4, h1]; exact h.opMapped
  · simp only [Store.rewriteNow, h5, h1]; exact h.rewriteMapped
  · rw [h6, h4]; exact h.busyIff
  · rw [h5, h6]; exact h.checking

/-- An operation begun or going on: its target mapped, the store BUSY and no check in progress. -/
theorem ofOp {t : Store} (hm : t.Mapped) (o : OpRecord) (ho : t.op = some o)
    (ht : ∀ b p buf, o.target = .block b p buf → t.map.get b = some p) (hs : t.st = .busy) (hc : t.check = none) :
    t.Sound := by
  refine ⟨hm, ?_, ?_, ?_, ?_⟩
  · intro o' b p buf h' ht'
    rw [ho] at h'
    simp only [Option.some.injEq] at h'
    subst h'
    exact ht b p buf ht'
  · simp [Store.rewriteNow, hc]
  · simp [hs, ho]
  · simp [hc]

/-- No operation in flight and no check in progress. -/
theorem ofReady {t : Store} (hm : t.Mapped) (ho : t.op = none) (hs : t.st ≠ .busy) (hc : t.check = none) :
    t.Sound := by
  refine ⟨hm, ?_, ?_, ?_, ?_⟩
  · simp [ho]
  · simp [Store.rewriteNow, hc]
  · simp [hs, ho]
  · simp [hc]

/-- The check at block `k`, with a rewrite of a mapped block or none. -/
theorem ofCheck {t : Store} (hm : t.Mapped) (ho : t.op = none) (hs : t.st = .checking) (c : Check)
    (hc : t.check = some c) (hr : ∀ r, c.rewrite = some r → t.map.get r.b = some r.p) : t.Sound := by
  refine ⟨hm, ?_, ?_, ?_, ?_⟩
  · simp [ho]
  · intro r h
    simp only [Store.rewriteNow, hc, Option.bind_some] at h
    exact hr r h
  · simp [hs, ho]
  · simp [hs]

end Store.Sound

end Sys2Proof.Machine
end

