-- ==== Sys2Proof/Laws/Evolve.lean ====
section
/-! SUPPORT. What any operation inside a command can do: `Moves` says what it keeps of the queue, the port and the clock
and which invariants it keeps; `Stays` adds that the store stands, `Calm` that the key records' conditions stand too,
`Evolves` that the store's invariant and its retired blocks stay. One lemma for each shared operation. -/

namespace Sys2Proof.Machine

/-- What every operation inside a command keeps. -/
structure Moves (s t : State) : Prop where
  pending : t.pending = s.pending
  held : t.held = s.held
  pins : t.pins = s.pins
  rx : t.link.rx = s.link.rx
  tx : t.link.tx = s.link.tx
  inbound : t.link.inbound = s.link.inbound
  breakSince : t.link.breakSince = s.link.breakSince
  settings : t.link.settings = s.link.settings
  replies : t.link.replies = s.link.replies
  now : s.now ≤ t.now
  driven : s.Driven → t.Driven
  pool : s.pool.Sound → t.pool.Sound
  jobs : s.jobs.Sound → t.jobs.Sound
  noted : s.Noted → t.Noted

/-- A move that leaves the store as it stands. -/
structure Stays (s t : State) : Prop extends Moves s t where
  store : t.store = s.store

/-- What the law of the Key Scanner rests on stands: the records, the deferred list, and each key's condition and debounced
level. -/
structure KeyScanner.Same (a b : KeyScanner) : Prop where
  queue : b.queue = a.queue
  deferred : b.deferred = a.deferred
  key : ∀ k, (b.all.get k).cond = (a.all.get k).cond ∧ (b.all.get k).deb = (a.all.get k).deb

theorem KeyScanner.Same.refl (a : KeyScanner) : a.Same a := ⟨rfl, rfl, fun _ => ⟨rfl, rfl⟩⟩

theorem KeyScanner.Same.trans {a b c : KeyScanner} (h : a.Same b) (k : b.Same c) : a.Same c :=
  ⟨k.queue.trans h.queue, k.deferred.trans h.deferred, fun x =>
    ⟨(k.key x).1.trans (h.key x).1, (k.key x).2.trans (h.key x).2⟩⟩

/-- The record of one key changed in what its condition does not rest on. -/
theorem KeyScanner.Same.ofKey (a : KeyScanner) (k : KeyNo) (x : Key) (h1 : x.cond = (a.all.get k).cond)
    (h2 : x.deb = (a.all.get k).deb) : a.Same { a with all := a.all.set k x } :=
  ⟨rfl, rfl, fun m => by
    simp only [Bank.get_set]
    split
    · next e => subst e; exact ⟨h1, h2⟩
    · exact ⟨rfl, rfl⟩⟩

/-- A move that leaves the store and the key records' conditions as they stand. -/
structure Calm (s t : State) : Prop extends Stays s t where
  keys : s.keys.Same t.keys

/-- A move that keeps the store's invariant, and every RETIRED block RETIRED. -/
structure Evolves (s t : State) : Prop extends Moves s t where
  store : s.store.Sound → t.store.Sound
  retired : s.store.Sound → ∀ p, (s.store.blocks.get p).role = .retired → (t.store.blocks.get p).role = .retired

theorem Moves.refl (s : State) : Moves s s :=
  ⟨rfl, rfl, rfl, rfl, rfl, rfl, rfl, rfl, rfl, Nat.le_refl _, id, id, id, id⟩

theorem Moves.trans {s t u : State} (h : Moves s t) (k : Moves t u) : Moves s u where
  pending := k.pending.trans h.pending
  held := k.held.trans h.held
  pins := k.pins.trans h.pins
  rx := k.rx.trans h.rx
  tx := k.tx.trans h.tx
  inbound := k.inbound.trans h.inbound
  breakSince := k.breakSince.trans h.breakSince
  settings := k.settings.trans h.settings
  replies := k.replies.trans h.replies
  now := h.now.trans k.now
  driven := k.driven ∘ h.driven
  pool := k.pool ∘ h.pool
  jobs := k.jobs ∘ h.jobs
  noted := k.noted ∘ h.noted

theorem Stays.refl (s : State) : Stays s s := ⟨.refl s, rfl⟩

theorem Stays.trans {s t u : State} (h : Stays s t) (k : Stays t u) : Stays s u :=
  ⟨h.toMoves.trans k.toMoves, k.store.trans h.store⟩

theorem Stays.calm {s t u : State} (h : Stays s t) (k : Calm t u) : Stays s u := h.trans k.toStays

theorem Stays.onKeys {s t : State} (h : Stays s t) (f : KeyScanner → KeyScanner) : Stays s (t.onKeys f) :=
  h.trans ⟨⟨rfl, rfl, rfl, rfl, rfl, rfl, rfl, rfl, rfl, Nat.le_refl _, id, id, id, fun k => k.congr (fun _ => rfl) rfl rfl⟩,
    rfl⟩

theorem Stays.onKey {s t : State} (h : Stays s t) (k : KeyNo) (f : Key → Key) : Stays s (t.onKey k f) := h.onKeys _

theorem Stays.eachLine {s t : State} (h : Stays s t) (f : LineNo → State → State) (hf : ∀ n u, Stays u (f n u)) :
    Stays s (t.eachLine f) :=
  h.trans ((((hf 0 t).trans (hf 1 _)).trans (hf 2 _)).trans (hf 3 _))

theorem Stays.evolves {s t : State} (h : Stays s t) : Evolves s t :=
  ⟨h.toMoves, by rw [h.store]; exact id, by rw [h.store]; exact fun _ _ => id⟩

theorem Calm.refl (s : State) : Calm s s := ⟨.refl s, .refl _⟩

theorem Calm.trans {s t u : State} (h : Calm s t) (k : Calm t u) : Calm s u :=
  ⟨h.toStays.trans k.toStays, h.keys.trans k.keys⟩

theorem Calm.evolves {s t : State} (h : Calm s t) : Evolves s t := h.toStays.evolves

theorem Evolves.refl (s : State) : Evolves s s := (Calm.refl s).evolves

theorem Evolves.trans {s t u : State} (h : Evolves s t) (k : Evolves t u) : Evolves s u :=
  ⟨h.toMoves.trans k.toMoves, k.store ∘ h.store, fun hs p hp => k.retired (h.store hs) p (h.retired hs p hp)⟩

theorem Evolves.calm {s t u : State} (h : Evolves s t) (k : Calm t u) : Evolves s u := h.trans k.evolves

/-! ### Primitive updates -/

/-- Only the named fields stand in the invariants: a state that agrees on them moves. -/
theorem Moves.ofFields {s t : State} (h1 : t.pending = s.pending) (h2 : t.held = s.held) (h3 : t.pins = s.pins)
    (hl : t.link = s.link) (hn : s.now ≤ t.now) (hli : t.lines = s.lines) (hp : t.pool = s.pool)
    (hj : t.jobs = s.jobs) (hs : t.events.sources = s.events.sources) (ha : t.events.attn = s.events.attn) :
    Moves s t where
  pending := h1
  held := h2
  pins := h3
  rx := by rw [hl]
  tx := by rw [hl]
  inbound := by rw [hl]
  breakSince := by rw [hl]
  settings := by rw [hl]
  replies := by rw [hl]
  now := hn
  driven := fun h n => by have := h n; simpa [State.line, hli] using this
  pool := by rw [hp]; exact id
  jobs := by rw [hj]; exact id
  noted := fun h => h.congr (fun _ => by rw [hl]) hs ha

namespace Calm

variable {s t : State}

theorem advance (h : Calm s t) (d : Nat) : Calm s (t.advanceTo d) :=
  h.trans ⟨⟨.ofFields rfl rfl rfl rfl (by simp) rfl rfl rfl rfl rfl, rfl⟩, .refl _⟩

theorem putLine (h : Calm s t) (n : LineNo) (l : Line) : Calm s (t.putLine n l) :=
  h.trans
    { pending := rfl, held := rfl, pins := rfl, rx := rfl, tx := rfl, inbound := rfl, breakSince := rfl
      settings := rfl, replies := rfl, now := Nat.le_refl _, pool := id, jobs := id, store := rfl, keys := .refl _
      noted := fun k => k.congr (fun _ => rfl) rfl rfl
      driven := fun k m => by
        rw [State.line_putLine]
        split
        · rfl
        · exact k m }

theorem onLine (h : Calm s t) (n : LineNo) (f : Line → Line) : Calm s (t.onLine n f) := h.putLine n _

theorem onlyNotes {u : State} (h : Calm s t) (k : OnlyNotes t u) (hn : t.Noted → u.Noted) : Calm s u :=
  h.trans
    { pending := k.pending, held := k.held, pins := k.pins, rx := k.rx, tx := k.tx, inbound := k.inbound
      breakSince := k.breakSince, settings := k.settings, replies := k.replies, now := by rw [k.now]
      pool := by rw [k.pool]; exact id
      jobs := by rw [k.jobs]; exact id
      store := k.store, keys := by rw [k.keys]; exact .refl _
      noted := hn
      driven := fun d n => by have := d n; simpa [State.line, k.lines] using this }

theorem latch (h : Calm s t) (src : SourceNo) (f : Flag) : Calm s (t.latch src f) :=
  h.onlyNotes (t.latch_only src f) fun k => k.latch src f

theorem latchLine (h : Calm s t) (n : LineNo) (f : Flag) : Calm s (t.latchLine n f) := h.latch _ f
theorem latchKeys (h : Calm s t) (f : Flag) : Calm s (t.latchKeys f) := h.latch _ f
theorem latchStore (h : Calm s t) (f : Flag) : Calm s (t.latchStore f) := h.latch _ f

theorem onKeys (h : Calm s t) (f : KeyScanner → KeyScanner) (hf : t.keys.Same (f t.keys)) : Calm s (t.onKeys f) :=
  ⟨h.toStays.onKeys f, h.keys.trans hf⟩

/-- A key changed in what its condition does not rest on. -/
theorem onKey (h : Calm s t) (k : KeyNo) (f : Key → Key) (hf : ∀ x, (f x).cond = x.cond ∧ (f x).deb = x.deb) :
    Calm s (t.onKey k f) :=
  h.onKeys _ (.ofKey _ _ _ (hf _).1 (hf _).2)

theorem cadence (h : Calm s t) (b : Bank 8 (Option Template)) : Calm s { t with cadence := b } :=
  h.trans ⟨⟨.ofFields rfl rfl rfl rfl (Nat.le_refl _) rfl rfl rfl rfl rfl, rfl⟩, .refl _⟩

/-- The details of source SYSTEM stand in no invariant. -/
theorem details (h : Calm s t) (e : EventUnit) (hs : e.sources = t.events.sources) (ha : e.attn = t.events.attn) :
    Calm s { t with events := e } :=
  h.trans ⟨⟨.ofFields rfl rfl rfl rfl (Nat.le_refl _) rfl rfl rfl hs ha, rfl⟩, .refl _⟩

theorem onPool (h : Calm s t) (p : Pool) (hp : t.pool.Sound → p.Sound) : Calm s { t with pool := p } :=
  h.trans
    { pending := rfl, held := rfl, pins := rfl, rx := rfl, tx := rfl, inbound := rfl, breakSince := rfl
      settings := rfl, replies := rfl, now := Nat.le_refl _, pool := hp, jobs := id, store := rfl, keys := .refl _
      noted := fun k => k.congr (fun _ => rfl) rfl rfl
      driven := id }

theorem onJobs (h : Calm s t) (f : JobEngine → JobEngine) (hf : t.jobs.Sound → (f t.jobs).Sound) :
    Calm s (t.onJobs f) :=
  h.trans
    { pending := rfl, held := rfl, pins := rfl, rx := rfl, tx := rfl, inbound := rfl, breakSince := rfl
      settings := rfl, replies := rfl, now := Nat.le_refl _, pool := id, jobs := hf, store := rfl, keys := .refl _
      noted := fun k => k.congr (fun _ => rfl) rfl rfl
      driven := id }

theorem eachLine (h : Calm s t) (f : LineNo → State → State) (hf : ∀ n u, Calm u (f n u)) :
    Calm s (t.eachLine f) :=
  h.trans ((((hf 0 t).trans (hf 1 _)).trans (hf 2 _)).trans (hf 3 _))

end Calm

/-! ### The pool (R57 to R63) -/

theorem Pool.Sound.request {p : Pool} (h : p.Sound) (c : Claim) : (p.request c).Sound := by
  unfold Pool.request
  split
  · next h0 =>
    intro hw g
    have := h hw 0
    simp [h0] at this
  · next h0 =>
    split
    · next h1 =>
      intro hw g
      have := h hw 1
      simp [h1] at this
    · next h1 =>
      intro _ g
      match g with
      | 0 => exact Option.isSome_iff_ne_none.2 h0
      | 1 => exact Option.isSome_iff_ne_none.2 h1

theorem Pool.Sound.release {p : Pool} (h : p.Sound) (g : Fin 2) : (p.release g).Sound := by
  unfold Pool.release
  split
  · next hw => intro hw'; exact absurd hw hw'
  · next c rest hw =>
    intro _ k
    simp only [Bank.get_set]
    split
    · rfl
    · exact h (by simp [hw]) k

theorem Pool.Sound.withdraw {p : Pool} (h : p.Sound) (n : LineNo) : (p.withdraw n).Sound := by
  intro hw
  apply h
  rintro e
  apply hw
  simp [Pool.withdraw, e]

theorem Pool.Sound.empty : Pool.empty.Sound := fun h => absurd rfl h

namespace Calm

variable {s t : State}

theorem takeGrant (h : Calm s t) (n : LineNo) : Calm s (t.takeGrant n) := h.onLine n _

theorem requestTone (h : Calm s t) (n : LineNo) (y : Symbol) : Calm s (t.requestTone n y) := by
  simp only [State.requestTone]
  have k := h.onPool (t.pool.request ⟨n, y⟩) fun hp => hp.request _
  split
  · exact k.takeGrant n
  · exact k

theorem releaseTone (h : Calm s t) (n : LineNo) : Calm s (t.releaseTone n) := by
  simp only [State.releaseTone]
  split
  · exact h
  · next g _ =>
    have k := h.onPool (t.pool.release g) fun hp => hp.release _
    split
    · exact k
    · exact k.takeGrant _

theorem withdrawTone (h : Calm s t) (n : LineNo) : Calm s (t.withdrawTone n) :=
  h.onPool (t.pool.withdraw n) fun hp => hp.withdraw _

end Calm

/-! ### What the pool operations leave alone -/

@[simp] theorem State.takeGrant_jobs (n : LineNo) (s : State) : (s.takeGrant n).jobs = s.jobs := rfl
@[simp] theorem State.withdrawTone_jobs (n : LineNo) (s : State) : (s.withdrawTone n).jobs = s.jobs := rfl
@[simp] theorem State.requestTone_jobs (n : LineNo) (y : Symbol) (s : State) :
    (s.requestTone n y).jobs = s.jobs := by
  simp only [State.requestTone]; split <;> rfl
@[simp] theorem State.releaseTone_jobs (n : LineNo) (s : State) : (s.releaseTone n).jobs = s.jobs := by
  simp only [State.releaseTone]; split
  · rfl
  · split <;> rfl
@[simp] theorem State.onLine_jobs (n : LineNo) (f : Line → Line) (s : State) : (s.onLine n f).jobs = s.jobs := rfl
@[simp] theorem State.latchLine_jobs (n : LineNo) (f : Flag) (s : State) : (s.latchLine n f).jobs = s.jobs := by
  simp [State.latchLine]
@[simp] theorem State.enterReleasing_jobs (n : LineNo) (s : State) : (s.enterReleasing n).jobs = s.jobs := by
  simp [State.enterReleasing]

/-- The head job is read from the Job Engine alone. -/
theorem State.headJob_congr {s t : State} (h : t.jobs = s.jobs) (n : LineNo) : t.headJob n = s.headJob n := by
  have : t.job = s.job := funext fun i => by simp [State.job, h]
  simp [State.headJob, State.queue, h, this]

/-! ### Jobs -/

/-- The head job is found under its identifier. -/
theorem State.headJob_some {s : State} {n : LineNo} {j : Job} (h : s.headJob n = some j) :
    (s.jobs.queues.get n).head? = some j.id ∧ findJob s.jobs.table j.id = some j := by
  unfold State.headJob at h
  cases hq : (s.queue n).head? with
  | none => simp [hq] at h
  | some id =>
    simp only [hq, Option.bind_some] at h
    have e := (findJob_mem h).2
    subst e
    exact ⟨hq, h⟩

/-- The head job is live, of its line, and behind no head (R97). -/
theorem State.headJob_sound {s : State} {n : LineNo} {j : Job} (h : s.headJob n = some j) (hs : s.jobs.Sound) :
    j.line = n ∧ j.state ≠ .finished ∧ ∀ m, j.id ∉ (s.jobs.queues.get m).tail :=
  (hs.head (State.headJob_some h).1 (State.headJob_some h).2).2

theorem findJob_update {t : List Job} {id : Nat} {f : Job → Job} {j : Job} (hf : ∀ x, x.id = id → (f x).id = id)
    (h : findJob t id = some j) : findJob (updateJob id f t) id = some (f j) := by
  induction t with
  | nil => cases h
  | cons a r ih =>
    by_cases e : a.id = id
    · have : a = j := by simpa [findJob, e] using h
      subst this
      simp [findJob, updateJob, e, hf a e]
    · have h' : findJob r id = some j := by simpa [findJob, e] using h
      simpa [findJob, updateJob, e] using ih h'

/-- The head job after its record is replaced. -/
theorem State.headJob_onJob {s : State} {n : LineNo} {j : Job} (h : s.headJob n = some j) (f : Job → Job)
    (hf : ∀ x : Job, (f x).id = x.id) : (s.onJob j.id f).headJob n = some (f j) := by
  obtain ⟨h1, h2⟩ := State.headJob_some h
  have h3 : (s.onJob j.id f).job j.id = some (f j) := findJob_update (fun x e => by rw [hf, e]) h2
  have h4 : ((s.onJob j.id f).queue n).head? = some j.id := h1
  simp [State.headJob, h4, h3]

theorem State.headJob_replace {s : State} {n : LineNo} {j j' : Job} (h : s.headJob n = some j) (hi : j'.id = j.id) :
    (s.onJob j.id fun _ => j').headJob n = some j' := by
  obtain ⟨h1, h2⟩ := State.headJob_some h
  have h3 : (s.onJob j.id fun _ => j').job j.id = some j' := findJob_update (fun _ _ => hi) h2
  have h4 : ((s.onJob j.id fun _ => j').queue n).head? = some j.id := h1
  simp [State.headJob, h4, h3]

/-- The record `j` names a live job of its line. -/
def State.Live (s : State) (j : Job) : Prop :=
  s.jobs.Sound → ∃ j0, findJob s.jobs.table j.id = some j0 ∧ j0.line = j.line ∧ j0.state ≠ .finished

theorem State.headJob_live {s : State} {n : LineNo} {j : Job} (h : s.headJob n = some j) : s.Live j :=
  fun hs => ⟨j, (State.headJob_some h).2, rfl, (State.headJob_sound h hs).2.1⟩

namespace Calm

variable {s t : State}

/-- The head job's record replaced by one of the same job. -/
theorem replaceHead (h : Calm s t) {n : LineNo} {j : Job} (hj : t.headJob n = some j) (f : Job → Job)
    (hf : (f j).id = j.id ∧ (f j).line = j.line ∧ ((f j).state = .finished ↔ j.state = .finished)) :
    Calm s (t.onJob j.id f) :=
  h.onJobs _ fun hs => hs.update j.id f fun x hx => by
    have e : x = j := by
      have := (State.headJob_some hj).2
      rw [this] at hx
      simpa using hx.symm
    subst e
    exact ⟨hf.1, hf.2.1, hf.2.2, .inr (State.headJob_sound hj hs).2.2⟩

theorem onActive (h : Calm s t) (n : LineNo) (f : Job → Job)
    (hf : ∀ j : Job, (f j).id = j.id ∧ (f j).line = j.line ∧ (f j).state = j.state) : Calm s (t.onActive n f) := by
  unfold State.onActive
  split
  · next j hj =>
    split
    · exact h.replaceHead hj f ⟨(hf j).1, (hf j).2.1, by rw [(hf j).2.2]⟩
    · exact h
  · exact h

theorem reportPhase (h : Calm s t) (n : LineNo) (p : Phase) : Calm s (t.reportPhase n p) :=
  h.onActive n _ fun _ => ⟨rfl, rfl, rfl⟩

theorem setRetry (h : Calm s t) (n : LineNo) (r : RetryTimer) : Calm s (t.setRetry n r) :=
  h.onJobs _ fun hs => hs.withRetry _

theorem startRetry (h : Calm s t) (n : LineNo) : Calm s (t.startRetry n) := h.setRetry n _

theorem tellScanner (h : Calm s t) (j : Job) : Calm s (t.tellScanner j) := by
  unfold State.tellScanner
  split
  · exact h
  · refine h.onKeys (fun ks => { ks with all := _ }) (.ofKey _ _ _ ?_ ?_)
    all_goals unfold Key.jobFinished; split <;> rfl

theorem finishJob (h : Calm s t) {j : Job} (hj : t.Live j) (o : JobOutcome) (c : Cause) :
    Calm s (t.finishJob j o c) := by
  have k := h.onJobs
    (fun e =>
      { e with
        table := updateJob j.id (fun _ => j.finish o c) e.table
        queues := e.queues.set j.line ((e.queues.get j.line).erase j.id)
        finished := e.finished ++ [j.id]
        retry := if j.state = .retryWait then e.retry.set j.line .stopped else e.retry })
    (fun hs => by
      obtain ⟨j0, h1, h2, h3⟩ := hj hs
      exact hs.finish (j := j.finish o c) _ h1 h2.symm rfl h3)
  exact ((k.onLine j.line fun l => { l with lastJob := some (j.id, o, c) }).latchLine j.line .jobEnd).tellScanner j

theorem takeCourse (h : Calm s t) {n : LineNo} {j : Job} (hj : t.headJob n = some j) (c : Cause) :
    Calm s (t.takeCourse j c) := by
  have live := fun hs => (State.headJob_sound hj hs).2.1
  unfold State.takeCourse
  split
  · refine Calm.startRetry (h.onJobs _ fun hs => hs.update j.id Job.retryHop fun x hx => ?_) _
    have e : x = j := by have := (State.headJob_some hj).2; rw [this] at hx; simpa using hx.symm
    subst e
    exact ⟨rfl, rfl, by simp [Job.retryHop, live hs], .inr (State.headJob_sound hj hs).2.2⟩
  · next i _ =>
    refine Calm.startRetry (h.onJobs _ fun hs => hs.update j.id (Job.newHop i) fun x hx => ?_) _
    have e : x = j := by have := (State.headJob_some hj).2; rw [this] at hx; simpa using hx.symm
    subst e
    exact ⟨rfl, rfl, by simp [Job.newHop, live hs], .inr (State.headJob_sound hj hs).2.2⟩
  · exact h.finishJob (State.headJob_live hj) _ _

theorem attemptFailed (h : Calm s t) (n : LineNo) (c : Cause) : Calm s (t.attemptFailed n c) := by
  simp only [State.attemptFailed]
  split
  · exact h
  · next j hj =>
    have k := ((h.replaceHead hj (fun _ => j.failed c) ⟨rfl, rfl, Iff.rfl⟩).onLine n
      fun l => { l with lastCause := some c }).latchLine n .attemptFail
    refine k.takeCourse (n := n) ?_ c
    exact (State.headJob_congr (by simp) n).trans (State.headJob_replace hj rfl)

theorem finishHead (h : Calm s t) (n : LineNo) (o : JobOutcome) (c : Cause) : Calm s (t.finishHead n o c) := by
  unfold State.finishHead
  split
  · exact h
  · next j hj => exact h.finishJob (State.headJob_live hj) _ _

end Calm

/-! ### Resolution (R106 to R109) -/

/-- A resolution is of the job it was made from. -/
def Resolution.Of (j : Job) : Resolution → Prop
  | .resolved x => x.id = j.id ∧ x.line = j.line ∧ x.state = j.state
  | .failed x _ => x.id = j.id ∧ x.line = j.line ∧ x.state = j.state

theorem Job.resolveInline_of (p : Profile) (j : Job) : (j.resolveInline p).Of j := by
  simp only [Job.resolveInline]
  split <;> exact ⟨rfl, rfl, rfl⟩

theorem Job.resolveEntry_of (p : Profile) (dead : Bool) (i : EntryNo) (e : Entry) (j : Job) :
    (j.resolveEntry p dead i e).Of j := by
  simp only [Job.resolveEntry]
  split
  · exact ⟨rfl, rfl, rfl⟩
  · split
    · exact ⟨rfl, rfl, rfl⟩
    · split <;> exact ⟨rfl, rfl, rfl⟩

namespace Calm

variable {s t : State}

theorem takeResolution (h : Calm s t) {n : LineNo} {j : Job} (hj : t.headJob n = some j) {r : Resolution}
    (hr : r.Of j) : Calm s (t.takeResolution r) := by
  unfold State.takeResolution
  split
  · next x =>
    have hr : x.id = j.id ∧ x.line = j.line ∧ x.state = j.state := hr
    rw [hr.1]
    exact h.replaceHead hj (fun _ => x) ⟨hr.1, hr.2.1, by rw [hr.2.2]⟩
  · next x c =>
    have hr : x.id = j.id ∧ x.line = j.line ∧ x.state = j.state := hr
    rw [hr.1]
    refine (h.replaceHead hj (fun _ => x) ⟨hr.1, hr.2.1, by rw [hr.2.2]⟩).finishJob (j := x) ?_ _ _
    exact State.headJob_live (State.headJob_replace hj hr.1)

theorem resolve (h : Calm s t) {n : LineNo} {j : Job} (hj : t.headJob n = some j) : Calm s (t.resolve j) := by
  unfold State.resolve
  split
  · exact h.takeResolution hj (j.resolveInline_of _)
  · split
    · exact h
    · exact h.takeResolution hj (j.resolveEntry_of _ _ _ _)

theorem resolveWaiting (h : Calm s t) (n : LineNo) : Calm s (t.resolveWaiting n) := by
  unfold State.resolveWaiting
  split
  · exact h
  · next j hj =>
    split
    · exact h.resolve hj
    · exact h

theorem startHead (h : Calm s t) (n : LineNo) : Calm s (t.startHead n) := by
  simp only [State.startHead]
  split
  · exact h
  · next j hj =>
    have k : Calm s ((t.onJob j.id fun _ => { j with state := .active, phase := some .resolve }).setRetry n .stopped) := by
      refine Calm.setRetry (h.onJobs _ fun hs => hs.update j.id _ fun x hx => ?_) n _
      have e : x = j := by have := (State.headJob_some hj).2; rw [this] at hx; simpa using hx.symm
      subst e
      exact ⟨rfl, rfl, by simp [(State.headJob_sound hj hs).2.1], .inr (State.headJob_sound hj hs).2.2⟩
    split
    · exact k
    · refine k.resolve (n := n) ?_
      have e := State.headJob_replace (j' := { j with state := .active, phase := some .resolve }) hj rfl
      exact e

/-! ### Submission and eviction (R99 to R103) -/

theorem evict (h : Calm s t) : Calm s t.evict := by
  simp only [State.evict]
  split
  · exact h
  · next id rest hf =>
    have k := h.onJobs (fun e => { e with table := e.table.filter fun j => j.id != id, finished := rest }) fun hs =>
      hs.remove (by simp [hf]) (by simp [hf])
    refine Calm.latch ?_ _ _
    refine k.details _ ?_ ?_ <;> rfl

theorem freeSlot (h : Calm s t) : Calm s t.freeSlot := by
  unfold State.freeSlot
  split
  · exact h.evict
  · exact h

end Calm

/-- A slot is free once the submission has its checks behind it (R101, R102). -/
theorem State.freeSlot_room {s : State} (hs : s.jobs.Sound)
    (hf : ¬ (24 ≤ s.jobs.table.length ∧ s.jobs.finished = [])) : s.freeSlot.jobs.table.length < 24 := by
  unfold State.freeSlot
  split
  · next h24 =>
    simp only [State.evict]
    split
    · next hnil => exact absurd ⟨h24, hnil⟩ hf
    · next id rest hfin =>
      obtain ⟨j, hj, e⟩ := mem_ids.1 (hs.finishedHeld id (by simp [hfin]))
      have hlt : (s.jobs.table.filter fun j => j.id != id).length < s.jobs.table.length :=
        List.length_filter_lt_length_iff_exists.2 ⟨j, hj, by simp [e]⟩
      have := hs.room
      simp only [State.latch_jobs, State.onJobs_jobs]
      omega
  · omega

@[simp] theorem State.evict_queues (s : State) : s.evict.jobs.queues = s.jobs.queues := by
  simp only [State.evict]
  split <;> simp

@[simp] theorem State.freeSlot_queues (s : State) : s.freeSlot.jobs.queues = s.jobs.queues := by
  unfold State.freeSlot
  split <;> simp

namespace Calm

variable {s t : State}

theorem acceptJob (h : Calm s t) (b : Submission) (hb : t.submitFailure b = none) : Calm s (t.acceptJob b) := by
  have k := (Calm.refl t).freeSlot
  have hq : (t.jobs.queues.get b.line).length < 8 := by
    unfold State.submitFailure at hb
    split at hb
    · cases hb
    · split at hb
      · cases hb
      · next hq => exact Nat.lt_of_not_le hq
  have hf : ¬ (24 ≤ t.jobs.table.length ∧ t.jobs.finished = []) := by
    unfold State.submitFailure at hb
    split at hb
    · cases hb
    · split at hb
      · cases hb
      · split at hb
        · cases hb
        · assumption
  refine h.trans ?_
  have mv : Calm t (t.freeSlot.onJobs fun e =>
      { e with
        table := e.table ++ [b.record t.freeSlot.jobs.nextId]
        queues := e.queues.set b.line (e.queues.get b.line ++ [t.freeSlot.jobs.nextId])
        lastId := t.freeSlot.jobs.nextId }) := by
    have base := k
    refine ⟨⟨⟨base.pending, base.held, base.pins, base.rx, base.tx, base.inbound, base.breakSince, base.settings,
      base.replies, base.now, base.driven, base.pool, fun hs => ?_, fun hn => ?_⟩, base.store⟩, base.keys⟩
    · have hroom := State.freeSlot_room hs hf
      have hs' := base.jobs hs
      exact hs'.accept (j := b.record t.freeSlot.jobs.nextId) hroom (by simpa [Submission.record] using hq) rfl
        (JobEngine.nextId_free _ (by omega)) (JobEngine.nextId_range _)
    · exact (base.noted hn).congr (fun _ => rfl) rfl rfl
  exact mv

theorem collect (h : Calm s t) {id : Nat} {j : Job} (hj : t.job id = some j) (hf : j.state = .finished) :
    Calm s (t.collect j) :=
  h.onJobs (fun e => { e with table := e.table.filter fun x => x.id != j.id, finished := e.finished.erase j.id })
    fun hs => hs.remove ((hs.finishedIff j (findJob_mem hj).1).2 hf) rfl

end Calm

end Sys2Proof.Machine
end

