-- ==== Sys2Proof/Laws/LineOps.lean ====
section
/-! SUPPORT. Every operation of the Line Controllers and the classifiers is calm: what it keeps, and that the store and the
key records' conditions stand. The operations of the Key Scanner leave the store as it stands. -/

namespace Sys2Proof.Machine

namespace Calm

variable {s t : State}

/-! ### Line Controllers (Machine/LineOps.lean) -/

theorem enterReleasing (h : Calm s t) (n : LineNo) : Calm s (t.enterReleasing n) :=
  ((h.onLine n _).withdrawTone n).releaseTone n

theorem failAttempt (h : Calm s t) (n : LineNo) (c : Cause) : Calm s (t.failAttempt n c) :=
  (h.enterReleasing n).attemptFailed n c

theorem endCall (h : Calm s t) (n : LineNo) (o : JobOutcome) (c : Cause) : Calm s (t.endCall n o c) :=
  (h.enterReleasing n).finishHead n o c

theorem loopLost (h : Calm s t) (n : LineNo) : Calm s (t.loopLost n) := by
  simp only [State.loopLost]
  split
  · exact h.failAttempt n _
  · exact h.failAttempt n _
  · split
    · exact h.endCall n _ _
    · exact h.failAttempt n _
  · exact h.endCall n _ _
  · exact h.endCall n _ _
  all_goals exact h

theorem release (h : Calm s t) (n : LineNo) {u : State} (hu : t.release n = some u) : Calm s u := by
  simp only [State.release] at hu
  split at hu <;> first | (cases hu; exact h.endCall n _ _) | cases hu

/-- A job named by an identifier, not FINISHED, is live. -/
theorem live_of_job {t : State} {id : Nat} {j : Job} (hj : t.job id = some j) (hf : j.state ≠ .finished) : t.Live j :=
  fun _ => by
    have e := (findJob_mem hj).2
    subst e
    exact ⟨j, hj, rfl, hf⟩

theorem cancelJob (h : Calm s t) {id : Nat} {j : Job} (hj : t.job id = some j) (hf : j.state ≠ .finished) :
    Calm s (t.cancelJob j) := by
  unfold State.cancelJob
  split
  · exact h.endCall _ _ _
  · exact h.finishJob (live_of_job hj hf) _ _

theorem cancelHead (h : Calm s t) {n : LineNo} {j : Job} (hj : t.headJob n = some j) : Calm s (t.cancelJob j) := by
  unfold State.cancelJob
  split
  · exact h.endCall _ _ _
  · exact h.finishJob (State.headJob_live hj) _ _

theorem enterConnected (h : Calm s t) (n : LineNo) : Calm s (t.enterConnected n) := (h.onLine n _).reportPhase n _

theorem connect (h : Calm s t) (n : LineNo) : Calm s (t.connect n) :=
  (h.enterConnected n).onActive n _ fun _ => ⟨rfl, rfl, rfl⟩

theorem enterAwaitProgress (h : Calm s t) (n : LineNo) : Calm s (t.enterAwaitProgress n) :=
  (h.onLine n _).reportPhase n _

theorem endProgram (h : Calm s t) (n : LineNo) : Calm s (t.endProgram n) := by
  simp only [State.endProgram]
  split
  · exact h.enterConnected n
  · split
    · exact h.enterAwaitProgress n
    · exact h.connect n

theorem dispatch (h : Calm s t) (n : LineNo) (y : Symbol) : Calm s (t.dispatch n y) := by
  simp only [State.dispatch]
  split
  · exact h.onLine n _
  · exact h.onLine n _
  · exact h.onLine n _
  · exact h.onLine n _
  · exact (h.onLine n _).requestTone n _

theorem beginSymbol (h : Calm s t) (n : LineNo) : Calm s (t.beginSymbol n) := by
  simp only [State.beginSymbol]
  split
  · exact h.endProgram n
  · exact h.dispatch n _

theorem endSymbol (h : Calm s t) (n : LineNo) : Calm s (t.endSymbol n) := (h.onLine n _).beginSymbol n

theorem countSymbol (h : Calm s t) (n : LineNo) : Calm s (t.countSymbol n) := by
  unfold State.countSymbol
  split
  · exact h.onActive n _ fun _ => ⟨rfl, rfl, rfl⟩
  · exact h

theorem enterDialing (h : Calm s t) (n : LineNo) : Calm s (t.enterDialing n) := by
  simp only [State.enterDialing]
  split
  · exact ((h.onLine n _).reportPhase n _).beginSymbol n
  · exact h.endProgram n

theorem enterAwaitDialtone (h : Calm s t) (n : LineNo) : Calm s (t.enterAwaitDialtone n) :=
  (h.onLine n _).reportPhase n _

theorem loopSeized (h : Calm s t) (n : LineNo) : Calm s (t.loopSeized n) := by
  simp only [State.loopSeized]
  split
  · exact (h.onLine n _).enterAwaitDialtone n
  · split
    · exact (h.onLine n _).enterDialing n
    · exact (h.onLine n _).onLine n _

theorem dialtoneServed (h : Calm s t) (n : LineNo) : Calm s (t.dialtoneServed n) := by
  simp only [State.dialtoneServed]
  refine Calm.enterDialing ?_ n
  split
  · refine Calm.onActive (h.onLine n _) n _ ?_
    exact fun _ => ⟨rfl, rfl, rfl⟩
  · exact h.onLine n _

theorem waitToneServed (h : Calm s t) (n : LineNo) : Calm s (t.waitToneServed n) :=
  ((h.onLine n _).countSymbol n).endSymbol n

theorem takeStart (h : Calm s t) (n : LineNo) (j : Job) : Calm s (t.takeStart n j) := by
  simp only [State.takeStart]
  split
  · split
    · exact (((h.latchLine n _).onLine n _).reportPhase n _).loopSeized n
    · exact ((h.latchLine n _).onLine n _).reportPhase n _
  · split
    · exact ((h.onLine n _).reportPhase n _).loopSeized n
    · exact (h.onLine n _).reportPhase n _

theorem startSend (h : Calm s t) (n : LineNo) (p : List Symbol) : Calm s (t.startSend n p) :=
  ((h.onLine n _).reportPhase n _).beginSymbol n

theorem startManual (h : Calm s t) (n : LineNo) (k : KeyNo) (y : Symbol) : Calm s (t.startManual n k y) :=
  (h.onLine n _).requestTone n y

theorem endManual (h : Calm s t) (n : LineNo) : Calm s (t.endManual n) :=
  ((h.onLine n _).withdrawTone n).releaseTone n

theorem digitPress (h : Calm s t) (n : LineNo) (k : KeyNo) (y : Symbol) : Calm s (t.digitPress n k y) := by
  simp only [State.digitPress]
  split
  · split
    · exact h.startManual n k y
    · split
      · exact h.startSend n _
      · exact h
  · exact h

theorem manualUp (h : Calm s t) (k : KeyNo) (n : LineNo) : Calm s (t.manualUp k n) := by
  simp only [State.manualUp]
  split
  · split
    · exact h
    · exact h.endManual n
    · split
      · exact h.endManual n
      · exact h.onLine n _
  · exact h

theorem answer (h : Calm s t) (n : LineNo) (b : Basis) : Calm s (t.answer n b) := (h.onLine n _).connect n

theorem classAction (h : Calm s t) (n : LineNo) (c : ToneClass) : Calm s (t.classAction n c) := by
  simp only [State.classAction]
  split
  · exact h.dialtoneServed n
  · split
    · exact h.waitToneServed n
    · exact h
  all_goals first | exact h.failAttempt n _ | exact h.endCall n _ _ | exact h

theorem confirm (h : Calm s t) (n : LineNo) (c : ToneClass) (k : SlotNo) : Calm s (t.confirm n c k) := by
  simp only [State.confirm]
  split
  · exact h
  · refine Calm.classAction (Calm.onActive ((h.onLine n _).latchLine n _) n _ ?_) n c
    exact fun _ => ⟨rfl, rfl, rfl⟩

/-! ### Progress Classifiers (Machine/Classifier.lean) -/

theorem confirmSlot (h : Calm s t) (n : LineNo) (k : SlotNo) : Calm s (t.confirmSlot n k) := by
  unfold State.confirmSlot
  split
  · exact h
  · exact h.confirm n _ k

theorem takePair (h : Calm s t) (n : LineNo) (on off : Nat) : Calm s (t.takePair n on off) := by
  simp only [State.takePair]
  split
  · exact (h.onLine n _).confirmSlot n _
  · split
    · exact (h.onLine n _).answer n _
    · exact h.onLine n _

theorem sessionChange (h : Calm s t) (n : LineNo) (i : Interval) (e : Nat) : Calm s (t.sessionChange n i e) := by
  simp only [State.sessionChange]
  split
  · exact h.onLine n _
  · split
    · exact h.onLine n _
    · exact (h.onLine n _).takePair n _ _

theorem filteredChange (h : Calm s t) (n : LineNo) (e : Nat) : Calm s (t.filteredChange n e) := by
  simp only [State.filteredChange]
  split
  · exact ((h.advance _).onLine n _).sessionChange n _ _
  · exact (h.advance _).onLine n _

theorem confirmSteady (h : Calm s t) (n : LineNo) (p : Nat → Bool) : Calm s (t.confirmSteady n p) := by
  simp only [State.confirmSteady]
  split
  · exact h.onLine n _
  · exact (h.onLine n _).confirmSlot n _

theorem retestSteady (h : Calm s t) (n : LineNo) : Calm s (t.retestSteady n) := by
  simp only [State.retestSteady]
  split
  · exact h
  · exact h.confirmSteady n _

theorem tableChangeAt (h : Calm s t) (n : LineNo) : Calm s (t.tableChangeAt n) := by
  unfold State.tableChangeAt
  split
  · exact (h.onLine n _).retestSteady n
  · exact h

theorem writeSlot (h : Calm s t) (k : SlotNo) (x : Option Template) : Calm s (t.writeSlot k x) :=
  (h.cadence _).eachLine _ fun n u => (Calm.refl u).tableChangeAt n

/-! ### Key Scanner (Machine/KeyOps.lean) -/

theorem submitFailed (h : Calm s t) (k : KeyNo) (n : LineNo) (e : EntryNo) (c : SubmitFail) :
    Calm s (t.submitFailed k n e c) := (h.onKeys _ ⟨rfl, rfl, fun _ => ⟨rfl, rfl⟩⟩).latchKeys _

theorem answered (h : Calm s t) (k : KeyNo) (live : LiveJob) : Calm s (t.onKey k (Key.answered live)) :=
  h.onKey k _ fun x => by unfold Key.answered; split <;> exact ⟨rfl, rfl⟩

theorem takeHandover (h : Calm s t) (x : Handed) : Calm s (t.takeHandover x) := by
  simp only [State.takeHandover]
  split
  · exact (h.answered _ _).submitFailed _ _ _ _
  · next hb => exact (h.acceptJob _ hb).answered _ _

theorem handOver (h : Calm s t) (x : Handed) : Calm s (t.handOver x) := by
  unfold State.handOver
  split
  · exact h.takeHandover x
  · next rest _ =>
    have k := h.onKeys (fun ks => { ks with turns := rest }) ⟨rfl, rfl, fun _ => ⟨rfl, rfl⟩⟩
    exact k.takeHandover x
  · next rest _ =>
    exact h.onKeys (fun ks => { ks with turns := rest, handed := ks.handed ++ [x] }) ⟨rfl, rfl, fun _ => ⟨rfl, rfl⟩⟩

theorem takeHandovers (h : Calm s t) : Calm s t.takeHandovers := by
  unfold State.takeHandovers
  split
  · exact h
  · next rest _ =>
    have k := h.onKeys (fun ks => { ks with handed := rest }) ⟨rfl, rfl, fun _ => ⟨rfl, rfl⟩⟩
    exact k.takeHandover _

theorem jobPress (h : Calm s t) (k : KeyNo) (n : LineNo) (e : EntryNo) : Calm s (t.jobPress k n e) := by
  unfold State.jobPress
  split
  · exact h.submitFailed k n e _
  · have k' := h.onKey k (fun key => { key with live := .pending }) fun _ => ⟨rfl, rfl⟩
    exact k'.handOver _

theorem releasePress (h : Calm s t) (n : LineNo) : Calm s (t.releasePress n) := by
  unfold State.releasePress
  cases hr : t.release n with
  | none => exact h
  | some u => exact h.release n hr

theorem cancelPress (h : Calm s t) (n : LineNo) : Calm s (t.cancelPress n) := by
  unfold State.cancelPress
  split
  · exact h
  · next hj => exact h.cancelHead hj

theorem carryOut (h : Calm s t) (k : KeyNo) (b : Binding) : Calm s (t.carryOut k b) := by
  unfold State.carryOut
  split
  · exact h
  · exact h.jobPress k _ _
  · exact h.releasePress _
  · exact h.cancelPress _
  · exact h.digitPress _ k _

end Calm

namespace Stays

variable {s t : State}

theorem latchKeys (h : Stays s t) (f : Flag) : Stays s (t.latchKeys f) := h.calm ((Calm.refl t).latchKeys f)

theorem offerRecord (h : Stays s t) (k : KeyNo) (down : Bool) : Stays s (t.offerRecord k down) := by
  unfold State.offerRecord
  split
  · exact (h.onKeys _).latchKeys _
  · exact h.latchKeys _

theorem takeDown (h : Stays s t) (k : KeyNo) : Stays s (t.takeDown k) :=
  ((h.onKey k _).offerRecord k true).calm ((Calm.refl _).carryOut k _)

theorem takeUp (h : Stays s t) (k : KeyNo) : Stays s (t.takeUp k) :=
  ((h.onKey k _).offerRecord k false).eachLine _ fun n u => ((Calm.refl u).manualUp k n).toStays

theorem takeDeferred (fuel : Nat) (h : Stays s t) : Stays s (t.takeDeferred fuel) := by
  induction fuel generalizing t with
  | zero => exact h
  | succ f ih =>
    unfold State.takeDeferred
    split
    · exact h
    · split
      · exact ih ((h.onKeys _).takeDown _)
      · exact h

theorem afterUp (h : Stays s t) (k : KeyNo) : Stays s (t.afterUp k) := by
  unfold State.afterUp
  split
  · exact h.takeDeferred 3
  · exact h

theorem deferKey (h : Stays s t) (k : KeyNo) : Stays s (t.deferKey k) :=
  ((h.onKey k _).onKeys _).latchKeys _

theorem wentDown (h : Stays s t) (k : KeyNo) : Stays s (t.wentDown k) := by
  unfold State.wentDown
  split
  · split
    · exact h.deferKey k
    · exact h.takeDown k
  all_goals exact h

theorem wentUp (h : Stays s t) (k : KeyNo) : Stays s (t.wentUp k) := by
  unfold State.wentUp
  split
  · exact h
  · exact (h.takeUp k).afterUp k
  · exact (h.onKey k _).onKeys _
  · exact (h.onKey k _).afterUp k

theorem debouncedChange (h : Stays s t) (k : KeyNo) : Stays s (t.debouncedChange k) := by
  simp only [State.debouncedChange]
  split
  · exact h.onKey k _
  · split
    · exact (h.onKey k _).wentDown k
    · exact (h.onKey k _).wentUp k

theorem relevel (h : Stays s t) (e : Fin 4) (level : Bool) : Stays s (t.relevel e level) := by
  simp only [State.relevel]
  split
  · exact h
  · split
    · exact ((h.onKeys _).onKey _ _).onKey _ _
    · exact ((h.onKeys _).onKey _ _).onKey _ _
    · exact ((h.onKeys _).onKey _ _).takeUp _
    · exact (h.onKeys _).onKey _ _

theorem expireKeys (h : Stays s t) : Stays s t.expireKeys := by
  unfold State.expireKeys
  induction List.finRange 20 generalizing t with
  | nil => exact h
  | cons k ks ih =>
    refine ih ?_
    unfold State.expireKey
    split
    · exact h.debouncedChange k
    · exact h

end Stays

end Sys2Proof.Machine
end

