-- ==== Sys2Proof/Laws/StoreOps.lean ====
section
/-! SUPPORT. What the operations of the Directory Store keep: its invariant, and every RETIRED block RETIRED. -/

namespace Sys2Proof.Machine

theorem Moves.onStore {s t : State} (h : Moves s t) (f : Store → Store) : Moves s (t.onStore f) :=
  h.trans (.ofFields rfl rfl rfl rfl (Nat.le_refl _) rfl rfl rfl rfl rfl)

theorem Moves.calm {s t u : State} (h : Moves s t) (k : Calm t u) : Moves s u := h.trans k.toMoves

theorem Moves.draw {s t : State} (h : Moves s t) (f : Nat → Bool) : Moves s (t.draw f).2 :=
  h.trans (.ofFields rfl rfl rfl rfl (Nat.le_refl _) rfl rfl rfl rfl rfl)

/-- Every block RETIRED in `a` is RETIRED in `b`. -/
def Store.KeepsRetired (a b : Store) : Prop :=
  ∀ p, (a.blocks.get p).role = .retired → (b.blocks.get p).role = .retired

theorem Store.KeepsRetired.refl (a : Store) : a.KeepsRetired a := fun _ => id

theorem Store.KeepsRetired.trans {a b c : Store} (h : a.KeepsRetired b) (k : b.KeepsRetired c) : a.KeepsRetired c :=
  fun p hp => k p (h p hp)

theorem Store.KeepsRetired.ofBlocks {a b : Store} (h : b.blocks = a.blocks) : a.KeepsRetired b := by
  intro p hp; rw [h]; exact hp

/-- A block change that keeps the role keeps the RETIRED ones. -/
theorem Store.KeepsRetired.onBlock (st : Store) (p : PhysicalNo) (f : PhysBlock → PhysBlock)
    (hf : (st.blocks.get p).role = .retired → (f (st.blocks.get p)).role = .retired) :
    st.KeepsRetired (st.onBlock p f) := by
  intro q hq
  rw [Store.onBlock_blocks]
  split
  · next e => subst e; exact hf hq
  · exact hq

/-- `s` becomes `t`, its store sound and its RETIRED blocks kept. -/
theorem Evolves.ofMoves {s t : State} (h : Moves s t) (hs : s.store.Sound → t.store.Sound)
    (hr : s.store.Sound → s.store.KeepsRetired t.store) : Evolves s t := ⟨h, hs, fun k p => hr k p⟩

/-- A store whose map agrees with its headers, working on an operation. -/
structure Store.Working (st : Store) : Prop where
  mapped : st.Mapped
  noCheck : st.check = none
  busy : st.st = .busy

theorem Store.Sound.working {st : Store} (h : st.Sound) (ho : st.op.isSome = true) : st.Working :=
  ⟨h.mapped, h.noCheck ho, h.busyIff.2 ho⟩

theorem Store.Working.onBlock {st : Store} (h : st.Working) (p : PhysicalNo) (f : PhysBlock → PhysBlock)
    (hf : ∀ x : PhysBlock, x.role ≠ .retired → (f x).role ≠ .retired) : (st.onBlock p f).Working :=
  ⟨h.mapped.onBlock p f hf, h.noCheck, h.busy⟩

/-! ### Completion, format, death -/

theorem State.completeOp_moves (op : OpRecord) (r : OpResult) (s : State) : Moves s (s.completeOp op r) := by
  refine Moves.calm ?_ ((Calm.refl _).eachLine _ fun n u => (Calm.refl u).resolveWaiting n)
  exact (((Moves.refl s).onStore _).calm ((Calm.refl _).latchStore _)).onStore _

theorem State.completeOp_store (op : OpRecord) (r : OpResult) (s : State) :
    (s.completeOp op r).store = { s.store with lastOp := some (op.kind, op.index, r), op := none, st := .ready } := by
  simp only [State.completeOp]
  rw [((Calm.refl _).eachLine _ fun n u => (Calm.refl u).resolveWaiting n).store]
  simp [State.latchStore]

/-- What a working store becomes: sound, the RETIRED blocks kept. -/
structure Settles (s t : State) : Prop where
  moves : Moves s t
  sound : s.store.Working → t.store.Sound
  retired : s.store.KeepsRetired t.store

theorem Settles.completeOp (op : OpRecord) (r : OpResult) (s : State) : Settles s (s.completeOp op r) := by
  refine ⟨s.completeOp_moves op r, fun h => ?_, ?_⟩
  · rw [State.completeOp_store]
    exact .ofReady (h.mapped.congr rfl rfl fun _ => id) rfl (by simp) h.noCheck
  · rw [State.completeOp_store]
    exact .ofBlocks rfl

theorem Settles.formatFrom (op : OpRecord) (k : Nat) (s : State) : Settles s (s.formatFrom op k) := by
  unfold State.formatFrom
  split
  · exact .completeOp op _ s
  · next b p hb =>
    refine ⟨(Moves.refl s).onStore _, fun h => ?_, ?_⟩
    · refine .ofOp ?_ (op.eraseAt (.block b p blankSlots) s.now) rfl ?_ h.busy h.noCheck
      · exact (h.mapped.onBlock p PhysBlock.erase fun _ => id).congr rfl rfl fun _ => id
      · intro b' p' buf e
        simp only [OpRecord.eraseAt, OpTarget.block.injEq] at e
        obtain ⟨rfl, rfl, -⟩ := e
        exact (Store.nextMapped_some hb).1
    · exact (Store.KeepsRetired.onBlock s.store p PhysBlock.erase id).trans (.ofBlocks rfl)

theorem Settles.blockDone (op : OpRecord) (b : LogicalNo) (s : State) : Settles s (s.blockDone op b) := by
  unfold State.blockDone
  split
  · exact .formatFrom _ _ s
  · exact .completeOp _ _ s

theorem Settles.blockWorn (op : OpRecord) (b : LogicalNo) (s : State) : Settles s (s.blockWorn op b) := by
  unfold State.blockWorn
  split
  · exact .formatFrom _ _ s
  · exact .completeOp _ _ s

/-! ### Replacement (R143, R144) -/

theorem State.retireBlock_moves (p : PhysicalNo) (s : State) : Moves s (s.retireBlock p) :=
  ((Moves.refl s).onStore _).calm ((Calm.refl _).latchStore _)

theorem State.retireBlock_store (p : PhysicalNo) (s : State) :
    (s.retireBlock p).store = { s.store.onBlock p PhysBlock.retire with lastRetired := some p } := by
  simp [State.retireBlock, State.latchStore]

theorem Store.retireBlock_kept (p : PhysicalNo) (st : Store) :
    st.KeepsRetired ({ st.onBlock p PhysBlock.retire with lastRetired := some p } : Store) :=
  (Store.KeepsRetired.onBlock st p PhysBlock.retire fun _ => rfl).trans (.ofBlocks rfl)

/-- A mapped block retired and its logical block moved to the head spare (R143). -/
theorem Store.Mapped.replace {st : Store} (h : st.Mapped) {b : LogicalNo} {p q : PhysicalNo} {rest : List PhysicalNo}
    (hp : st.map.get b = some p) (hs : st.spares = q :: rest) :
    (({ st.onBlock p PhysBlock.retire with lastRetired := some p } : Store).takeSpare b q rest).Mapped := by
  have k := (h.retireKill hp).takeSpare (b := b) (q := q) (rest := rest) hs
  refine k.congr ?_ rfl fun _ => id
  refine Bank.ext_get fun x => ?_
  simp only [Store.takeSpare, Store.kill, Store.onBlock, Bank.get_set]
  split <;> rfl

theorem Store.takeSpare_kept {st : Store} {b : LogicalNo} {q : PhysicalNo} {rest : List PhysicalNo} :
    st.KeepsRetired (st.takeSpare b q rest) := by
  intro y hy
  show ((st.blocks.set q (st.blocks.get q).erase).get y).role = _
  rw [Bank.get_set]
  split
  · next e => subst e; exact hy
  · exact hy

/-- A mapped block retired and its logical block dead (R144). -/
theorem Store.Mapped.dead {st : Store} (h : st.Mapped) {b : LogicalNo} {p : PhysicalNo}
    (hp : st.map.get b = some p) :
    (({ st.onBlock p PhysBlock.retire with lastRetired := some p } : Store).kill b).Mapped :=
  (h.retireKill hp).congr rfl rfl fun _ => id

/-! ### Operations -/

namespace Evolves

variable {s t : State}

theorem onStore (h : Evolves s t) (f : Store → Store) (hs : t.store.Sound → (f t.store).Sound)
    (hr : t.store.Sound → t.store.KeepsRetired (f t.store)) : Evolves s (t.onStore f) :=
  h.trans (.ofMoves ((Moves.refl t).onStore f) hs hr)

theorem startOp (h : Evolves s t) (kind : OpKind) (index : Option EntryNo) (x : OpTarget)
    (hst : t.store.st = .ready) (hx : ∀ b p buf, x = .block b p buf → t.store.map.get b = some p) :
    Evolves s (t.startOp kind index x) := by
  have hc : t.store.Sound → t.store.check = none := by
    intro k
    cases hk : t.store.check with
    | none => rfl
    | some c => have := k.checking (by simp [hk]); rw [hst] at this; cases this
  refine h.trans (.ofMoves ((Moves.refl t).onStore _) (fun k => ?_) fun _ => ?_)
  · simp only [State.startOp, State.onStore_store]
    cases x with
    | settings c =>
      exact .ofOp (k.mapped.congr rfl rfl fun _ => id) _ rfl (fun _ _ _ e => by cases e) rfl (hc k)
    | block b p buf =>
      refine .ofOp ((k.mapped.onBlock p PhysBlock.erase fun _ => id).congr rfl rfl fun _ => id) _ rfl ?_ rfl (hc k)
      intro b' p' buf' e
      exact hx b' p' buf' e
  · simp only [State.startOp, State.onStore_store]
    cases x with
    | settings c => exact .ofBlocks rfl
    | block b p buf => exact (Store.KeepsRetired.onBlock t.store p PhysBlock.erase id).trans (.ofBlocks rfl)

theorem startFormat (h : Evolves s t) (hst : t.store.st = .ready) : Evolves s t.startFormat := by
  unfold State.startFormat
  split
  · next b p hb =>
    refine h.startOp _ _ _ hst fun b' p' buf e => ?_
    simp only [OpTarget.block.injEq] at e
    obtain ⟨rfl, rfl, -⟩ := e
    exact (Store.nextMapped_some hb).1
  · refine h.trans (.ofMoves (State.completeOp_moves _ _ _) (fun k => ?_) fun _ => ?_)
    · rw [State.completeOp_store]
      refine .ofReady (k.mapped.congr rfl rfl fun _ => id) rfl (by simp) ?_
      cases hk : t.store.check with
      | none => rfl
      | some c => have := k.checking (by simp [hk]); rw [hst] at this; cases this
    · rw [State.completeOp_store]; exact .ofBlocks rfl

/-! ### The ends of phases (R142 to R150) -/

/-- The same operation in another phase. -/
theorem rephase (h : Evolves s t) {op : OpRecord} (ho : t.store.op = some op) (ph : OpPhase) (d : Nat) (m : Medium) :
    Evolves s (t.onStore fun st => { st with op := some { op with phase := ph, since := d }, medium := m }) := by
  refine h.onStore _ (fun k => ?_) fun _ => .ofBlocks rfl
  have w := k.working (by simp [ho])
  exact .ofOp (k.mapped.congr rfl rfl fun _ => id) _ rfl (fun b p buf e => k.opMapped op b p buf ho e) w.busy w.noCheck

theorem draw (h : Evolves s t) (f : Nat → Bool) : Evolves s (t.draw f).2 :=
  h.trans (.ofMoves ((Moves.refl t).draw f) id fun _ => .ofBlocks rfl)

theorem opEraseEnd (h : Evolves s t) {op : OpRecord} (ho : t.store.op = some op) : Evolves s (t.opEraseEnd op) := by
  unfold State.opEraseEnd
  split
  · exact h.rephase ho _ _ t.store.medium
  · exact h.rephase ho _ _ _
  · exact (h.draw Config.eraseTook).rephase ho _ _ _

theorem opProgramEnd (h : Evolves s t) {op : OpRecord} (ho : t.store.op = some op) : Evolves s (t.opProgramEnd op) := by
  simp only [State.opProgramEnd]
  refine (h.draw _).onStore _ (fun k => ?_) fun k => ?_
  · have w := k.working (show (t.store.op).isSome = true by simp [ho])
    split
    · next b p buf e =>
      have hm := k.opMapped op b p buf ho e
      refine .ofOp ((k.mapped.onBlock p (PhysBlock.program b buf _) fun _ _ => by simp).congr rfl rfl fun _ => id) _ rfl ?_
        w.busy w.noCheck
      intro b' p' buf' e'
      exact k.opMapped op b' p' buf' ho e'
    · next e =>
      exact .ofOp (k.mapped.congr rfl rfl fun _ => id) _ rfl (fun b p buf e => k.opMapped op b p buf ho e) w.busy w.noCheck
    · next e =>
      exact .ofOp (k.mapped.congr rfl rfl fun _ => id) _ rfl (fun b p buf e => k.opMapped op b p buf ho e) w.busy w.noCheck
  · split
    · next b p buf e =>
      refine Store.KeepsRetired.trans (.ofBlocks rfl) (Store.KeepsRetired.onBlock _ p _ fun hr => ?_)
      exact absurd hr (k.mapped.live b p (k.opMapped op b p buf ho e))
    · exact .ofBlocks rfl
    · exact .ofBlocks rfl

theorem settles {u : State} (h : Evolves s t) (k : Settles t u) (ho : t.store.op.isSome = true) : Evolves s u :=
  h.trans (.ofMoves k.moves (fun w => k.sound (w.working ho)) fun _ => k.retired)

theorem settingsDone (h : Evolves s t) {op : OpRecord} (ho : t.store.op = some op) (m : Medium) (c : Condition)
    (r : OpResult) : Evolves s (t.settingsDone op m c r) := by
  refine Evolves.settles (t := t.onStore fun st => { st with medium := m, settingsCondition := c }) ?_
    (.completeOp op r _) (by simp [ho])
  exact h.onStore _ (fun k => k.congr rfl rfl (fun _ => id) rfl rfl rfl) fun _ => .ofBlocks rfl

theorem opVerifyPass (h : Evolves s t) {op : OpRecord} (ho : t.store.op = some op) : Evolves s (t.opVerifyPass op) := by
  unfold State.opVerifyPass
  split
  · next b p buf e =>
    refine Evolves.settles (t := t.onStore fun st => st.onBlock p (PhysBlock.program b buf true)) ?_
      (.blockDone op b _) (by simp [ho])
    refine h.onStore _ (fun k => ?_) fun k => Store.KeepsRetired.onBlock _ p _ fun hr => ?_
    · have w := k.working (show (t.store.op).isSome = true by simp [ho])
      exact .ofOp (k.mapped.onBlock p _ fun _ _ => by simp) op ho (fun b p buf e => k.opMapped op b p buf ho e) w.busy
        w.noCheck
    · exact absurd hr (k.mapped.live b p (k.opMapped op b p buf ho e))
  · exact h.settingsDone ho _ _ _
  · exact h.settingsDone ho _ _ _

theorem opVerifyFail (h : Evolves s t) {op : OpRecord} (ho : t.store.op = some op) : Evolves s (t.opVerifyFail op) := by
  simp only [State.opVerifyFail]
  split
  · next b p buf e =>
    have hst := t.retireBlock_store p
    split
    · next q rest hq =>
      rw [hst] at hq
      have hq : t.store.spares = q :: rest := hq
      refine h.trans (.ofMoves ((t.retireBlock_moves p).onStore _) (fun k => ?_) fun _ => ?_)
      · simp only [State.onStore_store, hst]
        have w := k.working (show (t.store.op).isSome = true by simp [ho])
        refine .ofOp ((k.mapped.replace (k.opMapped op b p buf ho e) hq).congr rfl rfl fun _ => id) _ rfl ?_ w.busy w.noCheck
        intro b' p' buf' e'
        simp only [OpRecord.eraseAt, OpTarget.block.injEq] at e'
        obtain ⟨rfl, rfl, -⟩ := e'
        simp [Store.takeSpare, Store.onBlock]
      · simp only [State.onStore_store, hst]
        exact (Store.retireBlock_kept p t.store).trans (Store.takeSpare_kept.trans (.ofBlocks rfl))
    · have k2 := Settles.blockWorn op b ((t.retireBlock p).onStore (Store.kill b))
      refine h.trans (.ofMoves (((t.retireBlock_moves p).onStore _).trans k2.moves) (fun k => k2.sound ?_) fun _ => ?_)
      · have w := k.working (show (t.store.op).isSome = true by simp [ho])
        simp only [State.onStore_store, hst]
        exact ⟨k.mapped.dead (k.opMapped op b p buf ho e), w.noCheck, w.busy⟩
      · refine Store.KeepsRetired.trans ?_ k2.retired
        simp only [State.onStore_store, hst]
        exact (Store.retireBlock_kept p t.store).trans (.ofBlocks rfl)
  · exact h.settingsDone ho _ _ _

/-! ### The start-up check (R152, R153) -/

theorem rewriteSome {st : Store} {r : Rewrite} (hr : st.rewriteNow = some r) : ∃ k, st.check = some ⟨k, some r⟩ := by
  unfold Store.rewriteNow at hr
  cases hc : st.check with
  | none => simp [hc] at hr
  | some c =>
    obtain ⟨k, x⟩ := c
    simp only [hc, Option.bind_some] at hr
    exact ⟨k, by rw [hr]⟩

theorem noOp {st : Store} (k : st.Sound) (hc : st.check.isSome = true) : st.op = none ∧ st.st = .checking := by
  have h1 := k.checking hc
  refine ⟨?_, h1⟩
  cases ho : st.op with
  | none => rfl
  | some o => have := k.busyIff.2 (by simp [ho]); rw [h1] at this; cases this

theorem checkAt (h : Evolves s t) (hc : t.store.check.isSome = true) (k : Nat) : Evolves s (t.checkAt k) := by
  refine h.onStore _ (fun w => ?_) fun _ => .ofBlocks rfl
  obtain ⟨h1, h2⟩ := noOp w hc
  exact .ofCheck (w.mapped.congr rfl rfl fun _ => id) h1 h2 ⟨k, none⟩ rfl fun _ e => by cases e

theorem rewriteAt (h : Evolves s t) (hc : t.store.check.isSome = true) {b : LogicalNo} {p : PhysicalNo}
    (hb : t.store.map.get b = some p) (ph : OpPhase) : Evolves s (t.rewriteAt b p ph) := by
  refine h.onStore _ (fun w => ?_) fun _ => .ofBlocks rfl
  obtain ⟨h1, h2⟩ := noOp w hc
  refine .ofCheck (w.mapped.congr rfl rfl fun _ => id) h1 h2 _ rfl fun r e => ?_
  simp only [Option.some.injEq] at e
  subst e
  exact hb

theorem clearBlock (h : Evolves s t) (b : LogicalNo) : Evolves s (t.clearBlock b) :=
  (h.onStore _ (fun k => k.congr rfl rfl (fun _ => id) rfl rfl rfl) fun _ => .ofBlocks rfl).calm
    ((Calm.refl _).latchStore _)

/-- The rewrite on a spare, from a store whose map agrees once `b` is dead. -/
theorem rewriteOnSpare (h : Moves s t) (b : LogicalNo) (hk : s.store.KeepsRetired t.store)
    (hm : s.store.Sound → (t.store.kill b).Mapped) (ho : s.store.Sound → t.store.op = none)
    (hst : s.store.Sound → t.store.st = .checking) : Evolves s (t.rewriteOnSpare b) := by
  unfold State.rewriteOnSpare
  split
  · next q rest hq =>
    refine .ofMoves ((h.onStore _).onStore _) (fun k => ?_) fun _ => ?_
    · have m := (hm k).takeSpare (b := b) (q := q) (rest := rest) hq
      refine .ofCheck (m.congr ?_ rfl fun _ => id) (ho k) (hst k) _ rfl fun r e => ?_
      · refine Bank.ext_get fun x => ?_
        simp only [State.rewriteAt, State.onStore_store, Store.takeSpare, Store.kill, Store.onBlock, Bank.get_set]
        split <;> rfl
      · simp only [Option.some.injEq] at e
        subst e
        simp [State.rewriteAt, Store.takeSpare, Store.onBlock]
    · exact hk.trans (Store.takeSpare_kept.trans (.ofBlocks rfl))
  · refine .ofMoves ((h.onStore _).onStore _) (fun k => ?_) fun _ => hk.trans (.ofBlocks rfl)
    exact .ofCheck ((hm k).congr rfl rfl fun _ => id) (ho k) (hst k) _ rfl fun _ e => by cases e

theorem killed {st : Store} (k : st.Mapped) {b : LogicalNo} (hb : st.map.get b = none) : (st.kill b).Mapped := by
  refine k.congr ?_ rfl fun _ => id
  refine Bank.ext_get fun x => ?_
  simp only [Store.kill, Bank.get_set]
  split
  · next e => subst e; exact hb.symm
  · rfl

theorem checkBlock (h : Evolves s t) (hc : t.store.check.isSome = true) (b : LogicalNo) :
    Evolves s (t.checkBlock b) := by
  refine h.trans ?_
  unfold State.checkBlock
  split
  · next p hp =>
    split
    · exact (Evolves.refl t).checkAt hc _
    · refine Evolves.clearBlock ?_ b
      refine Evolves.rewriteAt (t := t.onStore fun st => st.onBlock p PhysBlock.erase) ?_ hc hp _
      refine (Evolves.refl t).onStore _ (fun k => ?_) fun _ => Store.KeepsRetired.onBlock _ p _ id
      exact k.congr rfl rfl (fun q hq => by
        rw [Store.onBlock_blocks]
        split
        · next e => subst e; exact hq
        · exact hq) rfl rfl rfl
  · next hb =>
    split
    · exact (Evolves.refl t).checkAt hc _
    · refine Evolves.clearBlock ?_ b
      exact rewriteOnSpare (Moves.refl t) b (.refl _) (fun k => killed k.mapped hb) (fun k => (noOp k hc).1)
        fun k => (noOp k hc).2

theorem rewriteProgramEnd (h : Evolves s t) {r : Rewrite} (hr : t.store.rewriteNow = some r) :
    Evolves s (t.rewriteProgramEnd r) := by
  obtain ⟨k, hc⟩ := rewriteSome hr
  simp only [State.rewriteProgramEnd]
  refine h.trans (.ofMoves ((((Moves.refl t).draw _).onStore _).onStore _) (fun w => ?_) fun w => ?_)
  · obtain ⟨h1, h2⟩ := noOp w (by simp [hc])
    refine .ofCheck ((w.mapped.onBlock r.p (PhysBlock.program r.b blankSlots _) fun _ _ => by simp).congr rfl rfl
      fun _ => id) h1 h2 _ rfl fun x e => ?_
    simp only [Option.some.injEq] at e
    subst e
    exact w.rewriteMapped r hr
  · refine Store.KeepsRetired.trans (Store.KeepsRetired.onBlock t.store r.p (PhysBlock.program r.b blankSlots _)
      fun hr' => ?_) (.ofBlocks rfl)
    exact absurd hr' (w.mapped.live _ _ (w.rewriteMapped r hr))

theorem rewriteVerifyPass (h : Evolves s t) {r : Rewrite} (hr : t.store.rewriteNow = some r) :
    Evolves s (t.rewriteVerifyPass r) := by
  obtain ⟨k, hc⟩ := rewriteSome hr
  unfold State.rewriteVerifyPass
  refine h.trans (.ofMoves (((Moves.refl t).onStore _).onStore _) (fun w => ?_) fun w => ?_)
  · obtain ⟨h1, h2⟩ := noOp w (by simp [hc])
    exact .ofCheck ((w.mapped.onBlock r.p (PhysBlock.program r.b blankSlots true) fun _ _ => by simp).congr rfl rfl
      fun _ => id) h1 h2 _ rfl fun x e => by cases e
  · refine Store.KeepsRetired.trans (Store.KeepsRetired.onBlock t.store r.p (PhysBlock.program r.b blankSlots true)
      fun hr' => ?_) (.ofBlocks rfl)
    exact absurd hr' (w.mapped.live _ _ (w.rewriteMapped r hr))

theorem rewriteVerifyFail (h : Evolves s t) {r : Rewrite} (hr : t.store.rewriteNow = some r) :
    Evolves s (t.rewriteVerifyFail r) := by
  obtain ⟨k, hc⟩ := rewriteSome hr
  have hst := t.retireBlock_store r.p
  refine h.trans (rewriteOnSpare (t.retireBlock_moves r.p) r.b ?_ (fun w => ?_) (fun w => ?_) fun w => ?_)
  · rw [hst]; exact Store.retireBlock_kept _ _
  · rw [hst]; exact w.mapped.dead (w.rewriteMapped r hr)
  · rw [hst]; exact (noOp w (by simp [hc])).1
  · rw [hst]; exact (noOp w (by simp [hc])).2

end Evolves

/-! ### The work in hand -/

theorem Store.workIn_op {st : Store} {ph : OpPhase} {o : OpRecord} (h : st.workIn ph = some (.op o)) :
    st.op = some o ∧ o.phase = ph := by
  cases ho : st.op with
  | some o' =>
    simp only [Store.workIn, ho] at h
    split at h
    · next hp => simp only [Option.some.injEq, StoreWork.op.injEq] at h; subst h; exact ⟨rfl, hp⟩
    · cases h
  | none =>
    cases hr : st.rewriteNow with
    | none => simp [Store.workIn, ho, hr] at h
    | some r => simp [Store.workIn, ho, hr] at h

theorem Store.workIn_rewrite {st : Store} {ph : OpPhase} {r : Rewrite} (h : st.workIn ph = some (.rewrite r)) :
    st.rewriteNow = some r ∧ r.phase = ph := by
  cases ho : st.op with
  | some o' => simp [Store.workIn, ho] at h
  | none =>
    cases hr : st.rewriteNow with
    | none => simp [Store.workIn, ho, hr] at h
    | some r' =>
      simp only [Store.workIn, ho, hr] at h
      split at h
      · next hp => simp only [Option.some.injEq, StoreWork.rewrite.injEq] at h; subst h; exact ⟨rfl, hp⟩
      · cases h

end Sys2Proof.Machine
end

