-- ==== Sys2Proof/Laws/Requests.lean ====
section
/-! SUPPORT. What the owning blocks' answers keep, and how the port takes frames: a frame that arrives where fewer than
three replies stand is taken at once. -/

namespace Sys2Proof.Machine

/-! ### The Event Unit's own changes -/

theorem countP_filter_le {α : Type} (p q : α → Bool) (l : List α) : (l.filter q).countP p ≤ l.countP p := by
  rw [List.countP_filter]
  exact List.countP_mono_left fun x _ h => (Bool.and_eq_true _ _ ▸ h).1

theorem State.clearSource_only (src : SourceNo) (s : State) : OnlyNotes s (s.clearSource src) :=
  (State.putSource_only _ _ _).trans (State.dropNote_only _ _)

theorem State.Noted.clearSource {s : State} (h : s.Noted) (src : SourceNo) : (s.clearSource src).Noted := by
  have hc : ∀ b, (s.clearSource src).link.outbound.countP (OutRecord.isNoteOf b) ≤
      s.link.outbound.countP (OutRecord.isNoteOf b) := fun b => countP_filter_le _ _ _
  have h0 : (s.clearSource src).link.outbound.countP (OutRecord.isNoteOf src) = 0 := by
    simp only [State.clearSource, State.dropNote, State.onLink_link, List.countP_filter]
    rw [List.countP_eq_zero]
    intro r _
    simp
  have hs : ∀ b, src ≠ b → (s.clearSource src).source b = s.source b := fun b e => by
    simp [State.clearSource, State.dropNote, e]
  constructor
  · exact fun b => (hc b).trans (h.oneNote b)
  · intro b hb
    by_cases e : src = b
    · subst e; omega
    · rw [hs b e]; exact h.marked b (hb.trans (hc b))
  · intro b
    by_cases e : src = b
    · subst e
      simp [State.clearSource, State.dropNote, Source.calls]
    · rw [hs b e]; exact h.called b
  · rfl

theorem State.setMask_only (src : SourceNo) (m : Byte) (s : State) : OnlyNotes s (s.setMask src m) :=
  (State.putSource_only _ _ _).trans (State.queueNotice_only _ _)

theorem State.Noted.setMask {s : State} (h : s.Noted) (src : SourceNo) (m : Byte) : (s.setMask src m).Noted := by
  refine ((h.kept.putSource src { s.source src with mask := m } rfl).queueNotice src).noted fun b => ?_
  by_cases e : src = b
  · subst e; exact State.queueNotice_calls _ _
  · rw [State.queueNotice_other e, State.source_putSource_ne _ _ e]; exact h.called b

theorem State.loadMasks_only (m : Bank 7 Byte) (s : State) : OnlyNotes s (s.loadMasks m) :=
  (State.putSources_only _ _).trans (State.queueNotices_only _)

theorem State.Noted.loadMasks {s : State} (h : s.Noted) (m : Bank 7 Byte) : (s.loadMasks m).Noted := by
  refine State.NotesKept.queueNotices ⟨h.oneNote, fun src hp => ?_, rfl⟩
  have := h.marked src hp
  simpa [State.source] using this

/-- The sources and notices an engine reset clears (R179). -/
def State.clearFive (s : State) : State :=
  (s.onLink fun k =>
    { k with outbound := k.outbound.filter fun r => !(r.isNoteOf 0 || r.isNoteOf 1 || r.isNoteOf 2 || r.isNoteOf 3 ||
        r.isNoteOf 4) }).putSources (Bank.tabulate fun src =>
    if src.val < 5 then { s.source src with latched := 0#8, noticePending := false } else s.source src)

theorem State.clearFive_only (s : State) : OnlyNotes s s.clearFive := by
  refine ⟨rfl, ?_⟩
  simp only [State.clearFive, State.putSources_link, State.onLink_link, LinkPort.replies, List.countP_filter]
  congr 1
  funext r
  cases r <;> simp [OutRecord.isReply, OutRecord.isNoteOf]

theorem State.Noted.clearFive {s : State} (h : s.Noted) : s.clearFive.Noted := by
  have hc : ∀ b, s.clearFive.link.outbound.countP (OutRecord.isNoteOf b) ≤
      s.link.outbound.countP (OutRecord.isNoteOf b) := fun b => countP_filter_le _ _ _
  have hs : ∀ b, s.clearFive.source b =
      if b.val < 5 then { s.source b with latched := 0#8, noticePending := false } else s.source b := fun b => by
    simp [State.clearFive, State.source]
  have h0 : ∀ b : SourceNo, b.val < 5 → s.clearFive.link.outbound.countP (OutRecord.isNoteOf b) = 0 := by
    intro b hb
    simp only [State.clearFive, State.putSources_link, State.onLink_link, List.countP_filter]
    rw [List.countP_eq_zero]
    intro r _
    match b with
    | 0 | 1 | 2 | 3 | 4 => cases r <;> simp (config := { contextual := true }) [OutRecord.isNoteOf]
    | 5 | 6 => simp at hb
  constructor
  · exact fun b => (hc b).trans (h.oneNote b)
  · intro b hb
    by_cases e : b.val < 5
    · have := h0 b e; omega
    · rw [hs, if_neg e]; exact h.marked b (hb.trans (hc b))
  · intro b
    rw [hs]
    split
    · simp [Source.calls]
    · exact h.called b
  · rfl

namespace Calm

variable {s t : State}

theorem clearSource (h : Calm s t) (src : SourceNo) : Calm s (t.clearSource src) :=
  h.onlyNotes (t.clearSource_only src) fun k => k.clearSource src

theorem setMask (h : Calm s t) (src : SourceNo) (m : Byte) : Calm s (t.setMask src m) :=
  h.onlyNotes (t.setMask_only src m) fun k => k.setMask src m

theorem loadMasks (h : Calm s t) (m : Bank 7 Byte) : Calm s (t.loadMasks m) :=
  h.onlyNotes (t.loadMasks_only m) fun k => k.loadMasks m

theorem eventEngineReset (h : Calm s t) : Calm s t.eventEngineReset := by
  have k : Calm s t.clearFive := h.onlyNotes t.clearFive_only fun k => k.clearFive
  refine Calm.latch (t := { t.clearFive with events := { t.clearFive.events with resetCause := .engine } }) ?_ _ _
  refine k.details _ ?_ ?_ <;> rfl

theorem engineReset (h : Calm s t) : Stays s t.engineReset := by
  simp only [State.engineReset]
  refine Stays.calm (Stays.onKeys (Calm.toStays (Calm.onJobs (Calm.eachLine ?_ _ fun n u => (Calm.refl u).onLine n _) _ ?_)) _)
    (Calm.refl _).eventEngineReset
  · exact h.onPool _ fun _ => .empty
  · exact fun k => k.engineReset

end Calm

/-! ### Settings and the end of the check -/

theorem Calm.linesComeUp {s t : State} (h : Calm s t) (c : Settings) : Calm s (t.linesComeUp c) :=
  h.eachLine _ fun n u => (Calm.refl u).onLine n _

theorem Calm.loadSettings {s t : State} (h : Calm s t) (c : Settings) : Stays s (t.loadSettings c) := by
  simp only [State.loadSettings]
  exact (((h.cadence c.cadence).linesComeUp c).toStays.onKeys _ |>.onKeys _).calm ((Calm.refl _).loadMasks c.masks)

theorem Evolves.endCheck {s t : State} (h : Evolves s t) (hc : t.store.check.isSome = true) : Evolves s t.endCheck := by
  have k : Evolves s (t.onStore fun st => { st with check := none, st := .ready }) := by
    refine h.onStore _ (fun w => ?_) fun _ => .ofBlocks rfl
    exact .ofReady (w.mapped.congr rfl rfl fun _ => id) (Evolves.noOp w hc).1 (by simp) rfl
  have cond : ∀ {u : State} (c : Condition), Evolves s u → Evolves s (u.onStore fun st => { st with settingsCondition := c }) :=
    fun c hu => hu.onStore _ (fun w => w.congr rfl rfl (fun _ => id) rfl rfl rfl) fun _ => .ofBlocks rfl
  simp only [State.endCheck]
  split
  · exact (cond _ k).trans ((Calm.refl _).loadSettings _).evolves
  · exact (cond _ k).trans ((Stays.refl _).onKeys _).evolves
  · exact (cond _ k).trans (((Calm.refl _).latchStore _).toStays.onKeys _).evolves

theorem Evolves.startEntryOp {s t : State} (h : Evolves s t) (kind : OpKind) (x : Entry) (hst : t.store.st = .ready)
    {e : EntryNo} {p : PhysicalNo} (hp : t.store.map.get (blockOf e) = some p) :
    Evolves s (t.startEntryOp kind e p x) := by
  unfold State.startEntryOp
  refine h.startOp _ _ _ hst fun b' p' buf k => ?_
  simp only [OpTarget.block.injEq] at k
  obtain ⟨rfl, rfl, -⟩ := k
  exact hp

theorem Evolves.ans {s t : State} {r : Reply} (h : Evolves s t) : Evolves s (t, r).1 := h

/-! ### Answers -/

/-- A refusal, a report or a check changes nothing. -/
theorem checked_evolves {s : State} (l : Bool) (fs : List Bool) (act : State → State × Reply)
    (h : s.checking = false → Evolves s (act s).1) : Evolves s (checked l fs act s).1 := by
  unfold checked
  split
  · exact .refl s
  · split
    · exact .refl s
    · split
      · exact .refl s
      · next hc => exact h (by simpa using hc)

theorem numbered_evolves {s : State} (n : Nat) (b : List Byte) (act : Fin n → State → State × Reply)
    (h : ∀ i, s.checking = false → Evolves s (act i s).1) : Evolves s (numbered n b act s).1 := by
  refine checked_evolves _ _ _ fun hc => ?_
  split
  · exact .refl s
  · exact h _ hc

theorem bare_evolves {s : State} (b : List Byte) (act : State → State × Reply)
    (h : s.checking = false → Evolves s (act s).1) : Evolves s (bare b act s).1 := checked_evolves _ _ _ h

theorem onNamedJob_evolves {s : State} (b : List Byte) (act : Job → State → State × Reply)
    (h : ∀ j, s.job (byteAt b 0) = some j → Evolves s (act j s).1) : Evolves s (onNamedJob b act s).1 := by
  refine checked_evolves _ _ _ fun _ => ?_
  split
  · exact .refl s
  · next j hj => exact h j hj

/-- The store is READY where a request finds it neither CHECKING nor BUSY. -/
theorem ready_of {s : State} (h : s.checking = false) (hb : ¬ s.store.st = .busy) : s.store.st = .ready := by
  cases hs : s.store.st with
  | ready => rfl
  | busy => exact absurd hs hb
  | checking => simp [State.checking, hs] at h

/-- Whatever a request asks, the answer's state evolves from the one it was taken in. -/
theorem answerRequest_evolves (f : Frame) (s : State) : Evolves s (answerRequest f s).1 := by
  unfold answerRequest
  split
  · unfold answerIdentify; split <;> exact .refl s
  · exact bare_evolves _ _ fun _ => .refl s
  · exact checked_evolves _ _ _ fun _ => .refl s
  · exact bare_evolves _ _ fun _ => (Calm.refl s).engineReset.evolves
  · unfold answerEvents
    split
    · split
      · exact .refl s
      · exact ((Calm.refl s).clearSource _).evolves
    · exact .refl s
  · refine checked_evolves _ _ _ fun _ => ?_
    split
    · exact .refl s
    · exact ((Calm.refl s).setMask _ _).evolves
  · refine checked_evolves _ _ _ fun _ => ?_
    split
    · exact .refl s
    · exact ((Calm.refl s).onLine _ _).evolves
  · exact numbered_evolves _ _ _ fun _ _ => .refl s
  · refine numbered_evolves _ _ _ fun n _ => ?_
    split
    · refine Evolves.ans (Calm.evolves ?_)
      exact (Calm.refl s).onLine n _
    · exact .refl s
  · refine numbered_evolves _ _ _ fun n _ => ?_
    split
    · refine Evolves.ans (Calm.evolves ?_)
      exact (Calm.refl s).onLine n _
    · exact .refl s
  · refine numbered_evolves _ _ _ fun n _ => ?_
    split
    · exact .refl s
    · next u hu => exact ((Calm.refl s).release n hu).evolves
  · refine numbered_evolves _ _ _ fun n _ => ?_
    split
    · exact ((((Calm.refl s).endManual n).onLine n _).reportPhase n _).evolves
    · exact .refl s
  · refine numbered_evolves _ _ _ fun n _ => ?_
    split
    · exact ((Calm.refl s).enterConnected n).evolves
    · exact .refl s
  · refine checked_evolves _ _ _ fun _ => ?_
    split
    · split
      · exact .refl s
      · exact ((Calm.refl s).startSend _ _).evolves
    · exact .refl s
  · refine checked_evolves _ _ _ fun _ => ?_
    split
    · exact .refl s
    · split
      · exact .refl s
      · next hb => exact ((Calm.refl s).acceptJob _ hb).evolves
  · refine onNamedJob_evolves _ _ fun j hj => ?_
    split
    · exact .refl s
    · next hf => exact ((Calm.refl s).cancelJob hj hf).evolves
  · exact onNamedJob_evolves _ _ fun j hj => .refl s
  · refine onNamedJob_evolves _ _ fun j hj => ?_
    split
    · next hf => exact ((Calm.refl s).collect hj hf).evolves
    · exact .refl s
  · refine bare_evolves _ _ fun _ => ?_
    split
    · exact .refl s
    · next j hj =>
      cases hh : s.jobs.finished.head? with
      | none => simp [hh] at hj
      | some id =>
        simp only [hh, Option.bind_some] at hj
        refine ((Calm.refl s).onJobs (fun e => { e with
          table := e.table.filter fun x => x.id != j.id, finished := e.finished.erase j.id }) fun hs => ?_).evolves
        have e := (findJob_mem hj).2
        subst e
        exact hs.remove (List.mem_of_mem_head? (by simp [hh])) rfl
  · exact bare_evolves _ _ fun _ => .refl s
  · refine checked_evolves _ _ _ fun _ => ?_
    split
    · exact ((Calm.refl s).writeSlot _ _).evolves
    · exact .refl s
  · exact numbered_evolves _ _ _ fun _ _ => .refl s
  · exact numbered_evolves _ _ _ fun k _ => ((Calm.refl s).writeSlot k none).evolves
  · refine numbered_evolves _ _ _ fun _ _ => ?_
    split <;> exact .refl s
  · unfold answerWriteEntry
    split
    · exact .refl s
    · split
      · exact .refl s
      · split
        · exact .refl s
        · split
          · exact .refl s
          · next hc =>
            split
            · exact .refl s
            · next hb =>
              split
              · split
                · exact .refl s
                · next hp =>
                  exact (Evolves.refl s).startEntryOp _ _ (ready_of (by simpa using hc) hb) hp
              · exact .refl s
  · refine numbered_evolves _ _ _ fun e hc => ?_
    split
    · exact .refl s
    · next hb =>
      split
      · exact .refl s
      · next hp =>
        split
        · exact .refl s
        · exact (Evolves.refl s).startEntryOp _ _ (ready_of hc hb) hp
  · refine bare_evolves _ _ fun hc => ?_
    split
    · exact .refl s
    · next hb => exact (Evolves.refl s).startFormat (ready_of hc hb)
  · exact bare_evolves _ _ fun _ => .refl s
  · refine bare_evolves _ _ fun hc => ?_
    split
    · exact .refl s
    · next hb =>
      refine Evolves.ans ((Evolves.refl s).startOp _ _ _ (ready_of hc hb) ?_)
      intro _ _ _ e
      cases e
  · refine bare_evolves _ _ fun hc => ?_
    split
    · exact .refl s
    · next hb =>
      refine Evolves.ans ((Evolves.refl s).startOp _ _ _ (ready_of hc hb) ?_)
      intro _ _ _ e
      cases e
  · refine checked_evolves _ _ _ fun _ => ?_
    split
    · refine Evolves.ans (Stays.evolves ?_)
      exact (Stays.refl s).onKey _ _
    · exact .refl s
  · exact numbered_evolves _ _ _ fun _ _ => .refl s
  · refine checked_evolves _ _ _ fun _ => ?_
    refine Evolves.ans (Stays.evolves (Stays.expireKeys ?_))
    exact ((((Stays.refl s).onKeys _).relevel _ _).relevel _ _).relevel _ _ |>.relevel _ _
  · refine bare_evolves _ _ fun _ => Evolves.ans (Stays.evolves ?_)
    exact (Stays.refl s).onKeys _
  · exact .refl s

/-! ### Taking frames (R185) -/

/-- What the taking of frames keeps, the port's own buffer and queue apart. -/
structure Serves (s t : State) : Prop where
  pending : t.pending = s.pending
  held : t.held = s.held
  pins : t.pins = s.pins
  rx : t.link.rx = s.link.rx
  tx : t.link.tx = s.link.tx
  breakSince : t.link.breakSince = s.link.breakSince
  now : s.now ≤ t.now
  driven : s.Driven → t.Driven
  pool : s.pool.Sound → t.pool.Sound
  jobs : s.jobs.Sound → t.jobs.Sound
  noted : s.Noted → t.Noted
  store : s.store.Sound → t.store.Sound
  retired : s.store.Sound → ∀ p, (s.store.blocks.get p).role = .retired → (t.store.blocks.get p).role = .retired

theorem Serves.refl (s : State) : Serves s s :=
  ⟨rfl, rfl, rfl, rfl, rfl, rfl, Nat.le_refl _, id, id, id, id, id, fun _ _ => id⟩

theorem Serves.trans {s t u : State} (h : Serves s t) (k : Serves t u) : Serves s u where
  pending := k.pending.trans h.pending
  held := k.held.trans h.held
  pins := k.pins.trans h.pins
  rx := k.rx.trans h.rx
  tx := k.tx.trans h.tx
  breakSince := k.breakSince.trans h.breakSince
  now := h.now.trans k.now
  driven := k.driven ∘ h.driven
  pool := k.pool ∘ h.pool
  jobs := k.jobs ∘ h.jobs
  noted := k.noted ∘ h.noted
  store := k.store ∘ h.store
  retired := fun hs p hp => k.retired (h.store hs) p (h.retired hs p hp)

theorem Evolves.serves {s t : State} (h : Evolves s t) : Serves s t :=
  ⟨h.pending, h.held, h.pins, h.rx, h.tx, h.breakSince, h.now, h.driven, h.pool, h.jobs, h.noted, h.store, h.retired⟩

/-- The port changed in its inbound buffer, its receiver's successor and its replies only. -/
theorem Serves.onLink (s : State) (f : LinkPort → LinkPort) (hr : (f s.link).rx = s.link.rx)
    (ht : (f s.link).tx = s.link.tx) (hb : (f s.link).breakSince = s.link.breakSince)
    (hn : ∀ src, (f s.link).outbound.countP (OutRecord.isNoteOf src) = s.link.outbound.countP (OutRecord.isNoteOf src)) :
    Serves s (s.onLink f) :=
  ⟨rfl, rfl, rfl, hr, ht, hb, Nat.le_refl _, id, id, id, fun h => h.congr hn rfl rfl, id, fun _ _ => id⟩

theorem Reply.record_isReply (tag : Byte) (r : Reply) : (r.record tag).isReply = true := by cases r <;> rfl

theorem Reply.record_isNoteOf (tag : Byte) (r : Reply) (src : SourceNo) : (r.record tag).isNoteOf src = false := by
  cases r <;> rfl

theorem State.pushReply_serves (tag : Byte) (r : Reply) (s : State) : Serves s (s.pushReply tag r) :=
  .onLink s _ rfl rfl rfl fun src => by simp [Reply.record_isNoteOf]

theorem State.pushReply_replies (tag : Byte) (r : Reply) (s : State) :
    (s.pushReply tag r).link.replies = s.link.replies + 1 := by
  simp [State.pushReply, LinkPort.replies, Reply.record_isReply]

theorem State.takeFrame_serves (f : Frame) (s : State) : Serves s (s.takeFrame f) :=
  (answerRequest_evolves f s).serves.trans (State.pushReply_serves _ _ _)

theorem State.takeFrame_replies (f : Frame) (s : State) : (s.takeFrame f).link.replies = s.link.replies + 1 := by
  simp only [State.takeFrame, State.pushReply_replies, (answerRequest_evolves f s).replies]

theorem State.takeFrame_inbound (f : Frame) (s : State) : (s.takeFrame f).link.inbound = s.link.inbound := by
  show (answerRequest f s).1.link.inbound = _
  exact (answerRequest_evolves f s).inbound

theorem State.drain_serves (fuel : Nat) (s : State) : Serves s (s.drain fuel) := by
  induction fuel generalizing s with
  | zero => exact .refl s
  | succ n ih =>
    unfold State.drain
    split
    · exact .refl s
    · next f rest _ =>
      split
      · exact (Serves.onLink s (fun k => { k with inbound := rest }) rfl rfl rfl fun _ => rfl).trans
          ((State.takeFrame_serves _ _).trans (ih _))
      · exact .refl s

/-- Frames are taken while fewer than three replies stand, and as many as wait (R185). -/
theorem State.drain_bounded (fuel : Nat) (s : State) (hr : s.link.replies ≤ 3) (hi : s.link.inbound.length ≤ fuel)
    (h2 : s.link.inbound.length ≤ 2) : (s.drain fuel).link.Bounded := by
  induction fuel generalizing s with
  | zero =>
    have : s.link.inbound = [] := List.length_eq_zero_iff.1 (by omega)
    exact ⟨hr, h2, fun h => absurd this h⟩
  | succ n ih =>
    unfold State.drain
    split
    · next e => exact ⟨hr, h2, fun h => absurd e h⟩
    · next f rest e =>
      have e1 : ((s.onLink fun k => { k with inbound := rest }).takeFrame f).link.inbound = rest :=
        State.takeFrame_inbound _ _
      have e2 : ((s.onLink fun k => { k with inbound := rest }).takeFrame f).link.replies = s.link.replies + 1 :=
        State.takeFrame_replies _ _
      rw [e, List.length_cons] at hi h2
      split
      · exact ih _ (by omega) (by rw [e1]; omega) (by rw [e1]; omega)
      · exact ⟨hr, by rw [e, List.length_cons]; exact h2, fun _ => by omega⟩

/-- A frame that arrives where none waits and fewer than three replies stand is taken at once (R184, R185). -/
theorem State.arrive_taken {s : State} (h1 : s.held = false) (h2 : s.link.breakSince = none)
    (h3 : s.link.inbound = []) (h4 : s.link.replies < 3) (kind tag : Byte) (body : List Byte) :
    s.arrive kind tag body =
      (answerRequest ⟨kind, tag, body⟩ s).1.pushReply tag (answerRequest ⟨kind, tag, body⟩ s).2 := by
  have e : ((s.onLink fun k => { k with inbound := k.inbound ++ [⟨kind, tag, body⟩] }).onLink fun k =>
      { k with inbound := [] }) = s := by
    cases s with
    | mk pending now free held pins lines pool cadence jobs store keys events link =>
      cases link
      simp only at h3
      subst h3
      rfl
  have ei : (s.takeFrame ⟨kind, tag, body⟩).link.inbound = [] := by rw [State.takeFrame_inbound, h3]
  have h4' : (s.onLink fun k => { k with inbound := k.inbound ++ [⟨kind, tag, body⟩] }).link.replies < 3 := h4
  have h5 : (s.onLink fun k => { k with inbound := k.inbound ++ [⟨kind, tag, body⟩] }).link.inbound =
      [⟨kind, tag, body⟩] := by simp [h3]
  unfold State.arrive State.linkListens
  simp only [h1, h2, Bool.not_false, Option.isNone_none, Bool.and_self, if_true]
  unfold State.goodFrame
  rw [if_neg (by simp [h3])]
  unfold State.drain
  simp only [h5]
  rw [if_pos h4', e]
  unfold State.drain
  simp only [ei]
  rfl

end Sys2Proof.Machine
end

