-- ==== Sys2Proof/Laws/Answers.lean ====
section
/-! SUPPORT. How a request that arrives is answered: the frame taken, the checks passed, the answer of its block. -/

namespace Sys2Proof.Machine

/-- A frame that arrives is taken at once where the port takes frames (R185). -/
theorem State.TakesFrames.arrive {s : State} (h : s.TakesFrames) (kind tag : Byte) (body : List Byte) :
    s.arrive kind tag body =
      (answerRequest ⟨kind, tag, body⟩ s).1.pushReply tag (answerRequest ⟨kind, tag, body⟩ s).2 :=
  State.arrive_taken h.started h.noBreak h.noneWaits h.room kind tag body

/-- A request answered OK with a result: its effects, then the reply. -/
theorem State.TakesFrames.ok {s t : State} {k tag : Byte} {b r : List Byte} (h : s.TakesFrames)
    (e : answerRequest ⟨k, tag, b⟩ s = (t, .ok r)) : s.arrive k tag b = t.replied tag (0#8 :: r) := by
  rw [h.arrive, e]; rfl

/-- A request answered ACCEPTED. -/
theorem State.TakesFrames.accepted {s t : State} {k tag : Byte} {b r : List Byte} (h : s.TakesFrames)
    (e : answerRequest ⟨k, tag, b⟩ s = (t, .accepted r)) : s.arrive k tag b = t.replied tag (1#8 :: r) := by
  rw [h.arrive, e]; rfl

/-- A request answered REFUSED. -/
theorem State.TakesFrames.refused {s t : State} {k tag : Byte} {b : List Byte} {c : RefusalCause} {i : Nat}
    (h : s.TakesFrames) (e : answerRequest ⟨k, tag, b⟩ s = (t, .refused c i)) :
    s.arrive k tag b = t.replied tag (refusal c i) := by
  rw [h.arrive, e]; rfl

theorem State.TakesRequests.notChecking {s : State} (h : s.TakesRequests) : s.checking = false := by
  have := h.ready
  simp [State.checking, this]

theorem firstFailure_none (fs : List Bool) (hf : ∀ b ∈ fs, b = true) (i : Nat) : firstFailure i fs = none := by
  induction fs generalizing i with
  | nil => rfl
  | cons b bs ih =>
    have hb := hf b (by simp)
    subst hb
    simp only [firstFailure, if_true]
    exact ih (fun x hx => hf x (by simp [hx])) _

/-- A request whose body passes every check is carried out (R186). -/
theorem State.TakesRequests.checked {s : State} (h : s.TakesRequests) {l : Bool} (hl : l = true) {fs : List Bool}
    (hf : ∀ b ∈ fs, b = true) (act : State → State × Reply) : checked l fs act s = act s := by
  unfold Machine.checked
  simp [hl, firstFailure_none fs hf 1, h.notChecking]

theorem State.TakesRequests.bare {s : State} (h : s.TakesRequests) (act : State → State × Reply) :
    bare [] act s = act s := h.checked rfl (by simp) act

theorem byteAt_finCode {n : Nat} (hn : n ≤ 256) (i : Fin n) (r : List Byte) : byteAt (finCode i :: r) 0 = i.val := by
  have := i.isLt
  simp [byteAt, finCode, byteOf]; omega

theorem below_val {n : Nat} (i : Fin n) : below n i.val = some i := by simp [below]

theorem byteOf_toNat {k : Nat} (h : k ≤ 255) : (byteOf k).toNat = k := by simp [byteOf]; omega

/-- A request that carries one number is carried out on it (R186). -/
theorem State.TakesRequests.numbered {s : State} (h : s.TakesRequests) {n : Nat} (hn : n ≤ 256) (i : Fin n)
    (act : Fin n → State → State × Reply) : numbered n [finCode i] act s = act i s := by
  have e := byteAt_finCode hn i []
  unfold Machine.numbered
  rw [h.checked (by simp) (by simp [e])]
  simp only [e, below_val]

/-- The first failing check is found, under the number it has (R186). -/
theorem firstFailure_some {fs : List Bool} {i : Nat} (hi : fs[i]? = some false) (hj : ∀ j, j < i → fs[j]? = some true)
    (k : Nat) : firstFailure k fs = some (k + i) := by
  induction fs generalizing i k with
  | nil => simp at hi
  | cons b bs ih =>
    cases i with
    | zero => simp at hi; subst hi; rfl
    | succ i =>
      have hb := hj 0 (by omega)
      simp at hb; subst hb
      simp only [firstFailure, if_true]
      rw [ih (i := i) (by simpa using hi) (fun j h => by simpa using hj (j + 1) (by omega))]
      congr 1; omega

theorem numberedFrom1_getElem? (fs : List Bool) (i : Nat) :
    (numberedFrom1 fs)[i]? = fs[i]?.map fun x => (i + 1, x) := by simp [numberedFrom1]

/-- A request answered by `checked` is refused in the order of R186. -/
theorem State.TakesFrames.refusesFirst {s : State} (h : s.TakesFrames) {tag k : Byte} {mk : Byte → List Byte → Instr}
    {fits : List Byte → Bool} {fields : List Byte → List (Nat × Bool)} (len : List Byte → Bool)
    (checks : List Byte → List Bool) (act : List Byte → State → State × Reply)
    (hx : ∀ b, exec (mk tag b) s = .next (s.arrive k tag b))
    (ha : ∀ b, answerRequest ⟨k, tag, b⟩ s = Machine.checked (len b) (checks b) (act b) s)
    (hl : ∀ b, fits b = len b) (hf : ∀ b, fits b = true → fields b = numberedFrom1 (checks b)) :
    s.RefusesFirst tag mk fits fields where
  badLength b e := by
    rw [hx, h.refused]
    rw [ha, ← hl, e]; rfl
  badValue b i f e hi hj := by
    rw [hx, h.refused]
    have hn : ∀ j, (fields b)[j]? = (checks b)[j]?.map fun x => (j + 1, x) := by
      intro j; rw [hf b e, numberedFrom1_getElem?]
    have hi' : (checks b)[i]? = some false ∧ f = 1 + i := by
      rw [hn] at hi
      cases hc : (checks b)[i]? with
      | none => simp [hc] at hi
      | some x => simp [hc] at hi; obtain ⟨rfl, rfl⟩ := hi; exact ⟨rfl, by omega⟩
    have hj' : ∀ j, j < i → (checks b)[j]? = some true := by
      intro j hlt
      obtain ⟨g, hg⟩ := hj j hlt
      rw [hn] at hg
      cases hc : (checks b)[j]? with
      | none => simp [hc] at hg
      | some x => simp [hc] at hg; rw [hg.2]
    rw [ha, ← hl, e]
    unfold Machine.checked
    simp only [firstFailure_some hi'.1 hj' 1, ← hi'.2]; rfl
  notReady b e hall hc := by
    rw [hx, h.refused]
    have : ∀ x ∈ checks b, x = true := by
      intro x hxm
      obtain ⟨j, hj⟩ := List.getElem?_of_mem hxm
      refine hall (j + 1, x) ?_
      refine List.mem_of_getElem? (i := j) ?_
      rw [hf b e, numberedFrom1_getElem?, hj]; rfl
    rw [ha, ← hl, e]
    unfold Machine.checked
    simp [firstFailure_none _ this 1, State.checking, hc, refuse]

end Sys2Proof.Machine
end

