-- ==== Sys2Proof/Laws/Claims.lean ====
section
/-! SUPPORT. What the operations of the lines keep of the agreement between lines, timers and pool (R54 to R56): the pool
under a request, a release and a withdrawal, the operations that touch no claim, and the operations of one line. -/

namespace Sys2Proof.Machine

/-! ### The pool (R57, R59, R61) -/

theorem Pool.heldBy_some {p : Pool} {n : LineNo} {g : Fin 2} (h : p.heldBy n = some g) : ∃ y, p.gens.get g = some ⟨n, y⟩ := by
  have key : ∀ g : Fin 2, (p.gens.get g).map (·.line) = some n → ∃ y, p.gens.get g = some ⟨n, y⟩ := by
    intro g hg
    cases e : p.gens.get g with
    | none => simp [e] at hg
    | some c =>
      obtain ⟨m, y⟩ := c
      simp only [e, Option.map_some, Option.some.injEq] at hg
      exact ⟨y, by rw [hg]⟩
  unfold Pool.heldBy at h
  split at h
  · next h0 => cases h; exact key 0 h0
  · split at h
    · next h1 => cases h; exact key 1 h1
    · cases h

theorem Pool.heldBy_none {p : Pool} {n : LineNo} (h : p.heldBy n = none) (g : Fin 2) (y : Symbol) :
    p.gens.get g ≠ some ⟨n, y⟩ := by
  unfold Pool.heldBy at h
  split at h
  · cases h
  · next h0 =>
    split at h
    · cases h
    · next h1 =>
      intro e
      match g with
      | 0 => exact h0 (by simp [e])
      | 1 => exact h1 (by simp [e])

namespace Pool.Serves

variable {p : Pool} {w w' : LineNo → Want}

theorem congr (h : p.Serves w) (e : ∀ n, w' n = w n) : p.Serves w' := by
  have : w' = w := funext e
  rwa [this]

theorem empty (hw : ∀ n, w n = .nothing) : Pool.empty.Serves w where
  one := by intro n y z h; simp [Pool.empty] at h
  once := by simp [Pool.empty]
  holds := by intro n; simp [Pool.empty, hw]
  waits := by intro n; simp [Pool.empty, hw]

/-- The two generators hold different lines (R54). -/
theorem held_once (h : p.Serves w) {n : LineNo} {g k : Fin 2} {y z : Symbol} (hg : p.gens.get g = some ⟨n, y⟩)
    (hk : p.gens.get k = some ⟨n, z⟩) : g = k := by
  match g, k with
  | 0, 0 | 1, 1 => rfl
  | 0, 1 => exact absurd hk (h.one n y z hg)
  | 1, 0 => exact absurd hg (h.one n z y hk)

theorem withdraw (h : p.Serves w) (n : LineNo) :
    (p.withdraw n).Serves fun m => if m = n ∧ w n = .asks then .nothing else w m where
  one := h.one
  once := by
    have := h.once
    simp only [Pool.withdraw]
    exact this.sublist (List.filter_sublist.map _)
  holds := by
    intro m
    refine (h.holds m).trans ?_
    split
    · next e => obtain ⟨rfl, e⟩ := e; simp [e]
    · rfl
  waits := by
    intro m
    have := h.waits m
    simp only [Pool.withdraw, List.mem_map, List.mem_filter, bne_iff_ne, ne_eq] at this ⊢
    split
    · next e =>
      obtain ⟨rfl, -⟩ := e
      simp only [reduceCtorEq, iff_false, not_exists, not_and, and_imp]
      intro c _ hc e
      exact hc e
    · next e =>
      rw [← this]
      constructor
      · rintro ⟨c, ⟨hc, -⟩, e⟩; exact ⟨c, hc, e⟩
      · rintro ⟨c, hc, rfl⟩
        refine ⟨c, ⟨hc, fun hn => e ⟨hn, ?_⟩⟩, rfl⟩
        rw [← hn]
        exact this.1 ⟨c, hc, rfl⟩

theorem request (h : p.Serves w) {n : LineNo} (hn : w n = .nothing) (y : Symbol) :
    (p.request ⟨n, y⟩).Serves fun m => if m = n then (if p.hasFree then .sounds else .asks) else w m := by
  have noHold : ∀ g z, p.gens.get g ≠ some ⟨n, z⟩ := fun g z e => by
    have := (h.holds n).1 ⟨g, z, e⟩; rw [hn] at this; cases this
  have noWait : n ∉ p.wait.map (·.line) := fun e => by
    have := (h.waits n).1 e; rw [hn] at this; cases this
  have grant : ∀ g : Fin 2, p.gens.get g = none → p.hasFree = true →
      ({ p with gens := p.gens.set g (some ⟨n, y⟩) } : Pool).Serves fun m =>
        if m = n then (if p.hasFree then .sounds else .asks) else w m := by
    intro g hg hf
    refine ⟨fun m y1 y2 ha hb => ?_, h.once, fun m => ?_, fun m => ?_⟩
    · simp only [Bank.get_set] at ha hb
      match g with
      | 0 => simp at ha hb; exact noHold 1 y2 (by rw [hb, ha.1])
      | 1 => simp at ha hb; exact noHold 0 y1 (by rw [ha, hb.1])
    · by_cases e : m = n
      · subst e
        simp only [hf, if_true, iff_true]
        exact ⟨g, y, by simp⟩
      · simp only [e, if_false]
        rw [← h.holds m]
        constructor
        · rintro ⟨k, z, hk⟩
          rw [Bank.get_set] at hk
          split at hk
          · simp only [Option.some.injEq, Claim.mk.injEq] at hk; exact absurd hk.1.symm e
          · exact ⟨k, z, hk⟩
        · rintro ⟨k, z, hk⟩
          refine ⟨k, z, ?_⟩
          rw [Bank.get_set]
          split
          · next ek => subst ek; rw [hg] at hk; cases hk
          · exact hk
    · by_cases e : m = n
      · subst e; simp only [hf, if_true, reduceCtorEq, iff_false]; exact noWait
      · simp only [e, if_false]; exact h.waits m
  unfold Pool.request
  split
  · next h0 => exact grant 0 h0 (by simp [Pool.hasFree, h0])
  · next h0 =>
    split
    · next h1 => exact grant 1 h1 (by simp [Pool.hasFree, h1])
    · next h1 =>
      have hf : p.hasFree = false := by
        simp only [Pool.hasFree, Bool.or_eq_false_iff, Option.isNone_eq_false_iff]
        exact ⟨Option.isSome_iff_ne_none.2 h0, Option.isSome_iff_ne_none.2 h1⟩
      refine ⟨h.one, ?_, fun m => ?_, fun m => ?_⟩
      · rw [List.map_append, List.nodup_append]
        refine ⟨h.once, by simp, ?_⟩
        intro i hi k hk
        simp only [List.map_cons, List.map_nil, List.mem_singleton] at hk
        rintro rfl
        subst hk
        exact noWait hi
      · by_cases e : m = n
        · subst e
          simp only [hf, if_true]
          simp only [Bool.false_eq_true, if_false, reduceCtorEq, iff_false, not_exists]
          exact fun g z => noHold g z
        · simp only [e, if_false]; exact h.holds m
      · by_cases e : m = n
        · subst e; simp [hf]
        · simp only [e, if_false, List.map_append, List.map_cons, List.map_nil, List.mem_append, List.mem_singleton, or_false]
          exact h.waits m

theorem release (h : p.Serves w) {n : LineNo} {g : Fin 2} (hg : p.heldBy n = some g) :
    (p.release g).Serves fun m =>
      if p.wait.head?.map (·.line) = some m then .sounds else if m = n then .nothing else w m := by
  obtain ⟨y, hy⟩ := Pool.heldBy_some hg
  have hs : w n = .sounds := (h.holds n).1 ⟨g, y, hy⟩
  have noWait : n ∉ p.wait.map (·.line) := fun e => by
    have := (h.waits n).1 e; rw [hs] at this; cases this
  unfold Pool.release
  split
  · next hw =>
    simp only [hw, List.head?_nil, Option.map_none, reduceCtorEq, if_false]
    refine ⟨fun m y1 y2 ha hb => ?_, by simp, fun m => ?_, fun m => ?_⟩
    · simp only [Bank.get_set] at ha hb
      split at ha
      · cases ha
      · split at hb
        · cases hb
        · exact h.one m y1 y2 ha hb
    · by_cases e : m = n
      · subst e
        simp only [if_true, reduceCtorEq, iff_false, not_exists]
        intro k z hk
        rw [Bank.get_set] at hk
        split at hk
        · cases hk
        · next ek => exact ek (h.held_once hy hk)
      · simp only [e, if_false]
        rw [← h.holds m]
        constructor
        · rintro ⟨k, z, hk⟩
          rw [Bank.get_set] at hk
          split at hk
          · cases hk
          · exact ⟨k, z, hk⟩
        · rintro ⟨k, z, hk⟩
          refine ⟨k, z, ?_⟩
          rw [Bank.get_set]
          split
          · next ek => subst ek; rw [hy] at hk; cases hk; exact absurd rfl e
          · exact hk
    · by_cases e : m = n
      · subst e; simp
      · simp only [e, if_false]; rw [← h.waits m]; simp [hw]
  · next c rest hw =>
    obtain ⟨k, x⟩ := c
    have hk : k ∈ p.wait.map (·.line) := by simp [hw]
    have hkn : k ≠ n := fun e => noWait (e ▸ hk)
    have hka : w k = .asks := (h.waits k).1 hk
    have once := h.once
    rw [hw] at once
    simp only [List.map_cons, List.nodup_cons] at once
    have noHold : ∀ f z, p.gens.get f ≠ some ⟨k, z⟩ := fun f z e => by
      have := (h.holds k).1 ⟨f, z, e⟩; rw [hka] at this; cases this
    simp only [hw, List.head?_cons, Option.map_some, Option.some.injEq]
    refine ⟨fun m y1 y2 ha hb => ?_, once.2, fun m => ?_, fun m => ?_⟩
    · simp only [Bank.get_set] at ha hb
      match g with
      | 0 => simp at ha hb; exact noHold 1 y2 (by rw [hb, ha.1])
      | 1 => simp at ha hb; exact noHold 0 y1 (by rw [ha, hb.1])
    · by_cases e : k = m
      · subst e
        simp only [if_true, iff_true]
        exact ⟨g, x, by simp⟩
      · simp only [e, if_false]
        by_cases en : m = n
        · subst en
          simp only [if_true, reduceCtorEq, iff_false, not_exists]
          intro f z hf
          rw [Bank.get_set] at hf
          split at hf
          · simp only [Option.some.injEq, Claim.mk.injEq] at hf; exact e hf.1
          · next ef => exact ef (h.held_once hy hf)
        · simp only [en, if_false]
          rw [← h.holds m]
          constructor
          · rintro ⟨f, z, hf⟩
            rw [Bank.get_set] at hf
            split at hf
            · simp only [Option.some.injEq, Claim.mk.injEq] at hf; exact absurd hf.1 e
            · exact ⟨f, z, hf⟩
          · rintro ⟨f, z, hf⟩
            refine ⟨f, z, ?_⟩
            rw [Bank.get_set]
            split
            · next ef => subst ef; rw [hy] at hf; cases hf; exact absurd rfl en
            · exact hf
    · by_cases e : k = m
      · subst e; simp only [if_true, reduceCtorEq, iff_false]; exact once.1
      · simp only [e, if_false]
        by_cases en : m = n
        · subst en
          simp only [if_true, reduceCtorEq, iff_false]
          intro hm; exact noWait (by rw [hw]; simp only [List.map_cons, List.mem_cons]; exact .inr hm)
        · simp only [en, if_false]
          rw [← h.waits m, hw]
          simp only [List.map_cons, List.mem_cons]
          constructor
          · exact .inr
          · rintro (e' | hm)
            · exact absurd e'.symm e
            · exact hm

end Pool.Serves

/-! ### Operations that touch no claim -/

/-- What the claims rest on stands: the pool, and the state, cursor, manual digit and timers of every line. -/
structure State.SameClaims (s t : State) : Prop where
  pool : t.pool = s.pool
  line : ∀ n, (t.line n).st = (s.line n).st ∧ (t.line n).cursor = (s.line n).cursor ∧
    (t.line n).manual = (s.line n).manual ∧ (t.line n).timers = (s.line n).timers

namespace State.SameClaims

variable {s t u : State}

theorem refl (s : State) : s.SameClaims s := ⟨rfl, fun _ => ⟨rfl, rfl, rfl, rfl⟩⟩

theorem trans (h : s.SameClaims t) (k : t.SameClaims u) : s.SameClaims u :=
  ⟨k.pool.trans h.pool, fun n =>
    ⟨(k.line n).1.trans (h.line n).1, (k.line n).2.1.trans (h.line n).2.1, (k.line n).2.2.1.trans (h.line n).2.2.1,
      (k.line n).2.2.2.trans (h.line n).2.2.2⟩⟩

theorem ofEq (h : s.SameClaims t) (hl : u.lines = t.lines) (hp : u.pool = t.pool) : s.SameClaims u :=
  h.trans ⟨hp, fun n => by
    have e : u.line n = t.line n := by simp only [State.line, hl]
    rw [e]
    exact ⟨rfl, rfl, rfl, rfl⟩⟩

theorem onLine (h : s.SameClaims t) (n : LineNo) (f : Line → Line)
    (hf : ∀ l : Line, (f l).st = l.st ∧ (f l).cursor = l.cursor ∧ (f l).manual = l.manual ∧ (f l).timers = l.timers) :
    s.SameClaims (t.onLine n f) :=
  h.trans ⟨rfl, fun m => by
    simp only [State.onLine, State.line_putLine]
    split
    · next e => subst e; exact hf _
    · exact ⟨rfl, rfl, rfl, rfl⟩⟩

theorem advance (h : s.SameClaims t) (d : Nat) : s.SameClaims (t.advanceTo d) := h.ofEq rfl rfl
theorem onJobs (h : s.SameClaims t) (f : JobEngine → JobEngine) : s.SameClaims (t.onJobs f) := h.ofEq rfl rfl
theorem onJob (h : s.SameClaims t) (i : Nat) (f : Job → Job) : s.SameClaims (t.onJob i f) := h.ofEq rfl rfl
theorem setRetry (h : s.SameClaims t) (n : LineNo) (r : RetryTimer) : s.SameClaims (t.setRetry n r) := h.ofEq rfl rfl
theorem onKeys (h : s.SameClaims t) (f : KeyScanner → KeyScanner) : s.SameClaims (t.onKeys f) := h.ofEq rfl rfl
theorem onKey (h : s.SameClaims t) (k : KeyNo) (f : Key → Key) : s.SameClaims (t.onKey k f) := h.ofEq rfl rfl
theorem onStore (h : s.SameClaims t) (f : Store → Store) : s.SameClaims (t.onStore f) := h.ofEq rfl rfl
theorem onLink (h : s.SameClaims t) (f : LinkPort → LinkPort) : s.SameClaims (t.onLink f) := h.ofEq rfl rfl
theorem draw (h : s.SameClaims t) (f : Nat → Bool) : s.SameClaims (t.draw f).2 := h.ofEq rfl rfl

theorem onlyNotes (h : s.SameClaims t) (k : OnlyNotes t u) : s.SameClaims u := h.ofEq k.lines k.pool

theorem latch (h : s.SameClaims t) (src : SourceNo) (f : Flag) : s.SameClaims (t.latch src f) :=
  h.onlyNotes (t.latch_only src f)

theorem latchLine (h : s.SameClaims t) (n : LineNo) (f : Flag) : s.SameClaims (t.latchLine n f) := h.latch _ f
theorem latchKeys (h : s.SameClaims t) (f : Flag) : s.SameClaims (t.latchKeys f) := h.latch _ f
theorem latchStore (h : s.SameClaims t) (f : Flag) : s.SameClaims (t.latchStore f) := h.latch _ f

theorem latchInput (h : s.SameClaims t) (n : LineNo) (f : Flag) : s.SameClaims (t.latchInput n f) := by
  unfold State.latchInput
  split
  · exact h
  · exact h.latchLine n f

theorem onActive (h : s.SameClaims t) (n : LineNo) (f : Job → Job) : s.SameClaims (t.onActive n f) := by
  unfold State.onActive
  split
  · split
    · exact h.onJob _ _
    · exact h
  · exact h

theorem reportPhase (h : s.SameClaims t) (n : LineNo) (p : Phase) : s.SameClaims (t.reportPhase n p) := h.onActive n _

theorem countSymbol (h : s.SameClaims t) (n : LineNo) : s.SameClaims (t.countSymbol n) := by
  unfold State.countSymbol
  split
  · exact h.onActive n _
  · exact h

theorem tellScanner (h : s.SameClaims t) (j : Job) : s.SameClaims (t.tellScanner j) := by
  unfold State.tellScanner
  split
  · exact h
  · exact h.ofEq rfl rfl

theorem finishJob (h : s.SameClaims t) (j : Job) (o : JobOutcome) (c : Cause) : s.SameClaims (t.finishJob j o c) := by
  simp only [State.finishJob]
  refine SameClaims.tellScanner (SameClaims.latchLine (SameClaims.onLine ((h.onJob _ _).onJobs _) _ _ ?_) _ _) j
  exact fun _ => ⟨rfl, rfl, rfl, rfl⟩

theorem takeCourse (h : s.SameClaims t) (j : Job) (c : Cause) : s.SameClaims (t.takeCourse j c) := by
  unfold State.takeCourse
  split
  · exact (h.onJob _ _).setRetry _ _
  · exact (h.onJob _ _).setRetry _ _
  · exact h.finishJob _ _ _

theorem attemptFailed (h : s.SameClaims t) (n : LineNo) (c : Cause) : s.SameClaims (t.attemptFailed n c) := by
  simp only [State.attemptFailed]
  split
  · exact h
  · refine SameClaims.takeCourse (SameClaims.latchLine (SameClaims.onLine (h.onJob _ _) _ _ ?_) _ _) _ _
    exact fun _ => ⟨rfl, rfl, rfl, rfl⟩

theorem finishHead (h : s.SameClaims t) (n : LineNo) (o : JobOutcome) (c : Cause) : s.SameClaims (t.finishHead n o c) := by
  unfold State.finishHead
  split
  · exact h
  · exact h.finishJob _ _ _

theorem takeResolution (h : s.SameClaims t) (r : Resolution) : s.SameClaims (t.takeResolution r) := by
  unfold State.takeResolution
  split
  · exact h.onJob _ _
  · exact (h.onJob _ _).finishJob _ _ _

theorem resolve (h : s.SameClaims t) (j : Job) : s.SameClaims (t.resolve j) := by
  unfold State.resolve
  split
  · exact h.takeResolution _
  · split
    · exact h
    · exact h.takeResolution _

theorem resolveWaiting (h : s.SameClaims t) (n : LineNo) : s.SameClaims (t.resolveWaiting n) := by
  unfold State.resolveWaiting
  split
  · exact h
  · split
    · exact h.resolve _
    · exact h

theorem eachLine (h : s.SameClaims t) (f : LineNo → State → State) (hf : ∀ (n : LineNo) (u : State), u.SameClaims (f n u)) :
    s.SameClaims (t.eachLine f) := by
  unfold State.eachLine
  exact (((h.trans (hf 0 _)).trans (hf 1 _)).trans (hf 2 _)).trans (hf 3 _)

theorem startHead (h : s.SameClaims t) (n : LineNo) : s.SameClaims (t.startHead n) := by
  simp only [State.startHead]
  split
  · exact h
  · split
    · exact (h.onJob _ _).setRetry _ _
    · exact ((h.onJob _ _).setRetry _ _).resolve _

theorem evict (h : s.SameClaims t) : s.SameClaims t.evict := by
  simp only [State.evict]
  split
  · exact h
  · refine SameClaims.latch (h.ofEq ?_ ?_) _ _ <;> rfl

theorem acceptJob (h : s.SameClaims t) (b : Submission) : s.SameClaims (t.acceptJob b) := by
  simp only [State.acceptJob]
  refine SameClaims.onJobs ?_ _
  unfold State.freeSlot
  split
  · exact h.evict
  · exact h

theorem completeOp (h : s.SameClaims t) (op : OpRecord) (r : OpResult) : s.SameClaims (t.completeOp op r) := by
  simp only [State.completeOp]
  exact (((h.onStore _).latchStore _).onStore _).eachLine _ fun n u => (refl u).resolveWaiting n

end State.SameClaims

/-! ### The agreement, and the agreement but for one line -/

/-- The lines have the shape of their timers, and the pool serves what they want. -/
structure State.Fit (s : State) : Prop where
  shaped : ∀ n, (s.line n).Shaped
  serves : s.pool.Serves fun n => (s.line n).want

/-- The agreement, line `n` apart: the pool serves it as if it wanted `w`. -/
structure State.FitBut (n : LineNo) (w : Want) (s : State) : Prop where
  shaped : ∀ m, m ≠ n → (s.line m).Shaped
  serves : s.pool.Serves fun m => if m = n then w else (s.line m).want

/-- No timer that belongs to a line state or a sub-phase runs, the no-answer timer apart, and no manual digit. -/
structure Line.Resting (l : Line) : Prop where
  seize : l.timers.seize = none
  postSeize : l.timers.postSeize = none
  dialTone : l.timers.dialTone = none
  guard : l.timers.guard = none
  breakT : l.timers.breakT = none
  makePeriod : l.timers.makePeriod = none
  interdigit : l.timers.interdigit = none
  tone : l.timers.tone = none
  toneGap : l.timers.toneGap = none
  pause : l.timers.pause = none
  flash : l.timers.flash = none
  minTone : l.timers.minTone = none
  manual : l.manual.activity = .none

theorem Line.Shaped.congr {l m : Line} (h : l.Shaped) (h1 : m.st = l.st) (h2 : m.cursor.sub = l.cursor.sub)
    (h3 : m.manual.activity = l.manual.activity)
    (h4 : m.timers = { l.timers with disconnect := m.timers.disconnect, make := m.timers.make }) : m.Shaped := by
  constructor <;> (try rw [h4]) <;> simp only [h1, h2, h3]
  exacts [h.seize, h.postSeize, h.dialTone, h.noAnswer, h.guard, h.breakT, h.makePeriod, h.interdigit, h.tone, h.toneGap,
    h.pause, h.flash, h.minTone, h.manual]

theorem Line.want_congr {l m : Line} (h1 : m.st = l.st) (h2 : m.cursor.sub = l.cursor.sub)
    (h3 : m.manual.activity = l.manual.activity) : m.want = l.want := by
  simp only [Line.want, h1, h2, h3]

@[simp] theorem Line.settle_want (now : Nat) (l : Line) : (l.settle now).want = l.want := rfl

theorem Line.Shaped.settle {l : Line} (h : l.Shaped) (now : Nat) : (l.settle now).Shaped := h.congr rfl rfl rfl rfl

/-! ### A line at rest -/

theorem none_of {α : Type} {o : Option α} {P : Prop} (h : o.isSome = true → P) (hp : ¬ P) : o = none := by
  cases o with
  | none => rfl
  | some x => exact absurd (h rfl) hp

namespace Line.Shaped

variable {l : Line}

theorem noManual (h : l.Shaped) (hs : l.st ≠ .connected) : l.manual.activity = .none := by
  by_contra e
  exact hs (h.manual e)

/-- A line in a state that keeps no such timer is at rest. -/
theorem resting (h : l.Shaped) (hs : l.st = .disabled ∨ l.st = .idle ∨ l.st = .awaitProgress ∨ l.st = .held) :
    l.Resting := by
  constructor
  case manual => exact h.noManual (by rcases hs with e | e | e | e <;> simp [e])
  all_goals rcases hs with e | e | e | e
  all_goals first
    | exact none_of h.seize (by simp [e])
    | exact none_of h.postSeize (by simp [e])
    | exact none_of h.dialTone (by simp [e])
    | exact none_of h.guard (by simp [e])
    | exact none_of h.breakT (by simp [e])
    | exact none_of h.makePeriod (by simp [e])
    | exact none_of h.interdigit (by simp [e])
    | exact none_of h.tone (by simp [e])
    | exact none_of h.toneGap (by simp [e])
    | exact none_of h.pause (by simp [e])
    | exact none_of h.flash (by simp [e])
    | exact none_of h.minTone (by simp [e])

/-- CONNECTED with no manual digit is at rest. -/
theorem restingConnected (h : l.Shaped) (e : l.st = .connected) (hm : l.manual.activity = .none) : l.Resting := by
  constructor
  case manual => exact hm
  all_goals first
    | exact none_of h.seize (by simp [e])
    | exact none_of h.postSeize (by simp [e])
    | exact none_of h.dialTone (by simp [e])
    | exact none_of h.guard (by simp [e])
    | exact none_of h.breakT (by simp [e])
    | exact none_of h.makePeriod (by simp [e])
    | exact none_of h.interdigit (by simp [e])
    | exact none_of h.tone (by simp [e])
    | exact none_of h.toneGap (by simp [e])
    | exact none_of h.pause (by simp [e])
    | exact none_of h.flash (by simp [e])
    | exact none_of h.minTone (by simp [hm])

end Line.Shaped

/-- The timer of a sub-phase stopped. -/
def SubPhase.clear : SubPhase → LineTimers → LineTimers
  | .waitTone, t => { t with dialTone := .none }
  | .pulseBreak, t => { t with breakT := .none }
  | .pulseMake, t => { t with makePeriod := .none }
  | .interdigit, t => { t with interdigit := .none }
  | .toneOn, t => { t with tone := .none }
  | .toneGap, t => { t with toneGap := .none }
  | .pause, t => { t with pause := .none }
  | .flashBreak, t => { t with flash := .none }
  | .none, t | .toneRequest, t => t

namespace Line.Shaped

variable {l : Line}

/-- A DIALING line is at rest once the timer of its sub-phase is stopped, and no no-answer timer runs. -/
theorem dialing (h : l.Shaped) (hs : l.st = .dialing) :
    (l.withTimers l.cursor.sub.clear).Resting ∧ l.timers.noAnswer = none := by
  refine ⟨?_, none_of h.noAnswer (by simp [hs])⟩
  constructor
  case manual => exact h.noManual (by simp [hs])
  all_goals
    cases hc : l.cursor.sub <;> first
      | rfl
      | exact none_of h.seize (by simp [hs])
      | exact none_of h.postSeize (by simp [hs])
      | exact none_of h.dialTone (by simp [hs, hc])
      | exact none_of h.guard (by simp [hs])
      | exact none_of h.breakT (by simp [hs, hc])
      | exact none_of h.makePeriod (by simp [hs, hc])
      | exact none_of h.interdigit (by simp [hs, hc])
      | exact none_of h.tone (by simp [hs, hc])
      | exact none_of h.toneGap (by simp [hs, hc])
      | exact none_of h.pause (by simp [hs, hc])
      | exact none_of h.flash (by simp [hs, hc])
      | exact none_of h.minTone (by simp [hs])

/-- An AWAIT_DIALTONE line is at rest once its timer is stopped. -/
theorem awaitDialtone (h : l.Shaped) (hs : l.st = .awaitDialtone) :
    (l.withTimers fun t => { t with dialTone := none }).Resting ∧ l.timers.noAnswer = none := by
  refine ⟨?_, none_of h.noAnswer (by simp [hs])⟩
  constructor
  case manual => exact h.noManual (by simp [hs])
  all_goals first
    | rfl
    | exact none_of h.seize (by simp [hs])
    | exact none_of h.postSeize (by simp [hs])
    | exact none_of h.guard (by simp [hs])
    | exact none_of h.breakT (by simp [hs])
    | exact none_of h.makePeriod (by simp [hs])
    | exact none_of h.interdigit (by simp [hs])
    | exact none_of h.tone (by simp [hs])
    | exact none_of h.toneGap (by simp [hs])
    | exact none_of h.pause (by simp [hs])
    | exact none_of h.flash (by simp [hs])
    | exact none_of h.minTone (by simp [hs])

/-- A SEIZING line is at rest once its two timers are stopped. -/
theorem seizing (h : l.Shaped) (hs : l.st = .seizing) :
    (l.withTimers fun t => { t with seize := none, postSeize := none }).Resting ∧ l.timers.noAnswer = none := by
  refine ⟨?_, none_of h.noAnswer (by simp [hs])⟩
  constructor
  case manual => exact h.noManual (by simp [hs])
  all_goals first
    | rfl
    | exact none_of h.dialTone (by simp [hs])
    | exact none_of h.guard (by simp [hs])
    | exact none_of h.breakT (by simp [hs])
    | exact none_of h.makePeriod (by simp [hs])
    | exact none_of h.interdigit (by simp [hs])
    | exact none_of h.tone (by simp [hs])
    | exact none_of h.toneGap (by simp [hs])
    | exact none_of h.pause (by simp [hs])
    | exact none_of h.flash (by simp [hs])
    | exact none_of h.minTone (by simp [hs])

end Line.Shaped

/-! ### The agreement under the pool's operations -/

namespace State.FitBut

variable {s t : State} {n : LineNo} {w : Want}

theorem same (h : s.FitBut n w) (k : s.SameClaims t) : t.FitBut n w := by
  refine ⟨fun m hm => ?_, ?_⟩
  · obtain ⟨k1, k2, k3, k4⟩ := k.line m
    exact (h.shaped m hm).congr k1 (by rw [k2]) (by rw [k3]) (by rw [k4])
  · rw [k.pool]
    refine h.serves.congr fun m => ?_
    obtain ⟨k1, k2, k3, -⟩ := k.line m
    rw [Line.want_congr k1 (by rw [k2]) (by rw [k3])]

theorem onLine (h : s.FitBut n w) (f : Line → Line) : (s.onLine n f).FitBut n w := by
  have e : ∀ m, m ≠ n → (s.onLine n f).line m = s.line m := fun m hm =>
    State.line_putLine_ne _ _ (Ne.symm hm)
  refine ⟨fun m hm => by rw [e m hm]; exact h.shaped m hm, h.serves.congr fun m => ?_⟩
  by_cases hm : m = n
  · simp [hm]
  · simp [hm, e m hm]

theorem fit (h : s.FitBut n w) (h1 : (s.line n).Shaped) (h2 : (s.line n).want = w) : s.Fit := by
  refine ⟨fun m => ?_, h.serves.congr fun m => ?_⟩
  · by_cases hm : m = n
    · rw [hm]; exact h1
    · exact h.shaped m hm
  · by_cases hm : m = n
    · simp [hm, h2]
    · simp [hm]

/-- A line that asks takes its grant. -/
theorem takeGrant_asks {now : Nat} {l : Line} (h : l.Shaped) (hw : l.want = .asks) :
    (l.takeGrant now).Shaped ∧ (l.takeGrant now).want = .sounds ∧ (l.takeGrant now).st = l.st := by
  cases hs : l.st <;> simp only [Line.want, hs, reduceCtorEq] at hw
  · cases hc : l.cursor.sub <;> simp only [hc, reduceCtorEq] at hw
    have e : l.takeGrant now = { l with
        cursor := { l.cursor with sub := .toneOn }
        timers := { l.timers with tone := some (now + l.committed.toneOnMs) } } := by
      simp [Line.takeGrant, hs, hc]
    have q := h.dialing hs
    rw [hc] at q
    obtain ⟨q, q'⟩ := q
    rw [e]
    refine ⟨?_, by simp [Line.want, hs], hs⟩
    constructor <;> intro x
    case tone => exact ⟨hs, rfl⟩
    case manual => exact absurd q.manual x
    case noAnswer => simp [q'] at x
    case seize => have := q.seize; simp [SubPhase.clear, Line.withTimers] at this; simp [this] at x
    case postSeize => have := q.postSeize; simp [SubPhase.clear, Line.withTimers] at this; simp [this] at x
    case dialTone => have := q.dialTone; simp [SubPhase.clear, Line.withTimers] at this; simp [this] at x
    case guard => have := q.guard; simp [SubPhase.clear, Line.withTimers] at this; simp [this] at x
    case breakT => have := q.breakT; simp [SubPhase.clear, Line.withTimers] at this; simp [this] at x
    case makePeriod => have := q.makePeriod; simp [SubPhase.clear, Line.withTimers] at this; simp [this] at x
    case interdigit => have := q.interdigit; simp [SubPhase.clear, Line.withTimers] at this; simp [this] at x
    case toneGap => have := q.toneGap; simp [SubPhase.clear, Line.withTimers] at this; simp [this] at x
    case pause => have := q.pause; simp [SubPhase.clear, Line.withTimers] at this; simp [this] at x
    case flash => have := q.flash; simp [SubPhase.clear, Line.withTimers] at this; simp [this] at x
    case minTone => have := q.minTone; simp [SubPhase.clear, Line.withTimers] at this; simp [this] at x
  · cases hm : l.manual.activity <;> simp only [hm, reduceCtorEq] at hw
    have e : l.takeGrant now = { l with
        manual := { l.manual with activity := .sounding }
        timers := { l.timers with minTone := some (now + l.committed.toneOnMs) } } := by
      simp [Line.takeGrant, hs, hm]
    rw [e]
    refine ⟨?_, by simp [Line.want, hs], hs⟩
    exact
      { seize := h.seize, postSeize := h.postSeize, dialTone := h.dialTone, noAnswer := h.noAnswer, guard := h.guard
        breakT := h.breakT, makePeriod := h.makePeriod, interdigit := h.interdigit, tone := h.tone, toneGap := h.toneGap
        pause := h.pause, flash := h.flash, minTone := fun _ => ⟨hs, rfl⟩, manual := fun _ => hs }

/-- The request of a line that asks (R57). -/
theorem requestTone (h : s.FitBut n .nothing) (h1 : (s.line n).Shaped) (h2 : (s.line n).want = .asks) (y : Symbol) :
    (s.requestTone n y).Fit := by
  have r := h.serves.request (n := n) (by simp) y
  have k : ({ s with pool := s.pool.request ⟨n, y⟩ } : State).FitBut n (if s.pool.hasFree then .sounds else .asks) := by
    refine ⟨h.shaped, r.congr fun m => ?_⟩
    by_cases e : m = n
    · simp [e]
    · simp only [e, if_false]; rfl
  simp only [State.requestTone]
  split
  · next hf =>
    rw [hf] at k
    obtain ⟨g1, g2, -⟩ := takeGrant_asks (now := s.now) h1 h2
    refine (k.onLine (Line.takeGrant s.now)).fit ?_ ?_
    · simp only [State.onLine, State.line_putLine_self]; exact g1.settle _
    · simp only [State.onLine, State.line_putLine_self, Line.settle_want]; exact g2
  · next hf =>
    simp only [Bool.not_eq_true] at hf
    rw [hf] at k
    exact k.fit h1 h2

theorem withdrawTone (h : s.FitBut n w) : (s.withdrawTone n).FitBut n (if w = .asks then .nothing else w) := by
  refine ⟨h.shaped, (h.serves.withdraw n).congr fun m => ?_⟩
  by_cases e : m = n
  · subst e; simp
  · simp only [e, if_false, false_and]; rfl

/-- A line's generator released, the line not waiting (R59). -/
theorem releaseTone (h : s.FitBut n w) (hw : w ≠ .asks) :
    (s.releaseTone n).FitBut n .nothing ∧ (s.releaseTone n).line n = s.line n := by
  simp only [State.releaseTone]
  split
  · next hn =>
    refine ⟨?_, rfl⟩
    have e : w = .nothing := by
      cases w with
      | nothing => rfl
      | asks => exact absurd rfl hw
      | sounds =>
        obtain ⟨g, y, hg⟩ := (h.serves.holds n).2 (by simp)
        exact absurd hg (Pool.heldBy_none hn g y)
    rw [← e]; exact h
  · next g hg =>
    have r := h.serves.release hg
    split
    · next hd =>
      refine ⟨⟨h.shaped, r.congr fun m => ?_⟩, rfl⟩
      simp only [hd, Option.map_none, reduceCtorEq, if_false]
      by_cases e : m = n
      · simp [e]
      · simp only [e, if_false]; rfl
    · next c hd =>
      have hm : c.line ∈ s.pool.wait.map (·.line) := List.mem_map.2 ⟨c, List.mem_of_mem_head? (by simp [hd]), rfl⟩
      have hq := (h.serves.waits c.line).1 hm
      have hcn : c.line ≠ n := by
        rintro e
        simp only [e, if_true] at hq
        exact hw hq
      simp only [hcn, if_false] at hq
      obtain ⟨g1, g2, -⟩ := takeGrant_asks (now := s.now) (h.shaped _ hcn) hq
      refine ⟨⟨fun m hmn => ?_, r.congr fun m => ?_⟩, ?_⟩
      · simp only [State.takeGrant, State.onLine, State.line_putLine]
        split
        · next e => subst e; exact g1.settle _
        · exact h.shaped m hmn
      · simp only [State.takeGrant, State.onLine, State.line_putLine, hd, Option.map_some, Option.some.injEq]
        by_cases e : m = n
        · subst e; simp [hcn]
        · by_cases ec : c.line = m
          · subst ec
            simp only [hcn, if_false, if_true, Line.settle_want]
            exact g2
          · simp only [e, ec, if_false]; rfl
      · simp only [State.takeGrant, State.onLine]
        exact State.line_putLine_ne _ _ hcn

/-- A line gives up its place and its generator (R61, R63). -/
theorem freed (h : s.FitBut n w) : ((s.withdrawTone n).releaseTone n).FitBut n .nothing ∧
    ((s.withdrawTone n).releaseTone n).line n = s.line n :=
  h.withdrawTone.releaseTone (by split <;> simp_all)

end State.FitBut

theorem State.Fit.same {s t : State} (h : s.Fit) (k : s.SameClaims t) : t.Fit := by
  refine ⟨fun m => ?_, ?_⟩
  · obtain ⟨k1, k2, k3, k4⟩ := k.line m
    exact (h.shaped m).congr k1 (by rw [k2]) (by rw [k3]) (by rw [k4])
  · rw [k.pool]
    refine h.serves.congr fun m => ?_
    obtain ⟨k1, k2, k3, -⟩ := k.line m
    rw [Line.want_congr k1 (by rw [k2]) (by rw [k3])]

theorem State.Fit.apart {s : State} (h : s.Fit) (n : LineNo) : s.FitBut n (s.line n).want :=
  ⟨fun m _ => h.shaped m, h.serves.congr fun m => by by_cases e : m = n <;> simp [e]⟩

theorem State.Fit.onLine {s : State} (h : s.Fit) {n : LineNo} (f : Line → Line) (h1 : (f (s.line n)).Shaped)
    (h2 : (f (s.line n)).want = (s.line n).want) : (s.onLine n f).Fit := by
  refine ((h.apart n).onLine f).fit ?_ ?_
  · simp only [State.onLine, State.line_putLine_self]; exact h1.settle _
  · simp only [State.onLine, State.line_putLine_self, Line.settle_want]; exact h2

end Sys2Proof.Machine
end

