-- ==== Sys2Proof/Laws/ClaimOps.lean ====
section
/-! SUPPORT. Every operation of a line keeps the agreement of lines, timers and pool (R54 to R56), from the conditions it
is carried out in. -/

namespace Sys2Proof.Machine

/-- Line `n` wants no generator, holds none, and is at rest. -/
structure State.AtRest (n : LineNo) (s : State) : Prop where
  but : s.FitBut n .nothing
  rest : (s.line n).Resting

theorem Line.Resting.congr {l m : Line} (h : l.Resting) (h1 : m.manual.activity = l.manual.activity)
    (h2 : m.timers = { l.timers with
      noAnswer := m.timers.noAnswer, disconnect := m.timers.disconnect, make := m.timers.make }) : m.Resting := by
  constructor <;> (try rw [h2]) <;> simp only [h1]
  exacts [h.seize, h.postSeize, h.dialTone, h.guard, h.breakT, h.makePeriod, h.interdigit, h.tone, h.toneGap, h.pause,
    h.flash, h.minTone, h.manual]

theorem Line.Resting.settle {l : Line} (h : l.Resting) (now : Nat) : (l.settle now).Resting := h.congr rfl rfl

/-! ### Supervision touches no claim (R22) -/

theorem Line.supervise_fields (now : Nat) (l : Line) : (l.supervise now).st = l.st ∧ (l.supervise now).cursor = l.cursor ∧
    (l.supervise now).manual = l.manual ∧ ∃ d, (l.supervise now).timers = { l.timers with disconnect := d } := by
  unfold Line.supervise
  split
  · exact ⟨rfl, rfl, rfl, _, rfl⟩
  · exact ⟨rfl, rfl, rfl, _, rfl⟩

theorem Line.Shaped.supervise {l : Line} (h : l.Shaped) (now : Nat) : (l.supervise now).Shaped := by
  obtain ⟨h1, h2, h3, d, h4⟩ := Line.supervise_fields now l
  exact h.congr h1 (by rw [h2]) (by rw [h3]) (by rw [h4])

theorem Line.supervise_want (now : Nat) (l : Line) : (l.supervise now).want = l.want := by
  obtain ⟨h1, h2, h3, -⟩ := Line.supervise_fields now l
  exact Line.want_congr h1 (by rw [h2]) (by rw [h3])

namespace State

variable {s t : State} {n : LineNo} {w : Want}

@[simp] theorem onLine_line (n : LineNo) (f : Line → Line) (s : State) :
    (s.onLine n f).line n = (f (s.line n)).settle s.now := by simp [State.onLine]

/-- A line written with a shape of its own, where the pool serves what it then wants. -/
theorem FitBut.write (h : s.FitBut n w) (f : Line → Line) (h1 : (f (s.line n)).Shaped) (h2 : (f (s.line n)).want = w) :
    (s.onLine n f).Fit :=
  (h.onLine f).fit (by simpa using h1.settle _) (by simpa using h2)

theorem AtRest.same (h : s.AtRest n) (k : s.SameClaims t) : t.AtRest n :=
  ⟨h.but.same k, h.rest.congr (by rw [(k.line n).2.2.1]) (by rw [(k.line n).2.2.2])⟩

/-- A line without a claim, whose written form is at rest. -/
theorem FitBut.atRest (h : s.FitBut n .nothing) (f : Line → Line) (h1 : (f (s.line n)).Resting) : (s.onLine n f).AtRest n :=
  ⟨h.onLine f, by simpa using h1.settle _⟩

/-! ### Leaving an attempt -/

theorem FitBut.enterReleasing (h : s.FitBut n w) : (s.enterReleasing n).Fit := by
  have k := h.onLine (Line.releasing s.now)
  obtain ⟨k1, k2⟩ := k.freed
  have e : (s.onLine n (Line.releasing s.now)).line n = ((s.line n).releasing s.now).settle s.now := by simp
  refine k1.fit ?_ ?_
  · rw [k2, e]
    refine Line.Shaped.settle ?_ _
    constructor <;> simp [Line.releasing, LineTimers.stopped, Manual.idle]
  · rw [k2, e]; rfl

theorem FitBut.failAttempt (h : s.FitBut n w) (c : Cause) : (s.failAttempt n c).Fit :=
  h.enterReleasing.same ((SameClaims.refl _).attemptFailed n c)

theorem FitBut.endCall (h : s.FitBut n w) (o : JobOutcome) (c : Cause) : (s.endCall n o c).Fit :=
  h.enterReleasing.same ((SameClaims.refl _).finishHead n o c)

theorem Fit.failAttempt (h : s.Fit) (n : LineNo) (c : Cause) : (s.failAttempt n c).Fit := (h.apart n).failAttempt c
theorem Fit.endCall (h : s.Fit) (n : LineNo) (o : JobOutcome) (c : Cause) : (s.endCall n o c).Fit := (h.apart n).endCall o c

theorem Fit.loopLost (h : s.Fit) (n : LineNo) : (s.loopLost n).Fit := by
  simp only [State.loopLost]
  split
  · exact h.failAttempt n _
  · exact h.failAttempt n _
  · split
    · exact h.endCall n _ _
    · exact h.failAttempt n _
  · exact h.endCall n _ _
  · exact h.endCall n _ _
  all_goals exact h

theorem Fit.release (h : s.Fit) (n : LineNo) {u : State} (hu : s.release n = some u) : u.Fit := by
  simp only [State.release] at hu
  split at hu <;> first | (cases hu; exact h.endCall n _ _) | cases hu

theorem Fit.cancelJob (h : s.Fit) (j : Job) : (s.cancelJob j).Fit := by
  unfold State.cancelJob
  split
  · exact h.endCall _ _ _
  · exact h.same ((SameClaims.refl _).finishJob _ _ _)

/-! ### States after dialing -/

theorem AtRest.enterConnected (h : s.AtRest n) : (s.enterConnected n).Fit := by
  refine Fit.same ?_ ((SameClaims.refl _).reportPhase n _)
  obtain ⟨q1, q2, q3, q4, q5, q6, q7, q8, q9, q10, q11, q12, q13⟩ := h.rest
  refine h.but.write _ ?_ ?_
  · constructor <;> simp [Line.enterConnected, Line.startSession, q1, q2, q3, q4, q5, q6, q7, q8, q9, q10, q11, q12, q13]
  · simp [Line.want, Line.enterConnected, Line.startSession, q13]

theorem AtRest.connect (h : s.AtRest n) : (s.connect n).Fit := h.enterConnected.same ((SameClaims.refl _).onActive n _)

theorem AtRest.enterAwaitProgress (h : s.AtRest n) : (s.enterAwaitProgress n).Fit := by
  refine Fit.same ?_ ((SameClaims.refl _).reportPhase n _)
  obtain ⟨q1, q2, q3, q4, q5, q6, q7, q8, q9, q10, q11, q12, q13⟩ := h.rest
  refine h.but.write _ ?_ ?_
  · constructor <;>
      simp [Line.enterAwaitProgress, Line.startSession, q1, q2, q3, q4, q5, q6, q7, q8, q9, q10, q11, q12, q13]
  · simp [Line.want, Line.enterAwaitProgress]

theorem AtRest.endProgram (h : s.AtRest n) : (s.endProgram n).Fit := by
  simp only [State.endProgram]
  split
  · exact h.enterConnected
  · split
    · exact h.enterAwaitProgress
    · exact h.connect

/-! ### Sub-phases -/

/-- Line `n` is DIALING, at rest between two symbols. -/
structure Between (n : LineNo) (s : State) : Prop extends AtRest n s where
  st : (s.line n).st = .dialing
  noAnswer : (s.line n).timers.noAnswer = none

theorem Between.same (h : s.Between n) (k : s.SameClaims t) : t.Between n :=
  ⟨h.toAtRest.same k, (k.line n).1.trans h.st, by rw [(k.line n).2.2.2]; exact h.noAnswer⟩

theorem Between.onLine (h : s.Between n) (f : Line → Line) (h1 : (f (s.line n)).Resting)
    (h2 : (f (s.line n)).st = .dialing) (h3 : (f (s.line n)).timers.noAnswer = none) : (s.onLine n f).Between n :=
  ⟨h.but.atRest f h1, by simpa using h2, by simpa using h3⟩

theorem Between.dispatch (h : s.Between n) (y : Symbol) : (s.dispatch n y).Fit := by
  obtain ⟨⟨hb, q1, q2, q3, q4, q5, q6, q7, q8, q9, q10, q11, q12, q13⟩, hs, q14⟩ := h
  have asks : ∀ y, ((s.onLine n (Line.inSub .toneRequest)).requestTone n y).Fit := by
    intro y
    refine (hb.onLine (Line.inSub .toneRequest)).requestTone ?_ ?_ y
    · simp only [onLine_line]
      refine Line.Shaped.settle ?_ _
      constructor <;> simp [Line.inSub, q1, q2, q3, q4, q5, q6, q7, q8, q9, q10, q11, q12, q13, q14]
    · simp [Line.want, Line.inSub, hs]
  unfold State.dispatch
  split
  · refine hb.write _ ?_ ?_
    · constructor <;>
        simp [Line.pause, Line.withTimers, Line.inSub, q1, q2, q3, q4, q5, q6, q7, q8, q9, q11, q12, q13, q14, hs]
    · simp [Line.want, Line.pause, Line.withTimers, Line.inSub, hs]
  · refine hb.write _ ?_ ?_
    · constructor <;>
        simp [Line.flashBreak, Line.suspend, Line.withTimers, Line.inSub, q1, q2, q3, q4, q5, q6, q7, q8, q9, q10, q11, q12,
          q13, q14, hs]
    · simp [Line.want, Line.flashBreak, Line.suspend, Line.withTimers, Line.inSub, hs]
  · refine hb.write _ ?_ ?_
    · constructor <;>
        simp [Line.waitTone, Line.startSession, Line.withTimers, Line.inSub, q1, q2, q4, q5, q6, q7, q8, q9, q10, q11, q12,
          q13, q14, hs]
    · simp [Line.want, Line.waitTone, Line.startSession, Line.withTimers, Line.inSub, hs]
  · refine hb.write _ ?_ ?_
    · constructor <;>
        simp [Line.pulseDigit, Line.pulseBreak, Line.suspend, Line.withTimers, Line.inSub, q1, q2, q3, q4, q5, q6, q7, q8, q9,
          q10, q11, q12, q13, q14, hs]
    · simp [Line.want, Line.pulseDigit, Line.pulseBreak, Line.suspend, Line.withTimers, Line.inSub, hs]
  · exact asks _

theorem Between.beginSymbol (h : s.Between n) : (s.beginSymbol n).Fit := by
  simp only [State.beginSymbol]
  split
  · exact h.toAtRest.endProgram
  · exact h.dispatch _

theorem Between.endSymbol (h : s.Between n) : (s.endSymbol n).Fit :=
  (h.onLine (fun l => { l with cursor := { l.cursor with index := l.cursor.index + 1 } }) (h.rest.congr rfl rfl) h.st
    h.noAnswer).beginSymbol

theorem Between.countSymbol (h : s.Between n) : (s.countSymbol n).Between n := h.same ((SameClaims.refl s).countSymbol n)

/-- The timer of its sub-phase stopped, a line whose pool entry wants nothing stands between two symbols. -/
theorem Fit.between (h : s.Fit) (hs : (s.line n).st = .dialing) (hw : (s.line n).want = .nothing) (f : Line → Line)
    (hm : (f (s.line n)).manual.activity = (s.line n).manual.activity) (h1 : (f (s.line n)).st = .dialing)
    (ht : (f (s.line n)).timers = { (s.line n).cursor.sub.clear (s.line n).timers with
      disconnect := (f (s.line n)).timers.disconnect, make := (f (s.line n)).timers.make }) : (s.onLine n f).Between n := by
  obtain ⟨q, q'⟩ := (h.shaped n).dialing hs
  have k := h.apart n
  rw [hw] at k
  have ha : (f (s.line n)).timers.noAnswer = none := by
    rw [ht]
    cases (s.line n).cursor.sub <;> exact q'
  refine ⟨k.atRest f (q.congr hm ?_), by simpa using h1, by simpa using ha⟩
  rw [ht]
  rfl

/-! ### The course of an attempt -/

/-- A line at rest with no no-answer timer. -/
structure Quiet (n : LineNo) (s : State) : Prop extends AtRest n s where
  noAnswer : (s.line n).timers.noAnswer = none

theorem Quiet.same (h : s.Quiet n) (k : s.SameClaims t) : t.Quiet n :=
  ⟨h.toAtRest.same k, by rw [(k.line n).2.2.2]; exact h.noAnswer⟩

theorem Quiet.enterDialing (h : s.Quiet n) : (s.enterDialing n).Fit := by
  simp only [State.enterDialing]
  split
  · refine Between.beginSymbol (Between.same ?_ ((SameClaims.refl _).reportPhase n _))
    obtain ⟨h1, -, h3, d, h4⟩ := Line.supervise_fields s.now
      ({ (s.line n).stopSession with st := .dialing, cursor := ⟨.job, [], s.position n, .none, 0⟩ } : Line)
    refine ⟨h.but.atRest _ (h.rest.congr ?_ ?_), ?_, ?_⟩
    · unfold Line.enterDialing; rw [h3]; rfl
    · unfold Line.enterDialing; rw [h4]; rfl
    · simp only [onLine_line, Line.settle_st]; unfold Line.enterDialing; rw [h1]
    · simp only [onLine_line, Line.settle_timers]; unfold Line.enterDialing; rw [h4]; exact h.noAnswer
  · exact h.toAtRest.endProgram

theorem Quiet.enterAwaitDialtone (h : s.Quiet n) : (s.enterAwaitDialtone n).Fit := by
  refine Fit.same ?_ ((SameClaims.refl _).reportPhase n _)
  have q14 := h.noAnswer
  obtain ⟨q1, q2, q3, q4, q5, q6, q7, q8, q9, q10, q11, q12, q13⟩ := h.rest
  refine h.but.write _ ?_ ?_
  · refine Line.Shaped.supervise ?_ _
    constructor <;> simp [Line.startSession, q1, q2, q4, q5, q6, q7, q8, q9, q10, q11, q12, q13, q14]
  · refine (Line.supervise_want _ _).trans ?_
    simp [Line.want, Line.startSession]

/-- A SEIZING line takes LOOP (R10). -/
theorem Fit.loopSeized (h : s.Fit) (hs : (s.line n).st = .seizing) (hp : (s.line n).timers.postSeize = none) :
    (s.loopSeized n).Fit := by
  obtain ⟨q, q'⟩ := (h.shaped n).seizing hs
  have k := h.apart n
  rw [show (s.line n).want = .nothing by simp [Line.want, hs]] at k
  have base : (s.onLine n (Line.withTimers fun t => { t with seize := none })).Quiet n := by
    refine ⟨k.atRest _ (q.congr rfl ?_), by simpa [Line.withTimers] using q'⟩
    simp [Line.withTimers, hp]
  simp only [State.loopSeized]
  split
  · exact base.enterAwaitDialtone
  · split
    · exact base.enterDialing
    · have q14 := base.noAnswer
      have hs' : ((s.onLine n (Line.withTimers fun t => { t with seize := none })).line n).st = .seizing := by
        simpa [Line.withTimers] using hs
      obtain ⟨q1, q2, q3, q4, q5, q6, q7, q8, q9, q10, q11, q12, q13⟩ := base.rest
      refine base.but.write _ ?_ ?_
      · constructor <;> simp [Line.withTimers] at * <;>
          simp [q3, q4, q5, q6, q7, q8, q9, q10, q11, q12, q13, q14, hs']
      · simp [Line.want, Line.withTimers, hs]

/-- A line written with the state, sub-phase, manual digit and timers it had. -/
theorem Fit.keepLine (h : s.Fit) (n : LineNo) (f : Line → Line) (h1 : (f (s.line n)).st = (s.line n).st)
    (h2 : (f (s.line n)).cursor.sub = (s.line n).cursor.sub)
    (h3 : (f (s.line n)).manual.activity = (s.line n).manual.activity)
    (h4 : (f (s.line n)).timers = { (s.line n).timers with
      disconnect := (f (s.line n)).timers.disconnect, make := (f (s.line n)).timers.make }) : (s.onLine n f).Fit :=
  h.onLine f ((h.shaped n).congr h1 h2 h3 h4) (Line.want_congr h1 h2 h3)

/-- The dial-tone wait of AWAIT_DIALTONE served (R11). -/
theorem Fit.dialtoneServed (h : s.Fit) (hs : (s.line n).st = .awaitDialtone) : (s.dialtoneServed n).Fit := by
  obtain ⟨q, q'⟩ := (h.shaped n).awaitDialtone hs
  have k := h.apart n
  rw [show (s.line n).want = .nothing by simp [Line.want, hs]] at k
  have base : (s.onLine n (Line.withTimers fun t => { t with dialTone := none })).Quiet n :=
    ⟨k.atRest _ q, by simpa [Line.withTimers] using q'⟩
  simp only [State.dialtoneServed]
  split
  · exact (base.same ((SameClaims.refl _).onActive n _)).enterDialing
  · exact base.enterDialing

/-- WAIT_TONE served (R44). -/
theorem Fit.waitToneServed (h : s.Fit) (hs : (s.line n).st = .dialing) (hc : (s.line n).cursor.sub = .waitTone) :
    (s.waitToneServed n).Fit := by
  have hw : (s.line n).want = .nothing := by simp [Line.want, hs, hc]
  have k : (s.onLine n fun l => l.stopSession.withTimers fun t => { t with dialTone := none }).Between n := by
    refine h.between hs hw _ rfl hs ?_
    simp [hc, SubPhase.clear, Line.withTimers, Line.stopSession]
  simp only [State.waitToneServed]
  exact k.countSymbol.endSymbol

/-- An attempt taken by an IDLE line (R9). -/
theorem Fit.takeStart (h : s.Fit) (hs : (s.line n).st = .idle) (j : Job) : (s.takeStart n j).Fit := by
  have glare : ∀ c : Prop, [Decidable c] → (if c then s.latchLine n .glare else s).SameClaims s ∧
      s.SameClaims (if c then s.latchLine n .glare else s) := by
    intro c _
    split
    · have k := (SameClaims.refl s).latchLine n .glare
      exact ⟨⟨k.pool.symm, fun m => ⟨(k.line m).1.symm, (k.line m).2.1.symm, (k.line m).2.2.1.symm,
        (k.line m).2.2.2.symm⟩⟩, k⟩
    · exact ⟨.refl s, .refl s⟩
  simp only [State.takeStart]
  obtain ⟨-, g⟩ := glare ((s.line n).ring.glareDue.isSome = true)
  generalize (if (s.line n).ring.glareDue.isSome = true then s.latchLine n .glare else s) = u at g ⊢
  have hu := h.same g
  have hsu : (u.line n).st = .idle := (g.line n).1.trans hs
  have r := (hu.shaped n).resting (.inr (.inl hsu))
  have q14 : (u.line n).timers.noAnswer = none := none_of (hu.shaped n).noAnswer (by simp [hsu])
  have k := hu.apart n
  rw [show (u.line n).want = .nothing by simp [Line.want, hsu]] at k
  obtain ⟨q1, q2, q3, q4, q5, q6, q7, q8, q9, q10, q11, q12, q13⟩ := r
  generalize ha : Line.seize u.now _ = f
  have k1 : (u.onLine n f).Fit := by
    subst ha
    refine k.write _ ?_ ?_
    · constructor <;> simp [Line.seize, q2, q3, q4, q5, q6, q7, q8, q9, q10, q11, q12, q13, q14]
    · simp [Line.want, Line.seize]
  have k2 : (u.onLine n f).SameClaims ((u.onLine n f).reportPhase n .seize) := (SameClaims.refl _).reportPhase n _
  split
  · refine (k1.same k2).loopSeized ?_ ?_
    · rw [(k2.line n).1]; subst ha; simp [Line.seize]
    · rw [(k2.line n).2.2.2]; subst ha; simpa [Line.seize] using q2
  · exact k1.same k2

/-! ### Manual digits and SEND DIGITS -/

theorem Fit.startSend (h : s.Fit) (hs : (s.line n).st = .connected) (hm : (s.line n).manual.activity = .none)
    (p : List Symbol) : (s.startSend n p).Fit := by
  have q := (h.shaped n).restingConnected hs hm
  have q' : (s.line n).timers.noAnswer = none := none_of (h.shaped n).noAnswer (by simp [hs])
  have k := h.apart n
  rw [show (s.line n).want = .nothing by simp [Line.want, hs, hm]] at k
  have base : (s.onLine n (Line.startSend p)).Between n :=
    ⟨k.atRest _ (q.congr rfl rfl), by simp [Line.startSend], by simpa [Line.startSend, Line.stopSession] using q'⟩
  exact (base.same ((SameClaims.refl _).reportPhase n _)).beginSymbol

theorem Fit.startManual (h : s.Fit) (hs : (s.line n).st = .connected) (hm : (s.line n).manual.activity = .none)
    (kn : KeyNo) (y : Symbol) : (s.startManual n kn y).Fit := by
  have k := h.apart n
  rw [show (s.line n).want = .nothing by simp [Line.want, hs, hm]] at k
  have w := h.shaped n
  refine (k.onLine _).requestTone ?_ ?_ y
  · simp only [onLine_line]
    refine Line.Shaped.settle ?_ _
    exact
      { seize := w.seize, postSeize := w.postSeize, dialTone := w.dialTone, noAnswer := w.noAnswer, guard := w.guard
        breakT := w.breakT, makePeriod := w.makePeriod, interdigit := w.interdigit, tone := w.tone, toneGap := w.toneGap
        pause := w.pause, flash := w.flash, manual := fun _ => hs
        minTone := fun x => by have := (w.minTone x).2; rw [hm] at this; cases this }
  · simp [Line.want, hs]

/-- A manual digit ended on a CONNECTED line (R50 to R52): it is CONNECTED still, with no manual digit. -/
theorem Fit.endManual (h : s.Fit) (hs : (s.line n).st = .connected) : (s.endManual n).Fit ∧
    ((s.endManual n).line n).st = .connected ∧ ((s.endManual n).line n).manual.activity = .none := by
  obtain ⟨k1, k2⟩ := ((h.apart n).onLine Line.dropManual).freed
  have e : (s.endManual n).line n = ((s.line n).dropManual).settle s.now := k2.trans (onLine_line _ _ _)
  have w := h.shaped n
  refine ⟨k1.fit ?_ ?_, ?_, ?_⟩
  · rw [k2, onLine_line]
    refine Line.Shaped.settle ?_ _
    exact
      { seize := w.seize, postSeize := w.postSeize, dialTone := w.dialTone, noAnswer := w.noAnswer, guard := w.guard
        breakT := w.breakT, makePeriod := w.makePeriod, interdigit := w.interdigit, tone := w.tone, toneGap := w.toneGap
        pause := w.pause, flash := w.flash, manual := fun _ => hs, minTone := fun x => by simp [Line.dropManual] at x }
  · rw [k2, onLine_line]; simp [Line.want, Line.dropManual, Manual.idle, hs]
  · rw [e]; exact hs
  · rw [e]; rfl

theorem Fit.digitPress (h : s.Fit) (n : LineNo) (kn : KeyNo) (y : Symbol) : (s.digitPress n kn y).Fit := by
  simp only [State.digitPress]
  split
  · next hc =>
    split
    · exact h.startManual hc.1 hc.2 kn y
    · split
      · exact h.startSend hc.1 hc.2 _
      · exact h
  · exact h

theorem Fit.manualUp (h : s.Fit) (kn : KeyNo) (n : LineNo) : (s.manualUp kn n).Fit := by
  simp only [State.manualUp]
  split
  · split
    · exact h
    · next hm => exact (h.endManual ((h.shaped n).manual (by simp [hm]))).1
    · next hm =>
      split
      · exact (h.endManual ((h.shaped n).manual (by simp [hm]))).1
      · exact h.keepLine n _ rfl rfl rfl rfl
  · exact h

/-- HOLD in CONNECTED (R16, R52). -/
theorem Fit.hold (h : s.Fit) (hs : (s.line n).st = .connected) : (s.hold n).Fit := by
  obtain ⟨k, k1, k2⟩ := h.endManual hs
  have q := (k.shaped n).restingConnected k1 k2
  have q14 : ((s.endManual n).line n).timers.noAnswer = none := none_of (k.shaped n).noAnswer (by simp [k1])
  have a := k.apart n
  rw [show ((s.endManual n).line n).want = .nothing by simp [Line.want, k1, k2]] at a
  obtain ⟨q1, q2, q3, q4, q5, q6, q7, q8, q9, q10, q11, q12, q13⟩ := q
  simp only [State.hold]
  refine Fit.same (a.write _ ?_ ?_) ((SameClaims.refl _).reportPhase n _)
  · constructor <;>
      simp [Line.enterHeld, Line.startSession, q1, q2, q3, q4, q5, q6, q7, q8, q9, q10, q11, q12, q13, q14]
  · simp [Line.want, Line.enterHeld]

/-- A state without a claim, at rest. -/
theorem Fit.atRest (h : s.Fit) (hs : (s.line n).st = .disabled ∨ (s.line n).st = .idle ∨ (s.line n).st = .awaitProgress ∨
    (s.line n).st = .held) : s.AtRest n := by
  refine ⟨?_, (h.shaped n).resting hs⟩
  have k := h.apart n
  rwa [show (s.line n).want = .nothing by rcases hs with e | e | e | e <;> simp [Line.want, e]] at k

/-! ### Classes and answers -/

theorem Fit.answer (h : s.Fit) (hs : (s.line n).st = .awaitProgress) (b : Basis) : (s.answer n b).Fit := by
  simp only [State.answer]
  exact ((h.keepLine n _ rfl rfl rfl rfl).atRest (.inr (.inr (.inl (by simpa using hs))))).connect

theorem Fit.classAction (h : s.Fit) (n : LineNo) (c : ToneClass) : (s.classAction n c).Fit := by
  simp only [State.classAction]
  split
  · next hs => exact h.dialtoneServed hs
  · next hs =>
    split
    · next hc => exact h.waitToneServed hs hc
    · exact h
  · exact h.failAttempt n _
  · exact h.failAttempt n _
  · exact h.failAttempt n _
  all_goals first | exact h.endCall n _ _ | exact h

theorem Fit.confirm (h : s.Fit) (n : LineNo) (c : ToneClass) (k : SlotNo) : (s.confirm n c k).Fit := by
  simp only [State.confirm]
  split
  · exact h
  · refine Fit.classAction (Fit.same (Fit.same (h.keepLine n _ ?_ ?_ ?_ ?_) ((SameClaims.refl _).latchLine n _))
      ((SameClaims.refl _).onActive n _)) n c <;> rfl

theorem Fit.confirmSlot (h : s.Fit) (n : LineNo) (k : SlotNo) : (s.confirmSlot n k).Fit := by
  unfold State.confirmSlot
  split
  · exact h
  · exact h.confirm n _ k

theorem Fit.takePair (h : s.Fit) (n : LineNo) (on off : Nat) : (s.takePair n on off).Fit := by
  simp only [State.takePair]
  have k := h.keepLine n (fun l => { l with pc := l.pc.matched ((s.line n).pc.offerAll s.cadence on off) }) rfl rfl rfl rfl
  split
  · exact k.confirmSlot n _
  · split
    · next hu =>
      refine k.answer ?_ _
      simp only [Line.unclassifiedAnswer, Bool.and_eq_true, beq_iff_eq] at hu
      exact hu.1.2
    · exact k

theorem Fit.sessionChange (h : s.Fit) (n : LineNo) (i : Interval) (e : Nat) : (s.sessionChange n i e).Fit := by
  simp only [State.sessionChange]
  split
  · exact h.keepLine n _ rfl rfl rfl rfl
  · split
    · exact h.keepLine n _ rfl rfl rfl rfl
    · exact (h.keepLine n _ rfl rfl rfl rfl).takePair n _ _

theorem Fit.filteredChange (h : s.Fit) (n : LineNo) (e : Nat) : (s.filteredChange n e).Fit := by
  have k := (h.same ((SameClaims.refl s).advance (e + Config.cptFilterMs))).keepLine n
    (fun l => { l with pc := { l.pc with filtered := !l.pc.filtered, edges := l.pc.edges.tail } }) rfl rfl rfl rfl
  simp only [State.filteredChange]
  split
  · exact k.sessionChange n _ e
  · exact k

theorem Fit.confirmSteady (h : s.Fit) (n : LineNo) (p : Nat → Bool) : (s.confirmSteady n p).Fit := by
  have k := h.keepLine n (fun l => { l with pc := l.pc.markSteady s.cadence p }) rfl rfl rfl rfl
  simp only [State.confirmSteady]
  split
  · exact k
  · exact k.confirmSlot n _

theorem Fit.tableChangeAt (h : s.Fit) (n : LineNo) : (s.tableChangeAt n).Fit := by
  unfold State.tableChangeAt
  split
  · have k := h.keepLine n (fun l => { l with pc := l.pc.tableChanged }) rfl rfl rfl rfl
    simp only [State.retestSteady]
    split
    · exact k
    · exact k.confirmSteady n _
  · exact h

theorem Fit.eachLine (h : s.Fit) (f : LineNo → State → State) (hf : ∀ (n : LineNo) (u : State), u.Fit → (f n u).Fit) :
    (s.eachLine f).Fit := hf 3 _ (hf 2 _ (hf 1 _ (hf 0 _ h)))

theorem Fit.writeSlot (h : s.Fit) (k : SlotNo) (t : Option Template) : (s.writeSlot k t).Fit := by
  have k0 : ({ s with cadence := s.cadence.set k t } : State).Fit := h.same ((SameClaims.refl s).ofEq rfl rfl)
  exact k0.eachLine _ fun n _ hu => hu.tableChangeAt n

/-! ### Keys -/

theorem SameClaims.submitFailed (h : s.SameClaims t) (k : KeyNo) (n : LineNo) (e : EntryNo) (c : SubmitFail) :
    s.SameClaims (t.submitFailed k n e c) := (h.onKeys _).latchKeys _

theorem SameClaims.takeHandover (h : s.SameClaims t) (x : Handed) : s.SameClaims (t.takeHandover x) := by
  simp only [State.takeHandover]
  split
  · exact (h.onKey _ _).submitFailed _ _ _ _
  · exact (h.acceptJob _).onKey _ _

theorem SameClaims.handOver (h : s.SameClaims t) (x : Handed) : s.SameClaims (t.handOver x) := by
  unfold State.handOver
  split
  · exact h.takeHandover x
  · exact (h.onKeys _).takeHandover x
  · exact h.onKeys _

theorem SameClaims.jobPress (h : s.SameClaims t) (k : KeyNo) (n : LineNo) (e : EntryNo) :
    s.SameClaims (t.jobPress k n e) := by
  unfold State.jobPress
  split
  · exact h.submitFailed _ _ _ _
  · exact (h.onKey _ _).handOver _

theorem SameClaims.offerRecord (h : s.SameClaims t) (k : KeyNo) (down : Bool) : s.SameClaims (t.offerRecord k down) := by
  unfold State.offerRecord
  split
  · exact (h.onKeys _).latchKeys _
  · exact h.latchKeys _

theorem Fit.carryOut (h : s.Fit) (k : KeyNo) (b : Binding) : (s.carryOut k b).Fit := by
  unfold State.carryOut
  split
  · exact h
  · exact h.same ((SameClaims.refl s).jobPress _ _ _)
  · next n =>
    unfold State.releasePress
    cases e : s.release n with
    | none => exact h
    | some u => exact h.release n e
  · unfold State.cancelPress
    split
    · exact h
    · exact h.cancelJob _
  · exact h.digitPress _ _ _

theorem Fit.takeDown (h : s.Fit) (k : KeyNo) : (s.takeDown k).Fit := by
  simp only [State.takeDown]
  exact (h.same (((SameClaims.refl s).onKey k _).offerRecord k true)).carryOut k _

theorem Fit.takeUp (h : s.Fit) (k : KeyNo) : (s.takeUp k).Fit := by
  unfold State.takeUp
  exact Fit.eachLine (h.same (((SameClaims.refl s).onKey k _).offerRecord k false)) _ fun n _ hu => hu.manualUp k n

theorem Fit.takeDeferred (h : s.Fit) (fuel : Nat) : (s.takeDeferred fuel).Fit := by
  induction fuel generalizing s with
  | zero => exact h
  | succ f ih =>
    unfold State.takeDeferred
    split
    · exact h
    · split
      · exact ih ((h.same ((SameClaims.refl s).onKeys _)).takeDown _)
      · exact h

theorem Fit.afterUp (h : s.Fit) (k : KeyNo) : (s.afterUp k).Fit := by
  unfold State.afterUp
  split
  · exact h.takeDeferred 3
  · exact h

theorem Fit.debouncedChange (h : s.Fit) (k : KeyNo) : (s.debouncedChange k).Fit := by
  have h0 := h.same ((SameClaims.refl s).onKey k fun key => { key with deb := !key.deb, since := none })
  simp only [State.debouncedChange]
  generalize (s.onKey k fun key => { key with deb := !key.deb, since := none }) = u at h0 ⊢
  split
  · exact h0
  · split
    · unfold State.wentDown
      split
      · split
        · exact h0.same ((((SameClaims.refl u).onKey k _).onKeys _).latchKeys _)
        · exact h0.takeDown k
      all_goals exact h0
    · unfold State.wentUp
      split
      · exact h0
      · exact (h0.takeUp k).afterUp k
      · exact h0.same (((SameClaims.refl u).onKey k _).onKeys _)
      · exact Fit.afterUp (h0.same ((SameClaims.refl u).onKey k _)) k

theorem Fit.relevel (h : s.Fit) (e : Fin 4) (level : Bool) : (s.relevel e level).Fit := by
  simp only [State.relevel]
  split
  · exact h
  · have h0 := h.same (((SameClaims.refl s).onKeys fun ks => { ks with active := ks.active.set e level }).onKey
      ⟨16 + e.val, by omega⟩ fun key =>
        { key with deb := ((s.onKeys fun ks => { ks with active := ks.active.set e level }).key ⟨16 + e.val, by omega⟩).raw == level, since := none })
    split
    · exact h0.same ((SameClaims.refl _).onKey _ _)
    · exact h0.same ((SameClaims.refl _).onKey _ _)
    · exact h0.takeUp _
    · exact h0

theorem Fit.expireKeys (h : s.Fit) : s.expireKeys.Fit := by
  unfold State.expireKeys
  induction List.finRange 20 generalizing s with
  | nil => exact h
  | cons k ks ih =>
    refine ih ?_
    unfold State.expireKey
    split
    · exact h.debouncedChange k
    · exact h

/-! ### Every line at once -/

/-- A line after each line was written in turn. -/
theorem eachLine_onLine (f : LineNo → Line → Line) (s : State) (n : LineNo) :
    (s.eachLine fun n u => u.onLine n (f n)).line n = (f n (s.line n)).settle s.now := by
  unfold State.eachLine State.onLine
  fin_cases n <;> simp

/-- With no claim made and none held, lines of their own shape agree with the pool. -/
theorem Fit.ofNone (hp : s.pool = Pool.empty) (h1 : ∀ n, (s.line n).Shaped) (h2 : ∀ n, (s.line n).want = .nothing) : s.Fit :=
  ⟨h1, by rw [hp]; exact .empty h2⟩

theorem SameClaims.eventEngineReset (h : s.SameClaims t) : s.SameClaims t.eventEngineReset := by
  refine SameClaims.latch (t := { t.clearFive with events := { t.clearFive.events with resetCause := .engine } }) ?_ _ _
  exact (h.onlyNotes t.clearFive_only).ofEq rfl rfl

/-- The engine reset leaves no claim (R30, R67). -/
theorem engineReset_fit (h : s.Fit) : s.engineReset.Fit := by
  have shape : ∀ n, ((s.line n).engineReset s.now).Shaped ∧ ((s.line n).engineReset s.now).want = .nothing := by
    intro n
    simp only [Line.engineReset]
    split
    · next e =>
      exact ⟨(h.shaped n).congr rfl rfl rfl rfl, by simpa [Line.want] using by simp [e]⟩
    · refine ⟨?_, by simp [Line.want, Line.releasing]⟩
      constructor <;> simp [Line.releasing, LineTimers.stopped, Manual.idle]
  have k : (({ s with pool := Pool.empty } : State).eachLine fun n u => u.onLine n (Line.engineReset u.now)).Fit := by
    have e : (({ s with pool := Pool.empty } : State).eachLine fun n u => u.onLine n (Line.engineReset u.now)) =
        ({ s with pool := Pool.empty } : State).eachLine fun n u => u.onLine n (Line.engineReset s.now) := rfl
    rw [e]
    refine Fit.ofNone rfl (fun n => ?_) fun n => ?_
    · rw [eachLine_onLine]; exact (shape n).1.settle _
    · rw [eachLine_onLine]; exact (shape n).2
  generalize he : (({ s with pool := Pool.empty } : State).eachLine fun n u => u.onLine n (Line.engineReset u.now)) = u at k
  have e : s.engineReset = ((u.onJobs JobEngine.engineReset).onKeys KeyScanner.engineReset).eventEngineReset := by
    rw [← he]; rfl
  rw [e]
  exact k.same (((SameClaims.refl u).onJobs _).onKeys _ |>.eventEngineReset)


end State

end Sys2Proof.Machine
end

