-- ==== Sys2Proof/Laws/Engine.lean ====
section
/-! SUPPORT. What the Job Engine makes of a submission it accepts, and of a job whose program it reads. -/

namespace Sys2Proof.Machine

/-! ### A submission taken -/

/-- What the acceptance of a submission does (R99, R102, R103). -/
theorem State.acceptJob_accepts (b : Submission) {s : State} (h : s.jobs.Sound) :
    s.Accepts b (s.acceptJob b).jobs.lastId (s.acceptJob b) := by
  have key : s.freeSlot.jobs.lastId = s.jobs.lastId ∧ s.freeSlot.jobs.table.length < 255 := by
    unfold State.freeSlot State.evict
    have := h.room
    split
    · split
      · exact ⟨rfl, by omega⟩
      · rw [State.latch_jobs]
        exact ⟨rfl, by
          show (s.jobs.table.filter _).length < 255
          exact lt_of_le_of_lt (List.length_filter_le _ _) (by omega)⟩
    · exact ⟨rfl, by omega⟩
  refine ⟨s.freeSlot, b.record s.freeSlot.jobs.nextId, fun hl => ?_, fun old rest d hl hf hd => ?_, ?_, rfl, ?_, rfl⟩
  · unfold State.freeSlot; rw [if_neg (by omega)]
  · unfold State.freeSlot State.evict
    rw [if_pos (by omega), hf]
    have : d.id = old := (findJob_mem (show findJob s.jobs.table old = some d from hd)).2
    simp only [hd, Option.map_some, this]
    rfl
  · obtain ⟨k, h1, h2, h3, h4⟩ := s.freeSlot.jobs.nextId_first (by rw [key.1]; exact h.counter) key.2
    rw [key.1] at h2 h4
    exact ⟨k, h1, h2, h3, h4⟩
  · exact ⟨⟨rfl, rfl, rfl, rfl, rfl, rfl⟩, fun p hp => by simp [Submission.record, hp],
      fun e he => by simp [Submission.record, he], rfl, rfl, rfl, rfl, rfl, rfl, rfl, rfl, rfl, rfl, rfl, rfl, rfl, rfl, rfl⟩

/-! ### A program read -/

/-- What reading its program makes of a job ACTIVE in RESOLVE (R106 to R109), `put` being the state with a record of the job
written. -/
theorem State.resolve_resolves {put : Job → State} {j : Job} {s : State}
    (hput : ∀ r : Job, r.id = j.id → ((put j).onJob r.id fun _ => r) = put r) (hst : (put j).store = s.store)
    (hl : (put j).lines = s.lines) : State.Resolves put j s ((put j).resolve j) := by
  have hself := hput j rfl
  have hline : ∀ n, (put j).line n = s.line n := fun n => by unfold State.line; rw [hl]
  have hE : ∀ i, j.entryIndex = some i → s.store.covers (blockOf i) = false →
      (put j).resolve j = (put j).takeResolution
        (j.resolveEntry (s.line j.line).committed (s.store.dead (blockOf i)) i (s.store.entry i)) := by
    intro i hi hc
    unfold State.resolve; rw [hi]; simp only [hst, hc]
    unfold State.readEntryFor; rw [hst, hline]; rfl
  refine ⟨?_, ?_, ?_, ?_, ?_⟩
  · intro hi p m r
    have : (put j).resolve j = (put j).takeResolution (j.resolveInline p) := by
      unfold State.resolve; rw [hi]; simp only [hline]; rfl
    rw [this]; unfold Job.resolveInline; simp only []
    refine ⟨fun hm => ?_, fun hm => ?_⟩
    · rw [if_pos (by exact hm)]; exact hput _ rfl
    · rw [if_neg (by rw [Bool.not_eq_true]; exact hm)]
      exact congrArg (fun x => State.finishJob _ _ _ x) (hput r rfl)
  · intro i hi hc
    unfold State.resolve; rw [hi]; simp only [hst, hc, if_true]
  · intro i hi hc hd
    rw [hE i hi hc]; unfold Job.resolveEntry
    rw [if_pos (by simp [Store.dead, hd])]
    unfold State.takeResolution; simp only []; rw [hself]
  · intro i hi hc hd hb
    rw [hE i hi hc]; unfold Job.resolveEntry
    rw [if_neg (by simpa [Store.dead] using hd), hb]
    unfold State.takeResolution; simp only []; rw [hself]
  · intro i f hi hc hd hb p m r
    rw [hE i hi hc]; unfold Job.resolveEntry
    rw [if_neg (by simpa [Store.dead] using hd), hb]
    simp only []
    have hme : entryMethod j.methodOverride f.method p.method = m := by
      simp only [m]; unfold entryMethod
      cases j.methodOverride <;> cases f.method <;> rfl
    rw [hme]
    refine ⟨fun hm => ?_, fun hm => ?_⟩
    · rw [if_pos hm]; exact hput _ rfl
    · rw [if_neg (by rw [hm]; simp)]
      exact congrArg (fun x => State.finishJob _ _ _ x) (hput r rfl)

end Sys2Proof.Machine
end

