-- ==== Sys2Proof/Laws/Keys.lean ====
section
/-! SUPPORT. The law of the Key Scanner (R159, R161, R162) under a key's transitions, a change of active level and the
resets. -/

namespace Sys2Proof.Machine

/-! ### The held count (R161) -/

/-- A matrix key that counts as held (R161). -/
def Key.heldAt (k : KeyNo) (key : Key) : Bool := isMatrix k && (key.cond == .down || key.cond == .marked)

theorem countP_swap {α : Type} [DecidableEq α] {l : List α} (hl : l.Nodup) {k : α} (hk : k ∈ l) {p q : α → Bool}
    (hp : p k = false) (hq : q k = true) (h : ∀ x, x ≠ k → q x = p x) : l.countP q = l.countP p + 1 := by
  induction l with
  | nil => cases hk
  | cons x r ih =>
    rw [List.nodup_cons] at hl
    by_cases e : x = k
    · subst e
      have : r.countP q = r.countP p := List.countP_congr fun y hy => by
        rw [h y fun e => hl.1 (e ▸ hy)]
      simp [hp, hq, this]
    · have hr : k ∈ r := by
        rcases List.mem_cons.1 hk with e' | e'
        · exact absurd e'.symm e
        · exact e'
      simp only [List.countP_cons, h x e, ih hl.2 hr]
      omega

theorem KeyScanner.heldCount_eq (ks : KeyScanner) :
    ks.heldCount = (List.finRange 20).countP fun k => (ks.all.get k).heldAt k := rfl

/-- The held count reads the conditions alone. -/
theorem KeyScanner.heldCount_congr {a b : KeyScanner} (h : ∀ k, (b.all.get k).cond = (a.all.get k).cond) :
    b.heldCount = a.heldCount := by
  simp only [KeyScanner.heldCount, h]

/-- A key that comes to be held counts one more. -/
theorem KeyScanner.heldCount_held {a b : KeyScanner} (k : KeyNo) (h1 : (a.all.get k).heldAt k = false)
    (h2 : (b.all.get k).heldAt k = true) (h : ∀ m, m ≠ k → (b.all.get m).cond = (a.all.get m).cond) :
    b.heldCount = a.heldCount + 1 := by
  rw [KeyScanner.heldCount_eq, KeyScanner.heldCount_eq]
  exact countP_swap (List.nodup_finRange 20) (List.mem_finRange k) h1 h2 fun m hm => by simp [Key.heldAt, h m hm]

/-- A key whose change is none of the held count's. -/
theorem KeyScanner.heldCount_same {a b : KeyScanner} (k : KeyNo) (h1 : (b.all.get k).heldAt k = (a.all.get k).heldAt k)
    (h : ∀ m, m ≠ k → (b.all.get m).cond = (a.all.get m).cond) : b.heldCount = a.heldCount := by
  rw [KeyScanner.heldCount_eq, KeyScanner.heldCount_eq]
  refine List.countP_congr fun m _ => ?_
  by_cases e : m = k
  · subst e; rw [h1]
  · simp [Key.heldAt, h m e]

/-! ### The law, and the law but for the jam -/

/-- The law of the Key Scanner, the jam's count apart. -/
structure KeyScanner.Orderly (ks : KeyScanner) : Prop where
  queue : ks.queue.length ≤ 16
  once : ks.deferred.Nodup
  deferred : ∀ k, k ∈ ks.deferred ↔ (ks.all.get k).cond = .deferred
  matrix : ∀ k ∈ ks.deferred, k.val < 16
  levels : ∀ k, (ks.all.get k).deb = true ↔ (ks.all.get k).cond ≠ .up

namespace KeyScanner

variable {a b : KeyScanner}

theorem Sound.orderly (h : a.Sound) : a.Orderly := ⟨h.queue, h.once, h.deferred, h.matrix, h.levels⟩

theorem Sound.jammed (h : a.Sound) : a.deferred = [] ∨ 3 ≤ a.heldCount := by
  by_cases e : a.deferred = []
  · exact .inl e
  · exact .inr (h.jam e)

theorem Orderly.sound (h : a.Orderly) (hj : a.deferred = [] ∨ 3 ≤ a.heldCount) : a.Sound :=
  ⟨h.queue, h.once, h.deferred, h.matrix, h.levels, fun hd => hj.resolve_left hd⟩

theorem Orderly.congr (h : a.Orderly) (hq : b.queue.length ≤ 16) (hd : b.deferred = a.deferred)
    (hk : ∀ k, (b.all.get k).cond = (a.all.get k).cond ∧ (b.all.get k).deb = (a.all.get k).deb) : b.Orderly where
  queue := hq
  once := by rw [hd]; exact h.once
  deferred := fun k => by rw [hd, (hk k).1]; exact h.deferred k
  matrix := by rw [hd]; exact h.matrix
  levels := fun k => by rw [(hk k).1, (hk k).2]; exact h.levels k

theorem Orderly.same (h : a.Orderly) (k : a.Same b) : b.Orderly := h.congr (by rw [k.queue]; exact h.queue) k.deferred k.key

theorem Sound.same (h : a.Sound) (k : a.Same b) : b.Sound :=
  (h.orderly.same k).sound (by rw [k.deferred, heldCount_congr fun m => (k.key m).1]; exact h.jammed)

/-- The keys after key `k` took another condition and level. -/
theorem Orderly.put {a b : KeyScanner} (h : a.Orderly) (k : KeyNo) (c : KeyCondition) (hq : b.queue.length ≤ 16)
    (hd : b.deferred = a.deferred) (h0 : (a.all.get k).cond ≠ .deferred) (hc : c ≠ .deferred)
    (h1 : (b.all.get k).cond = c) (h2 : (b.all.get k).deb = true ↔ c ≠ .up)
    (h3 : ∀ m, m ≠ k → (b.all.get m).cond = (a.all.get m).cond ∧ (b.all.get m).deb = (a.all.get m).deb) : b.Orderly where
  queue := hq
  once := by rw [hd]; exact h.once
  deferred := fun m => by
    rw [hd]
    by_cases e : m = k
    · subst e
      rw [h.deferred m, h1]
      simp [h0, hc]
    · rw [(h3 m e).1]; exact h.deferred m
  matrix := by rw [hd]; exact h.matrix
  levels := fun m => by
    by_cases e : m = k
    · subst e; rw [h1]; exact h2
    · rw [(h3 m e).1, (h3 m e).2]; exact h.levels m

/-- At most 13 keys are deferred (R162): three of the sixteen matrix keys are held. -/
theorem Sound.deferred_length (h : a.Sound) : a.deferred.length ≤ 13 := by
  by_cases e : a.deferred = []
  · simp [e]
  · have hj := h.jam e
    have hsub : ((List.finRange 20).filter fun k => (a.all.get k).heldAt k) ++ a.deferred ⊆
        (List.finRange 20).filter fun k => decide (k.val < 16) := by
      intro k hk
      rcases List.mem_append.1 hk with hk | hk
      · have := (List.mem_filter.1 hk).2
        simp only [Key.heldAt, isMatrix, Bool.and_eq_true] at this
        exact List.mem_filter.2 ⟨List.mem_finRange k, this.1⟩
      · exact List.mem_filter.2 ⟨List.mem_finRange k, by simpa using h.matrix k hk⟩
    have hnd : (((List.finRange 20).filter fun k => (a.all.get k).heldAt k) ++ a.deferred).Nodup := by
      refine List.Nodup.append ((List.nodup_finRange 20).filter _) h.once fun k h1 h2 => ?_
      have h1 := (List.mem_filter.1 h1).2
      have h2 := (h.deferred k).1 h2
      simp [Key.heldAt, h2] at h1
    have hlen := (List.Nodup.subperm hnd hsub).length_le
    rw [List.length_append, ← List.countP_eq_length_filter] at hlen
    have h16 : ((List.finRange 20).filter fun k => decide (k.val < 16)).length = 16 := by decide
    have : (List.finRange 20).countP (fun k => (a.all.get k).heldAt k) ≥ 3 := hj
    omega

end KeyScanner

/-! ### Transitions (R158, R162) -/

namespace State

variable {s : State}

/-- A record offered changes the queue alone, within its 16 places (R159). -/
theorem offerRecord_keys (k : KeyNo) (down : Bool) (s : State) :
    (s.offerRecord k down).keys.deferred = s.keys.deferred ∧ (s.offerRecord k down).keys.all = s.keys.all ∧
      (s.keys.queue.length ≤ 16 → (s.offerRecord k down).keys.queue.length ≤ 16) := by
  unfold State.offerRecord
  split
  · have e : ∀ (u : State) (f : Flag), (u.latchKeys f).keys = u.keys := fun u f => by simp [State.latchKeys]
    rw [e]
    refine ⟨rfl, rfl, fun _ => ?_⟩
    simp only [State.onKeys_keys, List.length_append, List.length_cons, List.length_nil]
    omega
  · have e : (s.latchKeys .overflow).keys = s.keys := by simp [State.latchKeys]
    rw [e]
    exact ⟨rfl, rfl, id⟩

/-- A DOWN taken (R158): the condition, a record, and nothing else the law rests on. -/
theorem takeDown_keys (k : KeyNo) (s : State) :
    (s.takeDown k).keys.deferred = s.keys.deferred ∧
      (s.keys.queue.length ≤ 16 → (s.takeDown k).keys.queue.length ≤ 16) ∧
      ∀ m, ((s.takeDown k).keys.all.get m).cond = (if m = k then .down else (s.keys.all.get m).cond) ∧
        ((s.takeDown k).keys.all.get m).deb = (s.keys.all.get m).deb := by
  simp only [State.takeDown]
  obtain ⟨h1, h2, h3⟩ := offerRecord_keys k true (s.onKey k fun key => { key with cond := .down })
  have hc := ((Calm.refl ((s.onKey k fun key => { key with cond := .down }).offerRecord k true)).carryOut k
    (s.key k).binding).keys
  refine ⟨hc.deferred.trans h1, fun hq => by rw [hc.queue]; exact h3 hq, fun m => ?_⟩
  rw [(hc.key m).1, (hc.key m).2, h2]
  simp only [State.onKey, State.onKeys_keys, Bank.get_set]
  by_cases e : k = m
  · subst e; simp
  · simp [e, Ne.symm e]

/-- An UP taken (R158). -/
theorem takeUp_keys (k : KeyNo) (s : State) :
    (s.takeUp k).keys.deferred = s.keys.deferred ∧
      (s.keys.queue.length ≤ 16 → (s.takeUp k).keys.queue.length ≤ 16) ∧
      ∀ m, ((s.takeUp k).keys.all.get m).cond = (if m = k then .up else (s.keys.all.get m).cond) ∧
        ((s.takeUp k).keys.all.get m).deb = (s.keys.all.get m).deb := by
  unfold State.takeUp
  obtain ⟨h1, h2, h3⟩ := offerRecord_keys k false (s.onKey k fun key => { key with cond := .up })
  have hc := ((Calm.refl ((s.onKey k fun key => { key with cond := .up }).offerRecord k false)).eachLine
    (State.manualUp k) fun n u => (Calm.refl u).manualUp k n).keys
  refine ⟨hc.deferred.trans h1, fun hq => by rw [hc.queue]; exact h3 hq, fun m => ?_⟩
  rw [(hc.key m).1, (hc.key m).2, h2]
  simp only [State.onKey, State.onKeys_keys, Bank.get_set]
  by_cases e : k = m
  · subst e; simp
  · simp [e, Ne.symm e]

/-- The deferred keys taken restore the law, where the count is short of 3 by no more than their number (R162). -/
theorem takeDeferred_sound (fuel : Nat) (s : State) (h : s.keys.Orderly)
    (hj : s.keys.deferred = [] ∨ 3 ≤ s.keys.heldCount + fuel) : (s.takeDeferred fuel).keys.Sound := by
  induction fuel generalizing s with
  | zero => exact h.sound hj
  | succ f ih =>
    unfold State.takeDeferred
    split
    · next e => exact h.sound (.inl e)
    · next k rest e =>
      split
      · next hlt =>
        obtain ⟨h1, h2, h3⟩ := takeDown_keys k (s.onKeys fun ks => { ks with deferred := rest })
        have hmem : k ∈ s.keys.deferred := by rw [e]; exact List.mem_cons_self
        have hcond := (h.deferred k).1 hmem
        have hm := h.matrix k hmem
        have hnd := h.once
        rw [e, List.nodup_cons] at hnd
        have hcnt : ((s.onKeys fun ks => { ks with deferred := rest }).takeDown k).keys.heldCount = s.keys.heldCount + 1 := by
          refine KeyScanner.heldCount_held k ?_ ?_ fun m hm => ?_
          · simp [Key.heldAt, hcond]
          · simp [Key.heldAt, (h3 k).1, isMatrix, hm]
          · rw [(h3 m).1, if_neg hm]; rfl
        refine ih _ ⟨h2 h.queue, by rw [h1]; exact hnd.2, fun m => ?_, fun m hmr => ?_, fun m => ?_⟩ ?_
        · rw [h1, (h3 m).1]
          by_cases em : m = k
          · subst em; simp [hnd.1]
          · rw [if_neg em]
            refine Iff.trans ?_ (h.deferred m)
            rw [e]
            simp [em]
        · rw [h1] at hmr
          exact h.matrix m (by rw [e]; exact List.mem_cons_of_mem _ hmr)
        · rw [(h3 m).1, (h3 m).2]
          by_cases em : m = k
          · subst em
            simp only [if_true, ne_eq, reduceCtorEq, not_false_eq_true, iff_true]
            exact (h.levels m).2 (by rw [hcond]; simp)
          · rw [if_neg em]; exact h.levels m
        · rw [h1, hcnt]
          rcases hj with hj | hj
          · rw [hj] at e; cases e
          · right; omega
      · next hge => exact h.sound (.inr (by omega))

/-- The law but for the jam, and the count as the deferred keys then need it (R162): a matrix key that leaves DOWN or
MARKED is followed by the keys deferred. -/
theorem afterUp_sound (k : KeyNo) (s : State) (h : s.keys.Orderly)
    (hj : s.keys.deferred = [] ∨ 3 ≤ s.keys.heldCount + if isMatrix k then 1 else 0) : (s.afterUp k).keys.Sound := by
  unfold State.afterUp
  split
  · next hm =>
    refine takeDeferred_sound 3 s h ?_
    rw [if_pos hm] at hj
    rcases hj with hj | hj
    · exact .inl hj
    · right; omega
  · next hm =>
    rw [if_neg hm] at hj
    exact h.sound hj

/-- A change of a debounced level keeps the law (R158, R161, R162). -/
theorem debouncedChange_sound (k : KeyNo) (s : State) (h : s.keys.Sound) (hs : s.store.st ≠ .checking) :
    (s.debouncedChange k).keys.Sound := by
  have o := h.orderly
  have lv := h.levels k
  simp only [State.debouncedChange]
  generalize hu : (s.onKey k fun key => { key with deb := !key.deb, since := none }) = u
  have uk : u.keys = { s.keys with all := s.keys.all.set k { s.key k with deb := !(s.key k).deb, since := none } } := by
    rw [← hu]; rfl
  have ust : u.store.st = s.store.st := by rw [← hu]; rfl
  have ud : u.keys.deferred = s.keys.deferred := by rw [uk]
  have uq : u.keys.queue = s.keys.queue := by rw [uk]
  have uc : ∀ m, (u.keys.all.get m).cond = (s.keys.all.get m).cond := fun m => by
    rw [uk, Bank.get_set]; split
    · next e => subst e; rfl
    · rfl
  have ub : ∀ m, (u.keys.all.get m).deb = if m = k then !(s.keys.all.get k).deb else (s.keys.all.get m).deb := fun m => by
    rw [uk, Bank.get_set]
    by_cases e : k = m
    · subst e; simp [State.key]
    · simp [e, Ne.symm e]
  have uh : u.keys.heldCount = s.keys.heldCount := KeyScanner.heldCount_congr uc
  have ubk : (u.key k).deb = !(s.keys.all.get k).deb := by simpa [State.key] using ub k
  have uck : (u.key k).cond = (s.keys.all.get k).cond := uc k
  rw [if_neg (by rw [ust]; exact hs), ubk]
  cases hd : (s.keys.all.get k).deb with
  | false =>
    have hc : (s.keys.all.get k).cond = .up := by
      by_contra e; have := lv.2 e; rw [hd] at this; cases this
    have hnd : k ∉ s.keys.deferred := fun e => by have := (h.deferred k).1 e; rw [hc] at this; cases this
    simp only [Bool.not_false, if_true]
    unfold State.wentDown
    rw [uck, hc]
    simp only
    split
    · next hm =>
      simp only [Bool.and_eq_true, decide_eq_true_eq] at hm
      have e : (u.deferKey k).keys = { u.keys with
          all := u.keys.all.set k { u.key k with cond := .deferred }, deferred := u.keys.deferred ++ [k] } := by
        simp [State.deferKey, State.latchKeys, State.onKey, State.key]
      have ac : ∀ m, ((u.deferKey k).keys.all.get m).cond = if m = k then .deferred else (s.keys.all.get m).cond := fun m => by
        rw [e, Bank.get_set]
        by_cases em : k = m
        · subst em; simp
        · simp [em, Ne.symm em, uc]
      have ab : ∀ m, ((u.deferKey k).keys.all.get m).deb = if m = k then true else (s.keys.all.get m).deb := fun m => by
        rw [e, Bank.get_set]
        by_cases em : k = m
        · subst em; simpa [hd] using ubk
        · simp [em, Ne.symm em, ub]
      have ad : (u.deferKey k).keys.deferred = s.keys.deferred ++ [k] := by rw [e, ← ud]
      have ah : (u.deferKey k).keys.heldCount = s.keys.heldCount :=
        KeyScanner.heldCount_same k (by simp only [Key.heldAt, ac, hc, if_true]; rfl) fun m hmk => by
          rw [ac, if_neg hmk]
      refine KeyScanner.Orderly.sound ⟨by rw [e]; simpa [uq] using h.queue, ?_, fun m => ?_, fun m hmm => ?_, fun m => ?_⟩
        (.inr (by rw [ah, ← uh]; exact hm.2))
      · rw [ad, List.nodup_append]
        refine ⟨h.once, by simp, fun x hx y hy => ?_⟩
        simp only [List.mem_singleton] at hy
        rintro rfl
        subst hy
        exact hnd hx
      · rw [ad, ac]
        by_cases em : m = k
        · subst em; simp
        · simpa [em] using h.deferred m
      · rw [ad] at hmm
        rcases List.mem_append.1 hmm with hmm | hmm
        · exact h.matrix m hmm
        · simp only [List.mem_singleton] at hmm
          subst hmm
          simpa [isMatrix] using hm.1
      · rw [ac, ab]
        by_cases em : m = k
        · simp [em]
        · simpa [em] using h.levels m
    · next hm =>
      obtain ⟨t1, t2, t3⟩ := takeDown_keys k u
      have o1 : (u.takeDown k).keys.Orderly := by
        refine o.put k .down (t2 (by rw [uq]; exact h.queue)) (t1.trans ud) (by rw [hc]; simp) (by simp) (by simp [t3]) ?_ ?_
        · simp [t3, ub, hd]
        · intro m hmk; simp [t3, ub, uc, hmk]
      refine o1.sound ?_
      rw [t1, ud]
      rcases h.jammed with hj | hj
      · exact .inl hj
      · right
        by_cases hmx : isMatrix k = true
        · rw [KeyScanner.heldCount_held (a := s.keys) k (by simp [Key.heldAt, hc]) (by simp [Key.heldAt, t3, hmx])
            fun m hmk => by rw [(t3 m).1, if_neg hmk, uc]]
          omega
        · rw [KeyScanner.heldCount_same (a := s.keys) k (by simp [Key.heldAt, hmx]) fun m hmk => by
            rw [(t3 m).1, if_neg hmk, uc]]
          exact hj
  | true =>
    have hc : (s.keys.all.get k).cond ≠ .up := lv.1 hd
    simp only [Bool.not_true, Bool.false_eq_true, if_false]
    -- a key DOWN or MARKED that goes up, the others as they were
    have left : ∀ x : State, x.keys.deferred = s.keys.deferred → x.keys.queue.length ≤ 16 →
        (∀ m, (x.keys.all.get m).cond = (if m = k then .up else (s.keys.all.get m).cond) ∧
          (x.keys.all.get m).deb = (u.keys.all.get m).deb) →
        (s.keys.all.get k).cond ≠ .deferred → (x.afterUp k).keys.Sound := by
      intro x xd xq xk hcd
      refine afterUp_sound k x ?_ ?_
      · refine o.put k .up xq xd hcd (by simp) (by simp [xk]) ?_ ?_
        · simp [xk, ub, hd]
        · intro m hmk; simp [xk, ub, hmk]
      · rw [xd]
        rcases h.jammed with hj | hj
        · exact .inl hj
        · right
          by_cases hmx : isMatrix k = true
          · have hh : (s.keys.all.get k).heldAt k = true := by
              cases hcc : (s.keys.all.get k).cond <;> simp_all [Key.heldAt]
            have := KeyScanner.heldCount_held (a := x.keys) (b := s.keys) k (by simp [Key.heldAt, xk]) hh fun m hmk => by
              rw [(xk m).1, if_neg hmk]
            rw [if_pos hmx]; omega
          · rw [if_neg hmx, KeyScanner.heldCount_same (a := s.keys) k (by simp [Key.heldAt, hmx]) fun m hmk => by
              rw [(xk m).1, if_neg hmk]]
            exact hj
    unfold State.wentUp
    rw [uck]
    cases hcc : (s.keys.all.get k).cond with
    | up => exact absurd hcc hc
    | down =>
      obtain ⟨t1, t2, t3⟩ := takeUp_keys k u
      exact left _ (t1.trans ud) (t2 (by rw [uq]; exact h.queue))
        (fun m => by rw [(t3 m).1, (t3 m).2, uc]; exact ⟨rfl, rfl⟩) (by rw [hcc]; simp)
    | marked =>
      refine left (u.onKey k fun key => { key with cond := .up }) ud (by
          show u.keys.queue.length ≤ 16
          rw [uq]; exact h.queue) (fun m => ?_)
        (by rw [hcc]; simp)
      simp only [State.onKey, State.onKeys_keys, Bank.get_set]
      by_cases e : k = m
      · subst e; simp
      · simp [e, Ne.symm e, uc]
    | deferred =>
      have hmem := (h.deferred k).2 hcc
      generalize hx : ((u.onKey k fun key => { key with cond := .up }).onKeys fun ks =>
        { ks with deferred := ks.deferred.erase k }) = x
      have xk : x.keys = { u.keys with
          all := u.keys.all.set k { u.key k with cond := .up }, deferred := u.keys.deferred.erase k } := by rw [← hx]; rfl
      have xc : ∀ m, (x.keys.all.get m).cond = if m = k then .up else (s.keys.all.get m).cond := fun m => by
        rw [xk, Bank.get_set]
        by_cases e : k = m
        · subst e; simp
        · simp [e, Ne.symm e, uc]
      have xb : ∀ m, (x.keys.all.get m).deb = if m = k then false else (s.keys.all.get m).deb := fun m => by
        rw [xk, Bank.get_set]
        by_cases e : k = m
        · subst e; simpa [hd] using ubk
        · simp [e, Ne.symm e, ub]
      have xd : x.keys.deferred = s.keys.deferred.erase k := by rw [xk, ← ud]
      have xh : x.keys.heldCount = s.keys.heldCount :=
        KeyScanner.heldCount_same k (by simp only [Key.heldAt, xc, hcc, if_true]; rfl) fun m hmk => by
          rw [xc, if_neg hmk]
      refine KeyScanner.Orderly.sound ⟨by rw [xk]; simpa [uq] using h.queue, ?_, fun m => ?_, fun m hm => ?_, fun m => ?_⟩
        (.inr (by rw [xh]; exact h.jam fun e => by rw [e] at hmem; cases hmem))
      · rw [xd]; exact h.once.erase k
      · rw [xd, xc, h.once.mem_erase_iff]
        by_cases e : m = k
        · simp [e]
        · simpa [e] using h.deferred m
      · rw [xd] at hm; exact h.matrix m (List.mem_of_mem_erase hm)
      · rw [xc, xb]
        by_cases e : m = k
        · simp [e]
        · simpa [e] using h.levels m

/-- The expiry of the overdue timers keeps the law (R157). -/
theorem expireKeys_sound (s : State) (h : s.keys.Sound) (hs : s.store.st ≠ .checking) : s.expireKeys.keys.Sound := by
  unfold State.expireKeys
  induction List.finRange 20 generalizing s with
  | nil => exact h
  | cons k ks ih =>
    refine ih _ ?_ ?_ <;> unfold State.expireKey <;> split
    · exact debouncedChange_sound k s h hs
    · exact h
    · rw [((Stays.refl s).debouncedChange k).store]
      exact hs
    · exact hs

/-- A change of an input's active level keeps the law (R167): a direct input is no matrix key. -/
theorem relevel_sound (e : Fin 4) (level : Bool) (s : State) (h : s.keys.Sound) : (s.relevel e level).keys.Sound := by
  simp only [State.relevel]
  split
  · exact h
  · generalize hk : (⟨16 + e.val, by omega⟩ : KeyNo) = k
    have hmx : isMatrix k = false := by subst hk; simp [isMatrix]
    have hnd : (s.keys.all.get k).cond ≠ .deferred := fun e => by
      have := h.matrix k ((h.deferred k).2 e)
      simp [isMatrix] at hmx; omega
    have lv := h.levels k
    generalize hu : (s.onKeys fun ks => { ks with active := ks.active.set e level }) = u
    have uk : u.keys = { s.keys with active := s.keys.active.set e level } := by rw [← hu]; rfl
    generalize hdn : ((u.key k).raw == level) = down
    generalize hw : (u.onKey k fun key => { key with deb := down, since := none }) = w
    have wk : w.keys = { u.keys with all := s.keys.all.set k { s.key k with deb := down, since := none } } := by
      rw [← hw]; simp [State.onKey, State.key, uk]
    have bc : (u.key k).cond = (s.keys.all.get k).cond := by simp [State.key, uk]
    have wc : ∀ m, (w.keys.all.get m).cond = (s.keys.all.get m).cond := fun m => by
      rw [wk]; simp only [Bank.get_set]; split
      · next e => subst e; rfl
      · rfl
    have wb : ∀ m, (w.keys.all.get m).deb = if m = k then down else (s.keys.all.get m).deb := fun m => by
      rw [wk]; simp only [Bank.get_set]
      by_cases e : k = m
      · subst e; simp
      · simp [e, Ne.symm e]
    have wd : w.keys.deferred = s.keys.deferred := by rw [wk, uk]
    have wq : w.keys.queue = s.keys.queue := by rw [wk, uk]
    -- the condition `c` for the level read
    have fin : ∀ (x : State) (c : KeyCondition), x.keys.deferred = s.keys.deferred → x.keys.queue.length ≤ 16 →
        (∀ m, (x.keys.all.get m).cond = (if m = k then c else (s.keys.all.get m).cond) ∧
          (x.keys.all.get m).deb = (w.keys.all.get m).deb) → c ≠ .deferred → (down = true ↔ c ≠ .up) → x.keys.Sound := by
      intro x c xd xq xk hcd hlv
      refine KeyScanner.Orderly.sound (h.orderly.put k c xq xd hnd hcd (by simp [xk]) ?_ ?_) ?_
      · simpa [xk, wb] using hlv
      · intro m hmk; simp [xk, wb, hmk]
      · rw [xd, KeyScanner.heldCount_same (a := s.keys) k (by simp [Key.heldAt, hmx]) fun m hmk => by
          rw [(xk m).1, if_neg hmk]]
        exact h.jammed
    have put : ∀ (c : KeyCondition) (m : KeyNo),
        ((w.onKey k fun key => { key with cond := c }).keys.all.get m).cond = (if m = k then c else (s.keys.all.get m).cond) ∧
        ((w.onKey k fun key => { key with cond := c }).keys.all.get m).deb = (w.keys.all.get m).deb := by
      intro c m
      simp only [State.onKey, State.onKeys_keys, Bank.get_set]
      by_cases e : k = m
      · subst e; simp
      · simp [e, Ne.symm e, wc]
    have stay : ∀ m, (w.keys.all.get m).cond = (if m = k then (s.keys.all.get k).cond else (s.keys.all.get m).cond) ∧
        (w.keys.all.get m).deb = (w.keys.all.get m).deb := fun m => by
      by_cases e : m = k
      · subst e; simp [wc]
      · simp [e, wc]
    have q16 : w.keys.queue.length ≤ 16 := by rw [wq]; exact h.queue
    rw [bc]
    cases hc : (s.keys.all.get k).cond with
    | deferred => exact absurd hc hnd
    | up =>
      cases down with
      | false => exact fin _ _ wd q16 stay hnd (by simp [hc])
      | true => exact fin _ .marked wd q16 (put _) (by simp) (by simp)
    | marked =>
      cases down with
      | false => exact fin _ .up wd q16 (put _) (by simp) (by simp)
      | true => exact fin _ _ wd q16 stay hnd (by simp [hc])
    | down =>
      cases down with
      | false =>
        obtain ⟨t1, t2, t3⟩ := takeUp_keys k w
        exact fin _ .up (t1.trans wd) (t2 q16) (fun m => by rw [(t3 m).1, (t3 m).2, wc]; exact ⟨rfl, rfl⟩) (by simp) (by simp)
      | true => exact fin _ _ wd q16 stay hnd (by simp [hc])

end State

/-! ### Resets and settings (R168, R169) -/

/-- Every key MARKED or UP by its debounced level, with nothing queued or deferred. -/
theorem KeyScanner.Sound.ofLevels {a : KeyScanner} (hq : a.queue = []) (hd : a.deferred = [])
    (h : ∀ k, (a.all.get k).cond = if (a.all.get k).deb then .marked else .up) : a.Sound where
  queue := by simp [hq]
  once := by simp [hd]
  deferred := fun k => by
    rw [hd, h]
    cases (a.all.get k).deb <;> simp
  matrix := by simp [hd]
  levels := fun k => by
    rw [h]
    cases (a.all.get k).deb <;> simp
  jam := fun e => absurd hd e

end Sys2Proof.Machine
end

