-- ==== Sys2Proof/Tests/Slice0.lean ====
section
/-! SUPPORT. Tests: the well-formedness check, one step of some commands on small states, and for every statement of
Certificates/Slice0/Obligations.lean states and operands that meet the hypotheses of each of its clauses
(`test_<statement>_met`). -/

set_option Elab.async false

namespace Sys2Proof.Tests

open Sys2Proof Machine

/-! ### Helpers -/

/-- The part after its start-up check, on a store as shipped. -/
def ready : State := { State.reset with store := { Store.reset with st := .ready, check := none } }

/-- Line 0 of the ready part changed. -/
def ln (f : Line → Line) : State := { ready with lines := ready.lines.set 0 (f (ready.line 0)) }

/-- Line 0 in a state. -/
def lnIn (x : LineState) : State := ln fun l => { l with st := x }

/-- A record of the job table. -/
def rec (id : Nat) (n : LineNo) (x : JobState) (ph : Option Phase) : Job :=
  { (Submission.record id ⟨n, .link, .inline [.digit 1], true, false, none, 0⟩) with state := x, phase := ph }

/-- The ready part with one live job on line 0. -/
def jb (j : Job) : State :=
  { ready with jobs := { JobEngine.reset with table := [j], queues := JobEngine.reset.queues.set 0 [j.id], lastId := 1 } }

/-- The ready part with one finished job. -/
def jbDone : State := { ready with jobs := { JobEngine.reset with table := [rec 1 0 .finished none], finished := [1] } }

/-- `k` live jobs, eight to a line. -/
def many (k : Nat) : JobEngine where
  table := (List.range k).map fun i => rec (i + 1) (Fin.ofNat 4 (i / 8)) .queued none
  queues := Bank.tabulate fun n => ((List.range k).filter fun i => i / 8 = n.val).map (· + 1)
  finished := []
  lastId := k
  retry := Bank.fill 4 .stopped

/-- The ready part with its store changed. -/
def sto (f : Store → Store) : State := { ready with store := f ready.store }

/-- The part in its start-up check, its store changed. -/
def chk (f : Store → Store) : State := { State.reset with store := f State.reset.store }

/-- An operation in flight. -/
def op (k : OpKind) (t : OpTarget) (ph : OpPhase) : State := sto fun st =>
  { st with st := .busy, op := some ⟨k, none, t, ph, false, 0⟩ }

/-- A rewrite of the start-up check in a phase. -/
def rewriting (ph : OpPhase) : State := chk fun st => { st with check := some ⟨0, some ⟨0, 0, ph, 0⟩⟩ }

/-- The ready part with its Link Port changed. -/
def lk (f : LinkPort → LinkPort) : State := { ready with link := f ready.link }

/-- The ready part with key `k` changed. -/
def ky (k : KeyNo) (f : Key → Key) : State :=
  { ready with keys := { ready.keys with all := ready.keys.all.set k (f (ready.key k)) } }

/-- A reply in the outbound queue. -/
def rep : OutRecord := .reply 0#8 [0#8] none

/-- The conditions of `State.TakesRequests` as a test. -/
def takes (s : State) : Bool :=
  !s.held && s.link.breakSince.isNone && s.link.inbound.isEmpty && s.link.replies < 3 && s.store.st != .checking

/-- The conditions of `State.TakesFrames` as a test. -/
def frames (s : State) : Bool :=
  !s.held && s.link.breakSince.isNone && s.link.inbound.isEmpty && s.link.replies < 3

theorem framesOf {s : State} (h : frames s = true) : s.TakesFrames := by
  simp only [frames, Bool.and_eq_true, Bool.not_eq_true', Option.isNone_iff_eq_none, List.isEmpty_iff,
    decide_eq_true_eq] at h
  exact ⟨h.1.1.1, h.1.1.2, h.1.2, h.2⟩

theorem takesOf {s : State} (h : takes s = true) : s.TakesRequests := by
  simp only [takes, Bool.and_eq_true, bne_iff_ne] at h
  exact ⟨framesOf (by simpa only [frames, Bool.and_eq_true] using h.1), h.2⟩

/-- What a command leaves. -/
def after (c : Instr) (s : State) : State :=
  match exec c s with
  | .next t => t
  | _ => s

/-- What a step leaves. -/
def stepped (s : State) : State :=
  match step s with
  | .next t => t
  | _ => s

/-- The step of `s` answers a next state. -/
def goesOn (s : State) : Bool :=
  match step s with
  | .next _ => true
  | _ => false

theorem stepsOf {s : State} (h : goesOn s = true) : Steps s (stepped s) := by
  unfold Steps stepped
  unfold goesOn at h
  split at h
  · next t e => rw [e]
  · cases h

/-! ### The well-formedness check -/

theorem test_wellFormed_longestBody : (Instr.status 0#8 (List.replicate 253 0#8)).wellFormed = true := by decide +kernel
theorem test_wellFormed_bodyTooLong : (Instr.status 0#8 (List.replicate 254 0#8)).wellFormed = false := by decide +kernel
theorem test_wellFormed_kindUnknown : (Instr.unknownKind 0x54#8 0#8 []).wellFormed = true := by decide +kernel
theorem test_wellFormed_kindOfRequest : (Instr.unknownKind 0x53#8 0#8 []).wellFormed = false := by decide +kernel
theorem test_wellFormed_unknownTooLong :
    (Instr.unknownKind 0x54#8 0#8 (List.replicate 254 0#8)).wellFormed = false := by decide +kernel
theorem test_wellFormed_timer : (Instr.guardTimerExpiry 3).wellFormed = true := by decide +kernel
theorem test_noRowGivesBits : decodeTableWord 16 0xFFFF = none := rfl

/-! ### One step of some commands -/

theorem test_reset_startsCheck : State.reset.ownSteps = [.startUpBlockCheck] := by decide +kernel
theorem test_blockCheck_goesOn : (after .startUpBlockCheck State.reset).store.check = some ⟨1, none⟩ := by
  decide +kernel
theorem test_checkEnd_ready :
    (after .startupCheckEnd (chk fun st => { st with check := some ⟨32, none⟩ })).store = ready.store := by
  decide +kernel
theorem test_identify_reply : (after (.identify 7#8 []) ready).link.outbound =
    [.reply 7#8 [0#8, 0x15#8, 0x7A#8, 0x40#8, 4#8, 1#8, 4#8, 128#8, 0#8, 1#8] none] := by decide +kernel
theorem test_status_notReady : (after (.status 7#8 []) State.reset).link.outbound =
    [.reply 7#8 [2#8, 1#8, 0#8] none] := by decide +kernel
theorem test_unknownKind_refused : (after (.unknownKind 0x7F#8 7#8 []) State.reset).link.outbound =
    [.reply 7#8 [2#8, 2#8, 0#8] none] := by decide +kernel
theorem test_enableLine_idle : ((after (.enableLine 0#8 [3#8]) ready).line 3).st = .idle := by decide +kernel
theorem test_submit_queues :
    (after (.submitJob 0#8 [0#8, 0#8, 1#8, 0#8, 0#8, 0#8, 1#8, 0x35#8]) (lnIn .idle)).jobs.queues.get 0 = [1] := by
  decide +kernel
theorem test_jobStart_resolves :
    ((after (.jobStart 0) { lnIn .idle with jobs := (jb (rec 1 0 .queued none)).jobs }).job 1).map (·.offered) =
      some true := by decide +kernel
theorem test_attemptStart_seizes :
    ((after (.attemptStart 0) { lnIn .idle with
      jobs := (jb { rec 1 0 .active (some .resolve) with methodInEffect := some .tone }).jobs }).line 0).out =
      ⟨true, false, false, false, false⟩ := by decide +kernel
theorem test_pulse_opens :
    let s := ln fun l => { l with st := .dialing, cursor := ⟨.send, [.digit 3], 0, .none, 0⟩,
                                  attempt := some ⟨[], .pulse, true⟩ }
    ((s.beginSymbol 0).line 0).out.lcl = false ∧ ((s.beginSymbol 0).line 0).timers.breakT = some 60 ∧
      ((s.beginSymbol 0).line 0).cursor.pulses = 2 := by decide +kernel
theorem test_tone_sounds :
    let s := ln fun l => { l with st := .dialing, cursor := ⟨.send, [.digit 3], 0, .none, 0⟩,
                                  attempt := some ⟨[], .tone, true⟩ }
    ((s.beginSymbol 0).line 0).out.ton = true ∧ (s.beginSymbol 0).pool.gens.get 0 = some ⟨0, .digit 3⟩ := by
  decide +kernel
theorem test_toneTable : Generator.tones (some ⟨0, .digit 5⟩) = some (770, 1336) := by decide +kernel
theorem test_receive_goodFrame :
    let s := lk fun k => { k with rx := ⟨.check, [0x01#8, 9#8], 2, none, some 31⟩ }
    (after (.receiveByte 0xF4#8 .clean) s).link.outbound.length = 1 := by decide +kernel
theorem test_receive_badCheck :
    let s := lk fun k => { k with rx := ⟨.check, [0x01#8, 9#8], 2, none, some 31⟩ }
    (after (.receiveByte 0xF5#8 .clean) s).events.lastLinkError = some .badCheck := by decide +kernel
theorem test_frameBytes : (OutRecord.reply 9#8 [0#8] none).frame =
    [0xC3#8, 3#8, 0x80#8, 9#8, 0#8, 0x74#8] := by decide +kernel
theorem test_key_records :
    (after (.keyTransition 5) (ky 5 fun k => { k with since := some 3 })).keys.queue = [⟨5, true, 23⟩] := by
  decide +kernel
/-- Millisecond 15 of the ready part, key 5 pressed and E0 LOW since millisecond 0. -/
def pressed : State :=
  { ready with now := 15, keys := { ready.keys with all := Bank.tabulate fun k =>
      if k = 5 ∨ k = 16 then { ready.key k with raw := k = 5, since := some 0 } else ready.key k } }

/-- A SET SCAN to 10 ms that leaves E0 LOW takes both keys DOWN before its reply; one that turns E0 stops its timer. -/
theorem test_setScan_expires :
    (after (.setScan 0#8 [10#8, 0#8, 0#8, 0#8, 0#8]) pressed).keys.queue =
      [⟨5, true, 15⟩, ⟨16, true, 15⟩] ∧
    (after (.setScan 0#8 [10#8, 1#8, 0#8, 0#8, 0#8]) pressed).keys.queue = [⟨5, true, 15⟩] ∧
    ((after (.setScan 0#8 [10#8, 1#8, 0#8, 0#8, 0#8]) pressed).key 16).since = none := by decide +kernel
theorem test_ring_counts :
    ((after (.ringBurstStart 0) (ln fun l => { l with ring := { l.ring with startDue := some 20 } })).line 0).ring =
      ⟨false, true, none, some 220, 1, some 6020⟩ := by decide +kernel
theorem test_break_takesStraps : (after (.linkBreak 7#3) ready).link.settings = ⟨0, false⟩ ∧
    (after (.linkBreak 4#3) ready).link.settings = ⟨4, false⟩ := by decide +kernel
theorem test_write_erasesBlock :
    (after (.writeEntry 0#8 [5#8, 0#8, 0#8, 0xFF#8, 1#8, 0x31#8, 0#8]) ready).store.op.map (·.phase) = some .erase ∧
    ((after (.writeEntry 0#8 [5#8, 0#8, 0#8, 0xFF#8, 1#8, 0x31#8, 0#8]) ready).store.blocks.get 1).content = none := by
  decide +kernel
theorem test_verifyFail_takesSpare :
    let t := after .storeVerifyFail (op .write (.block 0 0 blankSlots) .verify)
    t.store.map.get 0 = some 32 ∧ t.store.spares = [33, 34, 35] ∧ (t.store.blocks.get 0).role = .retired := by
  decide +kernel
theorem test_step_millisecond : stepped ready = { ready with now := 1 } := by decide +kernel
theorem test_step_blockCheck : (stepped State.reset).store.check = some ⟨1, none⟩ := by decide +kernel

/-! ### Witnesses: the step, resets and start -/

/-- A submission of key 5, bound to line 0 and entry 127, on its way to the engine. -/
def onWay (s : State) : State := { s with keys := { s.keys with handed := [⟨5, 0, 127⟩] } }

/-- No step of the ready part is due. -/
theorem nothingDue (c : Instr) : ¬ ready.Due c := by
  have lines : ∀ n, ready.line n = ready.line 0 := by decide +kernel
  have line : (ready.line 0).loop.since = none ∧ (ready.line 0).rev.since = none ∧ (ready.line 0).ring.startDue = none ∧
      (ready.line 0).ring.gapDue = none ∧ (ready.line 0).ring.glareDue = none ∧ (ready.line 0).pc.edges = [] ∧
      (ready.line 0).pc.listening = false ∧ (ready.line 0).timers = LineTimers.stopped ∧
      (ready.line 0).st = .disabled := by decide +kernel
  have rest : (∀ k, (ready.key k).since = none) ∧ (∀ n, ready.jobs.retry.get n = .stopped) ∧ ready.store.check = none ∧
      ready.link.rx.gap = none ∧ ready.link.outbound = [] := by decide +kernel
  cases c <;> simp [State.Due, State.SteadyDue, cameBy, lines, line, rest, LineTimers.stopped]

theorem test_stepWithoutCommand_met :
    (ready.pending = [] ∧ ({ ready with held := true } : State).held = true) ∧
    ((onWay ready).pending = [] ∧ (onWay ready).held = false ∧ (onWay ready).keys.handed = ⟨5, 0, 127⟩ :: []) ∧
    (ready.held = false ∧ ready.keys.handed = [] ∧ ready.ownSteps = []) ∧
    (State.reset.pending = [] ∧ State.reset.held = false ∧ State.reset.keys.handed = [] ∧
      State.reset.ownSteps = .startUpBlockCheck :: []) ∧
    (State.reset.Due .startUpBlockCheck ∧ ∀ c, ¬ ready.Due c) :=
  ⟨by decide +kernel, by decide +kernel, by decide +kernel, by decide +kernel,
    ⟨0, by decide +kernel, by decide⟩, nothingDue⟩

theorem test_powerOnState_met :
    ((Instr.powerOn 5#3 = .powerOn 5#3 ∧ ResetCause.powerOn = .powerOn) ∧
     (Instr.pinReset = .pinReset ∧ ResetCause.pin = .pin ∧ (0#3 : BitVec 3) = ready.pins.straps)) := by decide +kernel

/-- The state at millisecond 7. -/
def at7 (s : State) : State := { s with now := 7 }

theorem test_resetDuringStoreWork_met :
    ((∃ straps, Instr.powerOn 5#3 = .powerOn straps) ∧ Instr.pinReset = .pinReset) ∧
    (ready.store.op = none ∧ ready.store.rewriteNow = none) ∧
    (∀ ph ∈ [OpPhase.erase, .program, .verify],
      (at7 (op .save (.settings none) ph)).store.op = some ⟨.save, none, .settings none, ph, false, 0⟩ ∧
      (at7 (op .write (.block 0 0 blankSlots) ph)).store.op = some ⟨.write, none, .block 0 0 blankSlots, ph, false, 0⟩ ∧
      (at7 (rewriting ph)).store.op = none ∧ (at7 (rewriting ph)).store.rewriteNow = some ⟨0, 0, ph, 0⟩) ∧
    (0 < (at7 ready).now ∧ ready.now ≤ 0) ∧ (1 : PhysicalNo) ≠ 0 :=
  ⟨⟨⟨_, rfl⟩, rfl⟩, by decide +kernel⟩

theorem test_partStarts_met :
    ready.held = false ∧ ({ ready with held := true } : State).held = true ∧ 16 ≤ (16 : KeyNo).val ∧
      ¬ 16 ≤ (15 : KeyNo).val ∧
    (let t := after (.partStart 7#3) { ready with held := true }
     t.store.map.get 31 = some 31 ∧ 35 ∈ t.store.spares) ∧
    (let s := sto fun st => { st with blocks := st.blocks.set 31 (st.blocks.get 31).retire }
     (after (.partStart 7#3) { s with held := true }).store.map.get 31 = none) := by decide +kernel

theorem test_blockCheckMakesSound_met :
    (State.reset.store.check = some ⟨(0 : LogicalNo).val, none⟩ ∧ State.reset.store.map.get 0 = some 0 ∧
      (State.reset.store.blocks.get 0).content = some blankSlots) ∧
    (let s := chk fun st => { st with
       check := some ⟨31, none⟩, blocks := st.blocks.set 31 { st.blocks.get 31 with content := none } }
     s.store.check = some ⟨(31 : LogicalNo).val, none⟩ ∧ s.store.map.get 31 = some 31 ∧
       (s.store.blocks.get 31).content = none) ∧
    (let s := chk fun st => { st with map := st.map.set 0 none }
     s.store.check = some ⟨(0 : LogicalNo).val, none⟩ ∧ s.store.map.get 0 = none ∧
       s.store.spares = 32 :: [33, 34, 35]) ∧
    (let s := chk fun st => { st with map := st.map.set 0 none, spares := [] }
     s.store.check = some ⟨(0 : LogicalNo).val, none⟩ ∧ s.store.map.get 0 = none ∧ s.store.spares = []) := by
  decide +kernel

/-- Settings as a SAVE after reset would hold them. -/
def saved : Settings := ready.snapshot

theorem test_checkEndLoadsSettings_met :
    (let s := chk fun st => { st with check := some ⟨32, none⟩ }
     s.store.check = some ⟨32, none⟩ ∧ s.store.medium = .erased) ∧
    (let s := chk fun st => { st with check := some ⟨32, none⟩, medium := .invalid }
     s.store.check = some ⟨32, none⟩ ∧ s.store.medium = .invalid) ∧
    (let s := chk fun st => { st with check := some ⟨32, none⟩, medium := .valid saved }
     s.store.check = some ⟨32, none⟩ ∧ s.store.medium = .valid saved) ∧
    (let c := { saved with
       enabled := saved.enabled.set 2 true, active := saved.active.set 3 true, masks := saved.masks.set 6 1#8 }
     (c.profiles.get 2).startEnabled = false ∧ c.enabled.get 2 = true ∧ State.reset.keys.active.get 3 ≠ c.active.get 3 ∧
       (State.reset.source 6).latched &&& c.masks.get 6 ≠ 0#8 ∧ (State.reset.source 6).noticePending = false) := by
  decide +kernel

/-! ### Witnesses: requests -/

theorem test_identifyAnswers_met :
    State.reset.TakesFrames ∧ ([] : List Byte) = [] ∧ ([0#8] : List Byte) ≠ [] :=
  ⟨framesOf (by decide +kernel), rfl, by decide +kernel⟩

theorem test_reportsAnswer_met : ready.TakesRequests := takesOf (by decide +kernel)

/-- A stored entry. -/
def anEntry : EntryFields := ⟨.line, 9, some 127, [.digit 0, .star], [0x20#8, 0x7E#8]⟩

/-- The ready part with entry 127 written. -/
def oneEntry : State := sto fun st =>
  { st with blocks := st.blocks.set 31 { st.blocks.get 31 with content := some (blankSlots.set 3 (.valid anEntry)) } }

/-- The ready part with logical block 31 dead. -/
def deadLast : State := sto fun st => { st with map := st.map.set 31 none }

/-- A FORMAT in flight. -/
def formatting : State := op .format (.block 0 0 blankSlots) .erase

theorem test_recordReportsAnswer_met :
    ready.TakesRequests ∧ (ready.cadence.get 7 = none ∧ ready.cadence.get 0 = some ⟨.dial, .steady 100⟩ ∧
      ready.cadence.get 3 = some ⟨.reorder, .cadenced [⟨20, 30, 20, 30⟩] 4⟩) ∧
    (formatting.TakesRequests ∧ formatting.store.covers (blockOf 127) = true) ∧
    (deadLast.TakesRequests ∧ deadLast.store.covers (blockOf 127) = false ∧
      deadLast.store.map.get (blockOf 127) = none) ∧
    (ready.store.covers (blockOf 0) = false ∧ ready.store.map.get (blockOf 0) ≠ none ∧ ready.store.entry 0 = .blank) ∧
    (oneEntry.TakesRequests ∧ oneEntry.store.covers (blockOf 127) = false ∧ oneEntry.store.entry 127 = .valid anEntry) ∧
    (1 ≤ 255 ∧ 255 ≤ 255 ∧ ready.job 255 = none) ∧
    (jbDone.TakesRequests ∧ jbDone.job 1 = some (rec 1 0 .finished none)) :=
  ⟨takesOf (by decide +kernel), by decide +kernel, ⟨takesOf (by decide +kernel), by decide +kernel⟩,
    ⟨takesOf (by decide +kernel), by decide +kernel⟩, by decide +kernel,
    ⟨takesOf (by decide +kernel), by decide +kernel⟩, by decide +kernel,
    ⟨takesOf (by decide +kernel), by decide +kernel⟩⟩

theorem test_transmitterSends_met :
    (ready.TakesRequests ∧ 255 ≤ 255) ∧ (4 ≤ 4 ∧ 1 ≤ 1 ∧ 4 < 5 ∧ 1 < 2) ∧
    (let s := { lk fun k => { k with outbound := [rep] } with held := true }
     s.link.outbound = rep :: [] ∧ s.held = true) ∧
    (let s := lk fun k => { k with outbound := [rep], tx := .sending rep [] }
     s.link.outbound = rep :: [] ∧ s.link.tx ≠ .idle) ∧
    (let s := { lk fun k => { k with outbound := [rep] } with pins := ⟨0#3, true⟩ }
     s.link.outbound = rep :: [] ∧ s.pins.lhold = true) ∧
    (let s := lk fun k => { k with outbound := [rep], breakSince := some 0 }
     s.link.outbound = rep :: [] ∧ s.link.breakSince ≠ none) ∧
    (let s := lk fun k => { k with outbound := [.note 6 []] }
     s.link.outbound = .note 6 [] :: [] ∧ s.held = false ∧ s.link.tx = .idle ∧ s.pins.lhold = false ∧
       s.link.breakSince = none ∧ OutRecord.isReply (.note 6 []) = false) ∧
    (let s := lk fun k => { k with outbound := [rep, rep, rep], inbound := [⟨1#8, 0#8, []⟩] }
     s.link.outbound = rep :: [rep, rep] ∧ s.held = false ∧ s.link.tx = .idle ∧ s.pins.lhold = false ∧
       s.link.breakSince = none ∧ rep.isReply = true ∧ s.link.inbound = ⟨1#8, 0#8, []⟩ :: [] ∧ s.link.replies = 3) ∧
    (ready.link.outbound = [] ∧ ready.link.tx = .idle) ∧
    ((lk fun k => { k with tx := .sending (.reply 0#8 [] (some ⟨4, true⟩)) [] }).link.tx =
      .sending (.reply 0#8 [] (some ⟨4, true⟩)) []) ∧
    ((lk fun k => { k with tx := .sending (.note 0 []) [] }).link.tx = .sending (.note 0 []) []) :=
  ⟨⟨takesOf (by decide +kernel), by decide⟩, by decide +kernel⟩

theorem test_resetEngineClears_met :
    (lnIn .connected).TakesRequests ∧ ((lnIn .connected).line 3).st = .disabled ∧
      ((lnIn .connected).line 0).st ≠ .disabled ∧ (4 : SourceNo).val < 5 ∧
    (∀ calls : Bool, let s := ready.putSource 6 ⟨0#8, if calls then 1#8 else 0#8, false⟩
      s.TakesRequests ∧ (s.source systemSource).latched.getLsbD 0 = false ∧
        (s.source systemSource).mask.getLsbD 0 = calls ∧ (s.source systemSource).noticePending = false) :=
  ⟨takesOf (by decide +kernel), by decide +kernel, by decide +kernel, by decide,
    fun calls => ⟨takesOf (by revert calls; decide +kernel), by revert calls; decide +kernel⟩⟩

/-- The ready part with RESET of SYSTEM unread and noticed. -/
def noticed : State := ready.putSource 6 ⟨1#8, 1#8, true⟩

theorem test_eventRequestsAct_met :
    (State.reset.TakesFrames ∧ (5 : SourceNo) ≠ 6) ∧
    (ready.TakesRequests ∧ 0x80#8 &&& ~~~(flagsOf 3) ≠ 0#8 ∧ 0x10#8 &&& ~~~(flagsOf 4) ≠ 0#8) ∧
    (noticed.TakesRequests ∧ 0x0F#8 &&& ~~~(flagsOf 6) = 0#8 ∧ (noticed.source 6).noticePending = true) ∧
    (0x7F#8 &&& ~~~(flagsOf 0) = 0#8 ∧ (ready.source 0).latched &&& 0x7F#8 = 0#8) ∧
    ((ready.source 6).noticePending = false ∧ 0x01#8 &&& ~~~(flagsOf 6) = 0#8 ∧
      (ready.source 6).latched &&& 0x01#8 ≠ 0#8) :=
  ⟨⟨framesOf (by decide +kernel), by decide⟩, ⟨takesOf (by decide +kernel), by decide +kernel⟩,
    ⟨takesOf (by decide +kernel), by decide +kernel⟩, by decide +kernel⟩

/-- The field index of the first check that fails. -/
def firstBad (fields : List (Nat × Bool)) : Option Nat := (fields.find? fun x => !x.2).map (·.1)

/-- A field so found meets the hypotheses of `State.RefusesFirst.badValue`. -/
theorem badOf {fields : List (Nat × Bool)} {f : Nat} (h : firstBad fields = some f) :
    ∃ i : Nat, fields[i]? = some (f, false) ∧ ∀ j : Nat, j < i → ∃ g, fields[j]? = some (g, true) := by
  induction fields with
  | nil => cases h
  | cons x xs ih =>
    obtain ⟨g, b⟩ := x
    cases b with
    | false =>
      cases h
      exact ⟨0, rfl, fun j hj => absurd hj (Nat.not_lt_zero j)⟩
    | true =>
      obtain ⟨i, hi, hj⟩ := ih (by simpa [firstBad] using h)
      refine ⟨i + 1, hi, fun j hlt => ?_⟩
      cases j with
      | zero => exact ⟨g, rfl⟩
      | succ j => exact hj j (Nat.lt_of_succ_lt_succ hlt)

/-- Where none is found, every check holds, as `State.RefusesFirst.notReady` asks. -/
theorem goodOf {fields : List (Nat × Bool)} (h : firstBad fields = none) : ∀ x ∈ fields, x.2 = true := by
  simpa [firstBad] using h

/-- A profile with every quantity at the lower end of its range. -/
def lowProfile : Profile := { Profile.default with
  pulseRate := 10, breakPct := 60, interdigitMs := 200, toneOnMs := 50, toneGapMs := 50, flashMs := 80, pauseMs := 500
  seizeTimeoutMs := 200, postSeizeMs := 0, dialtoneTimeoutMs := 1000, noAnswerS := 5, disconnectMs := 100
  guardMs := 200, retryDelayS := 1, attemptsDefault := 1, answerGapMs := 2000 }

/-- A profile with every quantity at the upper end of its range. -/
def highProfile : Profile := { Profile.default with
  pulseRate := 20, breakPct := 66, interdigitMs := 1000, toneOnMs := 250, toneGapMs := 250, flashMs := 900
  pauseMs := 10000, seizeTimeoutMs := 5000, postSeizeMs := 2000, dialtoneTimeoutMs := 15000, noAnswerS := 180
  disconnectMs := 2000, guardMs := 5000, retryDelayS := 300, attemptsDefault := 9, answerGapMs := 15000 }

theorem test_lowProfile_inRange : lowProfile.InRange := by constructor <;> decide
theorem test_highProfile_inRange : highProfile.InRange := by constructor <;> decide

theorem test_profile_roundTrip :
    ((after (.setProfile 0#8 (finCode (0 : LineNo) :: highProfile.encode)) ready).line 0).committed = highProfile ∧
    ((after (.setProfile 0#8 (finCode (0 : LineNo) :: lowProfile.encode)) ready).line 0).committed = lowProfile := by
  decide +kernel

theorem test_lineConfigured_met :
    ready.TakesRequests ∧ Profile.default.InRange ∧
    (firstBad (profileFields [4#8]) = some 1 ∧ firstBad (profileFields (3#8 :: List.replicate 36 0xFF#8)) = some 2 ∧
      firstBad (profileFields (3#8 :: highProfile.encode)) = none ∧ (3#8 :: highProfile.encode).length = 37 ∧
      State.reset.TakesFrames ∧ State.reset.store.st = .checking) ∧
    (ready.line 0).st = .disabled ∧
    ((lnIn .idle).TakesRequests ∧ ((lnIn .idle).line 0).st ≠ .disabled) ∧
    (((lnIn .idle).line 0).st = .idle ∧ (lnIn .idle).queue 0 = []) ∧
    ((jb (rec 1 0 .queued none)).TakesRequests ∧ (jb (rec 1 0 .queued none)).queue 0 ≠ []) :=
  ⟨takesOf (by decide +kernel), by constructor <;> decide,
    ⟨by decide +kernel, by decide +kernel, by decide +kernel, by decide +kernel, framesOf (by decide +kernel),
      by decide +kernel⟩, by decide +kernel,
    ⟨takesOf (by decide +kernel), by decide +kernel⟩, by decide +kernel, ⟨takesOf (by decide +kernel), by decide +kernel⟩⟩

theorem test_lineInEachState_met :
    ∀ x ∈ [LineState.disabled, .idle, .seizing, .awaitDialtone, .dialing, .awaitProgress, .connected, .held, .releasing],
      takes (lnIn x) = true ∧ ((lnIn x).line 0).st = x ∧ ((lnIn x).line 0).postAnswer = false := by decide +kernel

theorem test_releaseLineEnds_met :
    let s := ln fun l => { l with st := .dialing, postAnswer := true }
    s.TakesRequests ∧ (s.line 0).st = .dialing ∧ (s.line 0).postAnswer = true :=
  ⟨takesOf (by decide +kernel), by decide +kernel⟩

theorem test_holdAndUnhold_met :
    (lnIn .connected).TakesRequests ∧ ((lnIn .connected).line 0).st = .connected ∧
    ((lnIn .connected).line 0).st ≠ .held ∧ (lnIn .held).TakesRequests ∧ ((lnIn .held).line 0).st = .held ∧
    ((lnIn .held).line 0).st ≠ .connected :=
  ⟨takesOf (by decide +kernel), by decide +kernel, by decide +kernel, takesOf (by decide +kernel), by decide +kernel,
    by decide +kernel⟩

/-- A CONNECTED line under a method. -/
def call (m : Method) : State := ln fun l => { l with st := .connected, attempt := some ⟨[], m, true⟩ }

/-- A CONNECTED line with a manual tone of key 4. -/
def sounding (a : Activity) : State := ln fun l =>
  { l with st := .connected, manual := ⟨a, some 4, some .star, false, false⟩ }

theorem test_sendDigitsDials_met :
    ((call .tone).TakesRequests ∧ 1 ≤ [Symbol.star].length ∧ (List.replicate 32 Symbol.star).length ≤ 32) ∧
    ((ready.line 0).st ≠ .connected) ∧
    ((sounding .waiting).TakesRequests ∧ ((sounding .waiting).line 0).st = .connected ∧
      ((sounding .waiting).line 0).manual.activity ≠ .none) ∧
    ((call .pulse).TakesRequests ∧ ((call .pulse).line 0).st = .connected ∧
      ((call .pulse).line 0).manual.activity = .none ∧ ((call .pulse).line 0).method.allowsAll [.star] = false) ∧
    (((call .tone).line 0).manual.activity = .none ∧
      ((call .tone).line 0).method.allowsAll (List.replicate 32 .star) = true) :=
  ⟨⟨takesOf (by decide +kernel), by decide⟩, by decide +kernel, ⟨takesOf (by decide +kernel), by decide +kernel⟩,
    ⟨takesOf (by decide +kernel), by decide +kernel⟩, by decide +kernel⟩

/-- The ready part, line 0 IDLE and line 3 IDLE, with a Job Engine. -/
def engine (e : JobEngine) : State :=
  { ready with lines := (ready.lines.set 0 { ready.line 0 with st := .idle }).set 3 { ready.line 3 with st := .idle }
               jobs := e }

/-- A full table whose oldest job is finished. -/
def fullDone : JobEngine := { many 23 with table := (many 23).table ++ [rec 24 3 .finished none], finished := [24] }

theorem soundMany (k : Nat) (hk : k = 8 ∨ k = 24) : (many k).Sound := by
  rcases hk with rfl | rfl <;> constructor <;> decide +kernel

theorem soundFullDone : fullDone.Sound := by constructor <;> decide +kernel

/-- Identifiers 1 to 8 held, and 255 issued last: the next after the turn is 9. -/
def turned255 : JobEngine := { many 8 with lastId := 255 }

theorem soundTurned : turned255.Sound := by constructor <;> decide +kernel

theorem test_identifiers : turned255.nextId = 9 ∧ ({ many 8 with lastId := 2 } : JobEngine).nextId = 9 ∧
    ({ many 8 with lastId := 254 } : JobEngine).nextId = 255 := by decide +kernel

theorem test_submitJobQueues_met :
    (ready.TakesRequests ∧ ready.jobs.Sound ∧ 9 ≤ 9 ∧ (ready.line 0).st = .disabled) ∧
    (1 ≤ [Symbol.pause].length ∧ (List.replicate 32 Symbol.pause).length ≤ 32 ∧
      Method.allowsAll .pulse (List.replicate 32 .pause)) ∧
    ((engine (many 8)).TakesRequests ∧ (many 8).Sound ∧ ((engine (many 8)).line 0).st ≠ .disabled ∧
      8 ≤ ((engine (many 8)).queue 0).length) ∧
    ((engine (many 24)).TakesRequests ∧ (many 24).Sound ∧ ((engine (many 24)).line 3).st ≠ .disabled ∧
      ((engine (many 24)).queue 3).length < 8 ∧ (engine (many 24)).jobs.table.length = 24 ∧
      (engine (many 24)).jobs.finished = []) ∧
    ((engine fullDone).TakesRequests ∧ fullDone.Sound ∧ ((engine fullDone).line 3).st ≠ .disabled ∧
      ((engine fullDone).queue 3).length < 8 ∧ (engine fullDone).jobs.table.length = 24 ∧
      (engine fullDone).jobs.finished = 24 :: [] ∧ (engine fullDone).job 24 = some (rec 24 3 .finished none)) ∧
    ((engine turned255).TakesRequests ∧ turned255.Sound ∧ ((engine turned255).line 3).st ≠ .disabled ∧
      ((engine turned255).queue 3).length < 8 ∧ (engine turned255).jobs.table.length < 24) :=
  ⟨⟨takesOf (by decide +kernel), JobEngine.Sound.reset, by decide, by decide +kernel⟩, by decide +kernel,
    ⟨takesOf (by decide +kernel), soundMany 8 (.inl rfl), by decide +kernel⟩,
    ⟨takesOf (by decide +kernel), soundMany 24 (.inr rfl), by decide +kernel⟩,
    ⟨takesOf (by decide +kernel), soundFullDone, by decide +kernel⟩,
    ⟨takesOf (by decide +kernel), soundTurned, by decide +kernel⟩⟩

theorem test_jobsEndAndLeave_met :
    (jbDone.TakesRequests ∧ 1 ≤ 1 ∧ 1 ≤ 255 ∧ jbDone.job 1 = some (rec 1 0 .finished none) ∧
      jbDone.jobs.finished = 1 :: []) ∧
    (let s := jb (rec 1 0 .active (some .dial))
     s.TakesRequests ∧ s.job 1 = some (rec 1 0 .active (some .dial)) ∧ s.jobs.finished = []) ∧
    (let s := jb (rec 1 0 .active (some .resolve))
     s.TakesRequests ∧ s.job 1 = some (rec 1 0 .active (some .resolve))) ∧
    (let s := jb (rec 1 0 .retryWait none)
     s.TakesRequests ∧ s.job 1 = some (rec 1 0 .retryWait none)) ∧
    (let s := jb (rec 255 0 .queued none)
     s.TakesRequests ∧ s.job 255 = some (rec 255 0 .queued none) ∧ 255 ≤ 255) :=
  ⟨⟨takesOf (by decide +kernel), by decide +kernel⟩, ⟨takesOf (by decide +kernel), by decide +kernel⟩,
    ⟨takesOf (by decide +kernel), by decide +kernel⟩, ⟨takesOf (by decide +kernel), by decide +kernel⟩,
    ⟨takesOf (by decide +kernel), by decide +kernel⟩⟩

/-- A listening line whose filtered level and interval in progress are given. -/
def hears (x : LineState) (on : Bool) (i : Interval) : State := ln fun l =>
  { l with st := x, pc := { l.pc with listening := true, filtered := on, interval := some i } }

theorem test_cadenceWritten_met :
    let s := hears .awaitProgress false ⟨false, 0, true⟩
    (s.TakesRequests ∧ (s.line 0).pc.listening = true ∧ (s.line 0).pc.onSince = none ∧
      ∀ n, (s.line n).pc.listening = true → (s.line n).pc.onSince = none) ∧
    (10 ≤ 10 ∧ 1000 ≤ 1000 ∧ 1 ≤ [(⟨1, 1000, 1, 1000⟩ : Segment)].length ∧
      (List.replicate 4 (⟨1, 1, 1000, 1000⟩ : Segment)).length ≤ 4 ∧ 1 ≤ 1 ∧ 4 ≤ 4 ∧
      ∀ x ∈ [(⟨1, 1000, 1, 1000⟩ : Segment), ⟨1, 1, 1000, 1000⟩], 1 ≤ x.onMin ∧ x.onMin ≤ x.onMax ∧ x.onMax ≤ 1000 ∧
        1 ≤ x.offMin ∧ x.offMin ≤ x.offMax ∧ x.offMax ≤ 1000) ∧
    ((ready.line 0).pc.listening = false ∧ ((hears .awaitProgress false ⟨false, 0, true⟩).line 0).pc.filtered = false ∧
      ∀ i, ((hears .awaitProgress true ⟨false, 0, true⟩).line 0).pc.interval = some i → i.on = false) ∧
    (let s := hears .awaitProgress true ⟨true, 0, true⟩
     (s.line 0).pc.filtered = true ∧ (s.line 0).pc.interval = some ⟨true, 0, true⟩ ∧
       s.cadence.get 0 = some ⟨.dial, .steady 100⟩ ∧ (0 + 10 * 100 + 10 < 1011 ∧ ¬ 0 + 10 * 100 + 10 < 1010)) :=
  ⟨⟨takesOf (by decide +kernel), by decide +kernel⟩, by decide +kernel,
    ⟨by decide +kernel, by decide +kernel, fun i h => by cases h; rfl⟩, by decide +kernel⟩

/-- A table change retests the STEADY templates against the on interval in progress (R92, [11]). -/
theorem test_tableChange_retests :
    let s := fun now => { hears .connected true ⟨true, 0, true⟩ with now := now }
    ((State.tableChangeAt 0 (s 1011)).line 0).pc.current = some (.dial, 0) ∧
      ((State.tableChangeAt 0 (s 1010)).line 0).pc.current = none := by decide +kernel

/-- Entry fields at the lower ends. -/
def shortEntry : EntryFields := ⟨.pulse, 0, none, [.waitTone], []⟩
/-- Entry fields at the upper ends. -/
def longEntry : EntryFields := ⟨.tone, 9, some 0, List.replicate 24 .hash, List.replicate 12 0x7E#8⟩

theorem test_entryRequestsBegin_met :
    (formatting.TakesRequests ∧ formatting.store.st = .busy) ∧
    (∀ f ∈ [shortEntry, longEntry], f.maxAttempts ≤ 9 ∧ f.fallback ≠ some 127 ∧ 1 ≤ f.digits.length ∧
      f.digits.length ≤ 24 ∧ f.label.length ≤ 12 ∧ (∀ c ∈ f.label, 0x20 ≤ c.toNat ∧ c.toNat ≤ 0x7E) ∧
      (f.method = .pulse → Method.allowsAll .pulse f.digits)) ∧
    (deadLast.TakesRequests ∧ deadLast.store.st = .ready ∧ deadLast.store.map.get (blockOf 127) = none) ∧
    (oneEntry.TakesRequests ∧ oneEntry.store.st = .ready ∧ oneEntry.store.map.get (blockOf 127) = some 31 ∧
      oneEntry.store.entry 127 ≠ .blank ∧ oneEntry.store.entry 126 = .blank) :=
  ⟨⟨takesOf (by decide +kernel), by decide +kernel⟩, by decide +kernel,
    ⟨takesOf (by decide +kernel), by decide +kernel⟩, ⟨takesOf (by decide +kernel), by decide +kernel⟩⟩

theorem test_storeRequestsBegin_met :
    (formatting.TakesRequests ∧ formatting.store.st = .busy) ∧
    (ready.TakesRequests ∧ ready.store.st = .ready ∧ ready.store.map.get 0 = some 0 ∧
      ∀ a : LogicalNo, a < 0 → ready.store.map.get a = none) ∧
    (let s := sto fun st => { st with map := (Bank.fill 32 none).set 31 (some 35) }
     s.TakesRequests ∧ s.store.map.get 31 = some 35 ∧ ∀ a : LogicalNo, a < 31 → s.store.map.get a = none) ∧
    (let s := sto fun st => { st with map := Bank.fill 32 none }
     s.TakesRequests ∧ s.store.st = .ready ∧ ∀ b, s.store.map.get b = none) :=
  ⟨⟨takesOf (by decide +kernel), by decide +kernel⟩, ⟨takesOf (by decide +kernel), by decide +kernel⟩,
    ⟨takesOf (by decide +kernel), by decide +kernel⟩, ⟨takesOf (by decide +kernel), by decide +kernel⟩⟩

/-- A key queue at its limit. -/
def fullKeys (s : State) : State := { s with keys := { s.keys with queue := List.replicate 16 ⟨0, true, 0⟩ } }

theorem test_keyRequestsAct_met :
    (ready.TakesRequests ∧ 10 ≤ 10 ∧ 50 ≤ 50 ∧ (15 : KeyNo).val < 16 ∧ (19 : KeyNo).val = 16 + (3 : Fin 4).val) ∧
    (ready.keys.active.get 3 = false ∧ ready.keys.active.get 3 ≠ true) ∧
    (∀ (e : Fin 4) (k : KeyNo), k.val = 16 + e.val → ready.keys.active.get e ≠ true → (ready.key k).cond = .down →
      (ready.key k).raw = true) ∧
    (∀ x ∈ [KeyCondition.up, .marked, .down], ∀ raw ∈ [false, true],
      let s := ky 16 fun k => { k with raw := raw, deb := x != .up, cond := x }
      s.keys.active.get 0 ≠ true ∧ (s.key 16).cond = x ∧ ((s.key 16).raw == true) = raw) ∧
    (ready.keys.queue.length < 16 ∧ (fullKeys ready).keys.queue.length = 16) ∧
    (pressed.TakesRequests ∧ cameBy pressed.now (pressed.key 5).since 10 ∧ ∀ k, ¬ cameBy ready.now (ready.key k).since 10) :=
  ⟨⟨takesOf (by decide +kernel), by decide⟩, by decide +kernel, by decide +kernel, by decide +kernel, by decide +kernel,
    takesOf (by decide +kernel), ⟨0, by decide +kernel, by decide +kernel⟩, fun k ⟨_, h, _⟩ => by
      have none : ∀ k, (ready.key k).since = none := by decide +kernel
      rw [none] at h
      cases h⟩

/-- One segment of LOAD CADENCE with every window 1 to 1000. -/
def fullSegment : List Byte := [1#8, 0#8, 0xE8#8, 3#8, 1#8, 0#8, 0xE8#8, 3#8]

theorem test_requestsRefused_met :
    (ready.TakesFrames ∧ State.reset.TakesFrames ∧ State.reset.store.st = .checking ∧ ready.store.st ≠ .checking) ∧
    ([0#8] : List Byte) ≠ [] ∧ ([] : List Byte).length ≠ 1 ∧ 4 ≤ item [4#8] 0 ∧ item [3#8] 0 < 4 ∧ 8 ≤ item [8#8] 0 ∧
      20 ≤ item [20#8] 0 ∧ 128 ≤ item [128#8] 0 ∧ item [127#8] 0 < 128 ∧ (255#8 : Byte) ≠ 0#8 ∧
      ready.job (255#8 : Byte).toNat = none ∧ 7 ≤ (7#8 : Byte).toNat ∧ 0x54#8 ∉ requestCodes := by
  exact ⟨⟨framesOf (by decide +kernel), framesOf (by decide +kernel), by decide +kernel⟩, by decide +kernel⟩

/-- For the bodies of several fields: one that does not fit, one for each field at fault, and one without fault. -/
theorem test_requestsRefused_fields_met :
    [[5#8, 0#8], [4#8, 2#8], [4#8, 1#8]].map (fun b => firstBad (linkFields b)) = [some 1, some 2, none] ∧
    [[7#8, 0#8], [3#8, 0x80#8], [4#8, 0x10#8], [3#8, 0x7F#8], [6#8, 0x0F#8]].map (fun b => firstBad (maskFields b)) =
      [some 1, some 2, some 2, none, none] ∧
    [[9#8, 0#8, 0#8, 0#8, 0#8], [10#8, 2#8, 0#8, 0#8, 0#8], [50#8, 1#8, 1#8, 1#8, 2#8],
      [50#8, 1#8, 1#8, 1#8, 1#8]].map (fun b => firstBad (scanFields b)) = [some 1, some 2, some 5, none] ∧
    [[0#8], [0#8, 2#8, 0x30#8]].map sendFits = [false, false] ∧
    [[4#8, 1#8, 0x30#8], [3#8, 0#8], [3#8, 1#8, 0x2E#8], [3#8, 1#8, 0x57#8]].map
      (fun b => (sendFits b, firstBad (sendFields b))) = [(true, some 1), (true, some 2), (true, some 2), (true, none)] ∧
    [[0#8], [0#8, 0#8, 0#8, 0#8, 0#8, 0#8, 1#8], [0#8, 1#8, 0#8, 0#8, 0#8, 0#8, 1#8, 0x30#8]].map submitFits =
      [false, false, false] ∧
    [[4#8, 0#8, 0#8, 0#8, 0#8, 0#8, 1#8, 0x2A#8], [0#8, 2#8, 0#8, 0#8, 0#8, 0#8, 1#8],
      [0#8, 1#8, 2#8, 1#8, 2#8, 9#8, 127#8], [0#8, 0#8, 0#8, 1#8, 0#8, 0#8, 1#8, 0x2A#8],
      [0#8, 1#8, 1#8, 1#8, 3#8, 9#8, 127#8], [0#8, 1#8, 1#8, 1#8, 2#8, 10#8, 127#8],
      [0#8, 0#8, 0#8, 0#8, 1#8, 0#8, 1#8, 0x2A#8], [0#8, 1#8, 1#8, 1#8, 2#8, 9#8, 128#8],
      [3#8, 1#8, 1#8, 1#8, 2#8, 9#8, 127#8], [0#8, 0#8, 0#8, 0#8, 1#8, 0#8, 1#8, 0x57#8]].map
      (fun b => (submitFits b, firstBad (submitFields b))) =
      [(true, some 1), (true, some 2), (true, some 3), (true, some 4), (true, some 5), (true, some 6), (true, some 7),
       (true, some 7), (true, none), (true, none)] ∧
    [[0#8, 1#8, 0#8, 10#8], [0#8, 1#8, 1#8, 1#8, 0#8]].map cadenceFits = [false, false] ∧
    [[8#8, 1#8, 0#8, 10#8, 0#8], [7#8, 7#8, 0#8, 10#8, 0#8], [7#8, 6#8, 2#8, 10#8, 0#8], [7#8, 6#8, 0#8, 9#8, 0#8],
      [7#8, 6#8, 1#8, 0#8, 1#8], [0#8, 1#8, 1#8, 1#8] ++ [2#8, 0#8, 1#8, 0#8, 1#8, 0#8, 1#8, 0#8] ++ [1#8],
      [0#8, 1#8, 1#8, 1#8] ++ fullSegment ++ [5#8], [7#8, 6#8, 0#8, 0xE8#8, 3#8],
      [0#8, 1#8, 1#8, 4#8] ++ fullSegment ++ fullSegment ++ fullSegment ++ fullSegment ++ [4#8]].map
      (fun b => (cadenceFits b, firstBad (cadenceFields b))) =
      [(true, some 1), (true, some 2), (true, some 3), (true, some 4), (true, some 4), (true, some 6), (true, some 9),
       (true, none), (true, none)] ∧
    [[0#8], [0#8, 0#8, 0#8, 0xFF#8, 1#8, 0x30#8, 1#8]].map writeFits = [false, false] ∧
    [[128#8, 0#8, 0#8, 0xFF#8, 1#8, 0x30#8, 0#8], [0#8, 3#8, 0#8, 0xFF#8, 1#8, 0x30#8, 0#8],
      [0#8, 2#8, 10#8, 0xFF#8, 1#8, 0x30#8, 0#8], [0#8, 2#8, 9#8, 0#8, 1#8, 0x30#8, 0#8],
      [0#8, 2#8, 9#8, 127#8, 0#8, 0#8], [0#8, 2#8, 9#8, 127#8, 1#8, 0x2A#8, 1#8, 0x7F#8],
      [0#8, 1#8, 9#8, 127#8, 1#8, 0x2A#8, 1#8, 0x7E#8], [0#8, 0#8, 9#8, 127#8, 1#8, 0x2A#8, 1#8, 0x7E#8]].map
      (fun b => (writeFits b, firstBad (writeFields b))) =
      [(true, some 1), (true, some 2), (true, some 3), (true, some 4), (true, some 5), (true, some 6), (true, some 5),
       (true, none)] ∧
    [[0#8], [0#8, 1#8, 0#8]].map bindFits = [false, false] ∧
    [[20#8, 0#8], [19#8, 5#8], [19#8, 2#8, 4#8], [19#8, 1#8, 3#8, 128#8], [19#8, 4#8, 3#8, 0x2E#8], [19#8, 0#8],
      [19#8, 4#8, 3#8, 0x57#8]].map (fun b => (bindFits b, firstBad (bindFields b))) =
      [(true, some 1), (true, some 2), (true, some 3), (true, some 4), (true, some 4), (true, none), (true, none)] := by
  decide +kernel

/-! ### Witnesses: the link -/

theorem test_framesArrive_met :
    frameOf (.identify 1#8 []) = some ⟨1#8, 1#8, []⟩ ∧
    (({ ready with held := true } : State).held = true ∧
      (lk fun k => { k with breakSince := some 0 }).link.breakSince ≠ none) ∧
    ready.TakesFrames ∧
    (let s := lk fun k => { k with outbound := [rep, rep, rep], inbound := [⟨1#8, 0#8, []⟩] }
     s.held = false ∧ s.link.breakSince = none ∧ s.link.inbound.length < 2 ∧ 3 ≤ s.link.replies) ∧
    (let s := lk fun k => { k with outbound := [rep, rep, rep], inbound := [⟨1#8, 0#8, []⟩, ⟨2#8, 0#8, []⟩] }
     s.held = false ∧ s.link.breakSince = none ∧ 2 ≤ s.link.inbound.length) :=
  ⟨rfl, by decide +kernel, framesOf (by decide +kernel), by decide +kernel, by decide +kernel⟩

theorem test_receiverFollows_met :
    (let s := ready
     s.held = false ∧ s.link.breakSince = none ∧ s.link.rx.st = .hunt ∧ (0xC3#8 : Byte) = 0xC3#8 ∧
       (0xC2#8 : Byte) ≠ 0xC3#8 ∧ s.link.rx.gap = none) ∧
    (let s := lk fun k => { k with rx := ⟨.length, [], 0, none, some 31⟩ }
     s.link.rx.st = .length ∧ 2 ≤ (2#8 : Byte).toNat ∧ (1#8 : Byte).toNat < 2 ∧ s.link.rx.gap = some 31) ∧
    (let s := lk fun k => { k with rx := ⟨.body, [1#8], 3, none, some 31⟩ }
     s.link.rx.st = .body ∧ s.link.rx.bytes.length + 1 < s.link.rx.expected) ∧
    (let s := lk fun k => { k with rx := ⟨.body, [1#8], 2, none, some 31⟩ }
     s.link.rx.st = .body ∧ s.link.rx.expected ≤ s.link.rx.bytes.length + 1) ∧
    (let s := lk fun k => { k with rx := ⟨.check, [1#8, 9#8], 2, some .parity, some 31⟩ }
     s.link.rx.st = .check ∧ s.link.rx.mark.or none = some .parity) ∧
    (let s := lk fun k => { k with rx := ⟨.check, [1#8, 9#8], 2, none, some 31⟩ }
     s.link.rx.st = .check ∧ s.link.rx.mark.or none = none ∧
       (byteOf s.link.rx.expected :: s.link.rx.bytes ++ [0xF5#8]).foldl (· + ·) 0#8 ≠ 0#8 ∧
       (byteOf s.link.rx.expected :: s.link.rx.bytes ++ [0xF4#8]).foldl (· + ·) 0#8 = 0#8 ∧
       s.link.rx.bytes = 1#8 :: 9#8 :: [] ∧ frameOf (.identify 9#8 []) = some ⟨1#8, 9#8, []⟩) := by decide +kernel

theorem test_breakClearsLink_met :
    ({ ready with held := true } : State).held = true ∧ ready.held = false ∧ ready.link.breakSince = none ∧
      (lk fun k => { k with breakSince := some 0 }).link.breakSince ≠ none := by decide +kernel

theorem test_recordsEncoded_met :
    ((0x50#8).getLsbD 4 = true ∧ ∀ j, j < 4 → (0x50#8).getLsbD j = false) ∧
    ((∃ p, rep = .reply 0#8 [0#8] p ∧ (0x80#8 : Byte) = 0x80#8) ∧
      ∃ src, OutRecord.note 6 [] = .note src [] ∧ (0x81#8 : Byte) = 0x81#8 ∧ (0#8 : Byte) = 0#8) :=
  ⟨by decide, ⟨_, rfl, rfl⟩, ⟨_, rfl, rfl, rfl⟩⟩

theorem test_lineWritten_met : (1 : LineNo) ≠ 0 ∧ ready.held = false ∧ ({ ready with held := true } : State).held = true ∧
    ∀ x ∈ [LineState.disabled, .idle, .seizing, .awaitDialtone, .dialing, .awaitProgress, .connected, .held, .releasing],
      ((lnIn x).line 0).st = x := by decide +kernel

/-! ### Witnesses: the course of a call -/

/-- A line off hook with an attempt. -/
def off (x : LineState) (p : List Symbol) (sup post : Bool) : State := ln fun l =>
  { l with st := x, attempt := some ⟨p, .tone, sup⟩, postAnswer := post }

theorem test_statesEntered_met :
    ((off .awaitDialtone [.star] true false).position 0 <
      (((off .awaitDialtone [.star] true false).line 0).attempt.map fun q : Attempt => q.program.length).getD 0) ∧
    (((off .awaitDialtone [] true false).line 0).attempt.map fun q : Attempt => q.program.length).getD 0 ≤
      (off .awaitDialtone [] true false).position 0 ∧
    ((off .dialing [] true true).line 0).postAnswer = true ∧ ((off .dialing [] true false).line 0).postAnswer = false ∧
    ((((off .dialing [] true false).line 0).attempt.map fun q : Attempt => q.supervised).getD false = true) ∧
    ((((off .dialing [] false false).line 0).attempt.map fun q : Attempt => q.supervised).getD false = false) := by
  decide +kernel

/-- The ready part with line 0 IDLE and one live job on it. -/
def idleJob (j : Job) : State := { lnIn .idle with jobs := (jb j).jobs }

/-- A job offered to its line. -/
def offered : Job := { rec 1 0 .active (some .resolve) with methodInEffect := some .tone }

theorem test_attemptStarts_met :
    ((idleJob offered).line 0).st = .idle ∧ (idleJob offered).headJob 0 = some offered ∧ offered.state = .active ∧
    offered.phase = some .resolve ∧ offered.methodInEffect = some .tone ∧
    ((lnIn .seizing).line 0).st ≠ .idle ∧ (lnIn .idle).headJob 0 = none ∧
    (idleJob (rec 1 0 .queued none)).headJob 0 = some (rec 1 0 .queued none) ∧ (rec 1 0 .queued none).state ≠ .active := by
  decide +kernel

/-- A line with its LOOP measurement running. -/
def loops (x : LineState) (taken : Bool) (su : Supervision) (t : LineTimers) : State := ln fun l =>
  { l with st := x, loop := ⟨!taken, taken, some 5⟩, supervision := su, timers := t }

theorem test_loopTaken_met :
    ((ready.line 0).loop.since = none) ∧
    (let s := loops .seizing false .off { LineTimers.stopped with seize := some 9 }
     (s.line 0).loop.since = some 5 ∧ (s.line 0).st = .seizing ∧ (s.line 0).timers.seize ≠ none ∧
       (!(s.line 0).loop.taken) = true) ∧
    (let s := loops .idle false .off LineTimers.stopped
     (s.line 0).loop.since = some 5 ∧ (s.line 0).st ≠ .seizing ∧ (s.line 0).supervision = .off) ∧
    (let s := loops .connected false .active LineTimers.stopped
     (s.line 0).supervision = .active ∧ (!(s.line 0).loop.taken) = true ∧ (s.line 0).timers.seize = none) ∧
    (let s := loops .connected true .active LineTimers.stopped
     (s.line 0).supervision = .active ∧ (!(s.line 0).loop.taken) = false) ∧
    (let s := loops .dialing false .suspended { LineTimers.stopped with make := some 9 }
     (s.line 0).supervision = .suspended ∧ (!(s.line 0).loop.taken) = true ∧ (s.line 0).timers.make ≠ none) ∧
    (let s := loops .dialing true .suspended LineTimers.stopped
     (s.line 0).supervision = .suspended ∧ (!(s.line 0).loop.taken) = false ∧ (s.line 0).timers.make = none) ∧
    ((ready.line 0).committed.dialtoneWait = true) ∧
    (let s := ln fun l => { l with committed := { l.committed with dialtoneWait := false, postSeizeMs := 0 } }
     ¬ ((s.line 0).committed.dialtoneWait = true ∨
       ((s.line 0).attempt.bind fun q : Attempt => q.program.head?) = some .waitTone) ∧
       (s.line 0).committed.postSeizeMs = 0) ∧
    (let s := ln fun l => { l with committed := { l.committed with dialtoneWait := false, postSeizeMs := 1 } }
     ¬ ((s.line 0).committed.dialtoneWait = true ∨
       ((s.line 0).attempt.bind fun q : Attempt => q.program.head?) = some .waitTone) ∧
       (s.line 0).committed.postSeizeMs ≠ 0) := by decide +kernel

/-- A line with its REV measurement running. -/
def turned (x : LineState) : State := ln fun l => { l with st := x, rev := ⟨true, false, some 5⟩ }

theorem test_reversalAnswers_met :
    (ready.line 0).rev.since = none ∧ ((turned .awaitProgress).line 0).rev.since = some 5 ∧
    ((turned .awaitProgress).line 0).st = .awaitProgress ∧
    ((turned .awaitProgress).line 0).committed.answerReversal = true ∧
    ((turned .connected).line 0).rev.since = some 5 ∧ ((turned .connected).line 0).st ≠ .awaitProgress := by
  decide +kernel

/-- A line with every timer running. -/
def timed (x : LineState) (f : Line → Line) : State := ln fun l =>
  f { l with st := x, timers := ⟨some 1, some 2, some 3, some 4, some 5, some 6, some 7, some 8, some 9, some 10,
    some 11, some 12, some 13, some 14, some 15⟩ }

theorem test_ringsCounted_met :
    let s := ln fun l => { l with ring := ⟨true, false, some 20, some 30, 255, some 40⟩ }
    (s.line 0).ring.startDue = some 20 ∧ (s.line 0).ring.gapDue = some 30 ∧ (s.line 0).ring.glareDue = some 40 ∧
      (ready.line 0).ring.startDue = none ∧ (ready.line 0).ring.gapDue = none ∧ (ready.line 0).ring.glareDue = none ∧
    ((timed .releasing id).line 0).timers.guard = some 7 ∧ ((timed .connected id).line 0).timers.minTone = some 15 ∧
    ((timed .connected id).line 0).manual.keyReleased = false ∧
    ((timed .connected fun l => { l with manual := ⟨.sounding, some 0, some .star, false, true⟩ }).line
      0).manual.keyReleased = true ∧
    (ready.line 0).timers.guard = none ∧ (ready.line 0).timers.minTone = none := by decide +kernel

theorem test_attemptTimersExpire_met :
    (ready.line 0).timers = LineTimers.stopped ∧
    (let s := timed .awaitDialtone id
     (s.line 0).timers.seize = some 1 ∧ (s.line 0).timers.postSeize = some 2 ∧ (s.line 0).timers.dialTone = some 3 ∧
       (s.line 0).timers.noAnswer = some 4 ∧ (s.line 0).st = .awaitDialtone ∧ (s.line 0).committed.blindDial = false) ∧
    (let s := timed .awaitDialtone fun l => { l with committed := { l.committed with blindDial := true } }
     (s.line 0).st = .awaitDialtone ∧ (s.line 0).committed.blindDial = true) ∧
    (let s := timed .dialing fun l => { l with committed := { l.committed with blindDial := true } }
     (s.line 0).st = .dialing ∧ (s.line 0).committed.blindDial = true) ∧
    (let s := timed .dialing id
     (s.line 0).st = .dialing ∧ (s.line 0).committed.blindDial = false ∧ (s.line 0).cursor.source = .job) ∧
    (let s := timed .dialing fun l => { l with cursor := { l.cursor with source := .send } }
     (s.line 0).st = .dialing ∧ (s.line 0).committed.blindDial = false ∧ (s.line 0).cursor.source = .send) := by
  decide +kernel

theorem test_attemptTimersExpire_loop_met :
    (∀ x ∈ [LineState.disabled, .idle, .seizing, .awaitDialtone, .dialing, .awaitProgress, .connected, .held, .releasing],
      ((timed x id).line 0).st = x ∧ ((timed x id).line 0).postAnswer = false ∧
      ((timed x id).line 0).timers.disconnect = some 5 ∧ ((timed x id).line 0).timers.make = some 6) ∧
    (let s := timed .dialing fun l => { l with postAnswer := true }
     (s.line 0).st = .dialing ∧ (s.line 0).postAnswer = true) ∧
    (ready.line 0).timers.disconnect = none ∧ (ready.line 0).timers.make = none := by decide +kernel

theorem test_symbolBegins_met :
    (let s := off .dialing [] true false
     (s.line 0).program[(s.line 0).cursor.index]? = none) ∧
    (∀ y ∈ [Symbol.pause, .flash, .waitTone, .digit 0, .digit 9, .star],
      ((off .dialing [y] true false).line 0).program[((off .dialing [y] true false).line 0).cursor.index]? = some y ∧
      ((off .dialing [y] true false).line 0).method = .tone) ∧
    Symbol.star.isDigit = true ∧
    (let s := ln fun l => { l with attempt := some ⟨[.digit 0], .pulse, true⟩ }
     (s.line 0).program[(s.line 0).cursor.index]? = some (.digit 0) ∧ (s.line 0).method = .pulse) := by decide +kernel

theorem test_symbolsEnd_met :
    ((timed .dialing id).line 0).timers.breakT = some 8 ∧ ((timed .dialing id).line 0).timers.makePeriod = some 9 ∧
    ((timed .dialing id).line 0).timers.interdigit = some 10 ∧ ((timed .dialing id).line 0).timers.tone = some 11 ∧
    ((timed .dialing id).line 0).timers.toneGap = some 12 ∧ ((timed .dialing id).line 0).timers.pause = some 13 ∧
    ((timed .dialing id).line 0).timers.flash = some 14 ∧ (ready.line 0).timers = LineTimers.stopped ∧
    ((timed .dialing id).line 0).cursor.pulses = 0 ∧ ((timed .dialing id).line 0).cursor.source = .job ∧
    (let s := timed .dialing fun l => { l with cursor := ⟨.send, [.star], 0, .pulseMake, 9⟩ }
     (s.line 0).cursor.pulses ≠ 0 ∧ (s.line 0).cursor.source = .send) := by decide +kernel

/-- The ready part with a pool. -/
def pooled (a b : Generator) (w : List Claim) : State :=
  { ready with pool := ⟨((Bank.fill 2 none).set 0 a).set 1 b, w⟩ }

theorem test_generatorsShared_met :
    ready.pool.gens.get 0 = none ∧
    (let s := pooled (some ⟨1, .star⟩) none []
     s.pool.gens.get 0 ≠ none ∧ s.pool.gens.get 1 = none ∧ s.pool.gens.get 0 = some ⟨1, .star⟩ ∧ s.pool.wait = [] ∧
       (∀ h : Fin 2, h < 0 → ∀ z', s.pool.gens.get h ≠ some ⟨1, z'⟩)) ∧
    (let s := pooled (some ⟨1, .star⟩) (some ⟨2, .hash⟩) [⟨3, .a⟩]
     s.pool.gens.get 0 ≠ none ∧ s.pool.gens.get 1 ≠ none ∧ s.pool.gens.get 1 = some ⟨2, .hash⟩ ∧
       s.pool.wait = ⟨3, .a⟩ :: []) ∧
    (let s := ln fun l => { l with st := .dialing, cursor := { l.cursor with sub := .toneRequest } }
     (s.line 0).st = .dialing ∧ (s.line 0).cursor.sub = .toneRequest) ∧
    (let s := sounding .waiting
     (s.line 0).st = .connected ∧ (s.line 0).manual.activity = .waiting) := by
  refine ⟨by decide +kernel, ⟨by decide +kernel, by decide +kernel, by decide +kernel, by decide +kernel, ?_⟩,
    by decide +kernel⟩
  intro h hh
  exact absurd hh (Fin.not_lt_zero h)

theorem test_generatorsShared_noHolder_met : ∀ g z, ready.pool.gens.get g ≠ some ⟨0, z⟩ := by
  intro g z
  have : ready.pool.gens.get g = none := by revert g; decide +kernel
  simp [this]

/-! ### Witnesses: the classifier -/

/-- A listening line with a raw edge inside the filter. -/
def edged (on : Bool) (i : Interval) (o : Option Nat) : State := ln fun l =>
  { l with pc := { l.pc with
      listening := true, filtered := on, edges := [500], interval := some i, openOn := o } }

/-- The edges of line 0 after its CPT rose at 100 and fell at `x`. -/
def fellAt (x : Nat) : List Nat :=
  ((after (.cptPinChange 0 false) { after (.cptPinChange 0 true) { ready with now := 100 } with now := x }).line 0).pc.edges

/-- An AWAIT_PROGRESS line at 2010 whose REV change and whose STEADY confirmation (of an on interval since 1000) are due. -/
def bothDue : State := { ln fun l => { l with
    st := .awaitProgress
    rev := ⟨true, false, some 2000⟩
    pc := { l.pc with pin := true, listening := true, filtered := true, interval := some ⟨true, 1000, false⟩ } } with
  now := 2010 }

/-- The answer taken first stops the session, and its confirmation is dropped (R78, R87): the part lets time pass. -/
theorem test_stoppedSession_drops :
    bothDue.ownSteps = [.revChange 0, .steadyConfirmation 0] ∧ ((stepped bothDue).line 0).st = .connected ∧
      stepped (stepped bothDue) = { stepped bothDue with now := 2011 } := by decide +kernel

/-- An excursion of exactly 10 ms is kept, a shorter one dropped (R78). -/
theorem test_excursions : fellAt 110 = [100, 110] ∧ fellAt 109 = [] := by decide +kernel

theorem test_filteredLevels_met :
    (ready.line 0).pc.edges = [] ∧
    (let s := ln fun l => { l with pc := { l.pc with edges := [500] } }
     (s.line 0).pc.edges = 500 :: [] ∧ (s.line 0).pc.listening = false) ∧
    (let s := edged true ⟨true, 500, true⟩ none
     (s.line 0).pc.edges = 500 :: [] ∧ (s.line 0).pc.listening = true ∧
       (s.line 0).pc.interval = some ⟨true, 500, true⟩ ∧ 500 ≤ 500) ∧
    (let s := edged true ⟨true, 499, false⟩ none
     (s.line 0).pc.interval = some ⟨true, 499, false⟩ ∧ 499 < 500) ∧
    (let s := edged false ⟨false, 0, false⟩ none
     (s.line 0).pc.interval = some ⟨false, 0, false⟩ ∧ ((s.line 0).pc.openOn = none)) ∧
    (let s := edged false ⟨false, 0, false⟩ (some 50)
     (s.line 0).pc.interval = some ⟨false, 0, false⟩ ∧ ((s.line 0).pc.openOn = some 50)) := by decide +kernel

theorem test_pairsMatch_met :
    (∃ y, ([⟨40, 60, 40, 60⟩] : List Segment)[0]? = some y ∧ y.onMin ≤ 40 ∧ 40 ≤ y.onMax ∧ y.offMin ≤ 60 ∧ 60 ≤ y.offMax) ∧
    (0 + 1 ≠ [(⟨40, 60, 40, 60⟩ : Segment)].length * 3 ∧ 2 + 1 = [(⟨40, 60, 40, 60⟩ : Segment)].length * 3) ∧
    (¬ ∃ y, ([⟨40, 60, 40, 60⟩, ⟨10, 20, 10, 20⟩] : List Segment)[1]? = some y ∧ y.onMin ≤ 50 ∧ 50 ≤ y.onMax ∧
      y.offMin ≤ 50 ∧ 50 ≤ y.offMax) ∧
    (let x : SlotNo → Matched := fun k => offerSlot (ready.cadence.get k) 100 400 ((ready.line 0).pc.matchers.get k)
     (x 2).confirmed = true ∧ (∀ j, j < 2 → (x j).confirmed = false) ∧
       ready.cadence.get 2 = some ⟨.ringback, .cadenced [⟨80, 120, 300, 500⟩] 1⟩) ∧
    (let x : SlotNo → Matched := fun k => offerSlot (ready.cadence.get k) 50 50 ((ready.line 0).pc.matchers.get k)
     (∀ k, (x k).confirmed = false) ∧ ∃ k, (x k).advanced = true) ∧
    (let s := ln fun l => { l with st := .awaitProgress, committed := { l.committed with answerUnclassified := true },
                                   pc := { l.pc with unmatched := 2, ringbackSeen := true } }
     let x : SlotNo → Matched := fun k => offerSlot (s.cadence.get k) 1 1 ((s.line 0).pc.matchers.get k)
     (∀ k, (x k).advanced = false) ∧ min 255 ((s.line 0).pc.unmatched + 1) = 3 ∧ (s.line 0).pc.ringbackSeen = true ∧
       (s.line 0).st = .awaitProgress ∧ (s.line 0).committed.answerUnclassified = true) := by
  refine ⟨⟨⟨40, 60, 40, 60⟩, by decide⟩, by decide, ?_, by decide +kernel⟩
  rintro ⟨y, h, _, h2, _⟩
  simp at h
  subst h
  simp at h2

theorem test_classDelivered_met :
    (let s := ln fun l => { l with pc := { l.pc with current := some (.busy, 1) } }
     (s.line 0).pc.current = some (.busy, 1)) ∧
    (∀ j : SlotNo, (ready.line 0).pc.current ≠ some (.busy, j)) ∧
    (let s := ln fun l => { l with st := .dialing, cursor := { l.cursor with sub := .waitTone } }
     (s.line 0).st = .dialing ∧ (s.line 0).cursor.sub = .waitTone) := by decide +kernel

theorem test_steadyAndGap_met :
    (let s := hears .awaitDialtone true ⟨true, 0, true⟩
     (s.line 0).pc.listening = true ∧ (s.line 0).pc.filtered = true ∧
       (s.line 0).pc.interval = some ⟨true, 0, true⟩ ∧ s.cadence.get 0 = some ⟨.dial, .steady 100⟩ ∧
       ((s.line 0).pc.matchers.get 0).steady = false ∧ ∀ e, (s.line 0).pc.edges.head? = some e → 7000 < e) ∧
    (let s := ln fun l => { l with pc := { l.pc with
       listening := true, filtered := true, interval := some ⟨true, 0, true⟩, edges := [1000, 1010] } }
     (s.line 0).pc.edges.head? = some 1000 ∧ 1000 ≤ 0 + 10 * 100) ∧
    ((ready.line 0).pc.listening = false ∧ (ready.line 0).pc.filtered = false ∧ (ready.line 0).pc.interval = none) ∧
    (let s := hears .awaitDialtone true ⟨false, 0, true⟩
     ∃ i, (s.line 0).pc.interval = some i ∧ i.on = false) ∧
    (let s := { ready with cadence := Bank.fill 8 none }
     ∀ j t u, s.cadence.get j = some t → t.form = .steady u → ((s.line 0).pc.matchers.get j).steady = true) ∧
    (ready.line 0).pc.gapWatch = none ∧
    (let s := ln fun l => { l with st := .awaitProgress, pc := { l.pc with listening := true, gapWatch := some 7000 } }
     (s.line 0).pc.gapWatch = some 7000 ∧ (s.line 0).pc.listening = true ∧ (s.line 0).st = .awaitProgress ∧
       ∀ e, (s.line 0).pc.edges.head? = some e → 7000 < e) ∧
    (let s := ln fun l => { l with pc := { l.pc with listening := true, gapWatch := some 7000, edges := [7000] } }
     (s.line 0).pc.gapWatch = some 7000 ∧ (s.line 0).pc.edges.head? = some 7000 ∧ 7000 ≤ 7000) :=
  ⟨by decide +kernel, by decide +kernel, by decide +kernel, ⟨_, rfl, rfl⟩,
    (fun j _ _ h => nomatch (Bank.get_fill none j).symm.trans h), by decide +kernel⟩

theorem test_steadyLowest_met :
    ∀ j t u, factoryCadence.get j = some t → t.form = .steady u → 100 ≤ u ∧ (u = 100 → 0 ≤ j) := by
  intro j t u h hu
  refine ⟨?_, fun _ => Fin.zero_le j⟩
  have key : ∀ k : SlotNo, ∀ x ∈ factoryCadence.get k, ∀ v, x.form = .steady v → 100 ≤ v := by
    intro k
    fin_cases k <;> intro x hx v hv <;> simp [factoryCadence, Bank.get] at hx <;> subst hx <;> simp at hv
    omega
  exact key j t h u hu

/-! ### Witnesses: jobs -/

/-- An ENTRY job of entry 127 about to start. -/
def entryJob : Job :=
  { (Submission.record 1 ⟨0, .link, .entry 127, true, true, none, 0⟩) with state := .queued }

theorem test_jobsStart_met :
    (let s := { ready with jobs := { ready.jobs with retry := ready.jobs.retry.set 0 (.running 9) } }
     s.jobs.retry.get 0 = .running 9) ∧
    (ready.jobs.retry.get 0 = .stopped ∧ (ready.line 0).st ≠ .idle ∧ ready.headJob 0 = none) ∧
    (let s := idleJob offered
     s.headJob 0 = some offered ∧ offered.state = .active) ∧
    (let s := idleJob (rec 1 0 .retryWait none)
     s.headJob 0 = some (rec 1 0 .retryWait none) ∧ s.jobs.retry.get 0 ≠ .expired) ∧
    (let s := idleJob (rec 1 0 .queued none)
     (s.line 0).st = .idle ∧ s.headJob 0 = some (rec 1 0 .queued none) ∧ (rec 1 0 .queued none).methodInEffect = none ∧
       (rec 1 0 .queued none).entryIndex = none ∧
       Method.allowsAll .tone ((rec 1 0 .queued none).program.getD []) = true) ∧
    (let j := { rec 1 0 .queued none with program := some [.star], methodOverride := some .pulse }
     (idleJob j).headJob 0 = some j ∧ Method.allowsAll .pulse (j.program.getD []) = false) ∧
    (let j := { rec 1 0 .retryWait none with methodInEffect := some .tone }
     let s := { idleJob j with jobs := { (idleJob j).jobs with retry := (idleJob j).jobs.retry.set 0 .expired } }
     s.headJob 0 = some j ∧ j.state = .retryWait ∧ s.jobs.retry.get 0 = .expired ∧ j.methodInEffect ≠ none) ∧
    (let s := { idleJob entryJob with store := formatting.store }
     s.headJob 0 = some entryJob ∧ entryJob.entryIndex = some 127 ∧ s.store.covers (blockOf 127) = true) ∧
    (let s := { idleJob entryJob with store := deadLast.store }
     s.store.covers (blockOf 127) = false ∧ s.store.map.get (blockOf 127) = none) ∧
    (let s := idleJob entryJob
     s.store.map.get (blockOf 127) ≠ none ∧ s.store.entry 127 = .blank) ∧
    (let s := { idleJob entryJob with store := oneEntry.store }
     s.store.covers (blockOf 127) = false ∧ s.store.map.get (blockOf 127) ≠ none ∧
       s.store.entry 127 = .valid anEntry ∧ Method.allowsAll .tone anEntry.digits = true ∧
       Method.allowsAll .pulse anEntry.digits = false) := by decide +kernel

theorem test_failureDecides_met :
    ready.headJob 0 = none ∧
    (let j := { rec 1 0 .active (some .seize) with attemptsMaxThisHop := some 2 }
     (jb j).headJob 0 = some j ∧ j.line = 0 ∧ j.attemptsThisHop + 1 < j.attemptsMaxThisHop.getD 0) ∧
    (let j := { rec 1 0 .active (some .seize) with
       attemptsMaxThisHop := some 1, followChain := true, fallback := some 9, visited := [9] }
     (jb j).headJob 0 = some j ∧ ¬ j.attemptsThisHop + 1 < j.attemptsMaxThisHop.getD 0 ∧ j.followChain = true ∧
       j.fallback = some 9 ∧ 9 ∈ j.visited) ∧
    (let j := { rec 1 0 .active (some .seize) with
       attemptsMaxThisHop := some 1, followChain := true, fallback := some 9, hop := 8 }
     (jb j).headJob 0 = some j ∧ (9 : EntryNo) ∉ j.visited ∧ j.hop = 8) ∧
    (let j := { rec 1 0 .active (some .seize) with
       attemptsMaxThisHop := some 1, followChain := true, fallback := some 9, hop := 7 }
     (jb j).headJob 0 = some j ∧ (9 : EntryNo) ∉ j.visited ∧ j.hop ≠ 8) ∧
    (let j := { rec 1 0 .active (some .seize) with attemptsMaxThisHop := some 1 }
     (jb j).headJob 0 = some j ∧ ¬ j.attemptsThisHop + 1 < j.attemptsMaxThisHop.getD 0 ∧ j.followChain = false) := by
  decide +kernel

theorem test_jobReportsAndFinish_met :
    ((jb (rec 1 0 .active none)).headJob 0 = some (rec 1 0 .active none) ∧ (rec 1 0 .active none).state = .active) ∧
    ((jb (rec 1 0 .queued none)).headJob 0 = some (rec 1 0 .queued none) ∧ (rec 1 0 .queued none).state ≠ .active) ∧
    (rec 1 0 .active none).origin = .link ∧
    (let s := ky 4 fun k => { k with live := .job 1 }
     (s.key 4).live = .job 1 ∧ (ready.key 4).live ≠ .job 1) ∧
    (({ rec 1 0 .active none with origin := .key 4 } : Job).origin = .key 4) ∧
    ready.headJob 0 = none ∧ (jb offered).headJob 0 = some offered := by decide +kernel

/-! ### Witnesses: keys -/

/-- Three matrix keys DOWN. -/
def threeDown : State :=
  { ready with keys := { ready.keys with all := Bank.tabulate fun k =>
      if k.val < 3 then { ready.key k with deb := true, cond := .down } else ready.key k } }

/-- A key with its stability timer run. -/
def settled (s : State) (k : KeyNo) : State :=
  { s with keys := { s.keys with all := s.keys.all.set k { s.key k with since := some 0 } } }

theorem test_keysTaken_met :
    ((ready.key 0).raw = false ∧ (ready.key 0).raw ≠ true ∧ ({ ready with held := true } : State).held = true ∧
      ready.held = false ∧ (ready.key 0).since = none) ∧
    ((settled State.reset 0).store.st = .checking ∧ ((settled State.reset 0).key 0).since = some 0) ∧
    (let s := settled threeDown 15
     (s.key 15).since = some 0 ∧ s.store.st ≠ .checking ∧ (s.key 15).deb = false ∧ (s.key 15).cond = .up ∧
       (15 : KeyNo).val < 16 ∧ 3 ≤ s.keys.heldCount) ∧
    (let s := settled threeDown 16
     (s.key 16).deb = false ∧ (s.key 16).cond = .up ∧ ¬ (16 : KeyNo).val < 16) ∧
    (let s := settled ready 15
     (s.key 15).cond = .up ∧ s.keys.heldCount < 3) ∧
    (let s := settled (ky 3 fun k => { k with cond := .marked }) 3
     (s.key 3).deb = false ∧ (s.key 3).cond ≠ .up) ∧
    (∀ x ∈ [KeyCondition.up, .down, .deferred, .marked],
      let s := settled (ky 3 fun k => { k with deb := true, cond := x }) 3
      (s.key 3).deb = true ∧ (s.key 3).cond = x ∧ (s.key 3).since = some 0 ∧ s.store.st ≠ .checking) ∧
    (ready.keys.deferred = [] ∧ 3 ≤ threeDown.keys.heldCount ∧ ¬ (19 : KeyNo).val < 16) := by decide +kernel

theorem test_keysTaken_deferred_met :
    let s := { ready with keys := { ready.keys with deferred := [5] } }
    let u := State.takeDown 5 { s with keys := { s.keys with deferred := [] } }
    s.keys.deferred = 5 :: [] ∧ s.keys.heldCount < 3 ∧ u.keys.deferred = [] := by decide +kernel

/-- Key 5 with its submission unanswered. -/
def pendingKey (s : State) : State := { s with keys := { s.keys with all := s.keys.all.set 5 { s.key 5 with live := .pending } } }

/-- The ready part with the engine's turns to come. -/
def turnsOf (x : List EngineTurn) : State := { ready with keys := { ready.keys with turns := x } }

theorem test_keyBindingActs_met :
    (((ky 4 fun k => { k with live := .job 1 }).key 4).live ≠ .none ∧ ((pendingKey ready).key 5).live ≠ .none ∧
      (ready.key 4).live = .none ∧ (ready.line 0).st = .disabled) ∧
    (ready.keys.turns = [] ∧ (turnsOf [.within]).keys.turns = .within :: [] ∧ (turnsOf [.later]).keys.turns = .later :: []) ∧
    (((pendingKey ready).key 5).live = .pending ∧ (ready.key 5).live ≠ .pending) ∧
    (((engine (many 8)).line 0).st ≠ .disabled ∧ 8 ≤ ((engine (many 8)).queue 0).length) ∧
    (((engine (many 24)).line 3).st ≠ .disabled ∧ ((engine (many 24)).queue 3).length < 8 ∧
      24 ≤ (engine (many 24)).jobs.table.length ∧ (engine (many 24)).jobs.finished = []) ∧
    ((many 8).Sound ∧ ((engine (many 8)).queue 3).length < 8 ∧ (engine (many 8)).jobs.table.length < 24) ∧
    (fullDone.Sound ∧ ((engine fullDone).line 3).st ≠ .disabled ∧ ((engine fullDone).queue 3).length < 8 ∧
      (engine fullDone).jobs.table.length = 24 ∧ (engine fullDone).jobs.finished = 24 :: []) ∧
    (ready.headJob 0 = none ∧ (jb (rec 1 0 .active (some .dial))).headJob 0 = some (rec 1 0 .active (some .dial)) ∧
      (jb offered).headJob 0 = some offered ∧ offered.phase = some .resolve) ∧
    (((call .tone).line 0).st = .connected ∧ ((call .tone).line 0).manual.activity = .none ∧
      ((call .tone).line 0).method = .tone ∧ Symbol.star.isDigit = true ∧ Symbol.flash.isDigit = false ∧
      ((call .tone).line 0).method.allowsAll [.flash] = true) ∧
    (((call .pulse).line 0).method = .pulse ∧ ((call .pulse).line 0).method.allowsAll [.digit 0] = true ∧
      Method.allowsAll .pulse [.star] = false) ∧
    (((sounding .waiting).line 0).manual.key = some 4 ∧ ((sounding .waiting).line 0).manual.activity = .waiting ∧
      ((sounding .waiting).line 0).manual.key ≠ some 5) ∧
    (((sounding .sounding).line 0).manual.activity = .sounding ∧
      ((sounding .sounding).line 0).manual.minElapsed = false) ∧
    (let s := ln fun l => { l with manual := ⟨.sounding, some 4, some .star, true, false⟩ }
     (s.line 0).manual.key = some 4 ∧ (s.line 0).manual.activity = .sounding ∧ (s.line 0).manual.minElapsed = true) :=
  ⟨by decide +kernel, by decide +kernel, by decide +kernel, by decide +kernel, by decide +kernel,
    ⟨soundMany 8 (.inl rfl), by decide +kernel⟩, ⟨soundFullDone, by decide +kernel⟩, by decide +kernel⟩

/-- A RESET ENGINE between the press and the engine's taking (R165): the job is accepted and its identifier not
recorded, so a further press submits a second job. -/
theorem test_resetBeforeTaking :
    let pressed := State.carryOut 5 (.job 0 127) { turnsOf [.later] with lines := (lnIn .idle).lines }
    let t := stepped (after (.resetEngine 0#8 []) pressed)
    (pressed.key 5).live = .pending ∧ pressed.jobs.table = [] ∧ (t.key 5).live = .none ∧ Job.ids t.jobs.table = [1] ∧
      Job.ids (t.carryOut 5 (.job 0 127)).jobs.table = [1, 2] := by decide +kernel

/-- A second press before the engine's answer is a DUPLICATE (R165). -/
theorem test_pressBeforeAnswer :
    let pressed := State.carryOut 5 (.job 0 127) { turnsOf [.later] with lines := (lnIn .idle).lines }
    (pressed.carryOut 5 (.job 0 127)).keys.lastFail = some ⟨5, 0, 127, .duplicate⟩ ∧
      ((stepped pressed).key 5).live = .job 1 := by decide +kernel

/-! ### Witnesses: the store and the flags -/

theorem test_storePhases_met :
    (ready.store.op = none ∧ ready.store.rewriteNow = none) ∧
    (∀ ph ∈ [OpPhase.erase, .program, .verify],
      (op .write (.block 31 31 blankSlots) ph).store.op = some ⟨.write, none, .block 31 31 blankSlots, ph, false, 0⟩ ∧
      (op .save (.settings (some saved)) ph).store.op = some ⟨.save, none, .settings (some saved), ph, false, 0⟩ ∧
      (op .clear (.settings none) ph).store.op = some ⟨.clear, none, .settings none, ph, false, 0⟩ ∧
      (rewriting ph).store.op = none ∧ (rewriting ph).store.rewriteNow = some ⟨0, 0, ph, 0⟩) ∧
    (OpPhase.erase ≠ .verify ∧ OpKind.write ≠ .format) ∧
    ((op .format (.block 31 31 blankSlots) .verify).store.op =
      some ⟨.format, none, .block 31 31 blankSlots, .verify, false, 0⟩) ∧
    (∀ b : LogicalNo, 32 ≤ b.val → ready.store.map.get b = none) ∧
    (31 ≤ (31 : LogicalNo).val ∧ ready.store.map.get 31 = some 31 ∧
      ∀ a : LogicalNo, 31 ≤ a.val → a < 31 → ready.store.map.get a = none) ∧
    (ready.headJob 0 = none ∧ (idleJob offered).headJob 0 = some offered ∧ offered.methodInEffect ≠ none) ∧
    (let j := { entryJob with state := .active, phase := some .resolve }
     (idleJob j).jobs.Sound ∧ (idleJob j).headJob 0 = some j ∧ j.methodInEffect = none) :=
  ⟨by decide +kernel, by decide +kernel, by decide +kernel, by decide +kernel, by decide +kernel, by decide +kernel,
    by decide +kernel, ⟨by constructor <;> decide +kernel, by decide +kernel⟩⟩

theorem test_verifyFails_met :
    ((op .write (.block 0 0 blankSlots) .verify).store.spares = 32 :: [33, 34, 35]) ∧
    (let s := op .write (.block 0 0 blankSlots) .verify
     let s := { s with store := { s.store with spares := [] } }
     s.store.op = some ⟨.write, none, .block 0 0 blankSlots, .verify, false, 0⟩ ∧ s.store.spares = [] ∧
       OpKind.write ≠ .format) ∧
    (let s := op .format (.block 0 0 blankSlots) .verify
     let s := { s with store := { s.store with spares := [] } }
     s.store.op = some ⟨.format, none, .block 0 0 blankSlots, .verify, false, 0⟩ ∧ s.store.spares = []) ∧
    ((op .save (.settings (some saved)) .verify).store.op =
      some ⟨.save, none, .settings (some saved), .verify, false, 0⟩) ∧
    ((rewriting .verify).store.op = none ∧ (rewriting .verify).store.rewriteNow = some ⟨0, 0, .verify, 0⟩ ∧
      (rewriting .verify).store.spares = 32 :: [33, 34, 35]) ∧
    (let s := chk fun st => { st with check := some ⟨0, some ⟨0, 0, .verify, 0⟩⟩, spares := [] }
     s.store.rewriteNow = some ⟨0, 0, .verify, 0⟩ ∧ s.store.spares = []) := by decide +kernel

theorem test_flagLatches_met :
    ((ready.source 6).latched.getLsbD Flag.reset.bit = true) ∧
    ((ready.source 0).latched.getLsbD Flag.ring.bit = false ∧ (ready.source 0).mask.getLsbD Flag.ring.bit = false) ∧
    (let s := ready.putSource 0 ⟨0#8, 0x40#8, false⟩
     (s.source 0).latched.getLsbD Flag.ring.bit = false ∧ (s.source 0).mask.getLsbD Flag.ring.bit = true ∧
       (s.source 0).noticePending = false) := by decide +kernel

theorem test_poolKept_met :
    (pooled (some ⟨1, .star⟩) (some ⟨2, .hash⟩) [⟨3, .a⟩]).pool.Sound ∧
    (∃ g, ready.pool.gens.get g = none) ∧
    ((pooled (some ⟨1, .star⟩) (some ⟨2, .hash⟩) []).pool.request ⟨3, .a⟩).wait ≠
      (pooled (some ⟨1, .star⟩) (some ⟨2, .hash⟩) []).pool.wait :=
  ⟨fun _ => by decide +kernel, by decide +kernel, by decide +kernel⟩

/-- Lines 0 and 1 in TONE_ON, line 2 in TONE_REQUEST, with the pool they ask for. -/
def contended : State := { ready with
  lines := Bank.tabulate fun n =>
    if n.val < 3 then
      { ready.line n with
        st := .dialing
        cursor := { (ready.line n).cursor with sub := if n.val < 2 then .toneOn else .toneRequest }
        timers := { LineTimers.stopped with tone := if n.val < 2 then some 50 else none } }
    else ready.line n
  pool := ⟨((Bank.fill 2 none).set 0 (some ⟨0, .star⟩)).set 1 (some ⟨1, .hash⟩), [⟨2, .a⟩]⟩ }

theorem soundReady : ready.store.Sound where
  mapped := by
    have h : ready.store.rebuild = ready.store := by decide +kernel
    exact h ▸ ready.store.rebuild_mapped
  opMapped := fun o b p buf h => by cases h
  rewriteMapped := fun r h => by cases h
  busyIff := by decide +kernel
  checking := by decide +kernel

theorem waitsReady : ready.Waits := ⟨soundReady, fun h => by cases h⟩

theorem test_claimsKept_met : contended.Claimed ∧ contended.pool.Sound ∧ Steps contended (stepped contended) := by
  have one : ∀ n, (contended.line n).want = if n.val < 2 then .sounds else if n.val < 3 then .asks else .nothing := by
    decide +kernel
  have g0 : contended.pool.gens.get 0 = some ⟨0, .star⟩ := rfl
  have g1 : contended.pool.gens.get 1 = some ⟨1, .hash⟩ := rfl
  refine ⟨⟨⟨soundReady, fun h => (by cases h)⟩, fun h => (by cases h), ?_, ⟨?_, ?_, ?_, ?_⟩⟩, fun _ => ?_, stepsOf (by decide +kernel)⟩
  · intro n; constructor <;> revert n <;> decide +kernel
  · intro n y z h h'
    rw [g0] at h; rw [g1] at h'
    cases h; cases h'
  · decide +kernel
  · intro n
    rw [one n]
    constructor
    · rintro ⟨g, y, h⟩
      fin_cases g
      · have := g0.symm.trans h; cases this; rfl
      · have := g1.symm.trans h; cases this; rfl
    · intro h
      fin_cases n
      · exact ⟨0, _, g0⟩
      · exact ⟨1, _, g1⟩
      · cases h
      · cases h
  · decide +kernel
  · decide +kernel

/-- Three matrix keys DOWN and a fourth DEFERRED. -/
def jammed : State := { threeDown with keys := { threeDown.keys with
  all := threeDown.keys.all.set 15 { threeDown.key 15 with deb := true, cond := .deferred }, deferred := [15] } }

theorem test_keysKept_met : jammed.Scanned ∧ Steps jammed (stepped jammed) ∧ ready.keys.Sound :=
  ⟨⟨⟨soundReady, fun h => (by cases h)⟩, fun h => (by cases h), fun _ => by constructor <;> decide +kernel⟩,
    stepsOf (by decide +kernel),
    by constructor <;> decide +kernel⟩

/-- A store whose block 0 is RETIRED and which maps nothing. -/
def worn : State := sto fun st =>
  { st with map := Bank.fill 32 none, spares := [], blocks := st.blocks.set 0 (st.blocks.get 0).retire }

theorem test_storeKept_met : State.RetiredAt 0 worn ∧ Steps worn (stepped worn) := by
  have hm : ∀ b, worn.store.map.get b = none := by decide +kernel
  refine ⟨⟨⟨⟨?_, ?_, ?_, ?_, ?_⟩, ?_, ?_, ?_, ?_⟩, by decide +kernel⟩, rfl⟩
  · intro a b p h; simp [hm] at h
  · exact List.nodup_nil
  · intro b p h; exact absurd h List.not_mem_nil
  · intro b p h; simp [hm] at h
  · intro p h; exact absurd h List.not_mem_nil
  · intro o b p buf h; cases h
  · intro r h; cases h
  · decide +kernel
  · decide +kernel

/-- The ready part with no flag latched. -/
def hushed : State := { ready with events := { ready.events with sources := Bank.fill 7 ⟨0#8, 0#8, false⟩ } }

theorem test_noted_met : hushed.Noted := by
  constructor
  · intro src; simp [hushed, ready, State.reset, LinkPort.reset]
  · intro src h; simp [hushed, ready, State.reset, LinkPort.reset] at h
  · decide +kernel
  · decide +kernel

theorem test_kept_met : ready.Driven ∧ ready.pool.Sound ∧ ready.jobs.Sound ∧ hushed.link.Bounded ∧
    Steps ready (stepped ready) ∧ Steps hushed (stepped hushed) :=
  ⟨fun n => by revert n; decide +kernel, fun h => absurd rfl h, JobEngine.Sound.reset,
    ⟨by decide +kernel, by decide +kernel, fun h => absurd rfl h⟩, stepsOf (by decide +kernel), stepsOf (by decide +kernel)⟩

end Sys2Proof.Tests
end

section
/-! SUPPORT. What a command can do to the state, said once of all 82, and what a step can do. A command of a line, a
classifier, the engine, a key or the store evolves the state; one of the port changes the port and then takes frames; a
power-on, a pin reset and a start are themselves. -/

namespace Sys2Proof.Machine

/-! ### Events of the lines, the classifiers and the engine -/

namespace Calm

variable {s t : State}

/-- A timer's expiry is as calm as its effect, for the clock stands in no invariant. -/
theorem onDue (h : Calm s t) (due : Option Nat) (act : State → State) (hact : ∀ u, Calm u (act u)) :
    Calm s (t.onDue due act) := by
  unfold State.onDue
  cases due with
  | none => exact h
  | some d => exact (h.advance d).trans (hact _)

/-- A pin changed by `f`, where no output rests on the pin. -/
theorem setPin (h : Calm s t) (n : LineNo) (f : Line → Line)
    (hf : ∀ l : Line, (f l).out = l.out ∧ (f l).outputs = l.outputs) : Calm s (t.setPin n f) := by
  unfold State.setPin
  split
  · refine h.trans
      { Calm.refl t with
        driven := fun k m => ?_
        noted := fun k => k.congr (fun _ => rfl) rfl rfl }
    obtain ⟨hout, houtputs⟩ := hf (t.line n)
    simp only [State.line, Bank.get_set]
    split
    · next e => subst e; exact hout.trans ((k n).trans houtputs.symm)
    · exact k m
  · exact h.onLine n f

theorem latchInput (h : Calm s t) (n : LineNo) (f : Flag) : Calm s (t.latchInput n f) := by
  unfold State.latchInput
  split
  · exact h
  · exact h.latchLine n f

theorem takeLoop (h : Calm s t) (n : LineNo) : Calm s (t.takeLoop n) := by
  have k := (h.onLine n fun l => { l with loop := l.loop.toggle }).latchInput n .loopChg
  simp only [State.takeLoop]
  split
  · exact k.loopSeized n
  · exact k.onLine n _

theorem takeRev (h : Calm s t) (n : LineNo) : Calm s (t.takeRev n) := by
  have k := (h.onLine n fun l => { l with rev := l.rev.toggle }).latchInput n .revChg
  simp only [State.takeRev]
  split
  · exact k.answer n _
  · exact k

theorem ringBurst (h : Calm s t) (n : LineNo) : Calm s (t.ringBurst n) := (h.onLine n _).latchLine n _

theorem dialtoneExpired (h : Calm s t) (n : LineNo) : Calm s (t.dialtoneExpired n) := by
  have k := h.onLine n (Line.withTimers fun x => { x with dialTone := none })
  simp only [State.dialtoneExpired]
  split
  · split
    · exact k.dialtoneServed n
    · exact k.failAttempt n _
  · split
    · exact k.waitToneServed n
    · split
      · exact k.failAttempt n _
      · exact k.enterConnected n
  · exact k

theorem makePeriodEnds (h : Calm s t) (n : LineNo) : Calm s (t.makePeriodEnds n) := by
  have k := h.onLine n (Line.withTimers fun x => { x with makePeriod := none })
  simp only [State.makePeriodEnds]
  split
  · exact k.onLine n _
  · exact (k.countSymbol n).onLine n _

theorem toneEnds (h : Calm s t) (n : LineNo) : Calm s (t.toneEnds n) := ((h.onLine n _).releaseTone n).countSymbol n

theorem minimumElapsed (h : Calm s t) (n : LineNo) : Calm s (t.minimumElapsed n) := by
  simp only [State.minimumElapsed]
  split
  · exact (h.onLine n _).endManual n
  · exact h.onLine n _

end Calm

/-! ### Events of the keys -/

theorem Stays.onDue {s t : State} (h : Stays s t) (due : Option Nat) (act : State → State)
    (hact : ∀ u, Stays u (act u)) : Stays s (t.onDue due act) := by
  unfold State.onDue
  cases due with
  | none => exact h
  | some d => exact (h.calm ((Calm.refl t).advance d)).trans (hact _)

/-! ### Events of the port -/

/-- `t` differs from `s` in the clock, the pins of the part, the Event Unit and the Link Port only. -/
def OnlyPort (s t : State) : Prop := t = { s with now := t.now, pins := t.pins, events := t.events, link := t.link }

theorem OnlyPort.pool {s t : State} (h : OnlyPort s t) : t.pool = s.pool := by rw [h]

theorem OnlyPort.trans {s t u : State} (h : OnlyPort s t) (k : OnlyPort t u) : OnlyPort s u := by
  unfold OnlyPort at *
  rw [k, h]

theorem OnlyNotes.onlyPort {s t : State} (h : OnlyNotes s t) : OnlyPort s t := by
  unfold OnlyPort
  rw [h.frame]

theorem State.onLink_onlyPort (f : LinkPort → LinkPort) (s : State) : OnlyPort s (s.onLink f) := rfl

theorem State.linkError_onlyPort (e : LinkError) (s : State) : OnlyPort s (s.linkError e) := by
  have hlatch := State.latch_only systemSource .linkErr
    { s.onLink fun k => { k with rx := Receiver.hunting } with events := { s.events with lastLinkError := some e } }
  exact OnlyPort.trans (by rfl) hlatch.onlyPort

theorem State.eventBreak_onlyPort (s : State) : OnlyPort s s.eventBreak :=
  ((State.putSources_only _ _).trans ((State.putSource_only _ _ _).trans (State.queueNotices_only _))).onlyPort

theorem State.takeBreak_onlyPort (straps : BitVec 3) (s : State) : OnlyPort s (s.takeBreak straps) := by
  have hbreak := State.eventBreak_onlyPort
    { s with
      pins := { s.pins with straps := straps }
      link := LinkPort.atBreak straps (s.now - Config.breakMs) }
  exact OnlyPort.trans (by rfl) hbreak

theorem OnlyPort.onDue (due : Option Nat) (act : State → State) (hact : ∀ u, OnlyPort u (act u)) (s : State) :
    OnlyPort s (s.onDue due act) := by
  unfold State.onDue
  cases due with
  | none => rfl
  | some d => exact OnlyPort.trans (by rfl) (hact (s.advanceTo d))

/-- A change of the port, then frames taken as requests (R184, R185). -/
def ThenServes (s t : State) : Prop := ∃ u, OnlyPort s u ∧ Serves u t

namespace ThenServes

variable {s t u : State}

theorem ofPort (h : OnlyPort s t) : ThenServes s t := ⟨t, h, .refl t⟩

theorem refl (s : State) : ThenServes s s := ofPort rfl

theorem after (h : OnlyPort s t) (k : ThenServes t u) : ThenServes s u := by
  obtain ⟨v, hv, hu⟩ := k
  exact ⟨v, h.trans hv, hu⟩

theorem pool (h : ThenServes s t) (hs : s.pool.Sound) : t.pool.Sound := by
  obtain ⟨u, hu, ht⟩ := h
  exact ht.pool (hu.pool ▸ hs)

theorem goodFrame (f : Frame) (s : State) : ThenServes s (s.goodFrame f) := by
  unfold State.goodFrame
  split
  · exact ofPort (s.linkError_onlyPort _)
  · exact ⟨_, s.onLink_onlyPort _, State.drain_serves _ _⟩

theorem arrive (kind tag : Byte) (body : List Byte) (s : State) : ThenServes s (s.arrive kind tag body) := by
  unfold State.arrive
  split
  · exact goodFrame _ s
  · exact refl s

theorem judge (mark : Option LinkError) (sumOk : Bool) (bytes : List Byte) (s : State) :
    ThenServes s (s.judge mark sumOk bytes) := by
  unfold State.judge
  split
  · exact ofPort (s.linkError_onlyPort _)
  · split
    · exact ofPort (s.linkError_onlyPort _)
    · dsimp only
      split
      · exact ofPort rfl
      · exact after (s.onLink_onlyPort _) (goodFrame _ _)

theorem takeByte (b : Byte) (err : ByteError) (s : State) : ThenServes s (s.takeByte b err) := by
  unfold State.takeByte
  split
  · exact ofPort rfl
  · exact judge _ _ _ s
  · exact ofPort (s.linkError_onlyPort _)

theorem beginFrame (s : State) : ThenServes s s.beginFrame := by
  unfold State.beginFrame
  split
  · exact refl s
  · dsimp only
    split
    · exact ⟨_, s.onLink_onlyPort _, State.drain_serves _ _⟩
    · exact ofPort rfl

end ThenServes

/-! ### The start-up check in progress (R153) -/

theorem Store.check_of_nextCheck {st : Store} {k : Nat} (h : st.nextCheck = some k) : st.check.isSome = true := by
  unfold Store.nextCheck at h
  split at h
  · next hc => simp [hc]
  · cases h

theorem Store.check_of_nextCheck_bind {st : Store} {b : LogicalNo} (h : st.nextCheck.bind (below 32) = some b) :
    st.check.isSome = true := by
  obtain ⟨k, hk, -⟩ := Option.bind_eq_some_iff.1 h
  exact Store.check_of_nextCheck hk

/-- The end of a rewrite's ERASE: its PROGRAM begins (R153). -/
theorem Evolves.rewriteEraseEnd {s t : State} (h : Evolves s t) {r : Rewrite} (hr : t.store.rewriteNow = some r) :
    Evolves s (t.rewriteAt r.b r.p .program) := by
  refine h.trans (.ofMoves ((Moves.refl t).onStore _) (fun hs => ?_) fun _ => .ofBlocks rfl)
  obtain ⟨k, hk⟩ := Evolves.rewriteSome hr
  exact ((Evolves.refl t).rewriteAt (by simp [hk]) (hs.rewriteMapped r hr) .program).store hs

/-! ### What a command can do -/

/-- What a command makes of a state. -/
inductive Effect (s : State) : State → Prop
  /-- A command of a line, a classifier, the engine, a key or the store. -/
  | evolves {t : State} (h : Evolves s t) : Effect s t
  /-- A command of the port. -/
  | port {t : State} (h : ThenServes s t) : Effect s t
  | powerOn (cause : ResetCause) (straps : BitVec 3) : Effect s (s.toPowerOn cause straps)
  | start (straps : BitVec 3) : Effect s (s.start straps)

theorem Effect.calm {s t : State} (h : Calm s t) : Effect s t := .evolves h.evolves

theorem Effect.stays {s t : State} (h : Stays s t) : Effect s t := .evolves h.evolves

/-- No command's effect leaves a line waiting beside a FREE generator (R60). -/
theorem Effect.pool {s t : State} (h : Effect s t) (hs : s.pool.Sound) : t.pool.Sound := by
  cases h with
  | evolves h => exact h.pool hs
  | port h => exact h.pool hs
  | powerOn => exact .empty
  | start => exact hs

theorem Effect.ofPort {s t : State} (h : OnlyPort s t) : Effect s t := .port (.ofPort h)

/-- A timer's expiry with a calm effect. -/
theorem Effect.onDue {s : State} {due : Option Nat} {act : State → State} (h : ∀ u, Calm u (act u)) :
    Effect s (s.onDue due act) := .calm ((Calm.refl s).onDue due act h)

theorem Effect.refl (s : State) : Effect s s := .evolves (.refl s)

/-- Every command completes, with an effect of its kind. -/
theorem exec_effect (c : Instr) (s : State) : ∃ t, exec c s = .next t ∧ Effect s t := by
  cases c with
  -- The resets, the start and the start-up check.
  | powerOn straps => exact ⟨_, rfl, .powerOn _ straps⟩
  | pinReset => exact ⟨_, rfl, .powerOn _ _⟩
  | partStart straps =>
    refine ⟨_, rfl, ?_⟩
    split
    · exact .start straps
    · exact .refl s
  | startUpBlockCheck =>
    refine ⟨_, rfl, ?_⟩
    split
    · exact .refl s
    · next hb => exact .evolves ((Evolves.refl s).checkBlock (Store.check_of_nextCheck_bind hb) _)
  | startupCheckEnd =>
    refine ⟨_, rfl, ?_⟩
    split
    · next hn => exact .evolves ((Evolves.refl s).endCheck (Store.check_of_nextCheck hn))
    · exact .refl s
  -- The requests (R185).
  | identify | status | setLink | resetEngine | events | setMask | setProfile | readProfile | enableLine | disableLine
  | releaseLine | hold | unhold | sendDigits | submitJob | cancelJob | queryJob | collectJob | collectOldest | listJobs
  | loadCadence | readCadence | clearCadence | readEntry | writeEntry | eraseEntry | formatStore | storeStatus
  | saveSettings | clearSettings | bindKey | readBinding | setScan | readKeys | unknownKind =>
    exact ⟨_, rfl, .port (.arrive _ _ _ s)⟩
  -- The port.
  | receiveByte b err =>
    refine ⟨_, rfl, ?_⟩
    split
    · exact .port (.takeByte b err s)
    · exact .refl s
  | interByteGapTimerExpiry => exact ⟨_, rfl, .ofPort (OnlyPort.onDue _ _ (State.linkError_onlyPort _) s)⟩
  | linkBreak straps =>
    refine ⟨_, rfl, ?_⟩
    split
    · exact .ofPort (s.takeBreak_onlyPort straps)
    · exact .refl s
  | breakEnd => exact ⟨_, rfl, .ofPort (s.onLink_onlyPort _)⟩
  | lholdChange active => exact ⟨_, rfl, .ofPort (by rfl)⟩
  | frameBegin =>
    refine ⟨_, rfl, ?_⟩
    split
    · exact .port (.beginFrame s)
    · exact .refl s
  | frameEnd =>
    refine ⟨_, rfl, ?_⟩
    split
    · exact .refl s
    · exact .ofPort (s.onLink_onlyPort _)
  -- The inputs of the lines.
  | lineInputChange n input level =>
    exact ⟨_, rfl, .calm ((Calm.refl s).setPin n _ fun l => by cases input <;> exact ⟨rfl, rfl⟩)⟩
  | ringPinChange n level => exact ⟨_, rfl, .calm ((Calm.refl s).setPin n _ fun _ => ⟨rfl, rfl⟩)⟩
  | cptPinChange n level => exact ⟨_, rfl, .calm ((Calm.refl s).setPin n _ fun _ => ⟨rfl, rfl⟩)⟩
  | loopChange n => exact ⟨_, rfl, .onDue fun u => (Calm.refl u).takeLoop n⟩
  | revChange n => exact ⟨_, rfl, .onDue fun u => (Calm.refl u).takeRev n⟩
  | ringBurstStart n => exact ⟨_, rfl, .onDue fun u => (Calm.refl u).ringBurst n⟩
  | ringBurstEnd n => exact ⟨_, rfl, .onDue fun u => (Calm.refl u).onLine n _⟩
  | glareWindowExpiry n => exact ⟨_, rfl, .onDue fun u => (Calm.refl u).onLine n _⟩
  -- The classifiers.
  | filteredLevelChange n =>
    refine ⟨_, rfl, ?_⟩
    split
    · exact .refl s
    · exact .calm ((Calm.refl s).filteredChange n _)
  | steadyConfirmation n =>
    refine ⟨_, rfl, ?_⟩
    split
    · exact .refl s
    · exact .calm (((Calm.refl s).advance _).confirmSteady n _)
  | gapWatchExpiry n =>
    refine ⟨_, rfl, ?_⟩
    split
    · exact .refl s
    · split
      · exact .calm (((Calm.refl s).advance _).answer n _)
      · exact .refl s
  -- The engine.
  | attemptStart n =>
    refine ⟨_, rfl, ?_⟩
    split
    · exact .refl s
    · exact .calm ((Calm.refl s).takeStart n _)
  | retryDelayExpiry n => exact ⟨_, rfl, .onDue fun u => (Calm.refl u).setRetry n _⟩
  | jobStart n =>
    refine ⟨_, rfl, ?_⟩
    split
    · exact .calm ((Calm.refl s).startHead n)
    · exact .refl s
  -- The timers of the lines.
  | seizeTimerExpiry n => exact ⟨_, rfl, .onDue fun u => (Calm.refl u).failAttempt n _⟩
  | noAnswerTimerExpiry n => exact ⟨_, rfl, .onDue fun u => (Calm.refl u).failAttempt n _⟩
  | postSeizeTimerExpiry n => exact ⟨_, rfl, .onDue fun u => ((Calm.refl u).onLine n _).enterDialing n⟩
  | dialToneTimerExpiry n => exact ⟨_, rfl, .onDue fun u => (Calm.refl u).dialtoneExpired n⟩
  | disconnectTimerExpiry n => exact ⟨_, rfl, .onDue fun u => ((Calm.refl u).onLine n _).loopLost n⟩
  | makeTimerExpiry n => exact ⟨_, rfl, .onDue fun u => ((Calm.refl u).onLine n _).loopLost n⟩
  | guardTimerExpiry n => exact ⟨_, rfl, .onDue fun u => (Calm.refl u).onLine n _⟩
  | breakTimerExpiry n => exact ⟨_, rfl, .onDue fun u => (Calm.refl u).onLine n _⟩
  | makePeriodTimerExpiry n => exact ⟨_, rfl, .onDue fun u => (Calm.refl u).makePeriodEnds n⟩
  | interdigitTimerExpiry n => exact ⟨_, rfl, .onDue fun u => ((Calm.refl u).onLine n _).endSymbol n⟩
  | toneTimerExpiry n => exact ⟨_, rfl, .onDue fun u => (Calm.refl u).toneEnds n⟩
  | toneGapTimerExpiry n => exact ⟨_, rfl, .onDue fun u => ((Calm.refl u).onLine n _).endSymbol n⟩
  | pauseTimerExpiry n => exact ⟨_, rfl, .onDue fun u => (((Calm.refl u).onLine n _).countSymbol n).endSymbol n⟩
  | flashTimerExpiry n => exact ⟨_, rfl, .onDue fun u => (((Calm.refl u).onLine n _).countSymbol n).endSymbol n⟩
  | minimumToneTimerExpiry n => exact ⟨_, rfl, .onDue fun u => (Calm.refl u).minimumElapsed n⟩
  -- The keys.
  | keyRawChange k level =>
    refine ⟨_, rfl, ?_⟩
    split
    · exact .refl s
    · split
      · exact .stays ((Stays.refl s).onKey k _)
      · exact .stays ((Stays.refl s).onKey k _)
  | keyTransition k => exact ⟨_, rfl, .stays ((Stays.refl s).onDue _ _ fun u => (Stays.refl u).debouncedChange k)⟩
  -- The ends of the store's phases.
  | storeEraseEnd =>
    refine ⟨_, rfl, ?_⟩
    split
    · exact .refl s
    · next h => exact .evolves ((Evolves.refl s).opEraseEnd (Store.workIn_op h).1)
    · next h => exact .evolves ((Evolves.refl s).rewriteEraseEnd (Store.workIn_rewrite h).1)
  | storeProgramEnd =>
    refine ⟨_, rfl, ?_⟩
    split
    · exact .refl s
    · next h => exact .evolves ((Evolves.refl s).opProgramEnd (Store.workIn_op h).1)
    · next h => exact .evolves ((Evolves.refl s).rewriteProgramEnd (Store.workIn_rewrite h).1)
  | storeVerifyPass =>
    refine ⟨_, rfl, ?_⟩
    split
    · exact .refl s
    · next h => exact .evolves ((Evolves.refl s).opVerifyPass (Store.workIn_op h).1)
    · next h => exact .evolves ((Evolves.refl s).rewriteVerifyPass (Store.workIn_rewrite h).1)
  | storeVerifyFail =>
    refine ⟨_, rfl, ?_⟩
    split
    · exact .refl s
    · next h => exact .evolves ((Evolves.refl s).opVerifyFail (Store.workIn_op h).1)
    · next h => exact .evolves ((Evolves.refl s).rewriteVerifyFail (Store.workIn_rewrite h).1)

/-- What a command answers is its effect. -/
theorem effect_of_exec {c : Instr} {s t : State} (h : exec c s = .next t) : Effect s t := by
  obtain ⟨u, hu, e⟩ := exec_effect c s
  rw [hu] at h
  cases h
  exact e

/-! ### What a step can do -/

/-- With no command waiting a held part stands; else the engine takes a submission, 1 ms passes, or a command is made. -/
theorem State.idle_cases {s t : State} (h : s.idle = .next t) :
    t = s ∨ t = s.takeHandovers ∨ t = { s with now := s.now + 1 } ∨ ∃ c, exec c s = .next t := by
  unfold State.idle at h
  split at h
  · cases h; exact .inl rfl
  · unfold State.runOn at h
    split at h
    · cases h; exact .inr (.inl rfl)
    · cases h; exact .inr (.inr (.inl rfl))
    · exact .inr (.inr (.inr ⟨_, h⟩))

/-- Every step is the effect of a command or of the part's own time, on the state less the command it takes. -/
theorem effect_of_steps {s t : State} (h : Steps s t) : ∃ rest, Effect { s with pending := rest } t := by
  unfold Steps step at h
  split at h
  · refine ⟨s.pending, ?_⟩
    obtain rfl | rfl | rfl | ⟨c, hc⟩ := State.idle_cases h
    · exact .refl _
    · exact .calm (Calm.refl s).takeHandovers
    · exact .ofPort (by rfl)
    · exact effect_of_exec hc
  · next rest _ => exact ⟨rest, effect_of_exec h⟩

/-- An invariant that the queue does not enter and every effect keeps is kept by every step. -/
theorem kept_of_effect {Inv : State → Prop} (hqueue : ∀ s rest, Inv s → Inv { s with pending := rest })
    (heffect : ∀ s t, Inv s → Effect s t → Inv t) : Kept Inv := by
  intro s t hs h
  obtain ⟨rest, e⟩ := effect_of_steps h
  exact heffect _ t (hqueue s rest hs) e

end Sys2Proof.Machine
end

section
/-! PROOFS. The pool's law (R60). -/

namespace Sys2Proof.Machine

/-! ### Requests and FREE generators (R57, R60) -/

theorem Pool.hasFree_iff (p : Pool) : p.hasFree = true ↔ ∃ g, p.gens.get g = none := by
  simp [Pool.hasFree, Fin.exists_fin_two]

/-- A request leaves the wait list where a generator is FREE, and joins its tail where both are held (R57). -/
theorem Pool.request_wait (p : Pool) (c : Claim) :
    (p.request c).wait = if p.hasFree then p.wait else p.wait ++ [c] := by
  unfold Pool.request
  split
  · next h0 => rw [if_pos (p.hasFree_iff.2 ⟨0, h0⟩)]
  · next h0 =>
    split
    · next h1 => rw [if_pos (p.hasFree_iff.2 ⟨1, h1⟩)]
    · next h1 => simp [Pool.hasFree, Option.isNone_iff_eq_none, h0, h1]

/-- A request leaves the wait list as it stands exactly where a generator is FREE. -/
theorem Pool.request_wait_eq_iff (p : Pool) (c : Claim) :
    (p.request c).wait = p.wait ↔ ∃ g, p.gens.get g = none := by
  rw [p.request_wait, ← p.hasFree_iff]
  cases p.hasFree <;> simp

/-- No line waits while a generator is FREE. -/
theorem Pool.Sound.wait_eq_nil {p : Pool} (h : p.Sound) (hfree : ∃ g, p.gens.get g = none) : p.wait = [] := by
  obtain ⟨g, hg⟩ := hfree
  by_contra hwait
  have hheld := h hwait g
  simp [hg] at hheld

/-- Every step keeps the pool's law (R60). -/
theorem pool_sound_kept : Kept fun s => s.pool.Sound :=
  kept_of_effect (fun _ _ hs => hs) fun _ _ hs e => e.pool hs

/-- Settles O56: every step is an effect, every effect keeps the law of the pool, and under the law a FREE generator
means an empty wait list. -/
theorem poolKept : Obligations.PoolKept := by
  refine ⟨pool_sound_kept, fun p hp => ⟨fun c => ?_, fun c hjoins g hfree => ?_, fun _ => ⟨rfl, rfl⟩,
    hp.wait_eq_nil⟩⟩
  · rw [p.request_wait_eq_iff c]
    exact ⟨fun hfree => ⟨hp.wait_eq_nil hfree, hfree⟩, fun h => h.2⟩
  · exact hjoins ((p.request_wait_eq_iff c).2 ⟨g, hfree⟩)

end Sys2Proof.Machine
end

section
/-! PROOFS. IDENTIFY (R190, R197). -/

namespace Sys2Proof.Machine

/-- The command IDENTIFY is the arrival of its frame ([3]). -/
theorem exec_identify (tag : Byte) (body : List Byte) (s : State) :
    exec (.identify tag body) s = .next (s.arrive 0x01#8 tag body) := rfl

/-- The ready field of IDENTIFY (R190) is off exactly while the start-up check runs. -/
theorem State.readyField (s : State) : onOff (!s.checking) = if s.store.st = .checking then 0#8 else 1#8 := by
  by_cases h : s.store.st = .checking <;> simp [State.checking, onOff, h]

/-- IDENTIFY without a body is answered OK, and its answer leaves the state as it was (R190). -/
theorem answerRequest_identify_ok (tag : Byte) (s : State) :
    answerRequest ⟨0x01#8, tag, []⟩ s = (s, .ok [0x15#8, 0x7A#8, 0x40#8, 0x04#8, 0x01#8, 4#8, 128#8,
      s.events.resetCause.code, if s.store.st = .checking then 0#8 else 1#8]) := by
  rw [← s.readyField]; rfl

/-- IDENTIFY with a body is refused BAD_LENGTH in every state of the store, CHECKING included (R186, R190). -/
theorem answerRequest_identify_badLength (tag : Byte) {body : List Byte} (hbody : body ≠ []) (s : State) :
    answerRequest ⟨0x01#8, tag, body⟩ s = (s, .refused .badLength 0) := by
  obtain ⟨b, rest, rfl⟩ := List.exists_cons_of_ne_nil hbody
  rfl

/-- Settles O10: the frame is taken at once, and the answer to it, OK or BAD_LENGTH, leaves the state as it was, so the
reply at the tail of the queue is the one difference. -/
theorem identifyAnswers : Obligations.IdentifyAnswers := by
  intro tag body s h
  rw [exec_identify]
  constructor
  · rintro rfl
    rw [h.ok (answerRequest_identify_ok tag s)]
  · intro hbody
    rw [h.refused (answerRequest_identify_badLength tag hbody s)]

end Sys2Proof.Machine
end

section
/-! PROOFS. The laws every effect keeps: outputs, jobs, store. -/

namespace Sys2Proof.Machine

/-! ### Port, reset and start -/

theorem OnlyPort.lines {s t : State} (h : OnlyPort s t) : t.lines = s.lines := by rw [h]

theorem OnlyPort.jobs {s t : State} (h : OnlyPort s t) : t.jobs = s.jobs := by rw [h]

theorem OnlyPort.store {s t : State} (h : OnlyPort s t) : t.store = s.store := by rw [h]

theorem OnlyPort.keys {s t : State} (h : OnlyPort s t) : t.keys = s.keys := by rw [h]

theorem OnlyPort.held {s t : State} (h : OnlyPort s t) : t.held = s.held := by rw [h]

theorem OnlyPort.line {s t : State} (h : OnlyPort s t) (n : LineNo) : t.line n = s.line n := by
  rw [State.line, h.lines, State.line]

/-- The outputs rest on the lines alone. -/
theorem State.Driven.congr {s t : State} (h : s.Driven) (hl : t.lines = s.lines) : t.Driven := by
  intro n
  simpa only [State.line, hl] using h n

/-- A line in its power-on state drives nothing, as DISABLED calls for (R2, R29). -/
theorem Line.powerOn_driven (l : Line) : l.powerOn.out = l.powerOn.outputs := rfl

/-! ### The store at a reset and a start -/

/-- What a reset leaves of the work in hand touches the blocks and the settings medium alone (R155). -/
structure Store.Interrupted (a b : Store) : Prop where
  map : b.map = a.map
  spares : b.spares = a.spares
  op : b.op = a.op
  check : b.check = a.check
  live : a.Sound → ∀ p, (a.blocks.get p).role ≠ .retired → (b.blocks.get p).role ≠ .retired
  retired : a.Sound → a.KeepsRetired b

theorem Store.Interrupted.refl (a : Store) : a.Interrupted a :=
  ⟨rfl, rfl, rfl, rfl, fun _ _ h => h, fun _ => .refl a⟩

/-- A PROGRAM interrupted on a block that the map names, and so no RETIRED one. -/
theorem State.interruptBlock_store {s : State} {b : LogicalNo} {p : PhysicalNo} (ph : OpPhase) (since : Nat)
    (hp : s.store.Sound → s.store.map.get b = some p) :
    s.store.Interrupted (s.interruptBlock b p ph since).store := by
  simp only [State.interruptBlock]
  split
  · split
    · refine ⟨rfl, rfl, rfl, rfl, fun hs q hq => ?_, fun hs q hq => ?_⟩
      · rw [State.onStore_store, State.draw_store, Store.onBlock_blocks]
        split
        · simp
        · exact hq
      · rw [State.onStore_store, State.draw_store, Store.onBlock_blocks,
          if_neg (hs.mapped_ne_retired (hp hs) hq).symm]
        exact hq
    · exact .refl _
  · exact .refl _

theorem State.interruptStore_store (s : State) : s.store.Interrupted s.interruptStore.store := by
  unfold State.interruptStore
  split
  · next o ho =>
    split
    · next b p buf ht => exact State.interruptBlock_store _ _ fun hs => hs.opMapped o b p buf ho ht
    · split
      · exact ⟨rfl, rfl, rfl, rfl, fun _ _ h => h, fun _ => .ofBlocks rfl⟩
      · exact .refl _
  · next r _ hr => exact State.interruptBlock_store _ _ fun hs => hs.rewriteMapped r hr
  · exact .refl _

theorem State.toPowerOn_store (cause : ResetCause) (straps : BitVec 3) (s : State) :
    (s.toPowerOn cause straps).store = s.interruptStore.store.powerOn := rfl

/-- The store in its power-on state: CHECKING, nothing in hand, map and medium as they stood (R138, R155). -/
theorem State.toPowerOn_storeSound (cause : ResetCause) (straps : BitVec 3) {s : State} (hs : s.store.Sound) :
    (s.toPowerOn cause straps).store.Sound := by
  have hi := s.interruptStore_store
  exact .ofReady (hs.mapped.congr hi.map hi.spares (hi.live hs)) rfl (by simp [State.toPowerOn, Store.powerOn]) rfl

/-- The store as the check starts: the map rebuilt from the headers (R152). -/
theorem State.start_storeSound (straps : BitVec 3) (s : State) : (s.start straps).store.Sound :=
  .ofCheck (s.store.rebuild_mapped.congr rfl rfl fun _ h => h) rfl rfl _ rfl fun _ hr => by cases hr

/-! ### Effects -/

theorem Effect.driven {s t : State} (h : Effect s t) (hs : s.Driven) : t.Driven := by
  cases h with
  | evolves h => exact h.driven hs
  | port h =>
    obtain ⟨u, hu, ht⟩ := h
    exact ht.driven (hs.congr hu.lines)
  | powerOn => exact fun n => by simp [State.line, State.toPowerOn, Line.powerOn_driven]
  | start => exact fun n => by simp [State.line, State.start]

theorem Effect.jobs {s t : State} (h : Effect s t) (hs : s.jobs.Sound) : t.jobs.Sound := by
  cases h with
  | evolves h => exact h.jobs hs
  | port h =>
    obtain ⟨u, hu, ht⟩ := h
    exact ht.jobs (hu.jobs ▸ hs)
  | powerOn => exact .reset
  | start => exact hs

theorem Effect.store {s t : State} (h : Effect s t) (hs : s.store.Sound) : t.store.Sound := by
  cases h with
  | evolves h => exact h.store hs
  | port h =>
    obtain ⟨u, hu, ht⟩ := h
    exact ht.store (hu.store ▸ hs)
  | powerOn => exact State.toPowerOn_storeSound _ _ hs
  | start => exact s.start_storeSound _

/-- A RETIRED block stays RETIRED (R136, R143). -/
theorem Effect.retired {s t : State} (h : Effect s t) (hs : s.store.Sound) : s.store.KeepsRetired t.store := by
  cases h with
  | evolves h => exact h.retired hs
  | port h =>
    obtain ⟨u, hu, ht⟩ := h
    rw [← hu.store] at hs ⊢
    exact ht.retired hs
  | powerOn => exact s.interruptStore_store.retired hs
  | start => exact .ofBlocks rfl

/-- Settles O55: every line a step writes is settled, and a reset leaves every line DISABLED with nothing driven. -/
theorem outputsKept : Obligations.OutputsKept := kept_of_effect (fun _ _ hs => hs) fun _ _ hs e => e.driven hs

/-- Settles O57: every operation inside a command keeps the law of the Job Engine, and a reset empties it. -/
theorem jobsKept : Obligations.JobsKept := kept_of_effect (fun _ _ hs => hs) fun _ _ hs e => e.jobs hs

/-- Settles O58: every operation inside a command keeps the law of the store and its RETIRED blocks; a reset in
PROGRAM writes a role only into a block the map names; a start rebuilds the map from the headers. -/
theorem storeKept : Obligations.StoreKept :=
  ⟨kept_of_effect (fun _ _ hs => hs) fun _ _ hs e => e.store hs, fun p =>
    kept_of_effect (fun _ _ hs => hs) fun _ _ ⟨hs, hp⟩ e => ⟨e.store hs, e.retired hs p hp⟩⟩

end Sys2Proof.Machine
end

section
/-! PROOFS. What the commands of the lines keep of the agreement of lines, timers and pool, in a part whose check runs and
in one whose check is done. -/

namespace Sys2Proof.Machine

/-! ### A line whose timers change -/

@[simp] theorem Line.withTimers_st (f : LineTimers → LineTimers) (l : Line) : (l.withTimers f).st = l.st := rfl
@[simp] theorem Line.withTimers_cursor (f : LineTimers → LineTimers) (l : Line) : (l.withTimers f).cursor = l.cursor := rfl
@[simp] theorem Line.withTimers_manual (f : LineTimers → LineTimers) (l : Line) : (l.withTimers f).manual = l.manual := rfl
@[simp] theorem Line.withTimers_timers (f : LineTimers → LineTimers) (l : Line) : (l.withTimers f).timers = f l.timers := rfl

/-! ### A line at rest in a state of its own -/

/-- A line at rest, its no-answer timer stopped, has the shape of any state but one a sub-phase gives. -/
theorem Line.Resting.shaped {l : Line} (h : l.Resting) (hn : l.timers.noAnswer = none) : l.Shaped := by
  obtain ⟨q1, q2, q3, q4, q5, q6, q7, q8, q9, q10, q11, q12, q13⟩ := h
  constructor <;> simp [q1, q2, q3, q4, q5, q6, q7, q8, q9, q10, q11, q12, q13, hn]

/-- An idle or disabled line wants no generator, whatever else it holds. -/
theorem Line.want_nothing {l : Line} (h : l.st = .disabled ∨ l.st = .idle ∨ l.st = .releasing) :
    l.want = .nothing := by
  rcases h with h | h | h <;> simp [Line.want, h]

/-- A DISABLED or IDLE line goes to the one or the other. -/
theorem State.Fit.onHook {s : State} (h : s.Fit) {n : LineNo} (hs : (s.line n).st = .disabled ∨ (s.line n).st = .idle)
    (f : Line → Line) (h1 : (f (s.line n)).st = .disabled ∨ (f (s.line n)).st = .idle)
    (h2 : (f (s.line n)).manual = (s.line n).manual) (h3 : (f (s.line n)).timers = (s.line n).timers) :
    (s.onLine n f).Fit := by
  have hrest := (h.shaped n).resting (hs.imp_right .inl)
  have hnoAnswer : (s.line n).timers.noAnswer = none :=
    none_of (h.shaped n).noAnswer (by rcases hs with e | e <;> simp [e])
  refine h.onLine f ((hrest.congr (by rw [h2]) (by rw [h3])).shaped (by rw [h3]; exact hnoAnswer)) ?_
  rw [Line.want_nothing (h1.imp_right .inl), Line.want_nothing (hs.imp_right .inl)]

/-- A RELEASING line enters IDLE at the end of its guard (R19). -/
theorem State.Fit.guardEnds {s : State} (h : s.Fit) {n : LineNo} (hs : (s.line n).st = .releasing) :
    (s.onLine n Line.guardEnds).Fit := by
  have hl := h.shaped n
  refine h.onLine _ ?_ ((Line.want_nothing (.inr (.inl rfl))).trans (Line.want_nothing (.inr (.inr hs))).symm)
  have hmanual : (s.line n).manual.activity = .none := hl.noManual (by simp [hs])
  constructor <;> simp only [Line.guardEnds, Line.noBurst]
  case seize => exact fun e => absurd (hl.seize e).1 (by simp [hs])
  case postSeize => exact fun e => absurd (hl.postSeize e) (by simp [hs])
  case dialTone => exact fun e => absurd (hl.dialTone e) (by simp [hs])
  case noAnswer => exact fun e => absurd (hl.noAnswer e) (by simp [hs])
  case guard => simp
  case breakT => exact fun e => absurd (hl.breakT e).1 (by simp [hs])
  case makePeriod => exact fun e => absurd (hl.makePeriod e).1 (by simp [hs])
  case interdigit => exact fun e => absurd (hl.interdigit e).1 (by simp [hs])
  case tone => exact fun e => absurd (hl.tone e).1 (by simp [hs])
  case toneGap => exact fun e => absurd (hl.toneGap e).1 (by simp [hs])
  case pause => exact fun e => absurd (hl.pause e).1 (by simp [hs])
  case flash => exact fun e => absurd (hl.flash e).1 (by simp [hs])
  case minTone => exact fun e => absurd (hl.minTone e).1 (by simp [hs])
  case manual => simp [hmanual]

/-! ### The timers of DIALING -/

/-- The sub-phases of a pulse digit and the gap of a tone, begun by a DIALING line at rest (R37, R38, R40). -/
theorem Line.Resting.subPhases {l : Line} (h : l.Resting) (hn : l.timers.noAnswer = none) (hs : l.st = .dialing)
    (now : Nat) : (l.pulseBreak now).Shaped ∧ (l.pulseMake now).Shaped ∧ (l.interdigit now).Shaped ∧
      (l.toneGap now).Shaped := by
  obtain ⟨q1, q2, q3, q4, q5, q6, q7, q8, q9, q10, q11, q12, q13⟩ := h
  refine ⟨?_, ?_, ?_, ?_⟩ <;> constructor <;>
    simp [Line.pulseBreak, Line.suspend, Line.pulseMake, Line.makeEnds, Line.interdigit, Line.toneGap, Line.inSub,
      Line.withTimers, apply_ite, hs, hn, q1, q2, q3, q4, q5, q6, q7, q8, q9, q10, q11, q12, q13]

/-- None of those sub-phases wants a generator (R56). -/
theorem Line.subPhases_want {l : Line} (hs : l.st = .dialing) (now : Nat) : (l.pulseBreak now).want = .nothing ∧
    (l.pulseMake now).want = .nothing ∧ (l.interdigit now).want = .nothing ∧ (l.toneGap now).want = .nothing := by
  refine ⟨?_, ?_, ?_, ?_⟩ <;>
    simp [Line.want, Line.pulseBreak, Line.suspend, Line.pulseMake, Line.makeEnds, Line.interdigit, Line.toneGap,
      Line.inSub, Line.withTimers, apply_ite, hs]

namespace State

variable {s : State} {n : LineNo}

/-- The make that ends a pulse break (R37). -/
theorem Fit.pulseMake (h : s.Fit) (hs : (s.line n).st = .dialing) (hc : (s.line n).cursor.sub = .pulseBreak)
    (now : Nat) : (s.onLine n fun l => (l.withTimers fun t => { t with breakT := none }).pulseMake now).Fit := by
  obtain ⟨hrest, hnoAnswer⟩ := (h.shaped n).dialing hs
  rw [hc] at hrest
  refine h.onLine _ (hrest.subPhases hnoAnswer hs now).2.1 ?_
  rw [(Line.subPhases_want (by exact hs) now).2.1]
  simp [Line.want, hs, hc]

/-- The end of a make (R37): the next pulse, or the digit counted and its pause. -/
theorem Fit.makePeriodEnds (h : s.Fit) (hs : (s.line n).st = .dialing) (hc : (s.line n).cursor.sub = .pulseMake) :
    (s.makePeriodEnds n).Fit := by
  have hbetween : (s.onLine n (Line.withTimers fun t => { t with makePeriod := none })).Between n :=
    h.between hs (by simp [Line.want, hs, hc]) _ rfl hs (by rw [hc]; rfl)
  simp only [State.makePeriodEnds]
  generalize s.onLine n (Line.withTimers fun t => { t with makePeriod := none }) = u at hbetween ⊢
  split
  · refine hbetween.but.write _ ?_ (by simp [Line.want, Line.pulseBreak, Line.suspend, Line.inSub, hbetween.st])
    have hrest : Line.Resting { u.line n with
        cursor := { (u.line n).cursor with pulses := (u.line n).cursor.pulses - 1 } } := hbetween.rest.congr rfl rfl
    exact (hrest.subPhases hbetween.noAnswer hbetween.st _).1
  · have hcounted := hbetween.countSymbol
    exact hcounted.but.write _ (hcounted.rest.subPhases hcounted.noAnswer hcounted.st _).2.2.1
      (Line.subPhases_want hcounted.st _).2.2.1

/-- The end of a tone (R40, R59): its generator goes to the head of the wait list or is FREE. -/
theorem Fit.toneEnds (h : s.Fit) (hs : (s.line n).st = .dialing) (hc : (s.line n).cursor.sub = .toneOn) :
    (s.toneEnds n).Fit := by
  obtain ⟨hrest, hnoAnswer⟩ := (h.shaped n).dialing hs
  rw [hc] at hrest
  have hsounds : (s.line n).want = .sounds := by simp [Line.want, hs, hc]
  have hbut := (hsounds ▸ h.apart n).onLine fun l => (l.withTimers fun t => { t with tone := none }).toneGap s.now
  obtain ⟨hfreed, hline⟩ := hbut.releaseTone (by simp)
  refine Fit.same (hfreed.fit ?_ ?_) ((SameClaims.refl _).countSymbol n)
  · rw [hline, onLine_line]
    exact (hrest.subPhases hnoAnswer hs s.now).2.2.2.settle _
  · rw [hline, onLine_line, Line.settle_want]
    exact (Line.subPhases_want (by exact hs) s.now).2.2.2

/-- A symbol whose timer has run out is counted where it is yet to be, and ends (R33, R38, R40, R42, R43). -/
theorem Fit.symbolEnds (h : s.Fit) (hs : (s.line n).st = .dialing) (hw : (s.line n).want = .nothing) (f : Line → Line)
    (hm : (f (s.line n)).manual.activity = (s.line n).manual.activity) (h1 : (f (s.line n)).st = .dialing)
    (ht : (f (s.line n)).timers = { (s.line n).cursor.sub.clear (s.line n).timers with
      disconnect := (f (s.line n)).timers.disconnect, make := (f (s.line n)).timers.make }) :
    ((s.onLine n f).endSymbol n).Fit ∧ (((s.onLine n f).countSymbol n).endSymbol n).Fit :=
  have hbetween := h.between hs hw f hm h1 ht
  ⟨hbetween.endSymbol, hbetween.countSymbol.endSymbol⟩

/-- The minimum of a manual tone has run out (R50). -/
theorem Fit.minimumElapsed (h : s.Fit) (hs : (s.line n).st = .connected) : (s.minimumElapsed n).Fit := by
  have hl := h.shaped n
  have hk : (s.onLine n fun l => { l with
      manual := { l.manual with minElapsed := true }, timers := { l.timers with minTone := none } }).Fit :=
    h.onLine _ { hl with minTone := by simp } rfl
  simp only [State.minimumElapsed]
  split
  · exact (hk.endManual (by simpa using hs)).1
  · exact hk

/-- The wait for dial tone has run out (R11, R44). -/
theorem Fit.dialtoneExpired (h : s.Fit)
    (hs : (s.line n).st = .awaitDialtone ∨ ((s.line n).st = .dialing ∧ (s.line n).cursor.sub = .waitTone)) :
    (s.dialtoneExpired n).Fit := by
  have hl := h.shaped n
  have hk : (s.onLine n (Line.withTimers fun t => { t with dialTone := none })).Fit :=
    h.onLine _ { hl with dialTone := by simp [Line.withTimers] } rfl
  simp only [State.dialtoneExpired]
  split
  · next hst =>
    split
    · exact hk.dialtoneServed (by simpa using hst)
    · exact hk.failAttempt n _
  · next hst =>
    have hdial : (s.line n).st = .dialing := by simpa using hst
    obtain hwait | ⟨-, hc⟩ := hs
    · simp [hdial] at hwait
    · split
      · exact hk.waitToneServed (by simpa using hdial) (by simpa [Line.withTimers] using hc)
      · split
        · exact hk.failAttempt n _
        · exact (h.between hdial (by simp [Line.want, hdial, hc]) _ rfl hdial
            (by rw [hc]; rfl)).toAtRest.enterConnected
  · exact hk

/-- The wait after loop current has run out (R10). -/
theorem Fit.postSeizeEnds (h : s.Fit) (hs : (s.line n).st = .seizing) (hp : (s.line n).timers.postSeize.isSome = true) :
    ((s.onLine n (Line.withTimers fun t => { t with postSeize := none })).enterDialing n).Fit := by
  obtain ⟨hrest, hnoAnswer⟩ := (h.shaped n).seizing hs
  have hseize : (s.line n).timers.seize = none :=
    Option.not_isSome_iff_eq_none.1 fun e => by simp [((h.shaped n).seize e).2] at hp
  have hwant : (s.line n).want = .nothing := by simp [Line.want, hs]
  have hbut := hwant ▸ h.apart n
  refine Quiet.enterDialing ⟨hbut.atRest _ (hrest.congr rfl ?_), by simpa [Line.withTimers] using hnoAnswer⟩
  simp [Line.withTimers, hseize]

end State

end Sys2Proof.Machine
end

section
/-! PROOFS. The agreement of lines, timers and pool under the commands of the lines, with what it says of a part whose
start-up check runs: every line DISABLED (R29). -/

namespace Sys2Proof.Machine

/-- Lines, timers and pool agree, and under `c` every line is DISABLED. -/
structure State.Agrees (c : Prop) (s : State) : Prop where
  fit : s.Fit
  down : c → ∀ n, (s.line n).st = .disabled

namespace State.Agrees

variable {c : Prop} {s t : State} {n : LineNo}

theorem same (h : s.Agrees c) (k : s.SameClaims t) : t.Agrees c :=
  ⟨h.fit.same k, fun hc n => (k.line n).1.trans (h.down hc n)⟩

/-- With a line out of DISABLED the check is done, and the fit of lines and pool is all there is to keep. -/
theorem ofFit (h : s.Agrees c) (hn : (s.line n).st ≠ .disabled) (ht : t.Fit) : t.Agrees c :=
  ⟨ht, fun hc => absurd (h.down hc n) hn⟩

/-- A line written with the state, sub-phase, manual digit and timers it had. -/
theorem keepLine (h : s.Agrees c) (n : LineNo) (f : Line → Line) (h1 : (f (s.line n)).st = (s.line n).st)
    (h2 : (f (s.line n)).cursor.sub = (s.line n).cursor.sub)
    (h3 : (f (s.line n)).manual.activity = (s.line n).manual.activity)
    (h4 : (f (s.line n)).timers = { (s.line n).timers with
      disconnect := (f (s.line n)).timers.disconnect, make := (f (s.line n)).timers.make }) :
    (s.onLine n f).Agrees c := by
  refine ⟨h.fit.keepLine n f h1 h2 h3 h4, fun hc m => ?_⟩
  by_cases e : n = m
  · subst e; simp [h1, h.down hc n]
  · simpa [State.onLine, e] using h.down hc m

/-- The expiry of a timer of line `n`. -/
theorem expires (h : s.Agrees c) (n : LineNo) (due : Line → Option Nat) (act : State → State)
    (hact : ∀ u, u.Agrees c → (due (u.line n)).isSome = true → (act u).Agrees c) :
    (s.onDue (due (s.line n)) act).Agrees c := by
  unfold State.onDue
  split
  · exact h
  · next d hd =>
    exact hact _ (h.same ((SameClaims.refl s).advance d)) (by rw [State.line_advanceTo, hd]; rfl)

/-- An expiry in a state of the line other than DISABLED. -/
theorem expiresIn (h : s.Agrees c) (n : LineNo) (due : Line → Option Nat) (act : State → State)
    (hst : ∀ l : Line, l.Shaped → (due l).isSome = true → l.st ≠ .disabled)
    (hact : ∀ u, u.Fit → (due (u.line n)).isSome = true → (act u).Fit) : (s.onDue (due (s.line n)) act).Agrees c :=
  h.expires n due act fun u hu hd => hu.ofFit (hst _ (hu.fit.shaped n) hd) (hact u hu.fit hd)

/-- A pin of a line changed. -/
theorem setPin (h : s.Agrees c) (n : LineNo) (f : Line → Line) (hf : ∀ l : Line, (f l).st = l.st ∧
    (f l).cursor = l.cursor ∧ (f l).manual = l.manual ∧ (f l).timers = l.timers) : (s.setPin n f).Agrees c := by
  unfold State.setPin
  split
  · refine h.same ⟨rfl, fun m => ?_⟩
    simp only [State.line, Bank.get_set]
    split
    · next e => subst e; exact hf _
    · exact ⟨rfl, rfl, rfl, rfl⟩
  · exact h.same ((SameClaims.refl s).onLine n f hf)

theorem superviseLoop (h : s.Agrees c) (n : LineNo) (now : Nat) : (s.onLine n (Line.superviseLoop now)).Agrees c := by
  have hfields : ∀ l : Line, (l.superviseLoop now).st = l.st ∧ (l.superviseLoop now).cursor = l.cursor ∧
      (l.superviseLoop now).manual = l.manual ∧ (l.superviseLoop now).timers = { l.timers with
        disconnect := (l.superviseLoop now).timers.disconnect, make := (l.superviseLoop now).timers.make } := by
    intro l
    unfold Line.superviseLoop
    split
    case h_3 => split <;> exact ⟨rfl, rfl, rfl, rfl⟩
    all_goals exact ⟨rfl, rfl, rfl, rfl⟩
  obtain ⟨hst, hcursor, hmanual, htimers⟩ := hfields (s.line n)
  exact h.keepLine n _ hst (by rw [hcursor]) (by rw [hmanual]) htimers

theorem takeLoop (h : s.Agrees c) (n : LineNo) : (s.takeLoop n).Agrees c := by
  have htaken := h.same (((SameClaims.refl s).onLine n (fun l => { l with loop := l.loop.toggle })
    fun _ => ⟨rfl, rfl, rfl, rfl⟩).latchInput n .loopChg)
  simp only [State.takeLoop]
  generalize (s.onLine n fun l => { l with loop := l.loop.toggle }).latchInput n .loopChg = u at htaken ⊢
  split
  · next hseizing =>
    obtain ⟨hst, hseize, -⟩ := hseizing
    exact htaken.ofFit (n := n) (by simp [hst]) (htaken.fit.loopSeized hst ((htaken.fit.shaped n).seize hseize).2)
  · exact htaken.superviseLoop n _

theorem takeRev (h : s.Agrees c) (n : LineNo) : (s.takeRev n).Agrees c := by
  have htaken := h.same (((SameClaims.refl s).onLine n (fun l => { l with rev := l.rev.toggle })
    fun _ => ⟨rfl, rfl, rfl, rfl⟩).latchInput n .revChg)
  simp only [State.takeRev]
  split
  · next hwaits => exact htaken.ofFit (n := n) (by simp [hwaits.1]) (htaken.fit.answer hwaits.1 _)
  · exact htaken

/-- Loop lost on a line that is not DISABLED ends its attempt or call; a DISABLED line has none. -/
theorem loopLost (h : s.Agrees c) (n : LineNo) : (s.loopLost n).Agrees c := by
  by_cases hd : (s.line n).st = .disabled
  · simpa [State.loopLost, hd] using h
  · exact h.ofFit hd (h.fit.loopLost n)

/-! ### The classifier of a line -/

/-- A DISABLED line acts on no class (R13). -/
theorem classAction (h : s.Agrees c) (n : LineNo) (x : ToneClass) : (s.classAction n x).Agrees c := by
  by_cases hd : (s.line n).st = .disabled
  · simpa [State.classAction, hd] using h
  · exact h.ofFit hd (h.fit.classAction n x)

theorem confirm (h : s.Agrees c) (n : LineNo) (x : ToneClass) (k : SlotNo) : (s.confirm n x k).Agrees c := by
  have hnoted := (((SameClaims.refl s).onLine n (Line.noteClass x k) fun _ => ⟨rfl, rfl, rfl, rfl⟩).latchLine n
    .progress).onActive n fun j => { j with lastClass := some x }
  simp only [State.confirm]
  split
  · exact h
  · exact (h.same hnoted).classAction n x

theorem confirmSlot (h : s.Agrees c) (n : LineNo) (k : SlotNo) : (s.confirmSlot n k).Agrees c := by
  unfold State.confirmSlot
  split
  · exact h
  · exact h.confirm n _ k

theorem takePair (h : s.Agrees c) (n : LineNo) (on off : Nat) : (s.takePair n on off).Agrees c := by
  have hmatched := h.same ((SameClaims.refl s).onLine n
    (fun l => { l with pc := l.pc.matched ((s.line n).pc.offerAll s.cadence on off) }) fun _ => ⟨rfl, rfl, rfl, rfl⟩)
  simp only [State.takePair]
  split
  · exact hmatched.confirmSlot n _
  · split
    · next hanswer =>
      have hst := (by simpa [Line.unclassifiedAnswer, and_assoc] using hanswer :
        _ ∧ _ ∧ _ ∧ (s.line n).st = .awaitProgress ∧ _).2.2.2.1
      exact hmatched.ofFit (n := n) (by simp [hst]) (hmatched.fit.answer (by simpa using hst) _)
    · exact hmatched

theorem filteredChange (h : s.Agrees c) (n : LineNo) (e : Nat) : (s.filteredChange n e).Agrees c := by
  have hfiltered := h.same (((SameClaims.refl s).advance (e + Config.cptFilterMs)).onLine n
    (fun l => { l with pc := { l.pc with filtered := !l.pc.filtered, edges := l.pc.edges.tail } })
    fun _ => ⟨rfl, rfl, rfl, rfl⟩)
  simp only [State.filteredChange]
  generalize (s.advanceTo (e + Config.cptFilterMs)).onLine n (fun l =>
    { l with pc := { l.pc with filtered := !l.pc.filtered, edges := l.pc.edges.tail } }) = u at hfiltered ⊢
  split
  · next i _ _ =>
    unfold State.sessionChange
    split
    · exact hfiltered.same ((SameClaims.refl u).onLine n _ fun _ => ⟨rfl, rfl, rfl, rfl⟩)
    · have hended := hfiltered.same ((SameClaims.refl u).onLine n
        (fun l => { l with pc := l.pc.endInterval i e l.watchLength }) fun _ => ⟨rfl, rfl, rfl, rfl⟩)
      dsimp only
      split
      · exact hended
      · exact hended.takePair n _ _
  · exact hfiltered

theorem confirmSteady (h : s.Agrees c) (n : LineNo) (p : Nat → Bool) : (s.confirmSteady n p).Agrees c := by
  have hmarked := h.same ((SameClaims.refl s).onLine n
    (fun l => { l with pc := l.pc.markSteady s.cadence p }) fun _ => ⟨rfl, rfl, rfl, rfl⟩)
  simp only [State.confirmSteady]
  split
  · exact hmarked
  · exact hmarked.confirmSlot n _

/-- The gap watch decides in AWAIT_PROGRESS alone (R89). -/
theorem gapAnswer (h : s.Agrees c) {n : LineNo} {m : Nat} (hg : (s.line n).gapDecides m = true) (b : Basis) (d : Nat) :
    ((s.advanceTo d).answer n b).Agrees c := by
  have hst : (s.line n).st = .awaitProgress := by
    simp only [Line.gapDecides, Bool.and_eq_true, beq_iff_eq] at hg
    exact hg.1.2
  have hadvanced := h.same ((SameClaims.refl s).advance d)
  exact hadvanced.ofFit (n := n) (by simp [hst]) (hadvanced.fit.answer hst b)

end State.Agrees

end Sys2Proof.Machine
end

section
/-! PROOFS. What an answer does to the lines and the keys: during the start-up check nothing (R186), after it an agreement
of lines and pool and the law of the Key Scanner stand. -/

namespace Sys2Proof.Machine

/-- The completion of an operation reads jobs, and no key (R145). -/
theorem State.completeOp_keys (op : OpRecord) (r : OpResult) (s : State) : s.keys.Same (s.completeOp op r).keys := by
  simp only [State.completeOp]
  refine KeyScanner.Same.trans ?_ ((Calm.refl _).eachLine _ fun n u => (Calm.refl u).resolveWaiting n).keys
  simpa [State.latchStore] using KeyScanner.Same.refl s.keys

/-- What a request that is carried out keeps: it is taken after the start-up check, which does not begin again. -/
inductive Answers (s : State) : State → Prop
  /-- Refused, reported, or an act on the source records. -/
  | notes {t : State} (h : OnlyNotes s t) : Answers s t
  | acts {t : State} (hs : s.store.st ≠ .checking) (ht : t.store.st ≠ .checking) (fit : s.Fit → t.Fit)
    (keys : s.keys.Sound → t.keys.Sound) : Answers s t

namespace Answers

variable {s t : State}

theorem refl (s : State) : Answers s s := .notes (.refl s)

theorem ans {r : Reply} (h : Answers s t) : Answers s (t, r).1 := h

theorem awake (h : s.checking = false) : s.store.st ≠ .checking := by simpa [State.checking] using h

/-- An act of a line or the engine. -/
theorem calm (h : s.checking = false) (k : Calm s t) (fit : s.Fit → t.Fit) : Answers s t :=
  .acts (awake h) (k.store ▸ awake h) fit fun hk => hk.same k.keys

/-- An act of the store. -/
theorem store (h : s.checking = false) (k : s.SameClaims t) (hkeys : t.keys = s.keys) (ht : t.store.st ≠ .checking) :
    Answers s t := .acts (awake h) ht (·.same k) (hkeys ▸ id)

/-- An act of the Key Scanner. -/
theorem keys (h : s.checking = false) (k : Stays s t) (fit : s.Fit → t.Fit) (hkeys : s.keys.Sound → t.keys.Sound) :
    Answers s t := .acts (awake h) (k.store ▸ awake h) fit hkeys

theorem checked (l : Bool) (fs : List Bool) (act : State → State × Reply)
    (h : s.checking = false → Answers s (act s).1) : Answers s (checked l fs act s).1 := by
  unfold Machine.checked
  split
  · exact refl s
  · split
    · exact refl s
    · split
      · exact refl s
      · next hc => exact h (by simpa using hc)

theorem numbered (n : Nat) (b : List Byte) (act : Fin n → State → State × Reply)
    (h : ∀ i, s.checking = false → Answers s (act i s).1) : Answers s (numbered n b act s).1 := by
  refine checked _ _ _ fun hc => ?_
  split
  · exact refl s
  · exact h _ hc

theorem bare (b : List Byte) (act : State → State × Reply) (h : s.checking = false → Answers s (act s).1) :
    Answers s (bare b act s).1 := checked _ _ _ h

theorem onNamedJob (b : List Byte) (act : Job → State → State × Reply)
    (h : ∀ j, s.job (byteAt b 0) = some j → s.checking = false → Answers s (act j s).1) :
    Answers s (onNamedJob b act s).1 := by
  refine checked _ _ _ fun hc => ?_
  split
  · exact refl s
  · next j hj => exact h j hj hc

/-- An operation begun: the lines and keys stand, the store is BUSY. -/
theorem startOp (h : s.checking = false) (kind : OpKind) (i : Option EntryNo) (x : OpTarget) :
    Answers s (s.startOp kind i x) :=
  store h ((State.SameClaims.refl s).onStore _) rfl (by cases x <;> simp [State.startOp, Store.onBlock])

theorem startEntryOp (h : s.checking = false) (kind : OpKind) (e : EntryNo) (p : PhysicalNo) (x : Entry) :
    Answers s (s.startEntryOp kind e p x) := by
  unfold State.startEntryOp
  exact startOp h _ _ _

theorem startFormat (h : s.checking = false) : Answers s s.startFormat := by
  unfold State.startFormat
  split
  · exact startOp h _ _ _
  · refine .acts (awake h) ?_ (·.same ((State.SameClaims.refl s).completeOp _ _)) fun hk => hk.same (s.completeOp_keys _ _)
    rw [State.completeOp_store]
    simp

/-- The engine reset of the scanner leaves every key MARKED or UP by its level (R169). -/
theorem engineReset (h : s.checking = false) : Answers s s.engineReset := by
  refine keys h (Calm.refl s).engineReset (fun hf => State.engineReset_fit hf) fun hk => ?_
  have hkeys : s.engineReset.keys = s.keys.engineReset := by
    rw [State.engineReset]
    simp [State.eventEngineReset, State.eachLine, State.onLine]
  rw [hkeys]
  refine .ofLevels rfl rfl fun k => ?_
  simp only [KeyScanner.engineReset, Bank.get_map]
  split
  · rfl
  · next hdeb => exact not_not.1 fun e => hdeb ((hk.levels k).2 e)

end Answers

/-- SEND DIGITS passes its checks on a CONNECTED line without a manual digit (R17). -/
theorem Line.sendRefusal_none {p : List Symbol} {l : Line} (h : l.sendRefusal p = none) :
    l.st = .connected ∧ l.manual.activity = .none := by
  unfold Line.sendRefusal at h
  split at h
  · cases h
  · next hst =>
    split at h
    · cases h
    · next hmanual => exact ⟨not_not.1 hst, not_not.1 hmanual⟩

/-- Records read leave the queue, and nothing else the law rests on changes (R160). -/
theorem KeyScanner.Sound.dropRecords {ks : KeyScanner} (h : ks.Sound) : KeyScanner.Sound { ks with queue := ks.queue.drop 8 } :=
  KeyScanner.Orderly.sound (h.orderly.congr (by have := h.queue; simp; omega) rfl fun _ => ⟨rfl, rfl⟩) h.jammed

/-- SET SCAN, carried out (R157, R167). -/
def State.setScan (ms : Nat) (a b c d : Bool) (s : State) : State :=
  (((((s.onKeys fun ks => { ks with debounceMs := ms }).relevel 0 a).relevel 1 b).relevel 2 c).relevel 3 d).expireKeys

theorem answerSetScan_eq (b : List Byte) (s : State) : answerSetScan b s = checked (b.length == 5)
    [inRange 10 50 (byteAt b 0), byteAt b 1 ≤ 1, byteAt b 2 ≤ 1, byteAt b 3 ≤ 1, byteAt b 4 ≤ 1]
    (fun s => (s.setScan (byteAt b 0) (byteAt b 1 == 1) (byteAt b 2 == 1) (byteAt b 3 == 1) (byteAt b 4 == 1), .ok [])) s :=
  rfl

theorem Answers.setScan {s : State} (hc : s.checking = false) (ms : Nat) (a b c d : Bool) :
    Answers s (s.setScan ms a b c d) := by
  have hstays : Stays s (((((s.onKeys fun ks => { ks with debounceMs := ms }).relevel 0 a).relevel 1 b).relevel 2
      c).relevel 3 d) := ((((Stays.refl s).onKeys _).relevel _ _).relevel _ _).relevel _ _ |>.relevel _ _
  refine .keys hc hstays.expireKeys (fun hf => ?_) fun hk => ?_
  · have hms := hf.same ((State.SameClaims.refl s).onKeys fun ks => { ks with debounceMs := ms })
    exact ((((hms.relevel 0 a).relevel 1 b).relevel 2 c).relevel 3 d).expireKeys
  · have hms : (s.onKeys fun ks => { ks with debounceMs := ms }).keys.Sound :=
      hk.same ⟨rfl, rfl, fun _ => ⟨rfl, rfl⟩⟩
    exact State.expireKeys_sound _ (State.relevel_sound _ _ _ (State.relevel_sound _ _ _ (State.relevel_sound _ _ _
      (State.relevel_sound _ _ _ hms)))) (hstays.store ▸ awake hc)

theorem answerWriteEntry_answers (b : List Byte) (s : State) : Answers s (answerWriteEntry b s).1 := by
  unfold answerWriteEntry
  split
  · exact .refl s
  · split
    · exact .refl s
    · split
      · exact .refl s
      · split
        · exact .refl s
        · next hc =>
          split
          · exact .refl s
          · split
            · split
              · exact .refl s
              · exact .ans (.startEntryOp (by simpa using hc) _ _ _ _)
            · exact .refl s

/-- What the answer to any request keeps. -/
theorem answerRequest_answers (f : Frame) (s : State) : Answers s (answerRequest f s).1 := by
  unfold answerRequest
  split
  · unfold answerIdentify; split <;> exact .refl s
  · exact .bare _ _ fun _ => .refl s
  · exact .checked _ _ _ fun _ => .refl s
  · exact .bare _ _ .engineReset
  · unfold answerEvents
    split
    · split
      · exact .refl s
      · exact .notes (s.clearSource_only _)
    · exact .refl s
  · refine .checked _ _ _ fun _ => ?_
    split
    · exact .refl s
    · exact .notes (s.setMask_only _ _)
  -- The lines.
  · refine .checked _ _ _ fun hc => ?_
    split
    · exact .refl s
    · next n _ => exact .calm hc ((Calm.refl s).onLine n _) fun hf => hf.same <|
        (State.SameClaims.refl s).onLine n _ fun l => by unfold Line.writeProfile; split <;> exact ⟨rfl, rfl, rfl, rfl⟩
  · exact .numbered _ _ _ fun _ _ => .refl s
  · refine .numbered _ _ _ fun n hc => ?_
    split
    · next hst =>
      exact .calm hc ((Calm.refl s).onLine n Line.enable) fun hf => hf.onHook (.inl hst) _ (.inr rfl) rfl rfl
    · exact .refl s
  · refine .numbered _ _ _ fun n hc => ?_
    split
    · next hidle =>
      exact .ans (.calm hc ((Calm.refl s).onLine n fun l => { l with st := .disabled }) fun hf =>
        hf.onHook (.inr hidle.1) _ (.inl rfl) rfl rfl)
    · exact .refl s
  · refine .numbered _ _ _ fun n hc => ?_
    split
    · exact .refl s
    · next u hu => exact .calm hc ((Calm.refl s).release n hu) fun hf => hf.release n hu
  · refine .numbered _ _ _ fun n hc => ?_
    split
    · next hst =>
      exact .calm hc ((((Calm.refl s).endManual n).onLine n _).reportPhase n _) fun hf => hf.hold hst
    · exact .refl s
  · refine .numbered _ _ _ fun n hc => ?_
    split
    · next hst =>
      exact .calm hc ((Calm.refl s).enterConnected n) fun hf => (hf.atRest (by simp [hst])).enterConnected
    · exact .refl s
  · refine .checked _ _ _ fun hc => ?_
    split
    · split
      · exact .refl s
      · next n p _ _ _ hsend =>
        refine .calm hc ((Calm.refl s).startSend n p) fun hf => ?_
        obtain ⟨hst, hmanual⟩ := Line.sendRefusal_none hsend
        exact hf.startSend hst hmanual p
    · exact .refl s
  -- The jobs.
  · refine .checked _ _ _ fun hc => ?_
    split
    · exact .refl s
    · split
      · exact .refl s
      · next hb =>
        exact .calm hc ((Calm.refl s).acceptJob _ hb) fun hf => hf.same ((State.SameClaims.refl s).acceptJob _)
  · refine .onNamedJob _ _ fun j hj hc => ?_
    split
    · exact .refl s
    · next hlive => exact .calm hc ((Calm.refl s).cancelJob hj hlive) fun hf => hf.cancelJob j
  · exact .onNamedJob _ _ fun _ _ _ => .refl s
  · refine .onNamedJob _ _ fun j hj hc => ?_
    split
    · next hfin =>
      exact .ans (.calm hc ((Calm.refl s).collect hj hfin) fun hf => hf.same ((State.SameClaims.refl s).onJobs _))
    · exact .refl s
  · refine .bare _ _ fun hc => ?_
    split
    · exact .refl s
    · exact .ans (.acts (Answers.awake hc) (Answers.awake hc) (·.same ((State.SameClaims.refl s).onJobs _)) id)
  · exact .bare _ _ fun _ => .refl s
  -- The cadence table.
  · refine .checked _ _ _ fun hc => ?_
    split
    · exact .calm hc ((Calm.refl s).writeSlot _ _) fun hf => hf.writeSlot _ _
    · exact .refl s
  · exact .numbered _ _ _ fun _ _ => .refl s
  · exact .numbered _ _ _ fun k hc => .calm hc ((Calm.refl s).writeSlot k none) fun hf => hf.writeSlot k none
  -- The store.
  · refine .numbered _ _ _ fun _ _ => ?_
    split <;> exact .refl s
  · exact answerWriteEntry_answers _ s
  · refine .numbered _ _ _ fun e hc => ?_
    split
    · exact .refl s
    · split
      · exact .refl s
      · split
        · exact .refl s
        · exact .ans (.startEntryOp hc _ _ _ _)
  · refine .bare _ _ fun hc => ?_
    split
    · exact .refl s
    · exact .startFormat hc
  · exact .bare _ _ fun _ => .refl s
  · refine .bare _ _ fun hc => ?_
    split
    · exact .refl s
    · exact .ans (.startOp hc _ _ _)
  · refine .bare _ _ fun hc => ?_
    split
    · exact .refl s
    · exact .ans (.startOp hc _ _ _)
  -- The keys.
  · refine .checked _ _ _ fun hc => ?_
    split
    · next k x _ _ =>
      exact .ans (.calm hc ((Calm.refl s).onKey k (fun key => { key with binding := x }) fun _ => ⟨rfl, rfl⟩) fun hf =>
        hf.same ((State.SameClaims.refl s).onKey k _))
    · exact .refl s
  · exact .numbered _ _ _ fun _ _ => .refl s
  · rw [answerSetScan_eq]
    exact .checked _ _ _ fun hc => .ans (.setScan hc _ _ _ _ _)
  · exact .bare _ _ fun hc => .ans (.keys hc ((Stays.refl s).onKeys _)
      (·.same ((State.SameClaims.refl s).onKeys _)) KeyScanner.Sound.dropRecords)
  · exact .refl s

end Sys2Proof.Machine
end

section
/-! PROOFS. What every command does, said once for the notices, the link, the claims and the keys: a run of the port, a
calm act, a key's transition, an act of the store, the end of the check, a reset, a start. -/

namespace Sys2Proof.Machine

/-! ### Runs of the port -/

/-- An act of the port that keeps the law of the notices. -/
structure PortStep (s t : State) : Prop where
  only : OnlyPort s t
  noted : s.Noted → t.Noted

/-- What the port does in a command: acts of its own, and requests taken one after the other (R184, R185). -/
inductive PortRun (s : State) : State → Prop
  | refl : PortRun s s
  | port {t u : State} (h : PortRun s t) (k : PortStep t u) : PortRun s u
  | answer {t : State} (h : PortRun s t) (f : Frame) : PortRun s (answerRequest f t).1

/-- An invariant that the port's acts and the answers keep stands after a run of the port. -/
theorem PortRun.keeps {Inv : State → Prop} (hport : ∀ s t, OnlyPort s t → Inv s → Inv t)
    (hanswer : ∀ f s, Inv s → Inv (answerRequest f s).1) {s t : State} (h : PortRun s t) (hs : Inv s) : Inv t := by
  induction h with
  | refl => exact hs
  | port _ k ih => exact hport _ _ k.only ih
  | answer _ f ih => exact hanswer f _ ih

theorem PortRun.noted {s t : State} (h : PortRun s t) (hs : s.Noted) : t.Noted := by
  induction h with
  | refl => exact hs
  | port _ k ih => exact k.noted ih
  | answer _ f ih => exact (answerRequest_evolves f _).noted ih

namespace PortStep

/-- The port changed in no notice of its outbound queue. -/
theorem onLink (f : LinkPort → LinkPort) (s : State) (hf : ∀ src, (f s.link).outbound.countP (OutRecord.isNoteOf src) =
    s.link.outbound.countP (OutRecord.isNoteOf src)) : PortStep s (s.onLink f) :=
  ⟨rfl, fun hs => hs.congr hf rfl rfl⟩

theorem linkError (e : LinkError) (s : State) : PortStep s (s.linkError e) := by
  refine ⟨s.linkError_onlyPort e, fun hs => ?_⟩
  exact State.Noted.latch (hs.congr (t := { s.onLink fun k => { k with rx := Receiver.hunting } with
    events := { s.events with lastLinkError := some e } }) (fun _ => rfl) rfl rfl) _ _

theorem pushReply (tag : Byte) (r : Reply) (s : State) : PortStep s (s.pushReply tag r) :=
  onLink _ s fun src => by simp [r.record_isNoteOf tag src]

/-- The head of the outbound queue leaves it (R188): fewer notices stand, none more. -/
theorem popHead {s : State} {r : OutRecord} {rest : List OutRecord} (h : s.link.outbound = r :: rest)
    (x : Transmitter) : PortStep s (s.onLink fun k => { k with outbound := rest, tx := x }) := by
  refine ⟨rfl, fun hs => ?_⟩
  have hle : ∀ src, rest.countP (OutRecord.isNoteOf src) ≤ s.link.outbound.countP (OutRecord.isNoteOf src) := by
    intro src
    rw [h, List.countP_cons]
    omega
  exact ⟨fun src => (hle src).trans (hs.oneNote src), fun src hsrc => hs.marked src (hsrc.trans (hle src)), hs.called,
    hs.attn⟩

/-- A break (R180, R189): an empty queue, and a notice for each source that calls for one. -/
theorem takeBreak (straps : BitVec 3) (s : State) : PortStep s (s.takeBreak straps) := by
  refine ⟨s.takeBreak_onlyPort straps, fun _ => ?_⟩
  unfold State.takeBreak State.eventBreak
  refine State.NotesKept.queueNotices (State.NotesKept.putSource ⟨fun _ => ?_, fun _ h => ?_, rfl⟩ _ _ rfl)
  · simp [LinkPort.atBreak, LinkPort.reset]
  · simp [LinkPort.atBreak, LinkPort.reset] at h

end PortStep

namespace PortRun

variable {s : State}

theorem step {t : State} (h : PortStep s t) : PortRun s t := .port .refl h

theorem trans {t u : State} (h : PortRun s t) (k : PortRun t u) : PortRun s u := by
  induction k with
  | refl => exact h
  | port _ e ih => exact ih.port e
  | answer _ f ih => exact ih.answer f

theorem drain (fuel : Nat) (s : State) : PortRun s (s.drain fuel) := by
  induction fuel generalizing s with
  | zero => exact .refl
  | succ fuel ih =>
    unfold State.drain
    split
    · exact .refl
    · split
      · exact (((step (.onLink _ s fun _ => rfl)).answer _).port (.pushReply _ _ _)).trans (ih _)
      · exact .refl

theorem goodFrame (f : Frame) (s : State) : PortRun s (s.goodFrame f) := by
  unfold State.goodFrame
  split
  · exact step (.linkError _ s)
  · exact (step (.onLink _ s fun _ => rfl)).trans (drain _ _)

theorem arrive (kind tag : Byte) (body : List Byte) (s : State) : PortRun s (s.arrive kind tag body) := by
  unfold State.arrive
  split
  · exact goodFrame _ s
  · exact .refl

theorem takeByte (b : Byte) (err : ByteError) (s : State) : PortRun s (s.takeByte b err) := by
  unfold State.takeByte
  split
  · exact step (.onLink _ s fun _ => rfl)
  · unfold State.judge
    split
    · exact step (.linkError _ s)
    · split
      · exact step (.linkError _ s)
      · dsimp only
        split
        · exact step (.onLink _ s fun _ => rfl)
        · exact (step (.onLink _ s fun _ => rfl)).trans (goodFrame _ _)
  · exact step (.linkError _ s)

theorem beginFrame (s : State) : PortRun s s.beginFrame := by
  unfold State.beginFrame
  split
  · exact .refl
  · next r rest h =>
    dsimp only
    split
    · exact (step (.popHead h _)).trans (drain _ _)
    · exact step (.popHead h _)

end PortRun

/-! ### The limits of the link (R184, R185) -/

theorem LinkPort.Bounded.congr {a b : LinkPort} (h : a.Bounded) (hr : b.replies = a.replies)
    (hi : b.inbound = a.inbound) : b.Bounded :=
  ⟨hr ▸ h.replies, hi ▸ h.inbound, fun e => hr ▸ h.waits (hi ▸ e)⟩

theorem State.linkError_bounded (e : LinkError) {s : State} (h : s.link.Bounded) : (s.linkError e).link.Bounded :=
  h.congr (by simp only [State.linkError, State.latch_replies]; rfl) (by simp [State.linkError])

theorem State.goodFrame_bounded (f : Frame) {s : State} (h : s.link.Bounded) : (s.goodFrame f).link.Bounded := by
  unfold State.goodFrame
  split
  · exact State.linkError_bounded _ h
  · refine State.drain_bounded 2 _ h.replies ?_ ?_ <;> simp <;> omega

theorem State.arrive_bounded (kind tag : Byte) (body : List Byte) {s : State} (h : s.link.Bounded) :
    (s.arrive kind tag body).link.Bounded := by
  unfold State.arrive
  split
  · exact State.goodFrame_bounded _ h
  · exact h

theorem State.takeByte_bounded (b : Byte) (err : ByteError) {s : State} (h : s.link.Bounded) :
    (s.takeByte b err).link.Bounded := by
  unfold State.takeByte
  split
  · exact h.congr rfl rfl
  · unfold State.judge
    split
    · exact State.linkError_bounded _ h
    · split
      · exact State.linkError_bounded _ h
      · dsimp only
        have hunting : (s.onLink fun k => { k with rx := Receiver.hunting }).link.Bounded := h.congr rfl rfl
        split
        · exact hunting
        · exact State.goodFrame_bounded _ hunting
  · exact State.linkError_bounded _ h

/-- A reply that leaves the queue makes room, and the frames that wait are taken (R185). -/
theorem State.beginFrame_bounded {s : State} (h : s.link.Bounded) : s.beginFrame.link.Bounded := by
  unfold State.beginFrame
  split
  · exact h
  · next r rest hout =>
    dsimp only
    have hreplies := h.replies
    have hcount : s.link.replies = rest.countP OutRecord.isReply + if r.isReply = true then 1 else 0 := by
      rw [LinkPort.replies, hout, List.countP_cons]
    split
    · refine State.drain_bounded 2 _ ?_ h.inbound h.inbound
      simp only [State.onLink_link, LinkPort.replies] at *
      omega
    · next hnote => exact h.congr (by simp [LinkPort.replies, hout, hnote]) rfl

theorem State.eventBreak_only (s : State) : OnlyNotes s s.eventBreak :=
  (State.putSources_only _ _).trans ((State.putSource_only _ _ _).trans (State.queueNotices_only _))

theorem State.takeBreak_bounded (straps : BitVec 3) (s : State) : (s.takeBreak straps).link.Bounded := by
  have hempty : (LinkPort.atBreak straps (s.now - Config.breakMs)).Bounded :=
    ⟨by simp [LinkPort.atBreak, LinkPort.reset, LinkPort.replies], by simp [LinkPort.atBreak, LinkPort.reset],
      fun e => absurd rfl e⟩
  unfold State.takeBreak
  generalize hu : ({ s with
    pins := { s.pins with straps := straps }, link := LinkPort.atBreak straps (s.now - Config.breakMs) } : State) = u
  have hlink : u.link.Bounded := by rw [← hu]; exact hempty
  exact hlink.congr (State.eventBreak_only u).replies (State.eventBreak_only u).inbound

theorem Moves.bounded {s t : State} (h : Moves s t) (hs : s.link.Bounded) : t.link.Bounded :=
  hs.congr h.replies h.inbound

end Sys2Proof.Machine
end

section
/-! PROOFS. The acts of the store leave lines and keys as they stand; every command's deed; and the laws of notices, link,
claims and keys. -/

namespace Sys2Proof.Machine

/-! ### Acts of the store -/

/-- Lines, pool and keys stand; the store's state stands or, where an operation may complete, is READY. -/
structure Aside (completes : Bool) (s t : State) : Prop where
  claims : s.SameClaims t
  keys : s.keys.Same t.keys
  st : t.store.st = s.store.st ∨ (completes = true ∧ t.store.st = .ready)

namespace Aside

variable {x : Bool} {s t : State}

theorem refl (x : Bool) (s : State) : Aside x s s := ⟨.refl s, .refl _, .inl rfl⟩

theorem onStore (h : Aside x s t) (f : Store → Store) (hf : (f t.store).st = t.store.st) : Aside x s (t.onStore f) :=
  ⟨h.claims.onStore f, h.keys, by simpa [hf] using h.st⟩

theorem draw (h : Aside x s t) (f : Nat → Bool) : Aside x s (t.draw f).2 := ⟨h.claims.draw f, h.keys, h.st⟩

theorem latchStore (h : Aside x s t) (f : Flag) : Aside x s (t.latchStore f) :=
  ⟨h.claims.latchStore f, by simpa [State.latchStore] using h.keys, by simpa [State.latchStore] using h.st⟩

theorem completeOp (h : Aside true s t) (op : OpRecord) (r : OpResult) : Aside true s (t.completeOp op r) :=
  ⟨h.claims.completeOp op r, h.keys.trans (t.completeOp_keys op r), .inr ⟨rfl, by rw [State.completeOp_store]⟩⟩

theorem formatFrom (h : Aside true s t) (op : OpRecord) (k : Nat) : Aside true s (t.formatFrom op k) := by
  unfold State.formatFrom
  split
  · exact h.completeOp _ _
  · exact h.onStore _ rfl

theorem blockDone (h : Aside true s t) (op : OpRecord) (b : LogicalNo) : Aside true s (t.blockDone op b) := by
  unfold State.blockDone
  split
  · exact h.formatFrom _ _
  · exact h.completeOp _ _

theorem blockWorn (h : Aside true s t) (op : OpRecord) (b : LogicalNo) : Aside true s (t.blockWorn op b) := by
  unfold State.blockWorn
  split
  · exact h.formatFrom _ _
  · exact h.completeOp _ _

theorem settingsDone (h : Aside true s t) (op : OpRecord) (m : Medium) (c : Condition) (r : OpResult) :
    Aside true s (t.settingsDone op m c r) := (h.onStore _ rfl).completeOp op r

theorem retireBlock (h : Aside x s t) (p : PhysicalNo) : Aside x s (t.retireBlock p) := (h.onStore _ rfl).latchStore _

theorem opEraseEnd (op : OpRecord) (s : State) : Aside true s (s.opEraseEnd op) := by
  unfold State.opEraseEnd
  split
  · exact (refl _ s).onStore _ rfl
  · exact (refl _ s).onStore _ rfl
  · exact ((refl _ s).draw Config.eraseTook).onStore _ rfl

theorem opProgramEnd (op : OpRecord) (s : State) : Aside true s (s.opProgramEnd op) := by
  unfold State.opProgramEnd
  refine ((refl _ s).draw Config.programTook).onStore _ ?_
  dsimp only
  split <;> rfl

theorem opVerifyPass (op : OpRecord) (s : State) : Aside true s (s.opVerifyPass op) := by
  unfold State.opVerifyPass
  split
  · exact ((refl _ s).onStore _ rfl).blockDone _ _
  · exact (refl _ s).settingsDone _ _ _ _
  · exact (refl _ s).settingsDone _ _ _ _

theorem opVerifyFail (op : OpRecord) (s : State) : Aside true s (s.opVerifyFail op) := by
  unfold State.opVerifyFail
  split
  · dsimp only
    split
    · exact ((refl _ s).retireBlock _).onStore _ rfl
    · exact (((refl _ s).retireBlock _).onStore _ rfl).blockWorn _ _
  · exact (refl _ s).settingsDone _ _ _ _

theorem rewriteOnSpare (h : Aside x s t) (b : LogicalNo) : Aside x s (t.rewriteOnSpare b) := by
  unfold State.rewriteOnSpare
  split
  · exact (h.onStore _ rfl).onStore _ rfl
  · exact (h.onStore _ rfl).onStore _ rfl

theorem checkBlock (b : LogicalNo) (s : State) : Aside false s (s.checkBlock b) := by
  unfold State.checkBlock
  split
  · split
    · exact (refl _ s).onStore _ rfl
    · exact ((((refl _ s).onStore _ rfl).onStore _ rfl).onStore _ rfl).latchStore _
  · split
    · exact (refl _ s).onStore _ rfl
    · exact (((refl _ s).rewriteOnSpare b).onStore _ rfl).latchStore _

theorem rewriteProgramEnd (r : Rewrite) (s : State) : Aside false s (s.rewriteProgramEnd r) := by
  unfold State.rewriteProgramEnd State.rewriteAt
  exact (((refl _ s).draw Config.programTook).onStore _ rfl).onStore _ rfl

theorem rewriteVerifyPass (r : Rewrite) (s : State) : Aside false s (s.rewriteVerifyPass r) := by
  unfold State.rewriteVerifyPass State.checkAt
  exact ((refl _ s).onStore _ rfl).onStore _ rfl

theorem rewriteVerifyFail (r : Rewrite) (s : State) : Aside false s (s.rewriteVerifyFail r) :=
  ((refl _ s).retireBlock _).rewriteOnSpare _

end Aside

/-- An act of the store in a command: the store had work in hand or its check goes on, and CHECKING stands or does not
stand as before. -/
structure Stocks (s t : State) : Prop where
  evolves : Evolves s t
  claims : s.SameClaims t
  keys : s.keys.Same t.keys
  checking : s.store.Sound → (t.store.st = .checking ↔ s.store.st = .checking)
  begun : s.store.op.isSome = true ∨ s.store.check.isSome = true

/-- An end of a phase of the operation in flight. -/
theorem Stocks.ofOp {s t : State} {op : OpRecord} (ho : s.store.op = some op) (e : Evolves s t) (h : Aside true s t) :
    Stocks s t := by
  refine ⟨e, h.claims, h.keys, fun hs => ?_, .inl (by simp [ho])⟩
  have hbusy : s.store.st = .busy := hs.busyIff.2 (by simp [ho])
  rcases h.st with hst | ⟨-, hst⟩ <;> simp [hst, hbusy]

/-- A step of the start-up check. -/
theorem Stocks.ofCheck {s t : State} (hc : s.store.check.isSome = true) (e : Evolves s t) (h : Aside false s t) :
    Stocks s t := ⟨e, h.claims, h.keys, fun _ => by have := h.st; simp at this; rw [this], .inr hc⟩

theorem Store.check_of_rewriteNow {st : Store} {r : Rewrite} (h : st.rewriteNow = some r) : st.check.isSome = true := by
  obtain ⟨k, hk⟩ := Evolves.rewriteSome h
  simp [hk]

/-- A held part has no work in hand (R193). -/
theorem Stocks.started {s t : State} (h : Stocks s t) (hs : s.Waits) : s.held = false := by
  by_contra hheld
  obtain ⟨hst, hcheck⟩ := hs.held (by simpa using hheld)
  obtain hop | hc := h.begun
  · simpa [hst] using hs.store.busyIff.2 hop
  · simp [hcheck] at hc

/-! ### What a command does -/

/-- What a command makes of a state, as the notices, the link, the claims and the keys need it. -/
inductive Deed (s : State) : State → Prop
  | port {t : State} (h : PortRun s t) (hlink : s.link.Bounded → t.link.Bounded) : Deed s t
  /-- An act of a line, a classifier or the engine. -/
  | calm {t : State} (h : Calm s t) (hagrees : ∀ c, s.Agrees c → t.Agrees c) : Deed s t
  | key (k : KeyNo) (d : Nat) : Deed s ((s.advanceTo d).debouncedChange k)
  | stocks {t : State} (h : Stocks s t) : Deed s t
  | endCheck (h : s.store.nextCheck = some 32) : Deed s s.endCheck
  | powerOn (cause : ResetCause) (straps : BitVec 3) : Deed s (s.toPowerOn cause straps)
  | start (h : s.held = true) (straps : BitVec 3) : Deed s (s.start straps)

namespace Deed

variable {s t : State}

theorem ofStep (h : PortStep s t) (hlink : s.link.Bounded → t.link.Bounded) : Deed s t := .port (.step h) hlink

theorem refl (s : State) : Deed s s := .calm (.refl s) fun _ => id

/-- An act that touches no claim. -/
theorem same (h : Calm s t) (k : s.SameClaims t) : Deed s t := .calm h fun _ hs => hs.same k

/-- The expiry of a timer that runs in a line state other than DISABLED. -/
theorem expiresIn (n : LineNo) (due : Line → Option Nat) (act : State → State) (hcalm : ∀ u, Calm u (act u))
    (hst : ∀ l : Line, l.Shaped → (due l).isSome = true → l.st ≠ .disabled)
    (hact : ∀ u, u.Fit → (due (u.line n)).isSome = true → (act u).Fit) : Deed s (s.onDue (due (s.line n)) act) :=
  .calm ((Calm.refl s).onDue _ _ hcalm) fun _ hs => hs.expiresIn n due act hst hact

/-- The expiry of a measurement of an input or of supervision. -/
theorem expires (n : LineNo) (due : Line → Option Nat) (act : State → State) (hcalm : ∀ u, Calm u (act u))
    (hact : ∀ c u, State.Agrees c u → (act u).Agrees c) : Deed s (s.onDue (due (s.line n)) act) :=
  .calm ((Calm.refl s).onDue _ _ hcalm) fun c hs => hs.expires n due act fun u hu _ => hact c u hu

end Deed

end Sys2Proof.Machine
end

section
/-! PROOFS. Every command's deed, and the laws of the notices, the link, the claims and the keys that follow (R54 to R56,
R158 to R162, R173 to R177, R184, R185). -/

namespace Sys2Proof.Machine

/-- Every command does a deed of its kind. -/
theorem exec_deed (c : Instr) (s : State) : ∃ t, exec c s = .next t ∧ Deed s t := by
  cases c with
  | powerOn straps => exact ⟨_, rfl, .powerOn _ straps⟩
  | pinReset => exact ⟨_, rfl, .powerOn _ _⟩
  | partStart straps =>
    refine ⟨_, rfl, ?_⟩
    split
    · next h => exact .start h straps
    · exact .refl s
  | startUpBlockCheck =>
    refine ⟨_, rfl, ?_⟩
    split
    · exact .refl s
    · next b hb =>
      have hc := Store.check_of_nextCheck_bind hb
      exact .stocks (.ofCheck hc ((Evolves.refl s).checkBlock hc b) (.checkBlock b s))
  | startupCheckEnd =>
    refine ⟨_, rfl, ?_⟩
    split
    · next hn => exact .endCheck hn
    · exact .refl s
  -- The requests (R185).
  | identify | status | setLink | resetEngine | events | setMask | setProfile | readProfile | enableLine | disableLine
  | releaseLine | hold | unhold | sendDigits | submitJob | cancelJob | queryJob | collectJob | collectOldest | listJobs
  | loadCadence | readCadence | clearCadence | readEntry | writeEntry | eraseEntry | formatStore | storeStatus
  | saveSettings | clearSettings | bindKey | readBinding | setScan | readKeys | unknownKind =>
    exact ⟨_, rfl, .port (.arrive _ _ _ s) (State.arrive_bounded _ _ _)⟩
  -- The port.
  | receiveByte b err =>
    refine ⟨_, rfl, ?_⟩
    split
    · exact .port (.takeByte b err s) (State.takeByte_bounded b err)
    · exact .refl s
  | interByteGapTimerExpiry =>
    refine ⟨_, rfl, ?_⟩
    unfold State.onDue
    split
    · exact .refl s
    · next d _ =>
      have hstep := PortStep.linkError .timeout (s.advanceTo d)
      exact .ofStep ⟨OnlyPort.trans (by rfl) hstep.only, fun hs => hstep.noted (hs.congr (fun _ => rfl) rfl rfl)⟩
        fun hs => State.linkError_bounded _ hs
  | linkBreak straps =>
    refine ⟨_, rfl, ?_⟩
    split
    · exact .ofStep (.takeBreak straps s) fun _ => s.takeBreak_bounded straps
    · exact .refl s
  | breakEnd => exact ⟨_, rfl, .ofStep (.onLink _ s fun _ => rfl) fun hs => hs.congr rfl rfl⟩
  | lholdChange active => exact ⟨_, rfl, .ofStep ⟨rfl, fun hs => hs.congr (fun _ => rfl) rfl rfl⟩ id⟩
  | frameBegin =>
    refine ⟨_, rfl, ?_⟩
    split
    · exact .port (.beginFrame s) State.beginFrame_bounded
    · exact .refl s
  | frameEnd =>
    refine ⟨_, rfl, ?_⟩
    split
    · exact .refl s
    · exact .ofStep (.onLink _ s fun _ => rfl) fun hs => hs.congr rfl rfl
  -- The inputs of the lines.
  | lineInputChange n input level =>
    exact ⟨_, rfl, .calm ((Calm.refl s).setPin n _ fun l => by cases input <;> exact ⟨rfl, rfl⟩) fun _ hs =>
      hs.setPin n _ fun l => by cases input <;> exact ⟨rfl, rfl, rfl, rfl⟩⟩
  | ringPinChange n level =>
    exact ⟨_, rfl, .calm ((Calm.refl s).setPin n _ fun _ => ⟨rfl, rfl⟩) fun _ hs =>
      hs.setPin n _ fun _ => ⟨rfl, rfl, rfl, rfl⟩⟩
  | cptPinChange n level =>
    exact ⟨_, rfl, .calm ((Calm.refl s).setPin n _ fun _ => ⟨rfl, rfl⟩) fun _ hs =>
      hs.setPin n _ fun _ => ⟨rfl, rfl, rfl, rfl⟩⟩
  | loopChange n =>
    exact ⟨_, rfl, .expires n (fun l => l.loop.since.map (· + Config.lineDebounceMs)) _
      (fun u => (Calm.refl u).takeLoop n) fun _ _ hu => hu.takeLoop n⟩
  | revChange n =>
    exact ⟨_, rfl, .expires n (fun l => l.rev.since.map (· + Config.lineDebounceMs)) _
      (fun u => (Calm.refl u).takeRev n) fun _ _ hu => hu.takeRev n⟩
  | ringBurstStart n =>
    exact ⟨_, rfl, .expires n (·.ring.startDue) _ (fun u => (Calm.refl u).ringBurst n) fun _ u hu =>
      hu.same (((State.SameClaims.refl u).onLine n (fun l => { l with ring := l.ring.startBurst u.now })
        fun _ => ⟨rfl, rfl, rfl, rfl⟩).latchLine n .ring)⟩
  | ringBurstEnd n =>
    exact ⟨_, rfl, .expires n (·.ring.gapDue) _ (fun u => (Calm.refl u).onLine n _) fun _ u hu =>
      hu.same ((State.SameClaims.refl u).onLine n _ fun _ => ⟨rfl, rfl, rfl, rfl⟩)⟩
  | glareWindowExpiry n =>
    exact ⟨_, rfl, .expires n (·.ring.glareDue) _ (fun u => (Calm.refl u).onLine n _) fun _ u hu =>
      hu.same ((State.SameClaims.refl u).onLine n _ fun _ => ⟨rfl, rfl, rfl, rfl⟩)⟩
  -- The classifiers.
  | filteredLevelChange n =>
    refine ⟨_, rfl, ?_⟩
    split
    · exact .refl s
    · exact .calm ((Calm.refl s).filteredChange n _) fun _ hs => hs.filteredChange n _
  | steadyConfirmation n =>
    refine ⟨_, rfl, ?_⟩
    split
    · exact .refl s
    · exact .calm (((Calm.refl s).advance _).confirmSteady n _) fun _ hs =>
        (hs.same ((State.SameClaims.refl s).advance _)).confirmSteady n _
  | gapWatchExpiry n =>
    refine ⟨_, rfl, ?_⟩
    split
    · exact .refl s
    · split
      · next hg => exact .calm (((Calm.refl s).advance _).answer n _) fun _ hs => hs.gapAnswer hg _ _
      · exact .refl s
  -- The engine.
  | attemptStart n =>
    refine ⟨_, rfl, ?_⟩
    split
    · exact .refl s
    · next j hj =>
      have hidle : (s.line n).st = .idle := by
        by_contra hst
        simp [State.offer, hst] at hj
      exact .calm ((Calm.refl s).takeStart n j) fun _ hs => hs.ofFit (n := n) (by simp [hidle]) (hs.fit.takeStart hidle j)
  | retryDelayExpiry n =>
    refine ⟨_, rfl, ?_⟩
    unfold State.onDue
    split
    · exact .refl s
    · exact .same (((Calm.refl s).advance _).setRetry n _) (((State.SameClaims.refl s).advance _).setRetry n _)
  | jobStart n =>
    refine ⟨_, rfl, ?_⟩
    split
    · exact .same ((Calm.refl s).startHead n) ((State.SameClaims.refl s).startHead n)
    · exact .refl s
  -- The timers of the lines.
  | seizeTimerExpiry n =>
    exact ⟨_, rfl, .expiresIn n (·.timers.seize) _ (fun u => (Calm.refl u).failAttempt n _)
      (fun l hl hd => by simp [(hl.seize hd).1]) fun u hu _ => hu.failAttempt n _⟩
  | noAnswerTimerExpiry n =>
    exact ⟨_, rfl, .expiresIn n (·.timers.noAnswer) _ (fun u => (Calm.refl u).failAttempt n _)
      (fun l hl hd => by simp [hl.noAnswer hd]) fun u hu _ => hu.failAttempt n _⟩
  | postSeizeTimerExpiry n =>
    exact ⟨_, rfl, .expiresIn n (·.timers.postSeize) _ (fun u => ((Calm.refl u).onLine n _).enterDialing n)
      (fun l hl hd => by simp [hl.postSeize hd]) fun u hu hd => hu.postSeizeEnds ((hu.shaped n).postSeize hd) hd⟩
  | dialToneTimerExpiry n =>
    exact ⟨_, rfl, .expiresIn n (·.timers.dialTone) _ (fun u => (Calm.refl u).dialtoneExpired n)
      (fun l hl hd => by rcases hl.dialTone hd with e | ⟨e, -⟩ <;> simp [e])
      fun u hu hd => hu.dialtoneExpired ((hu.shaped n).dialTone hd)⟩
  | disconnectTimerExpiry n =>
    exact ⟨_, rfl, .expires n (·.timers.disconnect) _ (fun u => ((Calm.refl u).onLine n _).loopLost n) fun _ _ hu =>
      (hu.keepLine n _ rfl rfl rfl rfl).loopLost n⟩
  | makeTimerExpiry n =>
    exact ⟨_, rfl, .expires n (·.timers.make) _ (fun u => ((Calm.refl u).onLine n _).loopLost n) fun _ _ hu =>
      (hu.keepLine n _ rfl rfl rfl rfl).loopLost n⟩
  | guardTimerExpiry n =>
    exact ⟨_, rfl, .expiresIn n (·.timers.guard) _ (fun u => (Calm.refl u).onLine n _)
      (fun l hl hd => by simp [hl.guard hd]) fun u hu hd => hu.guardEnds ((hu.shaped n).guard hd)⟩
  | breakTimerExpiry n =>
    exact ⟨_, rfl, .expiresIn n (·.timers.breakT) _ (fun u => (Calm.refl u).onLine n _)
      (fun l hl hd => by simp [(hl.breakT hd).1]) fun u hu hd =>
        hu.pulseMake ((hu.shaped n).breakT hd).1 ((hu.shaped n).breakT hd).2 _⟩
  | makePeriodTimerExpiry n =>
    exact ⟨_, rfl, .expiresIn n (·.timers.makePeriod) _ (fun u => (Calm.refl u).makePeriodEnds n)
      (fun l hl hd => by simp [(hl.makePeriod hd).1]) fun u hu hd =>
        hu.makePeriodEnds ((hu.shaped n).makePeriod hd).1 ((hu.shaped n).makePeriod hd).2⟩
  | interdigitTimerExpiry n =>
    refine ⟨_, rfl, .expiresIn n (·.timers.interdigit) _ (fun u => ((Calm.refl u).onLine n _).endSymbol n)
      (fun l hl hd => by simp [(hl.interdigit hd).1]) fun u hu hd => ?_⟩
    obtain ⟨hst, hsub⟩ := (hu.shaped n).interdigit hd
    exact (hu.symbolEnds hst (by simp [Line.want, hst, hsub]) _ rfl hst (by rw [hsub]; rfl)).1
  | toneTimerExpiry n =>
    exact ⟨_, rfl, .expiresIn n (·.timers.tone) _ (fun u => (Calm.refl u).toneEnds n)
      (fun l hl hd => by simp [(hl.tone hd).1]) fun u hu hd =>
        hu.toneEnds ((hu.shaped n).tone hd).1 ((hu.shaped n).tone hd).2⟩
  | toneGapTimerExpiry n =>
    refine ⟨_, rfl, .expiresIn n (·.timers.toneGap) _ (fun u => ((Calm.refl u).onLine n _).endSymbol n)
      (fun l hl hd => by simp [(hl.toneGap hd).1]) fun u hu hd => ?_⟩
    obtain ⟨hst, hsub⟩ := (hu.shaped n).toneGap hd
    exact (hu.symbolEnds hst (by simp [Line.want, hst, hsub]) _ rfl hst (by rw [hsub]; rfl)).1
  | pauseTimerExpiry n =>
    refine ⟨_, rfl, .expiresIn n (·.timers.pause) _
      (fun u => (((Calm.refl u).onLine n _).countSymbol n).endSymbol n)
      (fun l hl hd => by simp [(hl.pause hd).1]) fun u hu hd => ?_⟩
    obtain ⟨hst, hsub⟩ := (hu.shaped n).pause hd
    exact (hu.symbolEnds hst (by simp [Line.want, hst, hsub]) _ rfl hst (by rw [hsub]; rfl)).2
  | flashTimerExpiry n =>
    refine ⟨_, rfl, .expiresIn n (·.timers.flash) _
      (fun u => (((Calm.refl u).onLine n _).countSymbol n).endSymbol n)
      (fun l hl hd => by simp [(hl.flash hd).1]) fun u hu hd => ?_⟩
    obtain ⟨hst, hsub⟩ := (hu.shaped n).flash hd
    refine (hu.symbolEnds hst (by simp [Line.want, hst, hsub]) (Line.flashEnds u.now) ?_ ?_ ?_).2 <;>
      simp [Line.flashEnds, Line.makeEnds, Line.inSub, apply_ite, hst, hsub, SubPhase.clear]
  | minimumToneTimerExpiry n =>
    exact ⟨_, rfl, .expiresIn n (·.timers.minTone) _ (fun u => (Calm.refl u).minimumElapsed n)
      (fun l hl hd => by simp [(hl.minTone hd).1]) fun u hu hd => hu.minimumElapsed ((hu.shaped n).minTone hd).1⟩
  -- The keys.
  | keyRawChange k level =>
    refine ⟨_, rfl, ?_⟩
    split
    · exact .refl s
    · split
      · exact .same ((Calm.refl s).onKey k _ fun _ => ⟨rfl, rfl⟩) ((State.SameClaims.refl s).onKey k _)
      · exact .same ((Calm.refl s).onKey k _ fun _ => ⟨rfl, rfl⟩) ((State.SameClaims.refl s).onKey k _)
  | keyTransition k =>
    refine ⟨_, rfl, ?_⟩
    unfold State.onDue
    split
    · exact .refl s
    · exact .key k _
  -- The ends of the store's phases.
  | storeEraseEnd =>
    refine ⟨_, rfl, ?_⟩
    split
    · exact .refl s
    · next o h => exact .stocks (.ofOp (Store.workIn_op h).1 ((Evolves.refl s).opEraseEnd (Store.workIn_op h).1) (.opEraseEnd o s))
    · next r h =>
      have hr := (Store.workIn_rewrite h).1
      exact .stocks (.ofCheck (Store.check_of_rewriteNow hr) ((Evolves.refl s).rewriteEraseEnd hr)
        ((Aside.refl _ s).onStore _ rfl))
  | storeProgramEnd =>
    refine ⟨_, rfl, ?_⟩
    split
    · exact .refl s
    · next o h => exact .stocks (.ofOp (Store.workIn_op h).1 ((Evolves.refl s).opProgramEnd (Store.workIn_op h).1) (.opProgramEnd o s))
    · next r h =>
      have hr := (Store.workIn_rewrite h).1
      exact .stocks (.ofCheck (Store.check_of_rewriteNow hr) ((Evolves.refl s).rewriteProgramEnd hr) (.rewriteProgramEnd r s))
  | storeVerifyPass =>
    refine ⟨_, rfl, ?_⟩
    split
    · exact .refl s
    · next o h => exact .stocks (.ofOp (Store.workIn_op h).1 ((Evolves.refl s).opVerifyPass (Store.workIn_op h).1) (.opVerifyPass o s))
    · next r h =>
      have hr := (Store.workIn_rewrite h).1
      exact .stocks (.ofCheck (Store.check_of_rewriteNow hr) ((Evolves.refl s).rewriteVerifyPass hr) (.rewriteVerifyPass r s))
  | storeVerifyFail =>
    refine ⟨_, rfl, ?_⟩
    split
    · exact .refl s
    · next o h => exact .stocks (.ofOp (Store.workIn_op h).1 ((Evolves.refl s).opVerifyFail (Store.workIn_op h).1) (.opVerifyFail o s))
    · next r h =>
      have hr := (Store.workIn_rewrite h).1
      exact .stocks (.ofCheck (Store.check_of_rewriteNow hr) ((Evolves.refl s).rewriteVerifyFail hr) (.rewriteVerifyFail r s))

/-- Every step is a deed, done on the state less the command it takes. -/
theorem deed_of_steps {s t : State} (h : Steps s t) : ∃ rest, Deed { s with pending := rest } t := by
  have hexec : ∀ {c : Instr} {u : State}, exec c u = .next t → Deed u t := by
    intro c u hc
    obtain ⟨v, hv, hdeed⟩ := exec_deed c u
    rw [hv] at hc
    cases hc
    exact hdeed
  unfold Steps step at h
  split at h
  · refine ⟨s.pending, ?_⟩
    obtain rfl | rfl | rfl | ⟨c, hc⟩ := State.idle_cases h
    · exact .refl _
    · refine .same (Calm.refl s).takeHandovers ?_
      unfold State.takeHandovers
      split
      · exact .refl s
      · exact ((State.SameClaims.refl s).onKeys _).takeHandover _
    · exact .ofStep ⟨rfl, fun hs => hs.congr (fun _ => rfl) rfl rfl⟩ id
    · exact hexec hc
  · next rest _ => exact ⟨rest, hexec h⟩

/-- An invariant that the queue does not enter and every deed keeps is kept by every step. -/
theorem kept_of_deed {Inv : State → Prop} (hqueue : ∀ s rest, Inv s → Inv { s with pending := rest })
    (hdeed : ∀ s t, Inv s → Deed s t → Inv t) : Kept Inv := by
  intro s t hs h
  obtain ⟨rest, hd⟩ := deed_of_steps h
  exact hdeed _ t (hqueue s rest hs) hd

end Sys2Proof.Machine
end

section
/-! PROOFS. The laws of the notices and the link, of the claims and of the keys. -/

namespace Sys2Proof.Machine

/-! ### The notices and the link (R173 to R177, R184, R185) -/

/-- No flag is in an empty mask: an Event Unit after a reset owes no notice and keeps ATTN low (R170, R177). -/
theorem EventUnit.reset_quiet (cause : ResetCause) : (∀ src, ((EventUnit.reset cause).sources.get src).calls = false) ∧
    (EventUnit.reset cause).attn = attnLevel (EventUnit.reset cause).sources :=
  ⟨fun src => by simp only [EventUnit.reset, Bank.get_set, Bank.get_fill]; split <;> rfl, rfl⟩

theorem State.noted_of_reset {s : State} {cause : ResetCause} (he : s.events = EventUnit.reset cause)
    (ho : s.link.outbound = []) : s.Noted := by
  obtain ⟨hcalls, hattn⟩ := EventUnit.reset_quiet cause
  exact ⟨fun _ => by simp [ho], fun _ h => by simp [ho] at h, fun src => by rw [State.source, he, hcalls],
    by rw [he, hattn]⟩

theorem LinkPort.reset_bounded (straps : BitVec 3) : (LinkPort.reset straps).Bounded :=
  ⟨Nat.zero_le _, Nat.zero_le _, fun h => absurd rfl h⟩

theorem Deed.noted {s t : State} (h : Deed s t) (hs : s.Noted) : t.Noted := by
  cases h with
  | port h _ => exact h.noted hs
  | calm h _ => exact h.noted hs
  | key k d => exact (((Stays.refl s).calm ((Calm.refl s).advance d)).debouncedChange k).noted hs
  | stocks h => exact h.evolves.noted hs
  | endCheck h => exact ((Evolves.refl s).endCheck (Store.check_of_nextCheck h)).noted hs
  | powerOn cause => exact State.noted_of_reset (cause := cause) rfl rfl
  | start => exact hs.congr (fun _ => rfl) rfl rfl

theorem Deed.bounded {s t : State} (h : Deed s t) (hs : s.link.Bounded) : t.link.Bounded := by
  cases h with
  | port _ hlink => exact hlink hs
  | calm h _ => exact h.bounded hs
  | key k d => exact (((Stays.refl s).calm ((Calm.refl s).advance d)).debouncedChange k).bounded hs
  | stocks h => exact h.evolves.bounded hs
  | endCheck h => exact ((Evolves.refl s).endCheck (Store.check_of_nextCheck h)).bounded hs
  | powerOn => exact LinkPort.reset_bounded _
  | start => exact hs.congr rfl rfl

/-- Settles O59: each act of the port and each operation inside a command keeps the law of the notices, and a frame is
taken only where it finds room behind fewer than three replies. -/
theorem notesAndLinkKept : Obligations.NotesAndLinkKept :=
  ⟨kept_of_deed (fun _ _ hs => hs.congr (fun _ => rfl) rfl rfl) fun _ _ hs h => h.noted hs,
    kept_of_deed (fun _ _ hs => hs) fun _ _ hs h => h.bounded hs⟩

/-! ### The part held (R193) -/

theorem State.Waits.congr {s t : State} (h : s.Waits) (hst : t.store = s.store) (hheld : t.held = s.held) : t.Waits :=
  ⟨hst ▸ h.store, hst ▸ hheld ▸ h.held⟩

/-- A part that has started, its store sound. -/
theorem State.Waits.ofStarted {s : State} (hstore : s.store.Sound) (h : s.held = false) : s.Waits :=
  ⟨hstore, fun e => absurd e (by simp [h])⟩

/-- A part whose check is over has started. -/
theorem State.Waits.started {s : State} (h : s.Waits) (hs : s.store.st ≠ .checking) : s.held = false := by
  by_contra e
  exact hs (h.held (by simpa using e)).1

/-- What an answer does: it acts on the source records alone, or the check is over before and after it. -/
theorem State.Waits.answer {s : State} (h : s.Waits) (f : Frame) : (answerRequest f s).1.Waits := by
  have hevolves := answerRequest_evolves f s
  cases answerRequest_answers f s with
  | notes k => exact h.congr k.store k.held
  | acts hs => exact .ofStarted (hevolves.store h.store) (hevolves.held.trans (h.started hs))

theorem State.Waits.stocks {s t : State} (h : s.Waits) (k : Stocks s t) : t.Waits :=
  .ofStarted (k.evolves.store h.store) (k.evolves.held.trans (k.started h))

/-- The check ends in a part that has started (R154, R193). -/
theorem State.Waits.endCheck {s : State} (h : s.Waits) (hn : s.store.nextCheck = some 32) : s.endCheck.Waits := by
  have hc := Store.check_of_nextCheck hn
  have hevolves := (Evolves.refl s).endCheck hc
  refine .ofStarted (hevolves.store h.store) (hevolves.held.trans ?_)
  by_contra e
  simp [(h.held (by simpa using e)).2] at hc

theorem State.Waits.powerOn {s : State} (h : s.Waits) (cause : ResetCause) (straps : BitVec 3) :
    (s.toPowerOn cause straps).Waits := ⟨State.toPowerOn_storeSound _ _ h.store, fun _ => ⟨rfl, rfl⟩⟩

theorem State.Waits.start (s : State) (straps : BitVec 3) : (s.start straps).Waits :=
  .ofStarted (s.start_storeSound straps) rfl

/-! ### The claims (R54 to R56) -/

theorem State.Claimed.agrees {s : State} (h : s.Claimed) : s.Agrees (s.store.st = .checking) :=
  ⟨⟨h.shaped, h.serves⟩, h.checking⟩

theorem State.Agrees.claimed {s : State} (h : s.Agrees (s.store.st = .checking)) (hw : s.Waits) : s.Claimed :=
  { hw with checking := h.down, shaped := h.fit.shaped, serves := h.fit.serves }

theorem State.Agrees.ofAwake {c : Prop} {s : State} (h : s.Fit) (hc : ¬ c) : s.Agrees c := ⟨h, fun e => absurd e hc⟩

/-- The lines as the check leaves them: up where they are to come up, each without a claim (R29). -/
theorem State.Fit.linesComeUp {s : State} (h : s.Fit) (hd : ∀ n, (s.line n).st = .disabled) (c : Settings) :
    (s.linesComeUp c).Fit := by
  have hline : ∀ n, (s.linesComeUp c).line n =
      ((s.line n).comeUp (c.profiles.get n) (c.enabled.get n)).settle s.now :=
    State.eachLine_onLine (fun n => Line.comeUp (c.profiles.get n) (c.enabled.get n)) s
  have hup : ∀ n, ((s.line n).comeUp (c.profiles.get n) (c.enabled.get n)).Shaped ∧
      ((s.line n).comeUp (c.profiles.get n) (c.enabled.get n)).want = .nothing := by
    intro n
    have hrest := (h.shaped n).resting (.inl (hd n))
    have hnoAnswer := none_of (h.shaped n).noAnswer (by simp [hd n])
    unfold Line.comeUp
    dsimp only
    split
    · exact ⟨Line.Resting.shaped (hrest.congr rfl rfl) hnoAnswer, Line.want_nothing (.inr (.inl rfl))⟩
    · exact ⟨Line.Resting.shaped (hrest.congr rfl rfl) hnoAnswer, Line.want_nothing (.inl (hd n))⟩
  refine ⟨fun n => ?_, ?_⟩
  · rw [hline]
    exact (hup n).1.settle _
  · have hpool : (s.linesComeUp c).pool = s.pool := rfl
    rw [hpool]
    refine h.serves.congr fun n => ?_
    rw [hline, Line.settle_want, (hup n).2, Line.want_nothing (.inl (hd n))]

/-- The check ends with the store READY (R154). -/
theorem State.endCheck_st (s : State) : s.endCheck.store.st = .ready := by
  unfold State.endCheck
  dsimp only
  split
  · rw [((Calm.refl _).loadSettings _).store]
    rfl
  · rfl
  · simp [State.latchStore]

theorem State.Claimed.endCheck {s : State} (h : s.Claimed) (hn : s.store.nextCheck = some 32) : s.endCheck.Fit := by
  have hst : s.store.st = .checking := h.store.checking (Store.check_of_nextCheck hn)
  have hfit := h.agrees.fit
  unfold State.endCheck
  dsimp only
  split
  · next c _ =>
    have hread := hfit.same (((State.SameClaims.refl s).onStore fun st => { st with check := none, st := .ready }).onStore
      fun st => { st with settingsCondition := .valid })
    have hcadence := hread.same ((State.SameClaims.refl _).ofEq (u := { (s.onStore fun st =>
      { st with check := none, st := .ready }).onStore fun st => { st with settingsCondition := .valid } with
        cadence := c.cadence }) rfl rfl)
    exact (hcadence.linesComeUp (h.checking hst) c).same
      ((((State.SameClaims.refl _).onKeys _).onKeys _).onlyNotes (State.loadMasks_only _ _))
  · exact hfit.same ((((State.SameClaims.refl s).onStore _).onStore _).onKeys _)
  · exact hfit.same (((((State.SameClaims.refl s).onStore _).onStore _).latchStore _).onKeys _)

/-- A line in its power-on state has no timer and no claim (R29, R67). -/
theorem Line.powerOn_shaped (l : Line) : l.powerOn.Shaped := by
  constructor <;> simp [Line.powerOn, Line.reset, LineTimers.stopped, Manual.idle]

theorem State.Fit.powerOn (s : State) (cause : ResetCause) (straps : BitVec 3) : (s.toPowerOn cause straps).Fit := by
  have hline : ∀ n, (s.toPowerOn cause straps).line n = (s.interruptStore.line n).powerOn := fun n =>
    Bank.get_map _ _ _
  refine .ofNone rfl (fun n => ?_) fun n => ?_
  · rw [hline]
    exact Line.powerOn_shaped _
  · rw [hline]
    exact Line.want_nothing (.inl rfl)

/-- A start settles each line (R193), and touches no claim. -/
theorem State.start_same (s : State) (straps : BitVec 3) : s.SameClaims (s.start straps) :=
  ⟨rfl, fun n => by simp [State.line, State.start]⟩

theorem Deed.claimed {s t : State} (h : Deed s t) (hs : s.Claimed) : t.Claimed := by
  have hw := hs.toWaits
  cases h with
  | port h _ =>
    refine h.keeps (fun s t k hs => ?_) (fun f s hs => ?_) hs
    · refine State.Agrees.claimed ?_ (hs.toWaits.congr k.store k.held)
      rw [k.store]
      exact hs.agrees.same ((State.SameClaims.refl s).ofEq k.lines k.pool)
    · refine State.Agrees.claimed ?_ (hs.toWaits.answer f)
      cases answerRequest_answers f s with
      | notes k =>
        rw [k.store]
        exact hs.agrees.same ((State.SameClaims.refl s).onlyNotes k)
      | acts _ ht fit => exact .ofAwake (fit hs.agrees.fit) ht
  | calm h hagrees =>
    refine State.Agrees.claimed ?_ (hw.congr h.store h.held)
    rw [h.store]
    exact hagrees _ hs.agrees
  | key k d =>
    have hstays := ((Stays.refl s).calm ((Calm.refl s).advance d)).debouncedChange k
    refine State.Agrees.claimed ?_ (hw.congr hstays.store hstays.held)
    rw [hstays.store]
    have hadvanced := hs.agrees.same ((State.SameClaims.refl s).advance d)
    by_cases hc : s.store.st = .checking
    · rw [State.debouncedChange, if_pos (by exact hc)]
      exact hadvanced.same ((State.SameClaims.refl _).onKey k _)
    · exact .ofAwake (hadvanced.fit.debouncedChange k) hc
  | stocks h =>
    refine State.Agrees.claimed ?_ (hw.stocks h)
    rw [h.checking hw.store]
    exact hs.agrees.same h.claims
  | endCheck h =>
    refine State.Agrees.claimed (.ofAwake (hs.endCheck h) ?_) (hw.endCheck h)
    rw [State.endCheck_st]
    simp
  | powerOn cause straps =>
    exact (State.Agrees.claimed ⟨.powerOn s _ _, fun _ n => by simp [State.line, State.toPowerOn]; rfl⟩
      (hw.powerOn cause straps))
  | start hheld straps =>
    have hsame := s.start_same straps
    have hdown := hs.checking (hw.held hheld).1
    exact State.Agrees.claimed ⟨hs.agrees.fit.same hsame, fun _ n => (hsame.line n).1.trans (hdown n)⟩ (.start s straps)

/-- With a line waiting both generators are held (R60), each by a line of its own that does not wait (R54 to R56): at most
two of the four lines wait. -/
theorem State.Claimed.wait_length {s : State} (h : s.Claimed) (hp : s.pool.Sound) : s.pool.wait.length ≤ 2 := by
  by_cases hw : s.pool.wait = []
  · simp [hw]
  · obtain ⟨⟨a, y⟩, ha⟩ := Option.isSome_iff_exists.1 (hp hw 0)
    obtain ⟨⟨b, z⟩, hb⟩ := Option.isSome_iff_exists.1 (hp hw 1)
    have hab : a ≠ b := by
      rintro rfl
      exact h.serves.one a y z ha hb
    have hapart : ∀ n g y, s.pool.gens.get g = some ⟨n, y⟩ → n ∉ s.pool.wait.map (·.line) := by
      intro n g y hg hn
      have hsounds := (h.serves.holds n).1 ⟨g, y, hg⟩
      simp [(h.serves.waits n).1 hn] at hsounds
    have hnodup : (a :: b :: s.pool.wait.map (·.line)).Nodup := by
      simp only [List.nodup_cons, List.mem_cons, not_or]
      exact ⟨⟨hab, hapart a 0 y ha⟩, hapart b 1 z hb, h.serves.once⟩
    have hle := hnodup.length_le_card
    simp at hle
    omega

/-- Settles O38: every deed keeps the fit of lines, timers and pool, and before the end of the check the lines DISABLED;
the pool then names each line once, as its state says. -/
theorem claimsKept : Obligations.ClaimsKept := by
  refine ⟨kept_of_deed (fun _ _ hs => ⟨⟨hs.store, hs.held⟩, hs.checking, hs.shaped, hs.serves⟩) fun _ _ hs h => h.claimed hs,
    fun s hs => ⟨fun n g h y z hg hh => hs.serves.held_once hg hh, fun c hc g y hg => ?_, fun hp => ?_⟩⟩
  · have hsounds := (hs.serves.holds c.line).1 ⟨g, y, hg⟩
    have hasks := (hs.serves.waits c.line).1 (List.mem_map_of_mem hc)
    simp [hsounds] at hasks
  · exact hs.wait_length hp

/-! ### The keys (R158 to R162) -/

theorem State.Scanned.same {s t : State} (h : s.Scanned) (hw : t.Waits) (hkeys : s.keys.Same t.keys)
    (hst : t.store.st = .checking ↔ s.store.st = .checking) : t.Scanned := by
  refine { hw with checking := fun hc => ?_, sound := fun hc => (h.sound fun e => hc (hst.2 e)).same hkeys }
  obtain ⟨hup, hqueue, hdeferred⟩ := h.checking (hst.1 hc)
  exact ⟨fun k => (hkeys.key k).1.trans (hup k), hkeys.queue.trans hqueue, hkeys.deferred.trans hdeferred⟩

/-- Keys marked by their levels at the end of the check, with nothing queued or deferred, agree (R154, R168). -/
theorem KeyScanner.markAll_sound {ks : KeyScanner} (active : Bank 4 Bool) (hq : ks.queue = []) (hd : ks.deferred = []) :
    (ks.markAll active).Sound := .ofLevels hq hd fun k => by simp [KeyScanner.markAll]

theorem State.Scanned.endCheck {s : State} (h : s.Scanned) (hn : s.store.nextCheck = some 32) : s.endCheck.keys.Sound := by
  obtain ⟨-, hqueue, hdeferred⟩ := h.checking (h.store.checking (Store.check_of_nextCheck hn))
  have hmarked : ∀ active, (s.keys.markAll active).Sound := fun active => KeyScanner.markAll_sound active hqueue hdeferred
  unfold State.endCheck
  dsimp only
  split
  · next c _ =>
    rw [State.loadSettings, (State.loadMasks_only _ _).keys]
    exact (hmarked c.active).same ⟨rfl, rfl, fun k => by simp [State.linesComeUp, State.eachLine, State.onLine]⟩
  · exact hmarked _
  · simpa [State.latchStore] using hmarked _

theorem Deed.scanned {s t : State} (h : Deed s t) (hs : s.Scanned) : t.Scanned := by
  have hw := hs.toWaits
  cases h with
  | port h _ =>
    refine h.keeps (fun s t k hs => ?_) (fun f s hs => ?_) hs
    · exact hs.same (hs.toWaits.congr k.store k.held) (k.keys ▸ .refl _) (by rw [k.store])
    · have hwaits := hs.toWaits.answer f
      cases answerRequest_answers f s with
      | notes k => exact hs.same hwaits (k.keys ▸ .refl _) (by rw [k.store])
      | acts hawake ht _ keys =>
        exact { hwaits with checking := fun e => absurd e ht, sound := fun _ => keys (hs.sound hawake) }
  | calm h _ => exact hs.same (hw.congr h.store h.held) h.keys (by rw [h.store])
  | key k d =>
    have hstays := ((Stays.refl s).calm ((Calm.refl s).advance d)).debouncedChange k
    have hwaits := hw.congr hstays.store hstays.held
    by_cases hc : s.store.st = .checking
    · obtain ⟨hup, hqueue, hdeferred⟩ := hs.checking hc
      rw [State.debouncedChange, if_pos (by exact hc)] at hwaits ⊢
      refine { hwaits with checking := fun _ => ⟨fun m => ?_, hqueue, hdeferred⟩, sound := fun e => absurd hc e }
      simp only [State.key, State.onKey, State.onKeys_keys, Bank.get_set]
      split
      · exact hup k
      · exact hup m
    · refine { hwaits with checking := fun e => absurd (hstays.store ▸ e) hc, sound := fun _ => ?_ }
      exact State.debouncedChange_sound k _ (hs.sound hc) hc
  | stocks h => exact hs.same (hw.stocks h) h.keys (h.checking hw.store)
  | endCheck h =>
    exact { hw.endCheck h with
      checking := fun e => by simp [State.endCheck_st] at e
      sound := fun _ => hs.endCheck h }
  | powerOn cause straps =>
    exact { hw.powerOn cause straps with
      checking := fun _ => ⟨fun k => by simp [State.key, State.toPowerOn, KeyScanner.powerOn, Key.reset], rfl, rfl⟩
      sound := fun e => absurd rfl e }
  | start hheld straps =>
    obtain ⟨hup, hqueue, hdeferred⟩ := hs.checking (hw.held hheld).1
    exact { State.Waits.start s straps with
      checking := fun _ => ⟨fun k => by simpa [State.key, State.start, KeyScanner.start] using hup k, hqueue, hdeferred⟩
      sound := fun e => absurd rfl e }

/-- Settles O42: every deed keeps the law of the Key Scanner, and before the end of the check it has taken nothing; at most
13 keys are deferred, for three of the sixteen matrix keys are held. -/
theorem keysKept : Obligations.KeysKept :=
  ⟨kept_of_deed (fun _ _ hs => hs.same (hs.toWaits.congr rfl rfl) (.refl _) .rfl) fun _ _ hs h => h.scanned hs,
    fun _ hs => hs.deferred_length⟩

end Sys2Proof.Machine
end

section
/-! PROOFS. The step: the command at the front of the queue, and the part's own steps where none waits ([1]). -/

namespace Sys2Proof.Machine

/-- Settles O1: `step` on a queue with a front. -/
theorem stepRunsFrontCommand : Obligations.StepRunsFrontCommand := fun _ _ _ => rfl

/-! ### Every command leaves the queue alone -/

theorem PortRun.pending {s t : State} (h : PortRun s t) : t.pending = s.pending := by
  refine h.keeps (Inv := fun u => u.pending = s.pending) (fun u v k hu => ?_) (fun f u hu => ?_) rfl
  · rw [k]
    exact hu
  · exact (answerRequest_evolves f u).pending.trans hu

theorem State.interruptStore_pending (s : State) : s.interruptStore.pending = s.pending := by
  unfold State.interruptStore State.interruptBlock
  dsimp only
  repeat' split
  all_goals rfl

theorem Deed.pending {s t : State} (h : Deed s t) : t.pending = s.pending := by
  cases h with
  | port h _ => exact h.pending
  | calm h _ => exact h.pending
  | key k d => exact (((Stays.refl s).calm ((Calm.refl s).advance d)).debouncedChange k).pending
  | stocks h => exact h.evolves.pending
  | endCheck h => exact ((Evolves.refl s).endCheck (Store.check_of_nextCheck h)).pending
  | powerOn => exact s.interruptStore_pending
  | start => rfl

/-- Settles O3: every command completes with a deed of its kind, and no deed touches the queue. -/
theorem everyCommandGoesOn : Obligations.EveryCommandGoesOn := by
  intro c s
  obtain ⟨t, ht, hdeed⟩ := exec_deed c s
  exact ⟨t, ht, hdeed.pending⟩

/-! ### The own steps that are due -/

/-- The shortest of some lengths is one of them, and none is below it. -/
theorem shortest_eq_some {xs : List Nat} {u : Nat} : shortest xs = some u ↔ u ∈ xs ∧ ∀ x ∈ xs, u ≤ x := by
  cases xs with
  | nil => simp [shortest]
  | cons a xs =>
    have hmin : xs.foldl min a ∈ a :: xs ∧ ∀ x ∈ a :: xs, xs.foldl min a ≤ x := by
      induction xs generalizing a with
      | nil => simp
      | cons b xs ih =>
        obtain ⟨hmem, hle⟩ := ih (min a b)
        have hab := hle (min a b) (by simp)
        refine ⟨?_, fun x hx => ?_⟩
        · rw [List.foldl_cons]
          rcases List.mem_cons.1 hmem with h | h
          · rw [h]
            rcases min_choice a b with e | e <;> simp [e]
          · simp [h]
        · rcases List.mem_cons.1 hx with rfl | hx
          · exact hab.trans (min_le_left _ _)
          · rcases List.mem_cons.1 hx with rfl | hx
            · exact hab.trans (min_le_right _ _)
            · exact hle x (by simp [hx])
    simp only [shortest, Option.some.injEq]
    exact ⟨fun h => h ▸ hmin, fun ⟨hmem, hle⟩ => le_antisymm (hmin.2 u hmem) (hle _ hmin.1)⟩

/-- The lengths that a confirmation may reach next: those of the STEADY templates not yet confirmed (R83). -/
theorem Classifier.mem_steadyLengths {table : Bank 8 (Option Template)} {c : Classifier} {u : Nat} :
    u ∈ c.steadyLengths table ↔
      ∃ k t, table.get k = some ⟨t, .steady u⟩ ∧ (c.matchers.get k).steady = false := by
  simp only [Classifier.steadyLengths, List.mem_filterMap, List.mem_finRange, true_and]
  refine exists_congr fun k => ?_
  unfold steadyLength
  split
  · next t minOn h => cases hs : (c.matchers.get k).steady <;> simp [h]
  · next h =>
    constructor
    · intro e; cases e
    · rintro ⟨t, ht, -⟩; exact absurd ht (h t u)

/-- The moment an ON interval began, in a session whose filtered level is on (R83). -/
theorem Classifier.onSince_eq_some {c : Classifier} {b : Nat} : c.onSince = some b ↔
    c.listening = true ∧ c.filtered = true ∧ ∃ first, c.interval = some ⟨true, b, first⟩ := by
  unfold Classifier.onSince
  cases c.listening <;> cases c.filtered <;> simp
  cases h : c.interval with
  | none => simp
  | some i =>
    obtain ⟨on, began, first⟩ := i
    cases on <;> cases first <;> simp

theorem Classifier.outlasts_iff {c : Classifier} {b u : Nat} :
    c.outlasts b u = true ↔ ∀ e, c.edges.head? = some e → b + 10 * u < e := by
  unfold Classifier.outlasts
  cases c.edges.head? <;> simp

/-- The next confirmation of a classifier: the ON interval in progress reaches the shortest length not yet confirmed. -/
theorem Classifier.nextSteady_eq_some {table : Bank 8 (Option Template)} {c : Classifier} {b u : Nat} :
    c.nextSteady table = some (b, u) ↔
      c.onSince = some b ∧ shortest (c.steadyLengths table) = some u ∧ c.outlasts b u = true := by
  unfold Classifier.nextSteady
  cases c.onSince with
  | none => simp
  | some x =>
    cases shortest (c.steadyLengths table) with
    | none => simp
    | some y =>
      by_cases ho : c.outlasts x y = true
      · simp only [ho, if_true, Option.some.injEq, Prod.mk.injEq]
        exact ⟨fun ⟨e, f⟩ => ⟨e, f, e ▸ f ▸ ho⟩, fun ⟨e, f, _⟩ => ⟨e, f⟩⟩
      · simp only [ho, Option.some.injEq]
        refine ⟨fun e => by simp at e, ?_⟩
        rintro ⟨rfl, rfl, h⟩
        exact absurd h ho

theorem State.steadyDue_iff (s : State) (n : LineNo) : cameBy s.now (s.steadyDue n) 0 ↔ s.SteadyDue n := by
  unfold cameBy State.steadyDue State.SteadyDue
  simp only [Option.map_eq_some_iff, Prod.exists, Classifier.nextSteady_eq_some, Classifier.onSince_eq_some,
    shortest_eq_some, Classifier.mem_steadyLengths, Classifier.outlasts_iff, Config.cptFilterMs]
  constructor
  · rintro ⟨m, ⟨b, u, ⟨⟨hl, hf, first, hi⟩, ⟨⟨k, t, hk, hm⟩, hmin⟩, ho⟩, rfl⟩, hnow⟩
    exact ⟨hl, hf, b, u, first, k, t, hi, hk, hm, fun j t' u' hj hs => hmin u' ⟨j, t', hj, hs⟩, ho, hnow⟩
  · rintro ⟨hl, hf, b, u, first, k, t, hi, hk, hm, hmin, ho, hnow⟩
    refine ⟨_, ⟨b, u, ⟨⟨hl, hf, first, hi⟩, ⟨⟨k, t, hk, hm⟩, ?_⟩, ho⟩, rfl⟩, hnow⟩
    rintro x ⟨j, t', hj, hs⟩
    exact hmin j t' x hj hs

theorem Line.gapDue_iff (now : Nat) (l : Line) : cameBy now l.gapDue 0 ↔ l.pc.listening = true ∧ l.st = .awaitProgress ∧
    ∃ m, l.pc.gapWatch = some m ∧ (∀ e, l.pc.edges.head? = some e → m < e) ∧ m + 10 ≤ now := by
  have hdecides : ∀ m, l.gapDecides m = true ↔
      l.pc.listening = true ∧ l.st = .awaitProgress ∧ ∀ e, l.pc.edges.head? = some e → m < e := by
    intro m
    unfold Line.gapDecides
    cases l.pc.edges.head? <;> simp [and_assoc]
  simp only [cameBy, Line.gapDue, Option.map_eq_some_iff, Option.filter_eq_some_iff, hdecides, Config.cptFilterMs]
  constructor
  · rintro ⟨_, ⟨m, ⟨hm, hl, hst, he⟩, rfl⟩, hnow⟩
    exact ⟨hl, hst, m, hm, he, hnow⟩
  · rintro ⟨hl, hst, m, hm, he, hnow⟩
    exact ⟨_, ⟨m, ⟨hm, hl, hst, he⟩, rfl⟩, hnow⟩

theorem State.retryDue_iff (s : State) (n : LineNo) :
    cameBy s.now (s.jobs.retry.get n).due 0 ↔ ∃ d, s.jobs.retry.get n = .running d ∧ d ≤ s.now := by
  cases s.jobs.retry.get n <;> simp [cameBy, RetryTimer.due]

theorem State.startable_iff (s : State) (n : LineNo) : s.startable n = true ↔ (s.line n).st = .idle ∧
    ∃ j, s.headJob n = some j ∧ (j.state = .queued ∨ (j.state = .retryWait ∧ s.jobs.retry.get n = .expired)) := by
  unfold State.startable
  cases s.headJob n <;> simp

theorem State.offer_iff (s : State) (n : LineNo) (j : Job) : s.offer n = some j ↔ (s.line n).st = .idle ∧
    s.headJob n = some j ∧ j.state = .active ∧ j.phase = some .resolve ∧ j.methodInEffect ≠ none := by
  unfold State.offer
  split
  · next h => simp [h, Option.filter_eq_some_iff, Job.offered, Option.isSome_iff_ne_none, and_assoc]
  · next h => simp [h]

theorem State.canBegin_iff (s : State) : s.canBegin = true ↔ s.held = false ∧ s.link.tx = .idle ∧
    s.link.outbound ≠ [] ∧ s.pins.lhold = false ∧ s.link.breakSince = none := by
  simp [State.canBegin, and_assoc]

theorem Store.nextCheck_eq_some {st : Store} {k : Nat} : st.nextCheck = some k ↔ st.check = some ⟨k, none⟩ := by
  unfold Store.nextCheck
  split
  · next h => simp [h]
  · next h =>
    constructor
    · intro e; cases e
    · intro e; exact absurd e (h k)

open Classical in
/-- The step `c` alone where its moment has come, else none. -/
noncomputable def State.ifDue (s : State) (c : Instr) : List Instr := if s.Due c then [c] else []

theorem State.mem_ifDue {s : State} {c d : Instr} : c ∈ s.ifDue d ↔ c = d ∧ s.Due d := by
  unfold State.ifDue
  split <;> simp [*]

theorem State.flatMap_ifDue_sublist (s : State) (l : List Instr) : (l.flatMap s.ifDue).Sublist l := by
  induction l with
  | nil => simp
  | cons c l ih =>
    rw [List.flatMap_cons, State.ifDue]
    split
    · exact ih.cons_cons c
    · exact ih.cons c

theorem State.whenDue_eq_ifDue (s : State) {due : Option Nat} {c : Instr} (h : s.Due c ↔ cameBy s.now due 0) :
    whenDue s.now due c = s.ifDue c := by
  rw [State.ifDue, h]
  cases due <;> simp [whenDue, cameBy]

theorem State.whenDue_after_eq_ifDue (s : State) {since : Option Nat} {ms : Nat} {c : Instr}
    (h : s.Due c ↔ cameBy s.now since ms) : whenDue s.now (since.map (· + ms)) c = s.ifDue c := by
  rw [State.ifDue, h]
  cases since <;> simp [whenDue, cameBy]

theorem State.whenever_eq_ifDue (s : State) {b : Bool} {c : Instr} (h : s.Due c ↔ b = true) :
    whenever b c = s.ifDue c := by
  rw [State.ifDue, h]
  cases b <;> simp [whenever]

theorem State.offer_isSome_iff (s : State) (n : LineNo) : (s.offer n).isSome = true ↔ s.Due (.attemptStart n) := by
  rw [Option.isSome_iff_exists]
  simp only [State.offer_iff, State.Due, exists_and_left]

/-- The own steps of line `n` are those of its list that are due. -/
theorem State.lineSteps_eq (s : State) (n : LineNo) : s.lineSteps n = (stepsOfLine n).flatMap s.ifDue := by
  unfold State.lineSteps
  dsimp only
  rw [s.whenDue_after_eq_ifDue (ms := Config.lineDebounceMs) (c := .loopChange n) Iff.rfl,
    s.whenDue_after_eq_ifDue (ms := Config.lineDebounceMs) (c := .revChange n) Iff.rfl,
    s.whenDue_eq_ifDue (c := .ringBurstStart n) Iff.rfl, s.whenDue_eq_ifDue (c := .ringBurstEnd n) Iff.rfl,
    s.whenDue_eq_ifDue (c := .glareWindowExpiry n) Iff.rfl,
    s.whenDue_after_eq_ifDue (ms := Config.cptFilterMs) (c := .filteredLevelChange n) Iff.rfl,
    s.whenDue_eq_ifDue (c := .steadyConfirmation n) (s.steadyDue_iff n).symm,
    s.whenDue_eq_ifDue (c := .gapWatchExpiry n) (Line.gapDue_iff s.now (s.line n)).symm,
    s.whenDue_eq_ifDue (c := .seizeTimerExpiry n) Iff.rfl, s.whenDue_eq_ifDue (c := .postSeizeTimerExpiry n) Iff.rfl,
    s.whenDue_eq_ifDue (c := .dialToneTimerExpiry n) Iff.rfl, s.whenDue_eq_ifDue (c := .noAnswerTimerExpiry n) Iff.rfl,
    s.whenDue_eq_ifDue (c := .disconnectTimerExpiry n) Iff.rfl, s.whenDue_eq_ifDue (c := .makeTimerExpiry n) Iff.rfl,
    s.whenDue_eq_ifDue (c := .guardTimerExpiry n) Iff.rfl, s.whenDue_eq_ifDue (c := .breakTimerExpiry n) Iff.rfl,
    s.whenDue_eq_ifDue (c := .makePeriodTimerExpiry n) Iff.rfl,
    s.whenDue_eq_ifDue (c := .interdigitTimerExpiry n) Iff.rfl, s.whenDue_eq_ifDue (c := .toneTimerExpiry n) Iff.rfl,
    s.whenDue_eq_ifDue (c := .toneGapTimerExpiry n) Iff.rfl, s.whenDue_eq_ifDue (c := .pauseTimerExpiry n) Iff.rfl,
    s.whenDue_eq_ifDue (c := .flashTimerExpiry n) Iff.rfl,
    s.whenDue_eq_ifDue (c := .minimumToneTimerExpiry n) Iff.rfl,
    s.whenDue_eq_ifDue (c := .retryDelayExpiry n) (s.retryDue_iff n).symm,
    s.whenever_eq_ifDue (c := .jobStart n) (s.startable_iff n).symm,
    s.whenever_eq_ifDue (c := .attemptStart n) (s.offer_isSome_iff n).symm]
  simp only [stepsOfLine, List.flatMap_cons, List.flatMap_nil, List.append_nil, List.append_assoc]

theorem State.blockCheckDue_iff (s : State) :
    s.Due .startUpBlockCheck ↔ s.store.nextCheck.any (· < 32) = true := by
  simp only [Option.any_eq_true, Store.nextCheck_eq_some, decide_eq_true_eq, State.Due]

theorem State.checkEndDue_iff (s : State) : s.Due .startupCheckEnd ↔ (s.store.nextCheck == some 32) = true := by
  rw [beq_iff_eq, Store.nextCheck_eq_some]
  rfl

theorem State.frameBeginDue_iff {s : State} (h : s.held = false) : s.Due .frameBegin ↔ s.canBegin = true := by
  simp only [State.canBegin_iff, State.Due, h, true_and]
  tauto

/-- The own steps of a running part are those of the fixed order that are due. -/
theorem State.ownSteps_eq {s : State} (h : s.held = false) : s.ownSteps = ownOrder.flatMap s.ifDue := by
  have hkeys : (fun k => whenDue s.now ((s.key k).since.map (· + s.keys.debounceMs)) (.keyTransition k)) =
      fun k => s.ifDue (.keyTransition k) := funext fun k => s.whenDue_after_eq_ifDue Iff.rfl
  have hlines : s.lineSteps = fun n => (stepsOfLine n).flatMap s.ifDue := funext s.lineSteps_eq
  unfold State.ownSteps
  rw [if_neg (by simp [h]), s.whenDue_eq_ifDue (c := .interByteGapTimerExpiry) Iff.rfl,
    s.whenever_eq_ifDue s.blockCheckDue_iff, s.whenever_eq_ifDue s.checkEndDue_iff,
    s.whenever_eq_ifDue (State.frameBeginDue_iff h), hkeys, hlines]
  simp only [ownOrder, List.flatMap_append, List.flatMap_cons, List.flatMap_nil, List.append_nil, List.flatMap_assoc,
    List.flatMap_map, List.append_assoc]

/-- A step whose moment can come stands in the fixed order. -/
theorem mem_ownOrder {s : State} {c : Instr} (h : s.Due c) : c ∈ ownOrder := by
  cases c with
  | keyTransition k => simp [ownOrder]
  | interByteGapTimerExpiry | startUpBlockCheck | startupCheckEnd | frameBegin => simp [ownOrder]
  | loopChange n | revChange n | ringBurstStart n | ringBurstEnd n | glareWindowExpiry n | filteredLevelChange n
  | steadyConfirmation n | gapWatchExpiry n | seizeTimerExpiry n | postSeizeTimerExpiry n | dialToneTimerExpiry n
  | noAnswerTimerExpiry n | disconnectTimerExpiry n | makeTimerExpiry n | guardTimerExpiry n | breakTimerExpiry n
  | makePeriodTimerExpiry n | interdigitTimerExpiry n | toneTimerExpiry n | toneGapTimerExpiry n | pauseTimerExpiry n
  | flashTimerExpiry n | minimumToneTimerExpiry n | retryDelayExpiry n | jobStart n | attemptStart n =>
    simp [ownOrder, stepsOfLine]
  | _ => exact h.elim

theorem ownOrder_nodup : ownOrder.Nodup := by decide +kernel

/-- Settles O2: `step` on an empty queue, and the own steps as those of the fixed order whose moment has come. -/
theorem stepWithoutCommand : Obligations.StepWithoutCommand := by
  intro s
  refine ⟨fun hp => ⟨fun hheld => ?_, fun hheld => ⟨fun h rest hh => ?_, fun hh ho => ?_, fun c later hh ho => ?_⟩⟩,
    fun hheld => by simp [State.ownSteps, hheld], fun hheld => ?_, ownOrder_nodup⟩
  · simp [step, hp, State.idle, hheld]
  · simp [step, hp, State.idle, hheld, State.runOn, hh, State.takeHandovers, State.onKeys]
  · simp [step, hp, State.idle, hheld, State.runOn, hh, ho]
  · simp [step, hp, State.idle, hheld, State.runOn, hh, ho]
  · rw [State.ownSteps_eq hheld]
    refine ⟨fun c => ?_, s.flatMap_ifDue_sublist _, fun hnone => ?_⟩
    · simp only [List.mem_flatMap, State.mem_ifDue]
      exact ⟨fun ⟨_, _, e, h⟩ => e ▸ h, fun h => ⟨c, mem_ownOrder h, rfl, h⟩⟩
    · refine List.flatMap_eq_nil_iff.2 fun c _ => ?_
      simp [State.ifDue, hnone]

end Sys2Proof.Machine
end

section
/-! PROOFS. A line written ([20]), and the state after reset. -/

namespace Sys2Proof.Machine

/-! ### A line written -/

/-- The raw level the filter saw last: the filtered level, turned by an odd number of edges (R78). -/
theorem Classifier.rawSeen_eq (c : Classifier) :
    c.rawSeen = if c.edges.length % 2 = 0 then c.filtered else !c.filtered := by
  rcases Nat.mod_two_eq_zero_or_one c.edges.length with h | h <;> simp [Classifier.rawSeen, h]

/-- A raw change (R78) by the first moment the last edge has held. -/
theorem addEdge_eq (now : Nat) (edges : List Nat) : addEdge now edges = match edges.getLast? with
    | none => [now]
    | some e => if e + 10 ≤ now then edges ++ [now] else edges.dropLast := by
  unfold addEdge
  cases edges.getLast? with
  | none => rfl
  | some e =>
    by_cases h : e + 10 ≤ now
    · simp [Config.cptFilterMs, h, Nat.not_lt.2 h]
    · simp [Config.cptFilterMs, h, Nat.lt_of_not_le h]

/-- A line settled stands as the rules for a line written say. -/
theorem Line.settle_measuredAt (now : Nat) (l : Line) : l.MeasuredAt now (l.settle now) where
  rest := rfl
  loop := rfl
  rev := rfl
  edges := by
    have h : (l.settle now).pc.edges = if (if l.committed.loopback then (l.settle now).out.ton else l.pc.pin) =
        l.pc.rawSeen then l.pc.edges else addEdge now l.pc.edges := rfl
    rw [Classifier.rawSeen_eq, addEdge_eq] at h
    exact h
  watched h := by
    have hw : l.watchesRing = true := by simpa [Line.watchesRing] using h
    exact if_pos hw
  unwatched h1 h2 := by
    have hw : ¬ l.watchesRing = true := by simp [Line.watchesRing, h1, h2]
    exact if_neg hw
  onHook h := by
    rcases h with h | h | h <;>
      simp [Line.outputs, Line.drivesLcl, Line.drivesTxm, Line.drivesRxm, Line.drivesTon, h]
  offHook h := by
    rcases h with h | h | h <;>
      simp [Line.outputs, Line.drivesLcl, Line.drivesTxm, Line.drivesRxm, Line.drivesTon, h]
  held h := by simp [Line.outputs, Line.drivesLcl, Line.drivesTxm, Line.drivesRxm, Line.drivesTon, h]
  connected h := by simp [Line.outputs, Line.drivesLcl, Line.drivesTxm, Line.drivesRxm, Line.drivesTon, h]
  dialing h := by
    simp only [Line.settle_out, Line.outputs, Line.drivesLcl, Line.drivesTxm, Line.drivesRxm, Line.drivesTon, h]
    cases l.cursor.sub <;> rfl

/-! ### The state after reset -/

theorem State.reset_line (n : LineNo) : State.reset.line n = Line.reset false false false false := Bank.get_fill _ n

theorem State.reset_key (k : KeyNo) : State.reset.key k = Key.reset (decide (16 ≤ k.val)) false := Bank.get_tabulate _ k

/-- With every timer stopped and no manual digit the law of the timers asks for nothing. -/
theorem Line.shaped_of_stopped {l : Line} (ht : l.timers = LineTimers.stopped) (hm : l.manual.activity = .none) :
    l.Shaped := by
  constructor <;> simp [ht, hm, LineTimers.stopped]

theorem State.reset_entry (e : EntryNo) : State.reset.store.entry e = .blank := by
  have hslots : ∀ b, State.reset.store.slots b = blankSlots := by decide
  rw [Store.entry, hslots]
  exact Bank.get_fill _ _

/-- Settles O4: each value stands in the definition of the reset state. -/
theorem resetState : Obligations.ResetState := by
  refine ⟨rfl, rfl, fun n => ?_, rfl, rfl, rfl, rfl, rfl, rfl, rfl, fun b => ?_, State.reset_entry, ?_, rfl, fun k => ?_,
    rfl, rfl, rfl, rfl, rfl, rfl, ?_, rfl, rfl, rfl, rfl, rfl, rfl, rfl, rfl, rfl, rfl⟩
  · rw [State.reset_line]
    exact ⟨rfl, rfl, rfl, rfl, rfl, rfl, rfl, rfl, rfl, rfl, rfl, rfl, rfl, rfl, rfl, rfl, rfl, rfl, rfl, rfl⟩
  · exact ⟨_, rfl, Bank.get_tabulate _ b⟩
  · decide
  · rw [State.reset_key]
    exact ⟨rfl, rfl, rfl, rfl⟩
  · decide

/-- Settles O60: nothing waits, is held, queued or latched in the mask after reset. -/
theorem invariantsAtReset : Obligations.InvariantsAtReset := by
  have hmapped : State.reset.store.Mapped := {
    injective := by decide +kernel
    sparesNodup := by decide
    sparesFree := by decide
    live := by decide +kernel
    sparesLive := by decide }
  have hstore : State.reset.store.Sound := {
    mapped := hmapped
    opMapped := fun o b p buf h => nomatch h
    rewriteMapped := fun r h => nomatch h
    busyIff := by decide
    checking := fun _ => rfl }
  have hwaits : State.reset.Waits := ⟨hstore, fun h => nomatch h⟩
  refine ⟨fun n => ?_, Pool.Sound.empty, JobEngine.Sound.reset, hstore, ?_, ⟨Nat.zero_le _, Nat.zero_le _, nofun⟩, ?_, ?_⟩
  · rw [State.reset_line]
    rfl
  · exact ⟨by decide, by decide, by decide, by decide⟩
  · refine { hwaits with checking := fun _ n => ?_, shaped := fun n => ?_, serves := ?_ }
    · rw [State.reset_line]
      rfl
    · rw [State.reset_line]
      exact (Line.reset false false false false).shaped_of_stopped rfl rfl
    · have hwant : (fun n => (State.reset.line n).want) = fun _ => .nothing := funext fun n => by rw [State.reset_line]; rfl
      rw [hwant]
      exact {
        one := fun n y z h => nomatch h
        once := List.nodup_nil
        holds := fun n => ⟨fun ⟨g, y, h⟩ => (nomatch (Bank.get_fill none g).symm.trans h), fun h => nomatch h⟩
        waits := fun n => ⟨(nomatch ·), (nomatch ·)⟩ }
  · refine { hwaits with checking := fun _ => ⟨fun k => ?_, rfl, rfl⟩, sound := fun h => absurd rfl h }
    rw [State.reset_key]
    rfl

end Sys2Proof.Machine
end

section
/-! PROOFS. The flags and notices of the Event Unit (R171, R173, R177): what a call for a notice makes of each record, of
the outbound queue and of ATTN, and the latch. -/

namespace Sys2Proof.Machine

/-! ### ATTN -/

theorem items_eq_map_get {n : Nat} {α : Type} (b : Bank n α) : b.items = (List.finRange n).map b.get := by
  refine List.ext_getElem (by simp [b.size]) fun i h1 h2 => ?_
  simp [Bank.get]

/-- ATTN by the records (R177). -/
theorem attnLevel_eq (b : Bank 7 Source) :
    attnLevel b = (List.finRange 7).any fun src => (b.get src).latched &&& (b.get src).mask != 0#8 := by
  rw [attnLevel, items_eq_map_get, List.any_map]
  rfl

theorem attnLevel_iff (b : Bank 7 Source) :
    attnLevel b = true ↔ ∃ src, (b.get src).latched &&& (b.get src).mask ≠ 0#8 := by
  simp [attnLevel_eq]

/-- ATTN stands as the records call for (R177). -/
def EventUnit.AttnTrue (e : EventUnit) : Prop := e.attn = attnLevel e.sources

theorem State.queueNotice_attnTrue (src : SourceNo) {s : State} (h : s.events.AttnTrue) :
    (s.queueNotice src).events.AttnTrue := by
  unfold State.queueNotice
  split
  · rfl
  · exact h

theorem State.foldNotices_attnTrue (l : List SourceNo) {s : State} (h : s.events.AttnTrue) :
    (l.foldl (fun s src => s.queueNotice src) s).events.AttnTrue := by
  induction l generalizing s with
  | nil => exact h
  | cons a l ih => exact ih (State.queueNotice_attnTrue a h)

/-! ### A call for a notice -/

/-- The record of a source once its call for a notice is heard (R173). -/
def Source.told (r : Source) : Source := { r with noticePending := r.noticePending || r.latched &&& r.mask != 0#8 }

theorem Source.told_of_silent {r : Source} (h : r.calls = false) : r.told = r := by
  cases hp : r.noticePending <;> cases r <;> simp_all [Source.told, Source.calls]

theorem Source.told_of_calls {r : Source} (h : r.calls = true) : r.told = { r with noticePending := true } := by
  simp only [Source.calls, Bool.and_eq_true] at h
  simp [Source.told, h.2]

theorem State.queueNotice_source (src m : SourceNo) (s : State) :
    (s.queueNotice src).source m = if src = m then (s.source m).told else s.source m := by
  unfold State.queueNotice
  split
  · next h =>
    rw [State.source_putSource]
    split
    · next e => rw [← e, Source.told_of_calls h]
    · rfl
  · next h =>
    split
    · next e => rw [← e, Source.told_of_silent (by simpa using h)]
    · rfl

theorem State.queueNotice_link (src : SourceNo) (s : State) : (s.queueNotice src).link = { s.link with
    outbound := s.link.outbound ++ if (s.source src).calls then [.note src (s.noteBody src)] else [] } := by
  unfold State.queueNotice
  split
  · rfl
  · simp

theorem State.noteBody_congr {s t : State} (m : SourceNo) (hl : (t.source m).latched = (s.source m).latched)
    (hm : (t.source m).mask = (s.source m).mask) (hd : t.details m = s.details m) : t.noteBody m = s.noteBody m := by
  simp only [State.noteBody, hl, hm, hd]

theorem OnlyNotes.details {s t : State} (h : OnlyNotes s t) (m : SourceNo) : t.details m = s.details m :=
  State.details_congr m h.lines h.keys h.store h.resetCause h.lastLinkError h.lastDiscarded

theorem State.queueNotice_noteBody (src m : SourceNo) (s : State) : (s.queueNotice src).noteBody m = s.noteBody m :=
  State.noteBody_congr m (State.queueNotice_latched src m s).1 (State.queueNotice_latched src m s).2
    ((State.queueNotice_only src s).details m)

/-- Notices queued for some sources (R173, R178, R180): each record is told. -/
theorem State.foldNotices_source (l : List SourceNo) (s : State) (hn : l.Nodup) (m : SourceNo) :
    (l.foldl (fun s src => s.queueNotice src) s).source m = if m ∈ l then (s.source m).told else s.source m := by
  induction l generalizing s with
  | nil => rfl
  | cons a l ih =>
    obtain ⟨ha, hl⟩ := List.nodup_cons.1 hn
    rw [List.foldl_cons, ih _ hl, State.queueNotice_source]
    by_cases e : a = m
    · subst e
      simp [ha]
    · simp [e, Ne.symm e]

/-- Notices queued for some sources (R173, R178, R180): those that call join the queue in the order given. -/
theorem State.foldNotices_link (l : List SourceNo) (s : State) (hn : l.Nodup) :
    (l.foldl (fun s src => s.queueNotice src) s).link = { s.link with
      outbound := s.link.outbound ++ (l.filter fun m => (s.source m).calls).map fun m => .note m (s.noteBody m) } := by
  induction l generalizing s with
  | nil => simp
  | cons a l ih =>
    obtain ⟨ha, hl⟩ := List.nodup_cons.1 hn
    have hcalls : l.filter (fun m => ((s.queueNotice a).source m).calls) = l.filter fun m => (s.source m).calls :=
      List.filter_congr fun m hm => by rw [State.queueNotice_other (by rintro rfl; exact ha hm)]
    simp only [List.foldl_cons, ih _ hl, hcalls, State.queueNotice_link, State.queueNotice_noteBody, List.filter_cons]
    cases (s.source a).calls <;> simp

theorem State.queueNotices_source (s : State) (m : SourceNo) : s.queueNotices.source m = (s.source m).told := by
  rw [State.queueNotices, State.foldNotices_source _ _ (List.nodup_finRange 7), if_pos (List.mem_finRange m)]

theorem State.queueNotices_link (s : State) : s.queueNotices.link = { s.link with
    outbound := s.link.outbound ++
      ((List.finRange 7).filter fun m => (s.source m).calls).map fun m => .note m (s.noteBody m) } :=
  State.foldNotices_link _ s (List.nodup_finRange 7)

theorem State.queueNotices_attnTrue {s : State} (h : s.events.AttnTrue) : s.queueNotices.events.AttnTrue :=
  State.foldNotices_attnTrue _ h

/-! ### The latch -/

/-- Of a flag newly latched, the notice waits for the mask alone, and for a notice that stands already (R173). -/
theorem State.latch_eq (src : SourceNo) (f : Flag) (s : State) : s.latch src f =
    if (s.source src).latched.getLsbD f.bit then s
    else
      let put := s.putSource src { s.source src with latched := (s.source src).latched ||| f.mask }
      if (s.source src).mask.getLsbD f.bit then put.queueNotice src else put := rfl

/-- A flag and the mask that holds it make the source call (R173). -/
theorem Flag.called {f : Flag} {m : Byte} (h : m.getLsbD f.bit = true) (x : Byte) : (x ||| f.mask) &&& m ≠ 0#8 := by
  intro e
  have hbit := congrArg (fun b : Byte => b.getLsbD f.bit) e
  simp [Flag.mask_getLsbD f f.bit f.bit_lt, h] at hbit

theorem State.putSource_details (src m : SourceNo) (r : Source) (s : State) :
    (s.putSource src r).details m = s.details m :=
  (State.putSource_only src r s).details m

/-- A notice queued for a record just written that calls for one. -/
theorem State.queueNotice_putSource {src : SourceNo} {r : Source} (s : State) (h : r.calls = true) :
    (s.putSource src r).queueNotice src = { s.putSource src { r with noticePending := true } with
      link := { s.link with outbound := s.link.outbound ++
        [.note src ([finCode src, byteOf (topBit (r.latched &&& r.mask)), r.latched] ++ s.details src)] } } := by
  unfold State.queueNotice
  rw [if_pos (by rwa [State.source_putSource_self])]
  simp only [State.noteBody, State.source_putSource_self, State.putSource_details]
  simp only [State.putSource, State.putSources, State.onLink, Bank.set_set]

/-- Settles O54: the latch by whether the flag is latched already, and by mask and pending notice. -/
theorem flagLatches : Obligations.FlagLatches := by
  intro src f s
  have heq := State.latch_eq src f s
  refine ⟨fun h => by rw [heq, if_pos h], fun h => ?_, fun hn => ?_⟩
  · rw [if_neg (by simp [h])] at heq
    refine ⟨fun hquiet => ?_, fun hmask hpending => ?_⟩
    · rw [heq]
      rcases hquiet with hmask | hpending
      · exact if_neg (by simp [hmask])
      · have hsilent : State.queueNotice src (s.putSource src
            { s.source src with latched := (s.source src).latched ||| f.mask }) = s.putSource src
            { s.source src with latched := (s.source src).latched ||| f.mask } := by
          unfold State.queueNotice
          rw [if_neg (by simp [Source.calls, hpending])]
        dsimp only
        rw [hsilent, ite_self]
        rfl
    · have hcalls : Source.calls { s.source src with latched := (s.source src).latched ||| f.mask } = true := by
        simp [Source.calls, hpending, Flag.called hmask]
      rw [heq]
      dsimp only
      rw [if_pos hmask, State.queueNotice_putSource s hcalls]
      rfl
  · rw [hn.attn]
    exact attnLevel_iff _

/-! ### A break -/

theorem OnlyNotes.frame_attn {s t : State} (h : OnlyNotes s t) (ha : t.events.AttnTrue) : t = { s with
    events := { s.events with sources := t.events.sources, attn := attnLevel t.events.sources }, link := t.link } := by
  have hl : t.link = { s.link with outbound := t.link.outbound } := congrArg State.link h.frame
  rw [← ha, hl]
  exact h.frame

/-- The Event Unit at a break before it calls for notices (R180). -/
def State.breakLatched (s : State) : State :=
  let s := s.putSources (s.events.sources.map fun r => { r with noticePending := false })
  s.putSource systemSource { s.source systemSource with
    latched := (s.source systemSource).latched ||| Flag.linkBreak.mask }

theorem State.eventBreak_eq (s : State) : s.eventBreak = s.breakLatched.queueNotices := rfl

theorem State.breakLatched_source (s : State) (src : SourceNo) : s.breakLatched.source src =
    ⟨(s.source src).latched ||| (if src = systemSource then Flag.linkBreak.mask else 0#8), (s.source src).mask, false⟩ := by
  have hcleared : ∀ m, (s.putSources (s.events.sources.map fun r => { r with noticePending := false })).source m =
      { s.source m with noticePending := false } := fun m => by simp [State.source]
  simp only [State.breakLatched, State.source_putSource, hcleared]
  by_cases e : src = systemSource
  · simp [e]
  · simp [e, Ne.symm e]

/-- The records at a break (R180): LINK_BREAK latched, and every notice called for anew. -/
theorem State.eventBreak_source (s : State) (src : SourceNo) : s.eventBreak.source src =
    let flags := (s.source src).latched ||| (if src = systemSource then Flag.linkBreak.mask else 0#8)
    ⟨flags, (s.source src).mask, flags &&& (s.source src).mask != 0#8⟩ := by
  rw [State.eventBreak_eq, State.queueNotices_source, State.breakLatched_source]
  rfl

theorem State.eventBreak_attnTrue (s : State) : s.eventBreak.events.AttnTrue := State.queueNotices_attnTrue rfl

theorem State.queueNotices_noteBody (s : State) (m : SourceNo) : s.queueNotices.noteBody m = s.noteBody m := by
  refine State.noteBody_congr m ?_ ?_ (s.queueNotices_only.details m) <;> rw [State.queueNotices_source] <;> rfl

/-- Where no notice was pending, those queued are the ones pending after it. -/
theorem State.queueNotices_pending {s : State} (h : ∀ m, (s.source m).noticePending = false) :
    s.queueNotices.link = { s.link with outbound := s.link.outbound ++ (List.finRange 7).filterMap fun m =>
      if (s.queueNotices.source m).noticePending then some (.note m (s.queueNotices.noteBody m)) else none } := by
  have hcalls : ∀ m, (s.queueNotices.source m).noticePending = (s.source m).calls := fun m => by
    rw [State.queueNotices_source]
    simp [Source.told, Source.calls, h]
  simp only [hcalls, State.queueNotices_noteBody]
  rw [State.queueNotices_link, ← List.filterMap_eq_map, List.filterMap_filter]
  rfl

theorem State.eventBreak_link (s : State) : s.eventBreak.link = { s.link with
    outbound := s.link.outbound ++ (List.finRange 7).filterMap fun m =>
      if (s.eventBreak.source m).noticePending then some (.note m (s.eventBreak.noteBody m)) else none } := by
  exact State.queueNotices_pending (s := s.breakLatched) fun m => by rw [State.breakLatched_source]

theorem State.linkListens_iff (s : State) : s.linkListens = true ↔ s.held = false ∧ s.link.breakSince = none := by
  simp [State.linkListens]

/-- Settles O29: a break while the receiver listens clears the port and calls for every notice anew. -/
theorem breakClearsLink : Obligations.BreakClearsLink := by
  intro straps s
  refine ⟨fun h => ?_, fun hheld hbreak => ?_, rfl, fun _ => rfl⟩
  · have hl : ¬ s.linkListens = true := by
      rw [State.linkListens_iff]
      rintro ⟨h1, h2⟩
      rcases h with h | h
      · rw [h1] at h; cases h
      · exact h h2
    exact congrArg Host.Outcome.next (if_neg hl)
  · obtain ⟨u, hu⟩ : ∃ u : State, u = { s with
        pins := { s.pins with straps := straps }, link := LinkPort.atBreak straps (s.now - Config.breakMs) } := ⟨_, rfl⟩
    have ht : exec (.linkBreak straps) s = .next u.eventBreak := by
      rw [hu]
      exact congrArg Host.Outcome.next (if_pos (s.linkListens_iff.2 ⟨hheld, hbreak⟩))
    have hframe := (State.eventBreak_only u).frame_attn u.eventBreak_attnTrue
    have hsource := u.eventBreak_source
    have hlink := u.eventBreak_link
    generalize u.eventBreak = t at ht hframe hsource hlink
    subst hu
    exact ⟨t, ht, hframe, hsource, hlink⟩

end Sys2Proof.Machine
end

section
/-! PROOFS. The resets, the start of the part, and the start-up check (R152 to R155, R193). -/

namespace Sys2Proof.Machine

/-! ### What a reset leaves of the work in hand (R155) -/

/-- A reset acts on the physical blocks and the medium alone, and may draw a free value. -/
theorem State.interruptStore_eq (s : State) : ∃ (free : Nat) (blocks : Bank 36 PhysBlock) (medium : Medium),
    s.interruptStore = { s with free := free, store := { s.store with blocks := blocks, medium := medium } } := by
  have hblock : ∀ b p ph since, ∃ (free : Nat) (blocks : Bank 36 PhysBlock) (medium : Medium),
      s.interruptBlock b p ph since =
        { s with free := free, store := { s.store with blocks := blocks, medium := medium } } := by
    intro b p ph since
    unfold State.interruptBlock
    dsimp only
    split
    · split
      · exact ⟨_, _, _, rfl⟩
      · exact ⟨_, _, _, rfl⟩
    · exact ⟨_, _, _, rfl⟩
  unfold State.interruptStore
  split
  · split
    · exact hblock _ _ _ _
    · split <;> exact ⟨_, _, _, rfl⟩
  · exact hblock _ _ _ _
  · exact ⟨_, _, _, rfl⟩

theorem EventUnit.reset_source (cause : ResetCause) (src : SourceNo) :
    (EventUnit.reset cause).sources.get src = ⟨if src = 6 then 1#8 else 0#8, 0#8, false⟩ := by
  rw [EventUnit.reset, Bank.get_set, Bank.get_fill]
  by_cases h : src = 6
  · rw [if_pos h.symm, if_pos h]
  · rw [if_neg (Ne.symm h), if_neg h]

/-- What a power-on or pin reset leaves, field by field. -/
theorem State.toPowerOn_facts (cause : ResetCause) (straps : BitVec 3) (s : State) :
    let t := s.toPowerOn cause straps
    t.pending = s.pending ∧ t.pins = ⟨straps, s.pins.lhold⟩ ∧ (∀ n, t.line n = (s.line n).powerOn) ∧
      t.store.map = s.store.map ∧ t.store.spares = s.store.spares ∧
      t.store.settingsCondition = s.store.settingsCondition ∧ t.keys = s.keys.powerOn := by
  obtain ⟨free, blocks, medium, h⟩ := s.interruptStore_eq
  unfold State.toPowerOn
  rw [h]
  exact ⟨rfl, rfl, fun n => Bank.get_map _ _ _, rfl, rfl, rfl, rfl⟩

/-- Settles O5: POWER_ON and PIN_RESET make the same of every block, but for the cause and the straps. -/
theorem powerOnState : Obligations.PowerOnState := by
  intro c cause straps s h
  have hc : exec c s = .next (s.toPowerOn cause straps) := by
    rcases h with ⟨rfl, rfl⟩ | ⟨rfl, rfl, rfl⟩ <;> rfl
  obtain ⟨hpending, hpins, hline, hmap, hspares, hcond, hkeys⟩ := s.toPowerOn_facts cause straps
  refine ⟨_, hc, hpending, rfl, rfl, hpins, fun n => ?_, rfl, rfl, rfl, rfl, rfl, rfl, rfl, rfl, rfl, hmap, hspares, hcond,
    fun k => ?_, ?_, ?_, ?_, ?_, ?_, ?_, EventUnit.reset_source cause, rfl, rfl, rfl, rfl, rfl⟩
  · dsimp only
    rw [hline]
    exact ⟨rfl, rfl, rfl, rfl, rfl, rfl, rfl, rfl, rfl, rfl, rfl, rfl, rfl, rfl, rfl, rfl, rfl, rfl, rfl⟩
  · rw [State.key, hkeys]
    exact Bank.get_map _ _ _
  all_goals
    rw [hkeys]
    rfl

/-- What the interruption of the rewriting of `b` on `p` leaves of the medium (R153, R155). -/
theorem State.interruptBlock_written (b : LogicalNo) (p : PhysicalNo) (ph : OpPhase) (since : Nat) (s : State) :
    let t := s.interruptBlock b p ph since
    t.store.medium = s.store.medium ∧
      (ph ≠ .program ∨ s.now ≤ since → t.store.blocks = s.store.blocks) ∧
      (∀ q, q ≠ p → t.store.blocks.get q = s.store.blocks.get q) ∧
      (t.store.blocks.get p).eraseCount = (s.store.blocks.get p).eraseCount ∧
      (t.store.blocks.get p).content = (s.store.blocks.get p).content ∧
      ((t.store.blocks.get p).role = (s.store.blocks.get p).role ∨ (t.store.blocks.get p).role = .logical b) := by
  unfold State.interruptBlock
  dsimp only
  split
  · next hinside =>
    split
    · refine ⟨rfl, fun h => ?_, fun q hq => ?_, ?_, ?_, ?_⟩
      · rcases h with h | h
        · exact absurd hinside.1 h
        · exact absurd hinside.2 (Nat.not_lt.2 h)
      · rw [State.onStore_store, Store.onBlock_blocks, if_neg hq.symm]
        rfl
      all_goals simp [Store.onBlock_blocks]
    · exact ⟨rfl, fun _ => rfl, fun _ _ => rfl, rfl, rfl, .inl rfl⟩
  · exact ⟨rfl, fun _ => rfl, fun _ _ => rfl, rfl, rfl, .inl rfl⟩

/-- Settles O6: by what the store has in hand when the reset strikes. -/
theorem resetDuringStoreWork : Obligations.ResetDuringStoreWork := by
  intro c s h
  have hc : ∃ cause straps, exec c s = .next (s.toPowerOn cause straps) := by
    rcases h with ⟨straps, rfl⟩ | rfl
    · exact ⟨_, _, rfl⟩
    · exact ⟨_, _, rfl⟩
  obtain ⟨cause, straps, hc⟩ := hc
  refine ⟨_, hc, ?_⟩
  rw [State.toPowerOn_store]
  refine ⟨fun ho hr => ?_, fun o b ho ht => ?_, fun o b p buf ho ht => ?_, fun r ho hr => ?_⟩
  · simp only [State.interruptStore, ho, hr]
    exact ⟨rfl, rfl⟩
  · simp only [State.interruptStore, ho, ht]
    split <;> exact ⟨rfl, rfl⟩
  · simp only [State.interruptStore, ho, ht]
    exact s.interruptBlock_written b p o.phase o.since
  · simp only [State.interruptStore, ho, hr]
    exact s.interruptBlock_written r.b r.p r.phase r.since

/-! ### The part starts -/

theorem directOf_eq (k : KeyNo) : directOf k = if h : 16 ≤ k.val then some ⟨k.val - 16, by omega⟩ else none := by
  unfold directOf below
  split
  · rw [dif_pos (by omega)]
  · rfl

/-- A raw level against the active level of its input (R157). -/
theorem KeyScanner.rawDown_eq (ks : KeyScanner) (k : KeyNo) (raw : Bool) : ks.rawDown k raw =
    if h : 16 ≤ k.val then raw == ks.active.get ⟨k.val - 16, by omega⟩ else raw := by
  rw [KeyScanner.rawDown, directOf_eq]
  by_cases h : 16 ≤ k.val <;> simp [h]

/-- The map rebuilt names a block whose header claims the logical block (R152), and none where there is none. -/
theorem Store.rebuild_map (st : Store) (b : LogicalNo) :
    st.rebuild.map.get b = (List.finRange 36).find? (st.claims b) := Bank.get_tabulate _ b

/-- Settles O7: a held part starts; one that has started stands. -/
theorem partStarts : Obligations.PartStarts := by
  intro straps s
  refine ⟨fun hheld => congrArg Host.Outcome.next (if_neg (by simp [hheld])), fun hheld => ?_⟩
  refine ⟨s.start straps, congrArg Host.Outcome.next (if_pos hheld), fun n => ?_, fun k => ?_, fun b p h => ?_,
    fun b h p hp => ?_, fun p => ?_, ?_, rfl⟩
  · have hline : (s.start straps).line n = (s.line n).settle 0 := Bank.get_map _ _ _
    rw [hline]
    exact Line.settle_measuredAt 0 _
  · rw [← KeyScanner.rawDown_eq]
    exact Bank.get_tabulate _ k
  · have hclaims := List.find?_some ((s.store.rebuild_map b).symm.trans h)
    simpa [Store.claims] using hclaims
  · have hnone := List.find?_eq_none.1 ((s.store.rebuild_map b).symm.trans h) p (List.mem_finRange p)
    exact hnone (by simp [Store.claims, hp])
  · simp [State.start, Store.startCheck, Store.rebuild]
  · change ((List.finRange 36).filter fun p => (s.store.blocks.get p).role == .spare).Pairwise (· < ·)
    exact (List.pairwise_lt_finRange 36).filter _

/-! ### The start-up check -/

/-- Settles O8: by the map entry of the logical block, and by what its block or the spare list holds. -/
theorem blockCheckMakesSound : Obligations.BlockCheckMakesSound := by
  intro b s h
  have hnext : s.store.nextCheck.bind (below 32) = some b := by
    rw [Store.nextCheck_eq_some.2 h]
    exact below_val b
  have hexec : exec .startUpBlockCheck s = .next (s.checkBlock b) := by
    change Host.Outcome.next _ = _
    rw [hnext]
  rw [hexec]
  refine ⟨fun p slots hp hslots => ?_, fun p hp hslots => ?_, fun q rest hb hs => ?_, fun hb hs => ?_⟩
  · have hsound : s.checkBlock b = s.checkAt (b.val + 1) := by simp only [State.checkBlock, hp, hslots]
    rw [hsound]
    rfl
  · simp only [State.checkBlock, hp, hslots]
    simp only [State.clearBlock, State.rewriteAt, State.onStore, Store.onBlock, PhysBlock.erase, State.latchStore]
  · simp only [State.checkBlock, hb, hs]
    simp only [State.clearBlock, State.rewriteOnSpare, hs, State.rewriteAt, State.onStore, Store.onBlock, Store.takeSpare,
      PhysBlock.erase, State.latchStore]
  · have hdead : s.checkBlock b = s.checkAt (b.val + 1) := by simp only [State.checkBlock, hb, hs]
    rw [hdead]
    rfl

end Sys2Proof.Machine
end

section
/-! PROOFS. The end of the start-up check (R154): what it loads from a VALID settings block, and what it keeps of the
defaults otherwise. -/

namespace Sys2Proof.Machine

/-- The condition the check finds a settings block in (R151). -/
def Medium.condition : Medium → Condition
  | .erased => .erased
  | .valid _ => .valid
  | .invalid => .invalid

/-! ### Keys -/

/-- Whether a load of active levels turns the level of a key (R154). -/
def KeyScanner.relevels (ks : KeyScanner) (active : Bank 4 Bool) (k : KeyNo) : Bool :=
  if h : 16 ≤ k.val then ks.active.get ⟨k.val - 16, by omega⟩ != active.get ⟨k.val - 16, by omega⟩ else false

/-- A key as a load of active levels leaves it (R154, R168). -/
theorem KeyScanner.markAll_key (active : Bank 4 Bool) (ks : KeyScanner) (k : KeyNo) :
    let deb := if ks.relevels active k then !(ks.all.get k).deb else (ks.all.get k).deb
    (ks.markAll active).all.get k = { ks.all.get k with deb := deb, cond := if deb then .marked else .up } := by
  have hflip : (match directOf k with
      | none => false
      | some e => ks.active.get e != active.get e) = ks.relevels active k := by
    rw [directOf_eq, KeyScanner.relevels]
    by_cases h : 16 ≤ k.val <;> simp [h]
  have hdeb : ∀ b f : Bool, (b != f) = if f then !b else b := by decide
  dsimp only
  rw [← hdeb, ← hflip]
  exact Bank.get_tabulate _ k

theorem KeyScanner.markAll_same_key (ks : KeyScanner) (k : KeyNo) : (ks.markAll ks.active).all.get k =
    { ks.all.get k with cond := if (ks.all.get k).deb then .marked else .up } := by
  have hstays : ks.relevels ks.active k = false := by simp [KeyScanner.relevels]
  rw [KeyScanner.markAll_key, hstays]
  rfl

/-! ### Lines -/

/-- A line as VALID settings leave it before it is measured anew (R29). -/
theorem Line.comeUp_eq (p : Profile) (enabled : Bool) (l : Line) : l.comeUp p enabled =
    { l with
      committed := p
      pendingProfile := p
      st := if p.startEnabled || enabled then .idle else l.st
      ring := if p.startEnabled || enabled then { l.ring with burst := false, startDue := none, gapDue := none }
        else l.ring } := by
  unfold Line.comeUp
  split <;> rfl

/-! ### The load -/

/-- The state with everything of a settings block loaded but the calls for notices (R154). -/
def State.loaded (c : Settings) (s : State) : State :=
  let s := { s with cadence := c.cadence }.linesComeUp c
  let s := s.onKeys fun ks => { ks.markAll c.active with debounceMs := c.debounceMs }
  let s := s.onKeys fun ks => { ks with all := Bank.tabulate fun k => { ks.all.get k with binding := c.bindings.get k } }
  s.putSources (Bank.tabulate fun src => { s.source src with mask := c.masks.get src })

/-- Lines written one after the other leave all else. -/
theorem State.eachLine_onLine_frame (f : LineNo → State → Line → Line) (s : State) :
    (s.eachLine fun n u => u.onLine n (f n u)) =
      { s with lines := (s.eachLine fun n u => u.onLine n (f n u)).lines } := by
  have hlines : ∀ L : Bank 4 Line, ({ s.eachLine (fun n u => u.onLine n (f n u)) with lines := L } : State) =
      { s with lines := L } := fun _ => rfl
  exact hlines _

/-- The load, field by field. -/
theorem State.loaded_eq (c : Settings) (s : State) : s.loaded c = { s with
    lines := (State.linesComeUp c { s with cadence := c.cadence }).lines
    cadence := c.cadence
    keys := { s.keys.markAll c.active with
      debounceMs := c.debounceMs
      all := Bank.tabulate fun k => { (s.keys.markAll c.active).all.get k with binding := c.bindings.get k } }
    events := { s.events with
      sources := Bank.tabulate fun src => { s.source src with mask := c.masks.get src }
      attn := attnLevel (Bank.tabulate fun src => { s.source src with mask := c.masks.get src }) } } := by
  have hup : State.linesComeUp c { s with cadence := c.cadence } = { s with
      cadence := c.cadence, lines := (State.linesComeUp c { s with cadence := c.cadence }).lines } :=
    State.eachLine_onLine_frame (fun n _ => Line.comeUp (c.profiles.get n) (c.enabled.get n)) _
  unfold State.loaded
  generalize State.linesComeUp c { s with cadence := c.cadence } = u at hup
  rw [hup]
  rfl

theorem OnlyNotes.line {s t : State} (h : OnlyNotes s t) (n : LineNo) : t.line n = s.line n := by
  rw [State.line, State.line, h.lines]

theorem OnlyNotes.key {s t : State} (h : OnlyNotes s t) (k : KeyNo) : t.key k = s.key k := by
  rw [State.key, State.key, h.keys]

theorem State.loadSettings_eq (c : Settings) (s : State) : s.loadSettings c = (s.loaded c).queueNotices := rfl

theorem State.loaded_source (c : Settings) (s : State) (src : SourceNo) :
    (s.loaded c).source src = { s.source src with mask := c.masks.get src } := Bank.get_tabulate _ src

theorem State.loaded_line (c : Settings) (s : State) (n : LineNo) :
    (s.loaded c).line n = ((s.line n).comeUp (c.profiles.get n) (c.enabled.get n)).settle s.now :=
  State.eachLine_onLine (fun n => Line.comeUp (c.profiles.get n) (c.enabled.get n)) { s with cadence := c.cadence } n

theorem State.loaded_key (c : Settings) (s : State) (k : KeyNo) :
    (s.loaded c).key k = { (s.keys.markAll c.active).all.get k with binding := c.bindings.get k } :=
  Bank.get_tabulate _ k

/-- The state once the store is READY, before the settings block is looked at (R154). -/
def State.checked (s : State) : State :=
  s.onStore fun st => { st with check := none, st := .ready, settingsCondition := st.medium.condition }

theorem State.endCheck_erased {s : State} (h : s.store.medium = .erased) :
    s.endCheck = s.checked.onKeys fun ks => ks.markAll ks.active := by
  simp only [State.endCheck, State.checked, State.onStore, h]
  rfl

theorem State.endCheck_invalid {s : State} (h : s.store.medium = .invalid) :
    s.endCheck = (s.checked.latchStore .settingsLost).onKeys fun ks => ks.markAll ks.active := by
  simp only [State.endCheck, State.checked, State.onStore, h]
  rfl

theorem State.endCheck_valid {s : State} {c : Settings} (h : s.store.medium = .valid c) :
    s.endCheck = (s.checked.loaded c).queueNotices := by
  simp only [State.endCheck, State.checked, State.onStore, h]
  rfl

/-- What the end of the check leaves in every case. -/
theorem State.endCheck_frame (s : State) : s.endCheck.store = { s.store with
      check := none, st := .ready, settingsCondition := s.store.medium.condition } ∧
    s.endCheck.jobs = s.jobs ∧ s.endCheck.pool = s.pool := by
  cases h : s.store.medium with
  | erased =>
    rw [State.endCheck_erased h, ← h]
    exact ⟨rfl, rfl, rfl⟩
  | invalid =>
    rw [State.endCheck_invalid h, State.latchStore, ← h]
    exact ⟨State.latch_store _ _ _, State.latch_jobs _ _ _, State.latch_pool _ _ _⟩
  | valid c =>
    have hnotes := (s.checked.loaded c).queueNotices_only
    rw [State.endCheck_valid h, hnotes.store, hnotes.jobs, hnotes.pool, ← h, State.loaded_eq]
    exact ⟨rfl, rfl, rfl⟩

/-- The note of a source under loaded masks (R178). -/
theorem State.loaded_noteBody (c : Settings) (s : State) (src : SourceNo) : (s.loaded c).noteBody src =
    [finCode src, byteOf (topBit ((s.source src).latched &&& c.masks.get src)), (s.source src).latched] ++
      (s.loaded c).queueNotices.details src := by
  rw [(s.loaded c).queueNotices_only.details src, State.noteBody, State.loaded_source]

/-- The notices the loaded masks call for join the queue in order of source number (R178). -/
theorem State.loaded_link (c : Settings) (s : State) : (s.loaded c).queueNotices.link = { s.link with
    outbound := s.link.outbound ++ ((List.finRange 7).filter fun src =>
      !(s.source src).noticePending && (s.source src).latched &&& c.masks.get src != 0#8).map fun src =>
        .note src ((s.loaded c).noteBody src) } := by
  have hcalls : ∀ src, ((s.loaded c).source src).calls =
      (!(s.source src).noticePending && (s.source src).latched &&& c.masks.get src != 0#8) := fun src => by
    rw [State.loaded_source]
    rfl
  have hlink : (s.loaded c).link = s.link := by rw [State.loaded_eq]
  rw [State.queueNotices_link, hlink]
  simp only [hcalls]

/-- The Event Unit with the loaded masks (R178). -/
theorem State.loaded_events (c : Settings) (s : State) :
    (s.loaded c).queueNotices.events = { s.events with
      sources := (s.loaded c).queueNotices.events.sources
      attn := (List.finRange 7).any fun src => (s.source src).latched &&& c.masks.get src != 0#8 } := by
  have hattn : (s.loaded c).queueNotices.events.attn =
      (List.finRange 7).any fun src => (s.source src).latched &&& c.masks.get src != 0#8 := by
    have htrue : (s.loaded c).queueNotices.events.AttnTrue := State.queueNotices_attnTrue rfl
    rw [htrue, attnLevel_eq]
    refine congrArg _ (funext fun src => ?_)
    have hsource := (s.loaded c).queueNotices_source src
    rw [State.loaded_source] at hsource
    change (((s.loaded c).queueNotices.source src).latched &&& ((s.loaded c).queueNotices.source src).mask != 0#8) = _
    rw [hsource]
    rfl
  have hframe := congrArg State.events (s.loaded c).queueNotices_only.frame
  have hevents : (s.loaded c).events = { s.events with
      sources := (s.loaded c).events.sources, attn := (s.loaded c).events.attn } := by rw [State.loaded_eq]
  dsimp only at hframe
  rw [hevents, hattn] at hframe
  exact hframe

/-- Settles O9: by the condition of the settings block. -/
theorem checkEndLoadsSettings : Obligations.CheckEndLoadsSettings := by
  intro s h
  have hexec : exec .startupCheckEnd s = .next s.endCheck :=
    congrArg Host.Outcome.next (if_pos (Store.nextCheck_eq_some.2 h))
  obtain ⟨hstore, hjobs, hpool⟩ := s.endCheck_frame
  refine ⟨_, hexec, by rw [hstore], by rw [hstore], by rw [hstore], by rw [hstore], by rw [hstore], hjobs, hpool,
    fun hm => ?_, fun hm => ?_, fun hm k => ?_, fun c hm => ?_⟩
  · rw [State.endCheck_erased hm]
    exact ⟨rfl, rfl, rfl, rfl, congrArg Medium.condition hm⟩
  · rw [State.endCheck_invalid hm]
    exact ⟨State.latch_lines _ _ _, State.latch_cadence _ _ _,
      (congrArg Store.settingsCondition (State.latch_store _ _ _)).trans (congrArg Medium.condition hm),
      State.latch_latched _ _ s.checked⟩
  · rcases hm with hm | hm
    · rw [State.endCheck_erased hm]
      exact s.keys.markAll_same_key k
    · rw [State.endCheck_invalid hm]
      have hkeys : (s.checked.latchStore .settingsLost).keys = s.keys := State.latch_keys _ _ _
      rw [State.key, State.onKeys_keys, hkeys]
      exact s.keys.markAll_same_key k
  · have hnotes := (s.checked.loaded c).queueNotices_only
    rw [State.endCheck_valid hm]
    refine ⟨?_, ?_, fun n => ?_, ?_, fun k => ?_, fun src => ?_, ?_, ?_⟩
    · rw [hnotes.store, State.loaded_eq]
      exact congrArg Medium.condition hm
    · rw [hnotes.cadence, State.loaded_eq]
    · rw [hnotes.line, State.loaded_line, Line.comeUp_eq]
      exact Line.settle_measuredAt _ _
    · rw [hnotes.keys, State.loaded_eq]
      rfl
    · rw [hnotes.key, State.loaded_key, KeyScanner.markAll_key]
      rfl
    · rw [State.queueNotices_source, State.loaded_source]
      rfl
    · exact s.checked.loaded_events c
    · rw [State.loaded_link]
      simp only [State.loaded_noteBody]
      rfl

end Sys2Proof.Machine
end

section
/-! PROOFS. The requests that report, the transmitter, and the encodings they carry. -/

namespace Sys2Proof.Machine

/-! ### Requests taken, from the command to the reply -/

section requests
variable {s t : State} {c : Instr} {k tag : Byte} {b r : List Byte}

theorem State.TakesFrames.next_ok (h : s.TakesFrames) (hx : exec c s = .next (s.arrive k tag b))
    (e : answerRequest ⟨k, tag, b⟩ s = (t, .ok r)) : exec c s = .next (t.replied tag (0#8 :: r)) := by
  rw [hx, h.ok e]

theorem State.TakesFrames.next_accepted (h : s.TakesFrames) (hx : exec c s = .next (s.arrive k tag b))
    (e : answerRequest ⟨k, tag, b⟩ s = (t, .accepted r)) : exec c s = .next (t.replied tag (1#8 :: r)) := by
  rw [hx, h.accepted e]

theorem State.TakesFrames.next_refused (h : s.TakesFrames) {x : RefusalCause} {i : Nat}
    (hx : exec c s = .next (s.arrive k tag b)) (e : answerRequest ⟨k, tag, b⟩ s = (t, .refused x i)) :
    exec c s = .next (t.replied tag (refusal x i)) := by
  rw [hx, h.refused e]

/-- A report: OK with its result, nothing changed. -/
theorem State.TakesFrames.next_answered (h : s.TakesFrames) {result : List Byte}
    (hx : exec c s = .next (s.arrive k tag b)) (e : answerRequest ⟨k, tag, b⟩ s = answered result s)
    (hr : 0#8 :: result = r) : exec c s = .next (s.replied tag r) :=
  hr ▸ h.next_ok hx e

end requests

theorem counted_singleton {α : Type} (f : α → Byte) (xs : List α) :
    counted (fun a => [f a]) xs = byteOf xs.length :: xs.map f := by
  simp [counted, List.map_eq_flatMap]

theorem byteAt_byteOf {k : Nat} (h : k ≤ 255) (r : List Byte) : byteAt (byteOf k :: r) 0 = k := byteOf_toNat h

/-! ### Reports -/

theorem State.statusResult_eq (s : State) : 0#8 :: s.statusResult =
    [0#8, s.store.st.code, optByte (fun o => o.kind.code) s.store.op, byteOf s.link.settings.speed,
       onOff s.link.settings.even] ++
      (List.finRange 4).flatMap (fun n =>
        [(s.line n).st.code, (s.line n).cursor.sub.code, onOff (s.line n).postAnswer,
         (s.line n).manual.activity.code, (s.line n).supervision.code, byteOf ((s.queue n).head?.getD 0),
         byteOf (s.queue n).length]) ++
      [byteOf (24 - s.jobs.table.length), byteOf s.jobs.finished.length] ++
      (s.pool.gens.get 0).encode ++ (s.pool.gens.get 1).encode ++
      byteOf s.pool.wait.length :: s.pool.wait.flatMap (fun c => [finCode c.line, c.symbol.code]) ++
      (List.finRange 4).flatMap (fun n =>
        [onOff (s.line n).pc.listening, onOff (s.line n).pc.filtered] ++ classCode (s.line n).pc.current ++
        [onOff (s.line n).pc.ringbackSeen, byteOf (s.line n).pc.unmatched, answerCode (s.line n).pc.lastAnswer,
         byteOf (s.line n).pc.history.length] ++
        (s.line n).pc.history.flatMap fun i => onOff i.on :: wordOf i.units) := by
  have hline : s.lineBlock = fun n => [(s.line n).st.code, (s.line n).cursor.sub.code, onOff (s.line n).postAnswer,
      (s.line n).manual.activity.code, (s.line n).supervision.code, byteOf ((s.queue n).head?.getD 0),
      byteOf (s.queue n).length] := rfl
  simp only [State.statusResult, LinkSettings.encode, Classifier.report, counted, hline, List.append_assoc,
    List.cons_append, List.nil_append]

theorem JobEngine.listing_eq (e : JobEngine) : e.listing =
    (List.finRange 4).flatMap (fun n => byteOf (e.queues.get n).length :: (e.queues.get n).map byteOf) ++
      byteOf e.finished.length :: e.finished.map byteOf ++ [byteOf (24 - e.table.length), byteOf e.lastId] := by
  simp only [JobEngine.listing, counted_singleton]

theorem Store.statusResult_eq (st : Store) : 0#8 :: st.statusResult = [0#8, st.st.code] ++
    (match st.op with
     | none => [absent, absent, absent, absent, absent]
     | some o => [o.kind.code, optByte finCode o.index, o.target.logical, o.target.physical, o.phase.code]) ++
    st.map.items.map (optByte finCode) ++ [byteOf (st.blocks.items.countP fun p => p.role == .retired)] ++
    st.blocks.items.flatMap (fun p => wordOf p.eraseCount) ++ [st.settingsCondition.code] ++
    byteOf st.spares.length :: st.spares.map finCode := by
  simp only [Store.statusResult, counted_singleton]
  cases st.op <;> rfl

/-- Settles O11: each snapshot, item by item. -/
theorem reportsAnswer : Obligations.ReportsAnswer := by
  intro tag s h
  refine ⟨?_, ?_, ?_⟩
  · exact h.next_answered rfl (h.bare fun s => answered s.statusResult s) s.statusResult_eq
  · exact h.next_answered rfl (h.bare fun s => answered s.jobs.listing s) (congrArg _ s.jobs.listing_eq)
  · exact h.next_answered rfl (h.bare fun s => answered s.store.statusResult s) s.store.statusResult_eq

theorem readCadence_answer {s : State} (h : s.TakesRequests) (tag : Byte) (k : SlotNo) :
    answerRequest ⟨0x31#8, tag, [finCode k]⟩ s = answered (templateResult k (s.cadence.get k)) s :=
  h.numbered (by decide) k _

theorem readEntry_answer {s : State} (h : s.TakesRequests) (tag : Byte) (e : EntryNo) :
    answerRequest ⟨0x40#8, tag, [finCode e]⟩ s = if s.store.covers (blockOf e) then refuse .busy s
      else answered (entryResult e (s.store.dead (blockOf e)) (s.store.entry e)) s := by
  change answerReadEntry [finCode e] s = _
  rw [answerReadEntry, h.numbered (by decide) e]

theorem readProfile_answer {s : State} (h : s.TakesRequests) (tag : Byte) (n : LineNo) :
    answerRequest ⟨0x11#8, tag, [finCode n]⟩ s = answered ([(s.line n).st.code] ++ (s.line n).committed.encode ++
      (s.line n).pendingProfile.encode ++ [onOff ((s.line n).committed != (s.line n).pendingProfile)]) s := by
  change answerReadProfile [finCode n] s = _
  rw [answerReadProfile, h.numbered (by decide) n]

theorem readBinding_answer {s : State} (h : s.TakesRequests) (tag : Byte) (k : KeyNo) :
    answerRequest ⟨0x51#8, tag, [finCode k]⟩ s =
      answered ((s.key k).binding.encode ++ [(s.key k).live.code, (s.key k).cond.code]) s := by
  change answerReadBinding [finCode k] s = _
  rw [answerReadBinding, h.numbered (by decide) k]

/-- An entry that is VALID stands in a block that is not dead (R137). -/
theorem Store.dead_of_valid {st : Store} {e : EntryNo} {f : EntryFields} (h : st.entry e = .valid f) :
    st.dead (blockOf e) = false := by
  unfold Store.dead
  cases hm : st.map.get (blockOf e) with
  | some p => rfl
  | none => simp [Store.entry, Store.slots, hm, blankSlots] at h

theorem Store.entry_of_dead {st : Store} {e : EntryNo} (h : st.map.get (blockOf e) = none) : st.entry e = .blank := by
  simp [Store.entry, Store.slots, h, blankSlots]

/-- A request that names a job by an identifier in range is carried out on the record it finds (R95). -/
theorem State.TakesRequests.named {s : State} (h : s.TakesRequests) {id : Nat} (h1 : 1 ≤ id) (h2 : id ≤ 255)
    (act : Job → State → State × Reply) : onNamedJob [byteOf id] act s = match s.job id with
      | none => refuse .noSuchJob s
      | some j => act j s := by
  have hbyte : byteAt [byteOf id] 0 = id := byteAt_byteOf h2 []
  rw [onNamedJob, hbyte]
  exact h.checked rfl (by simp; omega) _

/-- Settles O12: each record, by what stands in it. -/
theorem recordReportsAnswer : Obligations.RecordReportsAnswer := by
  intro tag s h
  refine ⟨fun n => ?_, fun k => ⟨fun hk => ?_, fun c m hk => ?_, fun c g y hk => ?_⟩,
    fun e => ⟨fun hc => ?_, fun hc hm => ?_, fun hc hm he => ?_, fun f hc he => ?_⟩, fun k => ?_,
    fun id h1 h2 => ⟨fun hj => ?_, fun j hj => ?_⟩⟩
  · refine h.next_answered rfl (readProfile_answer h tag n) ?_
    have hpending : onOff ((s.line n).committed != (s.line n).pendingProfile) =
        if (s.line n).committed = (s.line n).pendingProfile then 0#8 else 1#8 := by
      by_cases e : (s.line n).committed = (s.line n).pendingProfile <;> simp [onOff, e]
    rw [hpending]
    simp
  · exact h.next_answered rfl (readCadence_answer h tag k) (by rw [hk]; rfl)
  · exact h.next_answered rfl (readCadence_answer h tag k) (by rw [hk]; rfl)
  · exact h.next_answered rfl (readCadence_answer h tag k) (by rw [hk]; simp [templateResult, counted])
  · exact h.next_refused rfl ((readEntry_answer h tag e).trans (if_pos hc))
  · refine h.next_answered rfl ((readEntry_answer h tag e).trans (if_neg (by simp [hc]))) ?_
    rw [Store.entry_of_dead hm]
    simp [entryResult, Store.dead, hm, onOff]
  · refine h.next_answered rfl ((readEntry_answer h tag e).trans (if_neg (by simp [hc]))) ?_
    obtain ⟨p, hp⟩ := Option.ne_none_iff_exists'.1 hm
    rw [he]
    simp [entryResult, Store.dead, hp, onOff]
  · refine h.next_answered rfl ((readEntry_answer h tag e).trans (if_neg (by simp [hc]))) ?_
    rw [he, Store.dead_of_valid he]
    simp [entryResult, counted_singleton, onOff]
  · exact h.next_answered rfl (readBinding_answer h tag k) rfl
  · refine h.next_refused rfl ((h.named h1 h2 _).trans ?_)
    rw [hj]
    rfl
  · refine h.next_answered rfl ((h.named h1 h2 _).trans ?_) rfl
    rw [hj]

/-! ### The transmitter -/

theorem State.canBegin_of_blocked {s : State} (h : s.held = true ∨ s.link.tx ≠ .idle ∨ s.pins.lhold = true ∨
    s.link.breakSince ≠ none) : ¬ s.canBegin = true := by
  rw [State.canBegin_iff]
  rintro ⟨h1, h2, -, h4, h5⟩
  simp [h1, h2, h4, h5] at h

/-- One frame alone is taken where one reply has left room for one (R185). -/
theorem State.drain_one {s : State} {f : Frame} {rest : List Frame} (hi : s.link.inbound = f :: rest)
    (hr : s.link.replies = 2) : s.drain 2 = (s.onLink fun k => { k with inbound := rest }).takeFrame f := by
  have hfull : ((s.onLink fun k => { k with inbound := rest }).takeFrame f).link.replies = 3 := by
    rw [State.takeFrame_replies]
    exact congrArg (· + 1) hr
  have hroom : s.link.replies < 3 := by omega
  have hstop : ∀ u : State, u.link.replies = 3 → u.drain 1 = u := by
    intro u hu
    unfold State.drain
    split
    · rfl
    · rw [if_neg (by omega)]
  rw [State.drain, hi]
  dsimp only
  rw [if_pos hroom, hstop _ hfull]

theorem State.drain_empty {s : State} (hi : s.link.inbound = []) (fuel : Nat) : s.drain fuel = s := by
  cases fuel with
  | zero => rfl
  | succ n => rw [State.drain, hi]

theorem State.beginFrame_eq {s u : State} {r : OutRecord} {rest : List OutRecord} (h : s.link.outbound = r :: rest)
    (hu : u = s.onLink fun k => { k with outbound := rest, tx := .sending r r.frame }) :
    s.beginFrame = if r.isReply then u.drain 2 else u := by
  rw [State.beginFrame, h, hu]

theorem setLink_answer {s : State} (tag : Byte) {speed par : Nat} (h1 : speed ≤ 255) (h2 : par ≤ 255) :
    answerRequest ⟨0x03#8, tag, [byteOf speed, byteOf par]⟩ s =
      checked true [speed ≤ 4, par ≤ 1] (fun s => (s, .okSettings ⟨speed, par == 1⟩)) s := by
  have hspeed : byteAt [byteOf speed, byteOf par] 0 = speed := byteAt_byteOf h1 _
  have hpar : byteAt [byteOf speed, byteOf par] 1 = par := byteAt_byteOf h2 []
  change answerSetLink [byteOf speed, byteOf par] s = _
  unfold answerSetLink
  rw [hspeed, hpar]
  rfl

/-- Settles O13: the queue's head to TXD, the frame that waits for it, and the settings a SET LINK reply carries. -/
theorem transmitterSends : Obligations.TransmitterSends := by
  refine ⟨fun tag speed par s h h1 h2 => ⟨fun hs hp => ?_, fun hs => ?_, fun hs hp => ?_⟩,
    fun r rest s ho => ⟨fun hb => ?_, fun hheld htx hl hbr => ?_⟩, fun s ho => ?_, fun s htx => ?_,
    fun tag body bytes p s htx => ?_, fun src body bytes s htx => ?_⟩
  · have hcode : onOff (par == 1) = byteOf par := by
      rcases Nat.le_one_iff_eq_zero_or_eq_one.1 hp with rfl | rfl <;> rfl
    have ha := (setLink_answer (s := s) tag h1 h2).trans (h.checked rfl (by simp [hs, hp]) _)
    change Host.Outcome.next (s.arrive _ _ _) = _
    rw [h.arrive, ha, ← hcode]
    rfl
  · refine h.next_refused rfl ((setLink_answer tag h1 h2).trans ?_)
    simp [checked, firstFailure, Nat.not_le.2 hs, badValue]
  · refine h.next_refused rfl ((setLink_answer tag h1 h2).trans ?_)
    simp [checked, firstFailure, hs, Nat.not_le.2 hp, badValue]
  · exact congrArg Host.Outcome.next (if_neg (State.canBegin_of_blocked hb))
  · have hcan : s.canBegin = true := s.canBegin_iff.2 ⟨hheld, htx, by simp [ho], hl, hbr⟩
    have hexec : exec .frameBegin s = .next s.beginFrame := congrArg Host.Outcome.next (if_pos hcan)
    obtain ⟨u, hu⟩ : ∃ u, u = s.onLink fun k => { k with outbound := rest, tx := .sending r r.frame } := ⟨_, rfl⟩
    have hinbound : u.link.inbound = s.link.inbound := by rw [hu, State.onLink_link]
    have hout : u.link.outbound = rest := by rw [hu, State.onLink_link]
    rw [hexec, State.beginFrame_eq ho hu]
    refine ⟨fun hnone => ?_, fun f fs hreply hi hfull => ?_⟩
    · have hstays : (if r.isReply then u.drain 2 else u) = u := by
        rcases hnone with hnote | hi
        · rw [if_neg (by simp [hnote])]
        · rw [State.drain_empty (hinbound.trans hi), ite_self]
      rw [hstays, hu]
      rfl
    · have hroom : u.link.replies = 2 := by
        have hcount : s.link.replies = rest.countP OutRecord.isReply + 1 := by
          rw [LinkPort.replies, ho, List.countP_cons_of_pos hreply]
        rw [LinkPort.replies, hout]
        omega
      rw [if_pos hreply, State.drain_one (hinbound.trans hi) hroom, hu]
      rfl
  · exact congrArg Host.Outcome.next (if_neg (by simp [State.canBegin_iff, ho]))
  · change Host.Outcome.next _ = _
    rw [htx]
  · change Host.Outcome.next _ = _
    rw [htx]
    rfl
  · change Host.Outcome.next _ = _
    rw [htx]
    rfl

end Sys2Proof.Machine
end

section
/-! PROOFS. EVENTS and SET MASK (R175, R176), RESET ENGINE (R192). -/

namespace Sys2Proof.Machine

/-! ### EVENTS and SET MASK -/

theorem byteAt_fin {n : Nat} (hn : n ≤ 256) (i : Fin n) (r : List Byte) : below n (byteAt (finCode i :: r) 0) = some i := by
  rw [byteAt_finCode hn, below_val]

theorem events_answer (tag : Byte) (src : SourceNo) (s : State) :
    answerRequest ⟨0x05#8, tag, [finCode src]⟩ s = (s.clearSource src, .ok (s.eventsResult src)) := by
  change answerEvents [finCode src] s = _
  have hlength : [finCode src].length = 1 := rfl
  rw [answerEvents, if_pos hlength, byteAt_fin (by decide)]

theorem State.queueNotice_silent {src : SourceNo} {s : State} (h : (s.source src).calls = false) :
    s.queueNotice src = s := by
  unfold State.queueNotice
  rw [if_neg (by simp [h])]

theorem setMask_answer (tag : Byte) (src : SourceNo) (m : Byte) (s : State) :
    answerRequest ⟨0x06#8, tag, [finCode src, m]⟩ s =
      checked true [decide (src.val < 7), m &&& ~~~(flagsOf src) == 0#8] (fun s => (s.setMask src m, .ok [])) s := by
  change answerSetMask [finCode src, m] s = _
  unfold answerSetMask maskFits
  rw [byteAt_fin (by decide), byteAt_finCode (by decide)]
  rfl

/-- Settles O15: EVENTS clears its source; the new mask of SET MASK calls for a notice or none. -/
theorem eventRequestsAct : Obligations.EventRequestsAct := by
  refine ⟨fun tag src s h => ?_, fun tag src m s h => ⟨fun hm => ?_, fun hm => ?_⟩⟩
  · refine ⟨s.clearSource src, h.next_ok rfl (events_answer tag src s), ?_, fun m hm => ?_, rfl, rfl⟩
    · exact State.source_putSource_self src _ s
    · exact State.source_putSource_ne _ s hm.symm
  · refine h.next_refused rfl ((setMask_answer tag src m s).trans ?_)
    have hsrc : decide (src.val < 7) = true := decide_eq_true src.isLt
    have hbad : (m &&& ~~~(flagsOf src) == 0#8) = false := by simpa using hm
    rw [hsrc, hbad]
    rfl
  · have hdone : answerRequest ⟨0x06#8, tag, [finCode src, m]⟩ s = (s.setMask src m, .ok []) :=
      (setMask_answer tag src m s).trans (h.checked rfl (by simp [hm]) _)
    rw [h.next_ok rfl hdone]
    refine ⟨fun hquiet => ?_, fun hp hcall => ?_⟩
    · have hsilent : Source.calls { s.source src with mask := m } = false := by
        rcases hquiet with hp | hl <;> simp [Source.calls, *]
      rw [State.setMask, State.queueNotice_silent (by rwa [State.source_putSource_self])]
    · have hcalls : Source.calls { s.source src with mask := m } = true := by simp [Source.calls, hp, hcall]
      rw [State.setMask, State.queueNotice_putSource s hcalls]

/-! ### The engine reset -/

/-- The engine reset of every block but the Event Unit (R192). -/
def State.engineCleared (s : State) : State :=
  let s := { s with pool := Pool.empty }.eachLine fun n s => s.onLine n (Line.engineReset s.now)
  (s.onJobs JobEngine.engineReset).onKeys KeyScanner.engineReset

theorem State.engineReset_eq (s : State) : s.engineReset = s.engineCleared.eventEngineReset := rfl

theorem State.engineCleared_eq (s : State) : s.engineCleared = { s with
    lines := s.engineCleared.lines, pool := Pool.empty, jobs := s.jobs.engineReset, keys := s.keys.engineReset } := by
  have hlines := State.eachLine_onLine_frame (fun _ s => Line.engineReset s.now) { s with pool := Pool.empty }
  unfold State.engineCleared
  generalize ({ s with pool := Pool.empty } : State).eachLine (fun n s => s.onLine n (Line.engineReset s.now)) = u at hlines
  dsimp only
  rw [hlines]
  rfl

theorem State.engineCleared_line (s : State) (n : LineNo) :
    s.engineCleared.line n = ((s.line n).engineReset s.now).settle s.now := by
  change (({ s with pool := Pool.empty } : State).eachLine fun n s => s.onLine n (Line.engineReset s.now)).line n = _
  unfold State.eachLine State.onLine
  fin_cases n <;> simp [State.line]

theorem State.engineCleared_source (s : State) (src : SourceNo) : s.engineCleared.source src = s.source src := by
  rw [State.engineCleared_eq]
  rfl

/-- A line not DISABLED at an engine reset (R30, R172). -/
theorem Line.engineReset_eq (now : Nat) {l : Line} (h : l.st ≠ .disabled) : l.engineReset now = { l with
    st := .releasing
    cursor := { l.cursor with sendProgram := [], sub := .none, pulses := 0 }
    postAnswer := false
    supervision := .off
    manual := Manual.idle
    attempt := none
    timers := { LineTimers.stopped with guard := some (now + l.committed.guardMs) }
    ring := ⟨l.ring.pin, false, none, none, 0, none⟩
    pc := { l.pc with listening := false }
    lastClass := none, lastCause := none, lastJob := none } := by
  rw [Line.engineReset]
  exact if_neg h

/-- The Event Unit at an engine reset but for the flag RESET (R179). -/
def State.eventsReset (s : State) : State :=
  { s.clearFive with events := { s.clearFive.events with resetCause := .engine } }

theorem State.eventEngineReset_eq (s : State) : s.eventEngineReset = s.eventsReset.latch systemSource .reset := rfl

theorem State.eventsReset_source (s : State) (src : SourceNo) : s.eventsReset.source src =
    if src.val < 5 then { s.source src with latched := 0#8, noticePending := false } else s.source src :=
  Bank.get_tabulate _ src

theorem State.eventsReset_outbound (s : State) : s.eventsReset.link.outbound = s.link.outbound.filter fun r => match r with
    | .reply _ _ _ => true
    | .note src _ => decide (5 ≤ src.val) := by
  have hnote : ∀ src : SourceNo, (!(src == 0 || src == 1 || src == 2 || src == 3 || src == 4)) = decide (5 ≤ src.val) := by
    decide
  refine List.filter_congr fun r _ => ?_
  cases r with
  | reply => rfl
  | note src body => exact hnote src

/-- Only the records, ATTN, the reset cause and the outbound queue are the Event Unit's (R179). -/
theorem State.eventEngineReset_frame (s : State) : s.eventEngineReset = { s with
    events := { s.events with
      sources := s.eventEngineReset.events.sources, attn := s.eventEngineReset.events.attn, resetCause := .engine }
    link := { s.link with outbound := s.eventEngineReset.link.outbound } } := by
  have hlatch := (State.latch_only systemSource .reset s.eventsReset).frame
  rw [← State.eventEngineReset_eq] at hlatch
  exact hlatch

theorem State.latch_attnTrue (src : SourceNo) (f : Flag) {s : State} (h : s.events.AttnTrue) :
    (s.latch src f).events.AttnTrue := by
  rw [State.latch_eq]
  split
  · exact h
  · dsimp only
    split
    · exact State.queueNotice_attnTrue _ rfl
    · rfl

theorem topBit_of_zero {b : Byte} (h : b.getLsbD 0 = true) : topBit b = 0 := by
  simp [topBit, List.range_succ_eq_map, h]

/-- The notice of RESET (R173): where RESET was not latched, is in the mask, and no notice is pending. -/
theorem State.latch_reset (s : State) :
    let sys := s.source systemSource
    let called := sys.latched.getLsbD 0 = false ∧ sys.mask.getLsbD 0 = true ∧ sys.noticePending = false
    let t := s.latch systemSource .reset
    (called → (t.source systemSource).noticePending = true ∧ t.link.outbound = s.link.outbound ++
      [OutRecord.note systemSource ([6#8, 0#8, sys.latched ||| 1#8] ++ t.details systemSource)]) ∧
    (¬ called → (t.source systemSource).noticePending = sys.noticePending ∧ t.link.outbound = s.link.outbound) := by
  obtain ⟨hstands, hnew, -⟩ := flagLatches systemSource .reset s
  dsimp only
  refine ⟨fun ⟨hl, hm, hp⟩ => ?_, fun hc => ?_⟩
  · have htop : topBit (((s.source systemSource).latched ||| 1#8 <<< Flag.reset.bit) &&& (s.source systemSource).mask) = 0 :=
      topBit_of_zero (by simp [Flag.bit, hm])
    rw [(State.latch_only systemSource .reset s).details, (hnew hl).2 hm hp, htop]
    exact ⟨by simp [State.source], rfl⟩
  · cases hl : (s.source systemSource).latched.getLsbD 0 with
    | true =>
      rw [hstands hl]
      exact ⟨rfl, rfl⟩
    | false =>
      have hquiet : (s.source systemSource).mask.getLsbD Flag.reset.bit = false ∨
          (s.source systemSource).noticePending = true := by
        simp only [hl, true_and, not_and, Bool.not_eq_false] at hc
        exact Bool.eq_false_or_eq_true _ |>.symm.imp id hc
      rw [(hnew hl).1 hquiet]
      exact ⟨by simp [State.source], rfl⟩

/-- Settles O14: the blocks cleared, then the Event Unit. -/
theorem resetEngineClears : Obligations.ResetEngineClears := by
  intro tag s h
  have hdone : answerRequest ⟨0x04#8, tag, []⟩ s = (s.engineReset, .ok []) := h.bare fun s => (s.engineReset, .ok [])
  have hexec := h.next_ok (c := .resetEngine tag []) rfl hdone
  have hline := s.engineCleared_line
  have hsources := s.engineCleared_source
  have hcleared := s.engineCleared_eq
  rw [State.engineReset_eq] at hexec
  generalize s.engineCleared = u at hexec hline hsources hcleared
  have hother : ∀ src, src ≠ systemSource → u.eventEngineReset.source src = u.eventsReset.source src :=
    fun src hs => State.latch_other (Ne.symm hs) _ _
  have hmask : ∀ src, (u.eventEngineReset.source src).mask = (u.eventsReset.source src).mask :=
    fun src => State.latch_mask systemSource src .reset u.eventsReset
  have hsystem : u.eventsReset.source systemSource = s.source systemSource :=
    (u.eventsReset_source systemSource).trans (hsources systemSource)
  have hlatched : (u.eventEngineReset.source systemSource).latched =
      (u.eventsReset.source systemSource).latched ||| Flag.reset.mask := State.latch_latched _ _ _
  have hnotice := u.eventsReset.latch_reset
  have hattn : u.eventEngineReset.events.AttnTrue := State.latch_attnTrue _ _ rfl
  have hframe := u.eventEngineReset_frame
  rw [← State.eventEngineReset_eq, hsystem, State.eventsReset_outbound] at hnotice
  rw [hsystem] at hlatched
  simp only [State.eventsReset_source, hsources] at hother hmask
  generalize u.eventEngineReset = t at hexec hother hmask hlatched hnotice hattn hframe
  generalize u.lines = L at hcleared
  subst hcleared
  have hlines : ∀ n, t.line n = ((s.line n).engineReset s.now).settle s.now := fun n =>
    (congrArg (fun t : State => t.line n) hframe).trans (hline n)
  have hkeys : t.keys = s.keys.engineReset := congrArg State.keys hframe
  have hjobs : t.jobs = s.jobs.engineReset := congrArg State.jobs hframe
  have hevents : t.events = { s.events with
      sources := t.events.sources, attn := t.events.attn, resetCause := .engine } := congrArg State.events hframe
  refine ⟨t, hexec, ?_, hjobs, fun n hd => ?_, fun n hd => ?_, fun k => ?_, ?_, fun src => ?_, fun src h5 => ?_, ?_,
    hlatched, hevents, hnotice, ?_⟩
  · have hlink : t.link = { s.link with outbound := t.link.outbound } := congrArg State.link hframe
    cases t
    simp only [State.mk.injEq] at hframe ⊢
    obtain ⟨h1, h2, h3, h4, h5, h6, h7, h8, h9, h10, h11, h12, h13⟩ := hframe
    exact ⟨h1, h2, h3, h4, h5, trivial, h7, h8, trivial, h10, trivial, trivial, hlink⟩
  · rw [hlines, Line.engineReset]
    exact congrArg (Line.settle s.now) (if_pos hd)
  · rw [hlines, Line.engineReset_eq s.now hd]
  · rw [State.key, hkeys]
    exact Bank.get_map _ _ _
  · rw [hkeys]
    rfl
  · rw [hmask]
    split <;> rfl
  · have hne : src ≠ systemSource := by
      rintro rfl
      exact absurd h5 (by decide)
    rw [hother src hne, if_pos h5]
    exact ⟨rfl, rfl⟩
  · exact hother storeSource (by decide)
  · rw [hattn, attnLevel_eq]
    rfl

end Sys2Proof.Machine
end

section
/-! PROOFS. Frames that arrive (R184, R185), and the requests that act on a line, a job or the store as a whole. -/

namespace Sys2Proof.Machine

/-! ### Frames that arrive -/

/-- A request command stands for its arriving frame ([3]). -/
theorem exec_of_frameOf {c : Instr} {f : Frame} (h : frameOf c = some f) (s : State) :
    exec c s = .next (s.arrive f.kind f.tag f.body) := by
  cases c <;> cases h <;> rfl

/-- No frame is taken while three replies stand (R185). -/
theorem State.drain_full {s : State} (h : 3 ≤ s.link.replies) (fuel : Nat) : s.drain fuel = s := by
  unfold State.drain
  split
  · rfl
  · split
    · rfl
    · rw [if_neg (by omega)]

/-- Settles O27: by what the port does with a frame, and by its room. -/
theorem framesArrive : Obligations.FramesArrive := by
  intro c f s h
  rw [exec_of_frameOf h]
  have hlisten : s.held = false → s.link.breakSince = none → s.arrive f.kind f.tag f.body = s.goodFrame f :=
    fun h1 h2 => if_pos (s.linkListens_iff.2 ⟨h1, h2⟩)
  refine ⟨fun hdeaf => ?_, fun ht => ?_, fun h1 h2 hroom hfull => ?_, fun h1 h2 hfull => ?_⟩
  · refine congrArg Host.Outcome.next (if_neg ?_)
    rw [State.linkListens_iff]
    rintro ⟨h1, h2⟩
    rcases hdeaf with h | h
    · rw [h1] at h; cases h
    · exact h h2
  · rw [ht.arrive]
    rfl
  · rw [hlisten h1 h2, State.goodFrame, if_neg (by omega), State.drain_full]
    · rfl
    · exact hfull
  · rw [hlisten h1 h2, State.goodFrame, if_pos hfull]
    rfl

/-! ### RELEASE LINE, HOLD, UNHOLD -/

theorem releaseLine_answer {s : State} (h : s.TakesRequests) (tag : Byte) (n : LineNo) :
    answerRequest ⟨0x14#8, tag, [finCode n]⟩ s = match s.release n with
      | none => refuse .wrongState s
      | some t => (t, .ok []) := by
  change answerReleaseLine [finCode n] s = _
  rw [answerReleaseLine, h.numbered (by decide) n] <;> rfl

/-- Settles O17: by the state of the line, as a release reads it. -/
theorem releaseLineEnds : Obligations.ReleaseLineEnds := by
  intro tag n s h
  have hdone : ∀ t, s.release n = some t → exec (.releaseLine tag [finCode n]) s = .next (t.replied tag [0#8]) :=
    fun t ht => h.next_ok rfl ((releaseLine_answer h tag n).trans (by rw [ht]))
  have hrefused : s.release n = none →
      exec (.releaseLine tag [finCode n]) s = .next (s.replied tag (refusal .wrongState 0)) :=
    fun hn => h.next_refused rfl ((releaseLine_answer h tag n).trans (by rw [hn]; rfl))
  refine ⟨fun hst => hdone _ ?_, fun hst => hdone _ ?_, fun hst => hrefused ?_⟩
  · rcases hst with hst | hst | ⟨hst, hpost⟩ <;> simp only [State.release, hst]
    · rfl
    · rfl
    · rw [if_pos hpost]
      rfl
  · rcases hst with hst | hst | hst | ⟨hst, hpost⟩ <;> simp only [State.release, hst]
    · rfl
    · rfl
    · rfl
    · rw [if_neg (by simp [hpost])]
      rfl
  · rcases hst with hst | hst | hst <;> simp only [State.release, hst]

theorem hold_answer {s : State} (h : s.TakesRequests) (tag : Byte) (n : LineNo) :
    answerRequest ⟨0x15#8, tag, [finCode n]⟩ s =
      if (s.line n).st = .connected then (s.hold n, .ok []) else refuse .wrongState s := by
  change answerHold [finCode n] s = _
  rw [answerHold, h.numbered (by decide) n]

theorem unhold_answer {s : State} (h : s.TakesRequests) (tag : Byte) (n : LineNo) :
    answerRequest ⟨0x16#8, tag, [finCode n]⟩ s =
      if (s.line n).st = .held then (s.enterConnected n, .ok []) else refuse .wrongState s := by
  change answerUnhold [finCode n] s = _
  rw [answerUnhold, h.numbered (by decide) n]

/-- Settles O18: by the state of the line. -/
theorem holdAndUnhold : Obligations.HoldAndUnhold := by
  intro tag n s h
  refine ⟨fun hst => ?_, fun hst => ?_, fun hst => ?_, fun hst => ?_⟩
  · exact h.next_ok rfl ((hold_answer h tag n).trans (if_pos hst))
  · exact h.next_refused rfl ((hold_answer h tag n).trans (if_neg hst))
  · exact h.next_ok rfl ((unhold_answer h tag n).trans (if_pos hst))
  · exact h.next_refused rfl ((unhold_answer h tag n).trans (if_neg hst))

/-! ### Jobs cancelled and collected -/

theorem cancelJob_answer {s : State} (h : s.TakesRequests) (tag : Byte) {id : Nat} (h1 : 1 ≤ id) (h2 : id ≤ 255) {j : Job}
    (hj : s.job id = some j) : answerRequest ⟨0x21#8, tag, [byteOf id]⟩ s =
      if j.state = .finished then refuse .wrongState s else (s.cancelJob j, .ok []) := by
  change answerCancelJob [byteOf id] s = _
  rw [answerCancelJob, h.named h1 h2, hj]

theorem collectJob_answer {s : State} (h : s.TakesRequests) (tag : Byte) {id : Nat} (h1 : 1 ≤ id) (h2 : id ≤ 255) {j : Job}
    (hj : s.job id = some j) : answerRequest ⟨0x23#8, tag, [byteOf id]⟩ s =
      if j.state = .finished then (s.collect j, .ok (j.record true)) else answered (j.record false) s := by
  change answerCollectJob [byteOf id] s = _
  rw [answerCollectJob, h.named h1 h2, hj]

theorem collectOldest_answer {s : State} (h : s.TakesRequests) (tag : Byte) :
    answerRequest ⟨0x24#8, tag, []⟩ s = match s.jobs.finished.head?.bind s.job with
      | none => refuse .noSuchJob s
      | some j => (s.collect j, .ok (j.record true)) := by
  change answerCollectOldest [] s = _
  rw [answerCollectOldest, h.bare] <;> rfl

/-- A record found under an identifier carries it (R95). -/
theorem State.job_id {s : State} {id : Nat} {j : Job} (h : s.job id = some j) : j.id = id :=
  (findJob_mem ((s.job_eq id).symm.trans h)).2

/-- Settles O21: by the state of the job, and for an ACTIVE one by its phase. -/
theorem jobsEndAndLeave : Obligations.JobsEndAndLeave := by
  intro tag id j s h h1 h2 hj
  have hcancel := cancelJob_answer h tag h1 h2 hj
  have hcollect := collectJob_answer h tag h1 h2 hj
  have hid := State.job_id hj
  refine ⟨fun hf => ?_, fun ha hp => ?_, fun hw => ?_, fun hf => ?_, fun hf => ⟨?_, fun rest hr => ?_⟩, fun hnone => ?_⟩
  · exact h.next_refused rfl (hcancel.trans (if_pos hf))
  · refine h.next_ok rfl (hcancel.trans ?_)
    rw [if_neg (by simp [ha]), State.cancelJob, if_pos ⟨ha, hp⟩]
    rfl
  · refine h.next_ok rfl (hcancel.trans ?_)
    have hrest : j.state ≠ .finished ∧ ¬ (j.state = .active ∧ j.phase ≠ some .resolve) := by
      rcases hw with hw | hw | ⟨hw, hp⟩ <;> simp [*]
    rw [if_neg hrest.1, State.cancelJob, if_neg hrest.2]
  · exact h.next_answered rfl (hcollect.trans (if_neg hf)) rfl
  · rw [← hid]
    exact h.next_ok rfl ((hid ▸ hcollect).trans (if_pos hf))
  · have holdest : s.jobs.finished.head?.bind s.job = some j := by rw [hr, List.head?_cons, Option.bind_some, hj]
    have hdone := collectOldest_answer h tag
    rw [holdest] at hdone
    rw [← hid]
    exact h.next_ok rfl hdone
  · refine h.next_refused rfl ((collectOldest_answer h tag).trans ?_)
    rw [hnone]
    rfl

/-! ### FORMAT STORE, SAVE SETTINGS, CLEAR SETTINGS -/

theorem formatStore_answer {s : State} (h : s.TakesRequests) (tag : Byte) : answerRequest ⟨0x43#8, tag, []⟩ s =
    if s.store.st = .busy then refuse .busy s else (s.startFormat, .accepted []) := by
  change answerFormatStore [] s = _
  rw [answerFormatStore, h.bare]

theorem saveSettings_answer {s : State} (h : s.TakesRequests) (tag : Byte) : answerRequest ⟨0x45#8, tag, []⟩ s =
    if s.store.st = .busy then refuse .busy s
    else (s.startOp .save none (.settings (some s.snapshot)), .accepted []) := by
  change answerSaveSettings [] s = _
  rw [answerSaveSettings, h.bare]

theorem clearSettings_answer {s : State} (h : s.TakesRequests) (tag : Byte) : answerRequest ⟨0x46#8, tag, []⟩ s =
    if s.store.st = .busy then refuse .busy s
    else (s.startOp .clear none (.settings none), .accepted []) := by
  change answerClearSettings [] s = _
  rw [answerClearSettings, h.bare]

/-- The first logical block that is mapped (R147). -/
theorem Store.nextMapped_first {st : Store} {b : LogicalNo} {p : PhysicalNo} (hb : st.map.get b = some p) {k : Nat}
    (hk : k ≤ b.val) (hfirst : ∀ a : LogicalNo, k ≤ a.val → a < b → st.map.get a = none) :
    st.nextMapped k = some (b, p) := by
  unfold Store.nextMapped
  obtain ⟨l, r, hl⟩ := List.append_of_mem (List.mem_finRange b)
  have hsorted := List.pairwise_lt_finRange 32
  rw [hl] at hsorted ⊢
  have hbefore : ∀ a ∈ l, a < b := fun a ha =>
    (List.pairwise_append.1 hsorted).2.2 a ha b (List.mem_cons_self ..)
  have hskip : l.findSome? (fun a => if k ≤ a.val then (st.map.get a).map fun p => (a, p) else none) = none := by
    rw [List.findSome?_eq_none_iff]
    intro a ha
    split
    · next hka => rw [hfirst a hka (hbefore a ha)]; rfl
    · rfl
  rw [List.findSome?_append, hskip, List.findSome?_cons]
  simp [hk, hb]

theorem Store.nextMapped_none {st : Store} {k : Nat} (h : ∀ b : LogicalNo, k ≤ b.val → st.map.get b = none) :
    st.nextMapped k = none := by
  unfold Store.nextMapped
  rw [List.findSome?_eq_none_iff]
  intro a _
  split
  · next hk => rw [h a hk]; rfl
  · rfl

/-- Settles O24: on a BUSY store refused, on a READY one begun. -/
theorem storeRequestsBegin : Obligations.StoreRequestsBegin := by
  intro tag s h
  have hformat := formatStore_answer h tag
  have hsave := saveSettings_answer h tag
  have hclear := clearSettings_answer h tag
  refine ⟨fun hb => ⟨?_, ?_, ?_⟩, fun b p hr hb hfirst => ?_, fun hr => ⟨?_, ?_⟩, fun hr hdead => ?_⟩
  · exact h.next_refused rfl (hformat.trans (if_pos hb))
  · exact h.next_refused rfl (hsave.trans (if_pos hb))
  · exact h.next_refused rfl (hclear.trans (if_pos hb))
  · have hstart : s.startFormat = s.startOp .format none (.block b p blankSlots) := by
      rw [State.startFormat, Store.nextMapped_first hb (Nat.zero_le _) fun a _ => hfirst a]
    rw [if_neg (by simp [hr]), hstart] at hformat
    exact h.next_accepted rfl hformat
  · have hmarks : ∀ l : Line, (l.st != .disabled) = decide (l.st ≠ .disabled) := fun l => by
      by_cases e : l.st = .disabled <;> simp [e]
    rw [if_neg (by simp [hr]), State.snapshot] at hsave
    simp only [hmarks] at hsave
    exact h.next_accepted rfl hsave
  · rw [if_neg (by simp [hr])] at hclear
    exact h.next_accepted rfl hclear
  · have hstart : s.startFormat = s.completeOp ⟨.format, none, .settings none, .load, false, s.now⟩ .ok := by
      rw [State.startFormat, Store.nextMapped_none fun b _ => hdead b]
    rw [if_neg (by simp [hr]), hstart] at hformat
    exact ⟨_, rfl, rfl, h.next_accepted rfl hformat⟩

end Sys2Proof.Machine
end

section
/-! PROOFS. The bodies requests carry, read back: words, symbols, counted lists, profiles; SET PROFILE, ENABLE LINE,
DISABLE LINE, SEND DIGITS. -/

namespace Sys2Proof.Machine

/-! ### Words and symbols (R194) -/

theorem word_toNat {v : Nat} (h : v ≤ 65535) : (byteOf (v % 256)).toNat + 256 * (byteOf (v / 256)).toNat = v := by
  rw [byteOf_toNat (by omega), byteOf_toNat (by omega)]
  omega

theorem onOff_toNat_beq (b : Bool) : ((onOff b).toNat == 1) = b := by cases b <;> rfl

theorem onOff_toNat_le (b : Bool) : (onOff b).toNat ≤ 1 := by cases b <;> decide

theorem Symbol.ofCode_code (y : Symbol) : Symbol.ofCode y.code = some y := by
  cases y with
  | digit v => fin_cases v <;> decide
  | _ => decide

theorem Symbol.readAll_codes (p : List Symbol) : Symbol.readAll (p.map Symbol.code) = some p := by
  rw [Symbol.readAll]
  induction p with
  | nil => rfl
  | cons y p ih => simp [Symbol.ofCode_code, ih]

/-- A program of symbols fits where its length does (R17, R101, R140). -/
theorem programFits_codes {lo hi : Nat} {p : List Symbol} (h1 : lo ≤ p.length) (h2 : p.length ≤ hi) :
    programFits lo hi (p.map Symbol.code) = true := by
  simp [programFits, inRange, Symbol.readAll_codes, h1, h2]

/-- The items of a counted list whose count stands behind `pre`. -/
theorem itemsAt_append (pre items rest : List Byte) {i : Nat} (hi : pre.length = i) (hn : items.length ≤ 255) :
    itemsAt (pre ++ byteOf items.length :: (items ++ rest)) i = items := by
  subst hi
  have hbyte : byteAt (pre ++ byteOf items.length :: (items ++ rest)) pre.length = items.length := by
    rw [byteAt, List.getD_append_right _ _ _ _ (le_refl _), Nat.sub_self]
    exact byteOf_toNat hn
  have hdrop : pre.drop (pre.length + 1) = [] := List.drop_eq_nil_of_le (by omega)
  rw [itemsAt, hbyte, List.drop_append, hdrop]
  simp

/-- The codes of a counted program whose count stands behind `pre`. -/
theorem itemsAt_codes (pre : List Byte) (p : List Symbol) (rest : List Byte) {i : Nat} (hi : pre.length = i)
    (hp : p.length ≤ 255) : itemsAt (pre ++ byteOf p.length :: (p.map Symbol.code ++ rest)) i = p.map Symbol.code := by
  have h := itemsAt_append pre (p.map Symbol.code) rest hi (by simpa using hp)
  rwa [List.length_map] at h

/-! ### Profiles (R4, R5, R199) -/

/-- A profile in range read back from the body that carries it. -/
theorem profileOf_encode (n : LineNo) {p : Profile} (h : p.InRange) : profileOf (finCode n :: p.encode) = p := by
  obtain ⟨h1, h2, ⟨-, h3⟩, ⟨-, h4⟩, ⟨-, h5⟩, ⟨-, h6⟩, ⟨-, h7⟩, ⟨-, h8⟩, h9, ⟨-, h10⟩, ⟨-, h11⟩, ⟨-, h12⟩, ⟨-, h13⟩, ⟨-, h14⟩,
    ⟨-, h15⟩, ⟨-, h16⟩⟩ := h
  have hmethod : (Method.ofCode p.method.code.toNat).getD .tone = p.method := by cases p.method <;> rfl
  have hrate : p.pulseRate ≤ 255 := by omega
  have hbreak : p.breakPct ≤ 255 := by omega
  simp only [profileOf, Profile.encode, wordOf, List.cons_append, List.nil_append, byteAt, wordAt, List.getD_cons_succ,
    List.getD_cons_zero, onOff_toNat_beq, hmethod]
  rw [byteOf_toNat hrate, byteOf_toNat hbreak, word_toNat (by omega), byteOf_toNat (by omega), byteOf_toNat (by omega),
    word_toNat (by omega), word_toNat (by omega), word_toNat (by omega), word_toNat (by omega), word_toNat (by omega),
    byteOf_toNat (by omega), word_toNat (by omega), word_toNat (by omega), word_toNat (by omega), byteOf_toNat (by omega),
    word_toNat (by omega)]

/-- The checks of SET PROFILE, by the profile the body carries (R4, R5). -/
theorem profileChecks_of (b : List Byte) : (∀ x ∈ profileChecks b, x = true) ↔
    byteAt b 1 ≤ 1 ∧ (profileOf b).InRange ∧ byteAt b 16 ≤ 1 ∧ byteAt b 19 ≤ 1 ∧ byteAt b 28 ≤ 1 ∧ byteAt b 29 ≤ 1 ∧
      byteAt b 32 ≤ 1 ∧ byteAt b 33 ≤ 1 ∧ byteAt b 34 ≤ 1 ∧ byteAt b 35 ≤ 1 ∧ byteAt b 36 ≤ 1 := by
  simp only [profileChecks, inRange, List.forall_mem_cons, List.not_mem_nil, false_imp_iff, implies_true, and_true,
    Bool.and_eq_true, Bool.or_eq_true, decide_eq_true_eq, beq_iff_eq, Nat.zero_le, true_and]
  constructor
  · rintro ⟨a1, a2, a3, a4, a5, a6, a7, a8, a9, a10, a11, a12, a13, a14, a15, a16, a17, a18, a19, a20, a21, a22, a23, a24,
      a25, a26⟩
    exact ⟨a1, ⟨a2, a3, a4, a5, a6, a7, a8, a9, a10, a12, a14, a15, a16, a17, a18, a21⟩, a11, a13, a19, a20, a22, a23, a24,
      a25, a26⟩
  · rintro ⟨a1, ⟨a2, a3, a4, a5, a6, a7, a8, a9, a10, a12, a14, a15, a16, a17, a18, a21⟩, a11, a13, a19, a20, a22, a23, a24,
      a25, a26⟩
    exact ⟨a1, a2, a3, a4, a5, a6, a7, a8, a9, a10, a11, a12, a13, a14, a15, a16, a17, a18, a19, a20, a21, a22, a23, a24,
      a25, a26⟩

theorem profileChecks_encode (n : LineNo) {p : Profile} (h : p.InRange) :
    ∀ x ∈ profileChecks (finCode n :: p.encode), x = true := by
  rw [profileChecks_of, profileOf_encode n h]
  have hmethod : p.method.code.toNat ≤ 1 := by cases p.method <;> decide
  simp only [Profile.encode, wordOf, List.cons_append, List.nil_append, byteAt, List.getD_cons_succ, List.getD_cons_zero]
  exact ⟨hmethod, h, onOff_toNat_le _, onOff_toNat_le _, onOff_toNat_le _, onOff_toNat_le _, onOff_toNat_le _,
    onOff_toNat_le _, onOff_toNat_le _, onOff_toNat_le _, onOff_toNat_le _⟩

theorem within_eq (lo hi v : Nat) : within lo hi v = inRange lo hi v := Bool.decide_and ..

theorem item_eq (b : List Byte) (i : Nat) : item b i = byteAt b i := rfl

theorem itemWord_eq (b : List Byte) (i : Nat) : itemWord b i = wordAt b i := rfl

/-- The fields of SET PROFILE are its checks, numbered from the line on. -/
theorem profileFields_eq (b : List Byte) : profileFields b = numberedFrom1 (decide (byteAt b 0 < 4) :: profileChecks b) := by
  have hline : decide (byteAt b 0 < 4) = inRange 0 3 (byteAt b 0) := by
    rw [inRange, ← Bool.decide_and]
    exact decide_eq_decide.2 (by omega)
  rw [hline]
  simp only [profileFields, profileChecks, within_eq, item_eq, itemWord_eq, numberedFrom1, List.mapIdx_cons, List.mapIdx_nil,
    Nat.reduceAdd]

theorem setProfile_answer {s : State} (h : s.TakesRequests) (tag : Byte) (n : LineNo) {p : Profile} (hp : p.InRange) :
    answerRequest ⟨0x10#8, tag, finCode n :: p.encode⟩ s = (s.onLine n (Line.writeProfile p), .ok []) := by
  change answerSetProfile (finCode n :: p.encode) s = _
  have hlen : ((finCode n :: p.encode).length == 37) = true := by simp [Profile.encode, wordOf]
  have hn : decide (byteAt (finCode n :: p.encode) 0 < 4) = true := by
    rw [byteAt_finCode (by decide)]
    exact decide_eq_true n.isLt
  rw [answerSetProfile, h.checked hlen (List.forall_mem_cons.2 ⟨hn, profileChecks_encode n hp⟩), byteAt_fin (by decide),
    profileOf_encode n hp]

theorem Line.writeProfile_eq (p : Profile) (l : Line) : l.writeProfile p =
    { l with pendingProfile := p, committed := if l.st = .disabled then p else l.committed } := by
  unfold Line.writeProfile
  split <;> rfl

theorem enableLine_answer {s : State} (h : s.TakesRequests) (tag : Byte) (n : LineNo) :
    answerRequest ⟨0x12#8, tag, [finCode n]⟩ s =
      if (s.line n).st = .disabled then (s.onLine n Line.enable, .ok []) else refuse .wrongState s := by
  change answerEnableLine [finCode n] s = _
  rw [answerEnableLine, h.numbered (by decide) n]

theorem disableLine_answer {s : State} (h : s.TakesRequests) (tag : Byte) (n : LineNo) :
    answerRequest ⟨0x13#8, tag, [finCode n]⟩ s =
      if (s.line n).st = .idle ∧ s.queue n = [] then (s.onLine n fun l => { l with st := .disabled }, .ok [])
      else refuse .busy s := by
  change answerDisableLine [finCode n] s = _
  rw [answerDisableLine, h.numbered (by decide) n]

/-- Settles O16: the body of SET PROFILE read back, and the state of the line for the other two. -/
theorem lineConfigured : Obligations.LineConfigured := by
  refine fun tag n s => ⟨fun h => ?_, fun h => ⟨fun p hp => ?_, fun hst => ?_, fun hst => ?_, fun hst hq => ?_, fun hb => ?_⟩⟩
  · exact h.refusesFirst (fun b => b.length == 37) (fun b => decide (byteAt b 0 < 4) :: profileChecks b)
      (fun b s => match below 4 (byteAt b 0) with
        | none => badValue 1 s
        | some n => (s.onLine n (Line.writeProfile (profileOf b)), .ok []))
      (fun b => rfl) (fun b => rfl) (fun b => rfl) (fun b _ => profileFields_eq b)
  · rw [h.next_ok rfl (setProfile_answer h tag n hp), State.onLine, Line.writeProfile_eq]
  · exact h.next_ok rfl ((enableLine_answer h tag n).trans (if_pos hst))
  · exact h.next_refused rfl ((enableLine_answer h tag n).trans (if_neg hst))
  · exact h.next_ok rfl ((disableLine_answer h tag n).trans (if_pos ⟨hst, hq⟩))
  · refine h.next_refused rfl ((disableLine_answer h tag n).trans (if_neg ?_))
    rintro ⟨hst, hq⟩
    rcases hb with hb | hb
    · exact hb hst
    · exact hb hq

/-! ### SEND DIGITS -/

theorem sendDigits_answer {s : State} (h : s.TakesRequests) (tag : Byte) (n : LineNo) {p : List Symbol}
    (h1 : 1 ≤ p.length) (h2 : p.length ≤ 32) :
    answerRequest ⟨0x17#8, tag, finCode n :: byteOf p.length :: p.map Symbol.code⟩ s =
      match (s.line n).sendRefusal p with
      | some (c, i) => (s, .refused c i)
      | none => (s.startSend n p, .ok []) := by
  have hitems : itemsAt (finCode n :: byteOf p.length :: p.map Symbol.code) 1 = p.map Symbol.code := by
    simpa using itemsAt_codes [finCode n] p [] rfl (by omega)
  have hcount : byteAt (finCode n :: byteOf p.length :: p.map Symbol.code) 1 = p.length := byteOf_toNat (by omega)
  have hn : decide (byteAt (finCode n :: byteOf p.length :: p.map Symbol.code) 0 < 4) = true := by
    rw [byteAt_finCode (by decide)]
    exact decide_eq_true n.isLt
  change answerSendDigits (finCode n :: byteOf p.length :: p.map Symbol.code) s = _
  unfold answerSendDigits
  dsimp only
  rw [hitems, hcount, h.checked (by simp; omega) (by simp [hn, programFits_codes h1 h2]), byteAt_fin (by decide),
    Symbol.readAll_codes] <;> rfl

/-- Settles O19: the checks of SEND DIGITS in their order. -/
theorem sendDigitsDials : Obligations.SendDigitsDials := by
  intro tag n p s h h1 h2
  have ha := sendDigits_answer h tag n h1 h2
  refine ⟨fun hst => ?_, fun hst hm => ?_, fun hst hm hallow => ?_, fun hst hm hallow => ?_⟩
  · refine h.next_refused rfl (ha.trans ?_)
    simp [Line.sendRefusal, hst]
  · refine h.next_refused rfl (ha.trans ?_)
    simp [Line.sendRefusal, hst, hm]
  · refine h.next_refused rfl (ha.trans ?_)
    simp [Line.sendRefusal, hst, hm, hallow]
  · have hfree : (s.line n).sendRefusal p = none := by simp [Line.sendRefusal, hst, hm, hallow]
    rw [hfree] at ha
    exact h.next_ok rfl ha

end Sys2Proof.Machine
end

section
/-! PROOFS. SUBMIT JOB (R101 to R103), WRITE ENTRY and ERASE ENTRY (R140, R141): their bodies read back. -/

namespace Sys2Proof.Machine

/-! ### SUBMIT JOB -/

theorem finCode_toNat {n : Nat} (hn : n ≤ 256) (i : Fin n) : (finCode i).toNat = i.val := byteOf_toNat (by omega)

theorem Method.ofCode_overrideCode (m : Option Method) : Method.ofCode (overrideCode m).toNat = m := by
  rcases m with _ | _ | _ <;> rfl

theorem overrideCode_le (m : Option Method) : (overrideCode m).toNat ≤ 2 := by
  rcases m with _ | _ | _ <;> decide

theorem overrideCode_eq_one {m : Option Method} : (overrideCode m).toNat = 1 ↔ m = some .pulse := by
  rcases m with _ | _ | _ <;> decide

/-- The head of a SUBMIT JOB body (R198): the items before the target. -/
def Submission.head (b : Submission) (kind : Byte) : List Byte :=
  [finCode b.line, kind, onOff b.supervised, onOff b.followChain, overrideCode b.methodOverride, byteOf b.attemptsOverride]

section body
variable {b : Submission} {kind : Byte} {r : List Byte}

theorem Submission.head_line : byteAt (b.head kind ++ r) 0 = b.line.val := finCode_toNat (by decide) _
theorem Submission.head_kind : byteAt (b.head kind ++ r) 1 = kind.toNat := rfl
theorem Submission.head_supervised : byteAt (b.head kind ++ r) 2 = (onOff b.supervised).toNat := rfl
theorem Submission.head_followChain : byteAt (b.head kind ++ r) 3 = (onOff b.followChain).toNat := rfl
theorem Submission.head_override : byteAt (b.head kind ++ r) 4 = (overrideCode b.methodOverride).toNat := rfl
theorem Submission.head_attempts (h : b.attemptsOverride ≤ 9) : byteAt (b.head kind ++ r) 5 = b.attemptsOverride :=
  byteOf_toNat (by omega)
theorem Submission.head_length : (b.head kind).length = 6 := rfl

end body

/-- A submission that a body of SUBMIT JOB can carry (R101). -/
structure Submission.Sendable (b : Submission) : Prop where
  origin : b.origin = .link
  attempts : b.attemptsOverride ≤ 9
  inline : ∀ p, b.target = .inline p → 1 ≤ p.length ∧ p.length ≤ 32 ∧ b.followChain = false ∧
    (b.methodOverride = some .pulse → Method.allowsAll .pulse p)

/-- The body that carries a submission (R198). -/
def Submission.body (b : Submission) : List Byte := match b.target with
  | .inline p => b.head 0#8 ++ byteOf p.length :: p.map Symbol.code
  | .entry e => b.head 1#8 ++ [finCode e]

/-- The submission read from a body, from its head and its target. -/
theorem submissionOf_head {b : Submission} {kind : Byte} {r : List Byte} (ho : b.origin = .link)
    (ha : b.attemptsOverride ≤ 9) (ht : submitTarget (b.head kind ++ r) = some b.target) :
    submissionOf (b.head kind ++ r) = some b := by
  unfold submissionOf
  rw [Submission.head_line, below_val, ht, Submission.head_supervised, Submission.head_followChain,
    Submission.head_override, Submission.head_attempts ha, onOff_toNat_beq, onOff_toNat_beq, Method.ofCode_overrideCode]
  obtain ⟨line, origin, target, supervised, followChain, methodOverride, attemptsOverride⟩ := b
  cases ho
  rfl

/-- The checks of a body that carries a submission, but for its target. -/
theorem submitChecks_head {b : Submission} {kind : Byte} {r : List Byte} (hk : kind.toNat ≤ 1)
    (hf : b.followChain = true → kind.toNat = 1) (ha : b.attemptsOverride ≤ 9)
    (ht : submitTargetFits (b.head kind ++ r) = true) : ∀ x ∈ submitChecks (b.head kind ++ r), x = true := by
  have hn : b.line.val < 4 := b.line.isLt
  have hchain : ((onOff b.followChain).toNat == 0 || ((onOff b.followChain).toNat == 1 && kind.toNat == 1)) = true := by
    cases h : b.followChain with
    | false => rfl
    | true => simp [hf h, onOff]
  rw [submitChecks, Submission.head_line, Submission.head_kind, Submission.head_supervised, Submission.head_followChain,
    Submission.head_override, Submission.head_attempts ha, hchain, ht]
  simp [hn, hk, ha, onOff_toNat_le, overrideCode_le]

theorem submitTarget_inline {b : Submission} {p : List Symbol} (h : p.length ≤ 32) :
    submitTarget (b.head 0#8 ++ byteOf p.length :: p.map Symbol.code) = some (.inline p) := by
  have hitems : itemsAt (b.head 0#8 ++ byteOf p.length :: p.map Symbol.code) 6 = p.map Symbol.code := by
    have hcodes := itemsAt_codes (b.head 0#8) p [] Submission.head_length (by omega)
    rwa [List.append_nil] at hcodes
  have hkind : (0#8 : Byte).toNat = 0 := rfl
  rw [submitTarget, Submission.head_kind, if_pos hkind, hitems, Symbol.readAll_codes]
  rfl

/-- A body that carries a submission passes the checks of SUBMIT JOB and is read back. -/
theorem Submission.Sendable.read {b : Submission} (h : b.Sendable) :
    submitLength b.body = true ∧ (∀ x ∈ submitChecks b.body, x = true) ∧ submissionOf b.body = some b := by
  cases ht : b.target with
  | inline p =>
    obtain ⟨h1, h2, hchain, hpulse⟩ := h.inline p ht
    have hbody : b.body = b.head 0#8 ++ byteOf p.length :: p.map Symbol.code := by rw [Submission.body, ht]
    have hcount : byteAt (b.head 0#8 ++ byteOf p.length :: p.map Symbol.code) 6 = p.length := byteOf_toNat (by omega)
    have hitems : itemsAt (b.head 0#8 ++ byteOf p.length :: p.map Symbol.code) 6 = p.map Symbol.code := by
      have hcodes := itemsAt_codes (b.head 0#8) p [] Submission.head_length (by omega)
      rwa [List.append_nil] at hcodes
    have hmethod : ((overrideCode b.methodOverride).toNat != 1 || Method.allowsAll .pulse p) = true := by
      by_cases hm : b.methodOverride = some .pulse
      · simp [hpulse hm]
      · simp [overrideCode_eq_one, hm]
    rw [hbody]
    refine ⟨?_, submitChecks_head (by decide) (fun e => by simp [hchain] at e) h.attempts ?_,
      submissionOf_head h.origin h.attempts ?_⟩
    · rw [submitLength, Submission.head_kind, hcount]
      simp [Submission.head_length]
      omega
    · rw [submitTargetFits, Submission.head_kind, hitems, Submission.head_override, Symbol.readAll_codes,
        programFits_codes h1 h2]
      simpa using hmethod
    · rw [ht, submitTarget_inline h2]
  | entry e =>
    have hbody : b.body = b.head 1#8 ++ [finCode e] := by rw [Submission.body, ht]
    have hindex : byteAt (b.head 1#8 ++ [finCode e]) 6 = e.val := finCode_toNat (by decide) e
    have hkind : ¬ (1#8 : Byte).toNat = 0 := by decide
    rw [hbody]
    refine ⟨rfl, submitChecks_head (by decide) (fun _ => rfl) h.attempts ?_, submissionOf_head h.origin h.attempts ?_⟩
    · rw [submitTargetFits, Submission.head_kind, if_neg hkind, hindex]
      exact decide_eq_true e.isLt
    · rw [submitTarget, Submission.head_kind, if_neg hkind, hindex, below_val, ht]
      rfl

theorem submitJob_answer {s : State} (h : s.TakesRequests) (tag : Byte) {b : Submission} (hb : b.Sendable) :
    answerRequest ⟨0x20#8, tag, b.body⟩ s = match s.submitFailure b with
      | some f => refuse f.refusal s
      | none => (s.acceptJob b, .accepted [byteOf (s.acceptJob b).jobs.lastId]) := by
  obtain ⟨hlength, hchecks, hread⟩ := hb.read
  change answerSubmitJob b.body s = _
  rw [answerSubmitJob, h.checked hlength hchecks, hread] <;> rfl

/-- Settles O20: the checks from the line state on, then the acceptance. -/
theorem submitJobQueues : Obligations.SubmitJobQueues := by
  intro tag b s h hs ho ha hp
  have ans := submitJob_answer h tag (b := b) ⟨ho, ha, hp⟩
  have hexec : exec (.submitJob tag b.body) s = .next (s.arrive 0x20#8 tag b.body) := rfl
  have hbody : b.body = [finCode b.line, (match b.target with | .inline _ => 0#8 | .entry _ => 1#8), onOff b.supervised,
      onOff b.followChain, overrideCode b.methodOverride, byteOf b.attemptsOverride] ++ (match b.target with
      | .inline p => byteOf p.length :: p.map Symbol.code
      | .entry e => [finCode e]) := by
    unfold Submission.body
    cases b.target <;> rfl
  dsimp only
  generalize hc : Instr.submitJob tag _ = c
  have hc' : Instr.submitJob tag b.body = c := (congrArg (Instr.submitJob tag) hbody).trans hc
  rw [hc'] at hexec
  have hrefused : ∀ f, s.submitFailure b = some f → exec c s = .next (s.replied tag (refusal f.refusal 0)) :=
    fun f hf => h.next_refused hexec (ans.trans (by rw [hf]; rfl))
  refine ⟨fun hd => hrefused .wrongState (by simp [State.submitFailure, hd]),
    fun hd hq => hrefused .queueFull (by simp [State.submitFailure, hd, hq]),
    fun hd hq ht hf => hrefused .tableFull (by simp [State.submitFailure, hd, Nat.not_le.2 hq, ht, hf]),
    fun hd hq hfree => ⟨_, _, s.acceptJob_accepts b hs, h.next_accepted hexec (ans.trans ?_)⟩⟩
  have hnone : s.submitFailure b = none := by
    have hfits : ¬ (24 ≤ s.jobs.table.length ∧ s.jobs.finished = []) := by
      rintro ⟨h1, h2⟩
      rcases hfree with hfree | hfree
      · omega
      · exact hfree h2
    rw [State.submitFailure, if_neg hd, if_neg (Nat.not_le.2 hq), if_neg hfits]
  rw [hnone]

end Sys2Proof.Machine
end

section
/-! PROOFS. WRITE ENTRY and ERASE ENTRY (R140, R141): the body of WRITE ENTRY read back, and the operation begun. -/

namespace Sys2Proof.Machine

theorem EntryMethod.ofCode_code (m : EntryMethod) : EntryMethod.ofCode m.code.toNat = some m := by cases m <;> rfl

theorem EntryMethod.code_le (m : EntryMethod) : m.code.toNat ≤ 2 := by cases m <;> decide

theorem EntryMethod.code_eq_one {m : EntryMethod} : m.code.toNat = 1 ↔ m = .pulse := by cases m <;> decide

theorem below_optByte (x : Option EntryNo) : below 128 (optByte finCode x).toNat = x := by
  cases x with
  | none => rfl
  | some i =>
    change below 128 (finCode i).toNat = some i
    rw [finCode_toNat (by decide), below_val]

/-- Fields that a body of WRITE ENTRY for entry `e` can carry (R135, R140). -/
structure EntryFields.Writable (f : EntryFields) (e : EntryNo) : Prop where
  maxAttempts : f.maxAttempts ≤ 9
  fallback : f.fallback ≠ some e
  digits : 1 ≤ f.digits.length
  digitsMax : f.digits.length ≤ 24
  labelMax : f.label.length ≤ 12
  label : ∀ c ∈ f.label, 0x20 ≤ c.toNat ∧ c.toNat ≤ 0x7E
  pulse : f.method = .pulse → Method.allowsAll .pulse f.digits

/-- The items of a WRITE ENTRY body before its counted lists (R200). -/
def EntryFields.head (f : EntryFields) (e : EntryNo) : List Byte :=
  [finCode e, f.method.code, byteOf f.maxAttempts, optByte finCode f.fallback]

/-- The body that carries the fields of entry `e` (R200). -/
def EntryFields.body (f : EntryFields) (e : EntryNo) : List Byte :=
  f.head e ++ byteOf f.digits.length :: (f.digits.map Symbol.code ++ byteOf f.label.length :: f.label)

section read
variable {f : EntryFields} {e : EntryNo}

theorem EntryFields.body_index : byteAt (f.body e) 0 = e.val := finCode_toNat (by decide) e
theorem EntryFields.body_method : byteAt (f.body e) 1 = f.method.code.toNat := rfl
theorem EntryFields.body_attempts (h : f.Writable e) : byteAt (f.body e) 2 = f.maxAttempts :=
  byteOf_toNat (by have := h.maxAttempts; omega)
theorem EntryFields.body_fallback : byteAt (f.body e) 3 = (optByte finCode f.fallback).toNat := rfl

theorem EntryFields.body_digits (h : f.Writable e) : entryDigits (f.body e) = f.digits.map Symbol.code :=
  itemsAt_codes (f.head e) f.digits _ rfl (by have := h.digitsMax; omega)

theorem EntryFields.body_count (h : f.Writable e) : byteAt (f.body e) 4 = f.digits.length :=
  byteOf_toNat (by have := h.digitsMax; omega)

/-- The body by what stands before the label's count. -/
theorem EntryFields.body_eq : f.body e =
    (f.head e ++ byteOf f.digits.length :: f.digits.map Symbol.code) ++ byteOf f.label.length :: f.label := by
  simp [EntryFields.body]

theorem EntryFields.body_labelAt (h : f.Writable e) : labelAt (f.body e) =
    (f.head e ++ byteOf f.digits.length :: f.digits.map Symbol.code).length := by
  rw [labelAt, EntryFields.body_count h]
  simp [EntryFields.head]
  omega

theorem EntryFields.body_label (h : f.Writable e) : itemsAt (f.body e) (labelAt (f.body e)) = f.label := by
  rw [EntryFields.body_labelAt h, EntryFields.body_eq]
  have hitems := itemsAt_append (f.head e ++ byteOf f.digits.length :: f.digits.map Symbol.code) f.label [] rfl
    (by have := h.labelMax; omega)
  rwa [List.append_nil] at hitems

theorem EntryFields.body_labelCount (h : f.Writable e) : byteAt (f.body e) (labelAt (f.body e)) = f.label.length := by
  rw [EntryFields.body_labelAt h, EntryFields.body_eq, byteAt, List.getD_append_right _ _ _ _ (le_refl _), Nat.sub_self]
  exact byteOf_toNat (by have := h.labelMax; omega)

theorem EntryFields.body_length (h : f.Writable e) : entryLength (f.body e) = true := by
  rw [entryLength, EntryFields.body_labelCount h, EntryFields.body_count h, EntryFields.body_eq]
  simp [EntryFields.head]
  omega

theorem EntryFields.body_checks (h : f.Writable e) : ∀ x ∈ entryChecks (f.body e), x = true := by
  have hindex : e.val < 128 := e.isLt
  have hfallback : ((optByte finCode f.fallback).toNat == 0xFF ||
      ((optByte finCode f.fallback).toNat < 128 && (optByte finCode f.fallback).toNat != e.val)) = true := by
    cases hg : f.fallback with
    | none => rfl
    | some g =>
      have hne : g.val ≠ e.val := fun x => h.fallback (hg.trans (congrArg some (Fin.ext x)))
      have hlt : g.val < 128 := g.isLt
      change ((finCode g).toNat == 0xFF || ((finCode g).toNat < 128 && (finCode g).toNat != e.val)) = true
      rw [finCode_toNat (by decide)]
      simp [hne, hlt]
  have hlabel : f.label.all printable = true := by
    simpa [printable, inRange] using h.label
  rw [entryChecks, EntryFields.body_index, EntryFields.body_method, EntryFields.body_attempts h,
    EntryFields.body_fallback, EntryFields.body_digits h, EntryFields.body_labelCount h, EntryFields.body_label h, hfallback,
    hlabel, programFits_codes h.digits h.digitsMax]
  simp [hindex, EntryMethod.code_le, h.maxAttempts, h.labelMax]

theorem EntryFields.body_pulse (h : f.Writable e) : entryPulseFits (f.body e) = true := by
  rw [entryPulseFits, EntryFields.body_method, EntryFields.body_digits h, Symbol.readAll_codes]
  by_cases hm : f.method = .pulse
  · simp [h.pulse hm]
  · simp [EntryMethod.code_eq_one, hm]

theorem EntryFields.body_read (h : f.Writable e) : entryOf (f.body e) = some f := by
  rw [entryOf, EntryFields.body_method, EntryMethod.ofCode_code, EntryFields.body_digits h, Symbol.readAll_codes,
    EntryFields.body_attempts h, EntryFields.body_fallback, below_optByte, EntryFields.body_label h]

end read

theorem writeEntry_answer {s : State} (h : s.TakesRequests) (tag : Byte) {e : EntryNo} {f : EntryFields}
    (hf : f.Writable e) : answerRequest ⟨0x41#8, tag, f.body e⟩ s =
      if s.store.st = .busy then refuse .busy s
      else match s.store.map.get (blockOf e) with
        | none => refuse .deadBlock s
        | some p => (s.startEntryOp .write e p (.valid f), .accepted []) := by
  change answerWriteEntry (f.body e) s = _
  unfold answerWriteEntry
  rw [EntryFields.body_length hf, firstFailure_none _ (EntryFields.body_checks hf), EntryFields.body_pulse hf, h.notChecking,
    EntryFields.body_index, below_val, EntryFields.body_read hf] <;> rfl

theorem eraseEntry_answer {s : State} (h : s.TakesRequests) (tag : Byte) (e : EntryNo) :
    answerRequest ⟨0x42#8, tag, [finCode e]⟩ s =
      if s.store.st = .busy then refuse .busy s
      else match s.store.map.get (blockOf e) with
        | none => refuse .deadBlock s
        | some p => if s.store.entry e = .blank then refuse .entryBlank s
          else (s.startEntryOp .erase e p .blank, .accepted []) := by
  change answerEraseEntry [finCode e] s = _
  rw [answerEraseEntry, h.numbered (by decide) e] <;> rfl

/-- Settles O23: by the state of the store, and by what the block map and the entry hold. -/
theorem entryRequestsBegin : Obligations.EntryRequestsBegin := by
  intro tag e f s h h1 h2 h3 h4 h5 h6 h7
  have hwrite := writeEntry_answer h tag (e := e) (f := f) ⟨h1, h2, h3, h4, h5, h6, h7⟩
  have herase := eraseEntry_answer h tag e
  have hbody : f.body e = [finCode e, f.method.code, byteOf f.maxAttempts, optByte finCode f.fallback,
      byteOf f.digits.length] ++ f.digits.map Symbol.code ++ [byteOf f.label.length] ++ f.label := by
    simp [EntryFields.body, EntryFields.head]
  dsimp only
  rw [← hbody]
  refine ⟨fun hb => ⟨?_, ?_⟩, fun hr hm => ⟨?_, ?_⟩, fun p hr hm => ?_⟩
  · exact h.next_refused rfl (hwrite.trans (if_pos hb))
  · exact h.next_refused rfl (herase.trans (if_pos hb))
  · rw [if_neg (by simp [hr]), hm] at hwrite
    exact h.next_refused rfl hwrite
  · rw [if_neg (by simp [hr]), hm] at herase
    exact h.next_refused rfl herase
  · rw [if_neg (by simp [hr]), hm] at hwrite herase
    refine ⟨h.next_accepted rfl hwrite, fun he => ?_, fun he => ?_⟩
    · exact h.next_refused rfl (herase.trans (if_pos he))
    · exact h.next_accepted rfl (herase.trans (if_neg he))

end Sys2Proof.Machine
end

section
/-! PROOFS. LOAD CADENCE and CLEAR CADENCE (R72, R74), and the table change on a listening line (R92). -/

namespace Sys2Proof.Machine

/-! ### The bodies of LOAD CADENCE read back (R201) -/

theorem byteAt_append (l r : List Byte) {i j : Nat} (h : i = l.length + j) : byteAt (l ++ r) i = byteAt r j := by
  rw [byteAt, byteAt, List.getD_append_right _ _ _ _ (by omega)]
  congr 2
  omega

theorem wordAt_append (l r : List Byte) {i j : Nat} (h : i = l.length + j) : wordAt (l ++ r) i = wordAt r j := by
  rw [wordAt, wordAt, byteAt_append l r h, byteAt_append l r (i := i + 1) (j := j + 1) (by omega)]

/-- The windows of a segment that a body can carry. -/
structure Segment.Fits (g : Segment) : Prop where
  onMin : g.onMin ≤ 65535
  onMax : g.onMax ≤ 65535
  offMin : g.offMin ≤ 65535
  offMax : g.offMax ≤ 65535

theorem Segment.encode_length (g : Segment) : g.encode.length = 8 := rfl

theorem segments_length (g : List Segment) : (g.flatMap Segment.encode).length = 8 * g.length := by
  induction g with
  | nil => rfl
  | cons x g ih =>
    rw [List.flatMap_cons, List.length_append, ih, Segment.encode_length, List.length_cons]
    omega

theorem segmentAt_head {g : Segment} (h : g.Fits) (pre rest : List Byte) {i : Nat} (hi : 4 + 8 * i = pre.length) :
    segmentAt (pre ++ (g.encode ++ rest)) i = g := by
  obtain ⟨h1, h2, h3, h4⟩ := h
  unfold segmentAt
  rw [wordAt_append pre _ (j := 0) (by omega), wordAt_append pre _ (j := 2) (by omega),
    wordAt_append pre _ (j := 4) (by omega), wordAt_append pre _ (j := 6) (by omega)]
  simp only [Segment.encode, wordOf, List.cons_append, List.nil_append, wordAt, byteAt, List.getD_cons_succ,
    List.getD_cons_zero]
  rw [word_toNat h1, word_toNat h2, word_toNat h3, word_toNat h4]

/-- The segments of a CADENCED body, read one by one. -/
theorem segmentAt_segments (pre rest : List Byte) (hpre : pre.length = 4) {g : List Segment} (hfits : ∀ x ∈ g, x.Fits)
    {i : Nat} (hi : i < g.length) : segmentAt (pre ++ (g.flatMap Segment.encode ++ rest)) i = g[i] := by
  have hsplit : g.flatMap Segment.encode =
      (g.take i).flatMap Segment.encode ++ (g[i].encode ++ (g.drop (i + 1)).flatMap Segment.encode) := by
    conv_lhs => rw [← List.take_append_drop i g, List.drop_eq_getElem_cons hi]
    rw [List.flatMap_append, List.flatMap_cons]
  have hbody : pre ++ (g.flatMap Segment.encode ++ rest) =
      (pre ++ (g.take i).flatMap Segment.encode) ++ (g[i].encode ++ ((g.drop (i + 1)).flatMap Segment.encode ++ rest)) := by
    rw [hsplit]
    simp only [List.append_assoc]
  rw [hbody]
  refine segmentAt_head (hfits _ (List.getElem_mem hi)) _ _ ?_
  rw [List.length_append, segments_length, List.length_take, hpre]
  omega

theorem ToneClass.ofCode_code (c : ToneClass) : ToneClass.ofCode c.code.toNat = some c := by cases c <;> rfl

theorem ToneClass.code_range (c : ToneClass) : inRange 1 6 c.code.toNat = true := by cases c <;> decide

/-- A STEADY template in its range, as LOAD CADENCE carries it. -/
theorem loadSteady_reads (k : SlotNo) (c : ToneClass) {m : Nat} (h1 : 10 ≤ m) (h2 : m ≤ 1000) :
    let b := [finCode k, c.code, 0#8] ++ wordOf m
    cadenceLength b = true ∧ (∀ x ∈ cadenceChecks b, x = true) ∧ templateOf b = some ⟨c, .steady m⟩ := by
  dsimp only
  generalize hb : [finCode k, c.code, 0#8] ++ wordOf m = b
  have hk : byteAt b 0 < 8 := by
    rw [← hb]
    change (finCode k).toNat < 8
    rw [finCode_toNat (by decide)]
    exact k.isLt
  have hclass : byteAt b 1 = c.code.toNat := hb ▸ rfl
  have hform : byteAt b 2 = 0 := hb ▸ rfl
  have hm : wordAt b 3 = m := hb ▸ word_toNat (by omega)
  have hsteady : ¬ byteAt b 2 = 1 := by omega
  refine ⟨?_, ?_, ?_⟩
  · rw [cadenceLength, if_neg hsteady, ← hb]
    rfl
  · rw [cadenceChecks, if_neg hsteady, hm, hclass, ToneClass.code_range]
    simp [hk, hform, inRange, h1, h2]
  · rw [templateOf, if_neg hsteady, hm, hclass, ToneClass.ofCode_code]
    rfl

/-- The windows of a segment in range (R70, R72). -/
def Segment.InRange (x : Segment) : Prop :=
  1 ≤ x.onMin ∧ x.onMin ≤ x.onMax ∧ x.onMax ≤ 1000 ∧ 1 ≤ x.offMin ∧ x.offMin ≤ x.offMax ∧ x.offMax ≤ 1000

theorem Segment.InRange.fits {x : Segment} (h : x.InRange) : x.Fits := by
  obtain ⟨h1, h2, h3, h4, h5, h6⟩ := h
  exact ⟨by omega, by omega, by omega, by omega⟩

theorem Segment.InRange.checks {x : Segment} (h : x.InRange) : ∀ b ∈ x.checks, b = true := by
  obtain ⟨h1, h2, h3, h4, h5, h6⟩ := h
  simp [Segment.checks, inRange]
  omega

/-- A CADENCED template in its ranges, as LOAD CADENCE carries it. -/
theorem loadCadenced_reads (k : SlotNo) (c : ToneClass) {g : List Segment} {y : Nat} (h1 : 1 ≤ g.length)
    (h4 : g.length ≤ 4) (hy1 : 1 ≤ y) (hy4 : y ≤ 4) (hg : ∀ x ∈ g, x.InRange) :
    let b := [finCode k, c.code, 1#8, byteOf g.length] ++ g.flatMap Segment.encode ++ [byteOf y]
    cadenceLength b = true ∧ (∀ x ∈ cadenceChecks b, x = true) ∧ templateOf b = some ⟨c, .cadenced g y⟩ := by
  dsimp only
  rw [List.append_assoc]
  generalize hb : [finCode k, c.code, 1#8, byteOf g.length] ++ (g.flatMap Segment.encode ++ [byteOf y]) = b
  have hk : byteAt b 0 < 8 := by
    rw [← hb]
    change (finCode k).toNat < 8
    rw [finCode_toNat (by decide)]
    exact k.isLt
  have hclass : byteAt b 1 = c.code.toNat := hb ▸ rfl
  have hform : byteAt b 2 = 1 := hb ▸ rfl
  have hcount : byteAt b 3 = g.length := by
    rw [← hb]
    exact byteOf_toNat (by omega)
  have hcycles : cyclesOf b = y := by
    rw [cyclesOf, hcount, ← hb, ← List.append_assoc, byteAt_append _ _ (j := 0)]
    · exact byteOf_toNat (by omega)
    · rw [List.length_append, segments_length]
      rfl
  have hsegments : segmentsOf b = g := by
    have hmin : min 4 g.length = g.length := Nat.min_eq_right h4
    rw [segmentsOf, hcount, hmin, ← hb]
    refine List.ext_getElem (by simp) fun i hi hi' => ?_
    rw [List.getElem_map, List.getElem_range]
    exact segmentAt_segments _ _ rfl (fun x hx => (hg x hx).fits) hi'
  have hlength : b.length = 5 + 8 * g.length := by
    rw [← hb, List.length_append, List.length_append, segments_length]
    simp
    omega
  refine ⟨?_, ?_, ?_⟩
  · rw [cadenceLength, if_pos hform, hcount, hlength]
    simp
    omega
  · rw [cadenceChecks, if_pos hform, hsegments, hcycles, hcount, hclass, hform, ToneClass.code_range]
    have hchecks : ∀ x ∈ g.flatMap Segment.checks, x = true := fun x hx => by
      obtain ⟨seg, hseg, hx⟩ := List.mem_flatMap.1 hx
      exact (hg seg hseg).checks x hx
    have hrange : inRange 1 4 g.length = true ∧ inRange 1 4 y = true := by simp [inRange, h1, h4, hy1, hy4]
    intro x hx
    simp only [hrange.1, hrange.2, List.mem_append, List.mem_cons, List.not_mem_nil, or_false] at hx
    rcases hx with (rfl | rfl | rfl) | (rfl | hx) | rfl
    · exact decide_eq_true hk
    · rfl
    · rfl
    · rfl
    · exact hchecks x hx
    · rfl
  · rw [templateOf, if_pos hform, hsegments, hcycles, hclass, ToneClass.ofCode_code]
    rfl

theorem loadCadence_answer {s : State} (h : s.TakesRequests) (tag : Byte) (k : SlotNo) {b : List Byte} {t : Template}
    (hlength : cadenceLength (finCode k :: b) = true) (hchecks : ∀ x ∈ cadenceChecks (finCode k :: b), x = true)
    (hread : templateOf (finCode k :: b) = some t) :
    answerRequest ⟨0x30#8, tag, finCode k :: b⟩ s = (s.writeSlot k (some t), .ok []) := by
  change answerLoadCadence (finCode k :: b) s = _
  rw [answerLoadCadence, h.checked hlength hchecks, byteAt_fin (by decide), hread]

theorem clearCadence_answer {s : State} (h : s.TakesRequests) (tag : Byte) (k : SlotNo) :
    answerRequest ⟨0x32#8, tag, [finCode k]⟩ s = (s.writeSlot k none, .ok []) := by
  change answerClearCadence [finCode k] s = _
  rw [answerClearCadence, h.numbered (by decide) k]

/-! ### The table change (R92) -/

theorem State.tableChangeAt_deaf {n : LineNo} {s : State} (h : (s.line n).pc.listening = false) :
    s.tableChangeAt n = s := if_neg (by simp [h])

/-- The line once its classifier has heard of the table change. -/
def State.tableHeard (n : LineNo) (s : State) : State :=
  s.putLine n { s.line n with pc := { (s.line n).pc with matchers := Bank.fill 8 ⟨0, 0, false⟩, unmatched := 0 } }

theorem State.tableChangeAt_heard {n : LineNo} {s : State} (h : (s.line n).pc.listening = true) :
    s.tableChangeAt n = (s.tableHeard n).retestSteady n := if_pos h

theorem State.tableHeard_onSince (n : LineNo) (s : State) :
    ((s.tableHeard n).line n).pc.onSince = (s.line n).pc.onSince := by
  rw [State.tableHeard, State.line_putLine_self]
  rfl

/-- With no ON interval in progress nothing is retested. -/
theorem State.tableChangeAt_quiet {n : LineNo} {s : State} (h : (s.line n).pc.listening = true)
    (hq : (s.line n).pc.onSince = none) : s.tableChangeAt n = s.tableHeard n := by
  rw [State.tableChangeAt_heard h, State.retestSteady, State.tableHeard_onSince, hq]

/-- A change of each line by its own state alone is a change of every line at once. -/
theorem State.eachLine_map {f : LineNo → State → State} {g : Line → Line} {s : State}
    (h : ∀ n (L : Bank 4 Line), L.get n = s.lines.get n →
      f n { s with lines := L } = { s with lines := L.set n (g (L.get n)) }) :
    s.eachLine f = { s with lines := s.lines.map g } := by
  have h0 := h 0 s.lines rfl
  have h1 := h 1 (s.lines.set 0 (g (s.lines.get 0))) (by simp)
  have h2 := h 2 ((s.lines.set 0 (g (s.lines.get 0))).set 1 (g (s.lines.get 1))) (by simp)
  have h3 := h 3 (((s.lines.set 0 (g (s.lines.get 0))).set 1 (g (s.lines.get 1))).set 2 (g (s.lines.get 2))) (by simp)
  simp only [Bank.get_set_ne _ _ (show (0 : LineNo) ≠ 1 by decide), Bank.get_set_ne _ _ (show (0 : LineNo) ≠ 2 by decide),
    Bank.get_set_ne _ _ (show (1 : LineNo) ≠ 2 by decide), Bank.get_set_ne _ _ (show (0 : LineNo) ≠ 3 by decide),
    Bank.get_set_ne _ _ (show (1 : LineNo) ≠ 3 by decide), Bank.get_set_ne _ _ (show (2 : LineNo) ≠ 3 by decide)] at h1 h2 h3
  have hlines : (((s.lines.set 0 (g (s.lines.get 0))).set 1 (g (s.lines.get 1))).set 2 (g (s.lines.get 2))).set 3
      (g (s.lines.get 3)) = s.lines.map g := Bank.ext_get fun i => by
    rw [Bank.get_map]
    fin_cases i <;> simp
  rw [State.eachLine, show f 0 s = _ from h0, h1, h2, h3, hlines]

/-- Whether a slot's STEADY template is known to have been outlasted by the ON interval begun at `b` (R92). -/
def State.lasted (s : State) (c : Classifier) (b : Nat) (k : SlotNo) : Bool := match s.cadence.get k with
  | some ⟨_, .steady m⟩ => decide (b + 10 * m + 10 < s.now) && c.edges.head?.all fun e => decide (b + 10 * m < e)
  | _ => false

theorem Classifier.outlasts_eq (c : Classifier) (b u : Nat) :
    c.outlasts b u = c.edges.head?.all fun e => decide (b + 10 * u < e) := by
  unfold Classifier.outlasts
  cases c.edges.head? <;> rfl

/-- The test of a slot with a fresh matcher, as the retest makes it. -/
theorem State.lasted_eq (s : State) (c : Classifier) (b : Nat) (k : SlotNo) :
    ((steadyLength (s.cadence.get k) ⟨0, 0, false⟩).map fun u =>
      c.outlasts b u && b + 10 * u + Config.cptFilterMs < s.now).getD false = s.lasted c b k := by
  unfold State.lasted steadyLength
  rcases s.cadence.get k with _ | ⟨t, m | _⟩
  · rfl
  · change (c.outlasts b m && decide (b + 10 * m + Config.cptFilterMs < s.now)) =
      (decide (b + 10 * m + 10 < s.now) && c.edges.head?.all fun e => decide (b + 10 * m < e))
    rw [Bool.and_comm, Classifier.outlasts_eq]
    rfl
  · rfl

/-- The lowest slot of those that satisfy `p` (R84). -/
theorem lowestSlot_eq_some {p : SlotNo → Bool} {k : SlotNo} (hk : p k = true) (hlow : ∀ j, j < k → p j = false) :
    lowestSlot p = some k := by
  unfold lowestSlot
  obtain ⟨l, r, hl⟩ := List.append_of_mem (List.mem_finRange k)
  have hsorted := List.pairwise_lt_finRange 8
  rw [hl] at hsorted ⊢
  have hskip : l.find? p = none := List.find?_eq_none.2 fun a ha => by
    rw [hlow a ((List.pairwise_append.1 hsorted).2.2 a ha k (List.mem_cons_self ..))]
    decide
  rw [List.find?_append, hskip, List.find?_cons, hk]
  rfl

theorem lowestSlot_eq_none {p : SlotNo → Bool} (h : ∀ k, p k = false) : lowestSlot p = none :=
  List.find?_eq_none.2 fun k _ => by rw [h k]; decide

/-- The retest of a line that has heard of the table change, an ON interval begun at `b` in progress (R92). -/
theorem State.retestSteady_heard {n : LineNo} {s : State} {b : Nat} (hb : (s.line n).pc.onSince = some b) :
    let u := s.tableHeard n
    let c := (u.line n).pc
    let v := u.putLine n { u.line n with pc := { c with matchers := Bank.tabulate fun k => ⟨0, 0, s.lasted c b k⟩ } }
    u.retestSteady n = match lowestSlot (s.lasted c b) with
      | none => v
      | some k => v.confirmSlot n k := by
  have hmatchers : ((s.tableHeard n).line n).pc.matchers = Bank.fill 8 ⟨0, 0, false⟩ := by
    rw [State.tableHeard, State.line_putLine_self]
    rfl
  have htest := s.lasted_eq ((s.tableHeard n).line n).pc b
  have hmark : ((s.tableHeard n).line n).pc.markSteady s.cadence (fun u => ((s.tableHeard n).line n).pc.outlasts b u &&
      b + 10 * u + Config.cptFilterMs < s.now) = { ((s.tableHeard n).line n).pc with
      matchers := Bank.tabulate fun k => ⟨0, 0, s.lasted ((s.tableHeard n).line n).pc b k⟩ } := by
    unfold Classifier.markSteady
    rw [hmatchers]
    simp only [Bank.get_fill, htest]
    congr 2
    funext k
    cases s.lasted ((s.tableHeard n).line n).pc b k <;> rfl
  have hnow : (s.tableHeard n).now = s.now := rfl
  have hcadence : (s.tableHeard n).cadence = s.cadence := rfl
  dsimp only
  rw [State.retestSteady, State.tableHeard_onSince, hb, hnow]
  unfold State.confirmSteady
  dsimp only
  rw [hcadence, State.onLine, hmark, hmatchers]
  simp only [Bank.get_fill, htest] <;> rfl

theorem State.confirmSlot_eq {n : LineNo} {k : SlotNo} {t : Template} {s : State} (h : s.cadence.get k = some t) :
    s.confirmSlot n k = s.confirm n t.cls k := by
  simp only [State.confirmSlot, State.slotClass, h, Option.map_some]

/-- Settles O22: the bodies read back, and the table change line by line. -/
theorem cadenceWritten : Obligations.CadenceWritten := by
  refine ⟨fun tag k s h => ⟨?_, fun c m h1 h2 => ?_, fun c g y h1 h4 hy1 hy4 hg => ?_, fun hquiet x => ?_⟩,
    fun n s => ⟨fun hl => State.tableChangeAt_deaf hl, fun hl hq => ?_, fun b first hl hf hi => ?_⟩⟩
  · exact h.next_ok rfl (clearCadence_answer h tag k)
  · obtain ⟨hlength, hchecks, hread⟩ := loadSteady_reads k c h1 h2
    exact h.next_ok rfl (loadCadence_answer h tag k hlength hchecks hread)
  · obtain ⟨hlength, hchecks, hread⟩ := loadCadenced_reads k c h1 h4 hy1 hy4 hg
    exact h.next_ok rfl (loadCadence_answer h tag k hlength hchecks hread)
  · refine State.eachLine_map (f := State.tableChangeAt) (g := fun l => if l.pc.listening then
      { l with pc := { l.pc with matchers := Bank.fill 8 ⟨0, 0, false⟩, unmatched := 0 } }.settle s.now else l)
      (s := { s with cadence := s.cadence.set k x }) fun n L hL => ?_
    have hq := hquiet n
    rw [State.line, ← (hL : L.get n = s.lines.get n)] at hq
    let u : State := { s with cadence := s.cadence.set k x, lines := L }
    cases hl : (L.get n).pc.listening with
    | false =>
      rw [State.tableChangeAt_deaf (s := u) hl, if_neg (by simp), Bank.set_get]
    | true =>
      rw [State.tableChangeAt_quiet (s := u) hl (hq hl)]
      rfl
  · refine State.tableChangeAt_quiet hl ?_
    rw [← State.tableHeard_onSince, Option.eq_none_iff_forall_ne_some]
    intro b hb
    obtain ⟨-, hfiltered, first, hinterval⟩ := Classifier.onSince_eq_some.1 hb
    rcases hq with hq | hq
    · exact absurd (hfiltered.symm.trans hq) (by decide)
    · exact absurd (hq _ hinterval) (by simp)
  · have hb : (s.line n).pc.onSince = some b := by
      rw [← State.tableHeard_onSince]
      refine Classifier.onSince_eq_some.2 ⟨?_, hf, first, hi⟩
      rw [State.tableHeard, State.line_putLine_self]
      exact hl
    have hretest := State.retestSteady_heard hb
    dsimp only at hretest
    rw [← State.tableChangeAt_heard hl] at hretest
    refine ⟨fun hnone => ?_, fun k t hk hlow ht => ?_⟩
    · have hslot : lowestSlot (s.lasted ((s.tableHeard n).line n).pc b) = none := lowestSlot_eq_none hnone
      rw [hretest, hslot]
      rfl
    · have hslot : lowestSlot (s.lasted ((s.tableHeard n).line n).pc b) = some k := lowestSlot_eq_some hk hlow
      rw [hretest, hslot]
      exact State.confirmSlot_eq ht

end Sys2Proof.Machine
end

section
/-! PROOFS. The receiver (R183, R184), a line written (R1, R2, R24 to R28), and the encodings of what replies and notices
carry (R194 to R208). -/

namespace Sys2Proof.Machine

/-! ### The receiver -/

theorem execReceiveByte_deaf {b : Byte} {err : ByteError} {s : State} (h : s.held = true ∨ s.link.breakSince ≠ none) :
    exec (.receiveByte b err) s = .next s := by
  refine congrArg Host.Outcome.next (if_neg ?_)
  rw [State.linkListens_iff]
  rintro ⟨hheld, hbreak⟩
  rcases h with h | h
  · rw [hheld] at h; cases h
  · exact h hbreak

theorem execReceiveByte_listening {b : Byte} {err : ByteError} {s : State} (h1 : s.held = false)
    (h2 : s.link.breakSince = none) : exec (.receiveByte b err) s = .next (s.takeByte b err) :=
  congrArg Host.Outcome.next (if_pos (s.linkListens_iff.2 ⟨h1, h2⟩))

/-- The error kind a byte counts with under the port's parity (R183). -/
def LinkPort.kindOf (k : LinkPort) : ByteError → Option LinkError
  | .clean => none
  | .framing => some .framing
  | .parity => if k.settings.even then some .parity else none

theorem LinkPort.errorOf_clean (k : LinkPort) (err : ByteError) : k.errorOf err = .clean ↔ k.kindOf err = none := by
  cases err <;> cases h : k.settings.even <;> simp [LinkPort.errorOf, LinkPort.kindOf, h]

/-- The mark is the kind of the first error (R183). -/
theorem Receiver.marked_eq (k : LinkPort) (err : ByteError) (r : Receiver) :
    r.marked (k.errorOf err) = r.mark.or (k.kindOf err) := by
  unfold Receiver.marked
  cases r.mark with
  | some _ => rfl
  | none => cases err <;> cases h : k.settings.even <;> simp [LinkPort.errorOf, LinkPort.kindOf, h]

theorem sumIsZero_iff (expected : Nat) (bytes : List Byte) (b : Byte) :
    sumIsZero expected bytes b = true ↔ (byteOf expected :: bytes ++ [b]).foldl (· + ·) 0#8 = 0#8 := by
  rw [sumIsZero, beq_iff_eq, List.cons_append, List.foldl_cons, List.foldl_append, BitVec.zero_add]
  rfl

section takeByte
variable {b : Byte} {err : ByteError} {s : State}

theorem State.takeByte_hunt (h : s.link.rx.st = .hunt) : s.takeByte b err = s.onLink fun k => { k with
    rx := if b = Config.sync ∧ s.link.kindOf err = none then ⟨.length, [], 0, none, some (s.now + Config.byteGapMs)⟩
      else s.link.rx } := by
  unfold State.takeByte Receiver.take
  rw [h]
  dsimp only
  simp only [LinkPort.errorOf_clean]

theorem State.takeByte_length (h : s.link.rx.st = .length) : s.takeByte b err = if 2 ≤ b.toNat then
    s.onLink fun k => { k with
      rx := ⟨.body, [], b.toNat, s.link.rx.mark.or (s.link.kindOf err), some (s.now + Config.byteGapMs)⟩ }
    else s.linkError .badLength := by
  unfold State.takeByte Receiver.take
  rw [h, ← Receiver.marked_eq]
  dsimp only
  by_cases hb : 2 ≤ b.toNat
  · rw [if_pos hb, if_pos hb]
  · rw [if_neg hb, if_neg hb]

theorem State.takeByte_body (h : s.link.rx.st = .body) : s.takeByte b err = s.onLink fun k => { k with
    rx := ⟨if s.link.rx.expected ≤ s.link.rx.bytes.length + 1 then .check else .body, s.link.rx.bytes ++ [b],
      s.link.rx.expected, s.link.rx.mark.or (s.link.kindOf err), some (s.now + Config.byteGapMs)⟩ } := by
  unfold State.takeByte Receiver.take
  rw [h, ← Receiver.marked_eq]
  dsimp only
  rw [List.length_append]
  rfl

theorem State.takeByte_check (h : s.link.rx.st = .check) : s.takeByte b err =
    s.judge (s.link.rx.mark.or (s.link.kindOf err)) (sumIsZero s.link.rx.expected s.link.rx.bytes b)
      s.link.rx.bytes := by
  unfold State.takeByte Receiver.take
  rw [h, ← Receiver.marked_eq]

end takeByte

/-- A good frame's bytes do what the request they carry does on arrival ([3]). -/
theorem State.judge_good {c : Instr} {kind tag : Byte} {body : List Byte} {s : State} (h1 : s.held = false)
    (h2 : s.link.breakSince = none) (hc : frameOf c = some ⟨kind, tag, body⟩) :
    .next (s.judge none true (kind :: tag :: body)) =
      exec c { s with link := { s.link with rx := Receiver.hunting } } := by
  rw [exec_of_frameOf hc]
  refine congrArg Host.Outcome.next (Eq.symm (if_pos ?_))
  rw [State.linkListens_iff]
  exact ⟨h1, h2⟩

/-- Settles O28: by the receiver's state. -/
theorem receiverFollows : Obligations.ReceiverFollows := by
  intro b err s r gap e
  have hkind : e = s.link.kindOf err := by cases err <;> rfl
  clear_value e
  subst hkind
  dsimp only [r, gap]
  refine ⟨execReceiveByte_deaf, fun h1 h2 => ?_, fun h => ?_, fun d h => ?_⟩
  · rw [execReceiveByte_listening h1 h2]
    refine ⟨fun h hb he => ?_, fun h hb => ?_, fun h hb => ?_, fun h hb => ?_, fun h hl => ?_, fun h hl => ?_,
      fun x h hx => ?_, fun h hx hsum => ?_, fun c kind tag body h hx hsum hbytes hc => ?_⟩
    · rw [State.takeByte_hunt h, if_pos ⟨hb, he⟩]
      rfl
    · rw [State.takeByte_hunt h, if_neg (by rintro ⟨hsync, hclean⟩; exact hb.elim (· hsync) (· hclean))]
      rfl
    · rw [State.takeByte_length h, if_pos hb]
      rfl
    · rw [State.takeByte_length h, if_neg (by omega)]
      rfl
    · rw [State.takeByte_body h, if_neg (by omega)]
      rfl
    · rw [State.takeByte_body h, if_pos hl]
      rfl
    · rw [State.takeByte_check h, hx]
      rfl
    · rw [State.takeByte_check h, hx, Bool.eq_false_iff.2 (mt (sumIsZero_iff _ _ b).1 hsum)]
      rfl
    · rw [State.takeByte_check h, hx, (sumIsZero_iff _ _ b).2 hsum, hbytes]
      exact State.judge_good h1 h2 hc
  · change Host.Outcome.next (s.onDue s.link.rx.gap (State.linkError .timeout)) = _
    rw [h]
    rfl
  · change Host.Outcome.next (s.onDue s.link.rx.gap (State.linkError .timeout)) = _
    rw [h]
    rfl

/-! ### A line written -/

/-- Settles O31: a line written is settled. -/
theorem lineWritten : Obligations.LineWritten := by
  refine ⟨fun n l s => ⟨fun m hm => State.line_putLine_ne l s hm.symm, rfl, ?_⟩, fun n v s => ⟨rfl, rfl, rfl, rfl⟩⟩
  rw [State.line_putLine_self]
  exact l.settle_measuredAt s.now

/-! ### The encodings -/

theorem byteOf_mod (v : Nat) : byteOf (v % 256) = BitVec.ofNat 8 v :=
  BitVec.eq_of_toNat_eq (by rw [byteOf, BitVec.toNat_ofNat, BitVec.toNat_ofNat]; exact Nat.mod_mod ..)

/-- The flags of a job's record are bits 0 to 3 (R198). -/
theorem recordFlags_eq (b0 b1 b2 b3 : Bool) :
    byteOf ((if b0 then 1 else 0) + (if b1 then 2 else 0) + (if b2 then 4 else 0) + (if b3 then 8 else 0)) =
      (onOff b0 ||| onOff b1 <<< 1 ||| onOff b2 <<< 2 ||| onOff b3 <<< 3) := by
  revert b0 b1 b2 b3
  decide

theorem Job.record_eq (collected : Bool) (j : Job) : j.record collected =
    [ byteOf j.id, finCode j.line, (match j.origin with | .link => 0xFF#8 | .key k => finCode k),
      (match j.kind with | .inline => 0#8 | .entry => 1#8),
      onOff j.supervised ||| onOff j.followChain <<< 1 ||| onOff j.connectedOnce <<< 2 ||| onOff collected <<< 3,
      overrideCode j.methodOverride, byteOf j.attemptsOverride, j.state.code, optByte Phase.code j.phase,
      optByte Method.code j.methodInEffect, optByte finCode j.entryIndex, optByte finCode j.fallback, byteOf j.hop,
      byteOf j.attemptsThisHop, optByte byteOf j.attemptsMaxThisHop, byteOf j.attemptsTotal,
      optByte Cause.code j.lastCause, (match j.lastClass with | none => 0#8 | some c => c.code),
      (match j.outcome with | none => 0xFF#8 | some (o, _) => o.code),
      (match j.outcome with | none => 0xFF#8 | some (_, c) => c.code), byteOf j.position,
      optByte byteOf j.symbolsRemaining ] ++
    byteOf j.visited.length :: j.visited.map finCode ++
    (match j.program with | none => [0#8] | some p => byteOf p.length :: p.map Symbol.code) := by
  have horigin : j.origin.code = match j.origin with | .link => 0xFF#8 | .key k => finCode k := by cases j.origin <;> rfl
  have hclass : (j.lastClass.map ToneClass.code).getD 0#8 = match j.lastClass with | none => 0#8 | some c => c.code := by
    cases j.lastClass <;> rfl
  have houtcome : optByte (fun o : JobOutcome × Cause => o.1.code) j.outcome =
      match j.outcome with | none => 0xFF#8 | some (o, _) => o.code := by
    cases j.outcome <;> rfl
  have hcause : optByte (fun o : JobOutcome × Cause => o.2.code) j.outcome =
      match j.outcome with | none => 0xFF#8 | some (_, c) => c.code := by
    cases j.outcome <;> rfl
  have hkind : j.kind.code = match j.kind with | .inline => 0#8 | .entry => 1#8 := by cases j.kind <;> rfl
  have hprogram : byteOf (j.program.getD []).length :: (j.program.getD []).map Symbol.code =
      match j.program with | none => [0#8] | some p => byteOf p.length :: p.map Symbol.code := by
    cases j.program <;> rfl
  rw [Job.record, recordFlags_eq, counted_singleton, counted_singleton, horigin, hclass, houtcome, hcause, hkind,
    hprogram] <;> rfl

/-- The top flag is the lowest set bit (R202). -/
theorem topBit_eq {b : Byte} {i : Nat} (h : b.getLsbD i = true) (hlow : ∀ j, j < i → b.getLsbD j = false) :
    topBit b = i := by
  have hi : i < 8 := BitVec.lt_of_getLsbD h
  rw [topBit, (List.find?_range_eq_some (p := fun i => b.getLsbD i)).2 ⟨h, List.mem_range.2 hi, fun j hj => by
    rw [hlow j hj]; rfl⟩]
  rfl

/-- CHECK makes the sum from LEN through CHECK 0 (R195). -/
theorem frameBytes_eq (kind tag : Byte) (body : List Byte) :
    frameBytes (kind :: tag :: body) =
      [0xC3#8, byteOf (2 + body.length), kind, tag] ++ body ++ [frameCheck (kind :: tag :: body)] ∧
      body.foldl (· + ·) (byteOf (2 + body.length) + kind + tag) + frameCheck (kind :: tag :: body) = 0#8 := by
  have hlength : (kind :: tag :: body).length = 2 + body.length := by
    rw [List.length_cons, List.length_cons]; omega
  rw [frameBytes, frameCheck, hlength]
  refine ⟨rfl, ?_⟩
  rw [List.foldl_cons, List.foldl_cons]
  generalize body.foldl _ _ = x
  rw [BitVec.zero_sub, BitVec.add_right_neg]

theorem State.lineDetails_eq (n : LineNo) (s : State) : s.details (lineSource n) =
    [byteOf (s.line n).ring.count, onOff (s.line n).loop.taken, onOff (s.line n).rev.taken] ++
    (match (s.line n).lastClass with | none => [0#8, 0xFF#8] | some (c, k) => [c.code, finCode k]) ++
    [optByte Cause.code (s.line n).lastCause] ++
    (match (s.line n).lastJob with
     | none => [0#8, 0xFF#8, 0xFF#8]
     | some (id, o, c) => [byteOf id, o.code, c.code]) := by
  have hline : s.details (lineSource n) = (s.line n).details := by fin_cases n <;> rfl
  rw [hline, Line.details]
  cases (s.line n).lastClass <;> cases (s.line n).lastJob <;> rfl

/-- Settles O30: each encoding by its definition. -/
theorem recordsEncoded : Obligations.RecordsEncoded := by
  refine ⟨fun v => ⟨rfl, ?_⟩, rfl, rfl, fun _ _ _ => ⟨rfl, rfl⟩, fun _ _ => rfl, by decide, by decide, by decide,
    by decide, by decide, by decide, by decide, by decide, by decide, by decide, by decide, by decide, by decide,
    by decide, by decide, by decide, by decide, by decide, by decide, by decide, by decide, by decide, by decide,
    by decide, by decide, fun collected j => ?_, fun _ => rfl, fun _ => rfl, by decide, by decide, by decide,
    by decide, fun _ _ => topBit_eq, fun _ => rfl, fun n s => ?_, fun s => ?_, fun s => ?_, fun s => ?_, rfl,
    fun _ _ => rfl, rfl, fun _ _ => rfl, fun _ => rfl, fun _ => rfl, fun _ _ => rfl, rfl, rfl, fun _ => rfl,
    fun r kind tag body h => ?_⟩
  · rw [wordOf, byteOf_mod]
    rfl
  · rw [Job.record_eq] <;> rfl
  · rw [State.lineDetails_eq] <;> rfl
  · change s.keys.details = _
    rw [KeyScanner.details]
    cases s.keys.lastFail <;> rfl
  · change s.store.details = _
    rw [Store.details]
    cases s.store.lastOp <;> rfl
  · change s.events.details = _
    rw [EventUnit.details]
    rcases s.events.lastDiscarded with _ | ⟨id, line, _ | ⟨o, c⟩⟩ <;> rfl
  · obtain ⟨p, rfl, rfl⟩ | ⟨src, rfl, rfl, rfl⟩ := h
    · exact ⟨_, frameBytes_eq ..⟩
    · exact ⟨_, frameBytes_eq ..⟩

end Sys2Proof.Machine
end

section
/-! PROOFS. The refusals common to the requests (R186, R194, R196). -/

namespace Sys2Proof.Machine

/-! ### Ranges and symbols (R194) -/

theorem within_zero (hi v : Nat) : within 0 hi v = decide (v ≤ hi) := by simp [within]

theorem within_below (hi v : Nat) : within 0 hi v = decide (v < hi + 1) := by
  rw [within_zero]
  exact decide_eq_decide.2 Nat.lt_succ_iff.symm

/-- The codes of the dial symbols (R194). -/
theorem Symbol.ofCode_isSome (c : Byte) : (Symbol.ofCode c).isSome =
    ((0x30 ≤ c.toNat && c.toNat ≤ 0x39) || (0x41 ≤ c.toNat && c.toNat ≤ 0x44) ||
      c == 0x2A#8 || c == 0x23#8 || c == 0x50#8 || c == 0x46#8 || c == 0x57#8) := by
  revert c
  decide

/-- The codes of the symbols allowed under PULSE (R35). -/
theorem Symbol.ofCode_pulse (c : Byte) : ((Symbol.ofCode c).map Method.pulse.allows).getD false =
    ((0x30 ≤ c.toNat && c.toNat ≤ 0x39) || c == 0x50#8 || c == 0x46#8 || c == 0x57#8) := by
  revert c
  decide

theorem Symbol.readAll_cons (c : Byte) (bs : List Byte) : Symbol.readAll (c :: bs) =
    (Symbol.ofCode c).bind fun y => (Symbol.readAll bs).map (y :: ·) := by
  simp only [Symbol.readAll, List.mapM_cons]
  cases Symbol.ofCode c <;> cases bs.mapM Symbol.ofCode <;> rfl

theorem Symbol.readAll_isSome (bs : List Byte) : (Symbol.readAll bs).isSome = allSymbols bs := by
  induction bs with
  | nil => rfl
  | cons c bs ih =>
    rw [Symbol.readAll_cons, allSymbols, List.all_cons, ← Symbol.ofCode_isSome, ← allSymbols, ← ih]
    cases Symbol.ofCode c <;> simp

theorem Symbol.readAll_pulse (bs : List Byte) :
    ((Symbol.readAll bs).map Method.pulse.allowsAll).getD false = allPulse bs := by
  induction bs with
  | nil => rfl
  | cons c bs ih =>
    rw [Symbol.readAll_cons, allPulse, List.all_cons, ← Symbol.ofCode_pulse, ← allPulse, ← ih]
    cases Symbol.ofCode c with
    | none => rfl
    | some y => cases Symbol.readAll bs <;> simp [Method.allowsAll]

theorem programFits_eq (lo hi : Nat) (bs : List Byte) : programFits lo hi bs = (within lo hi bs.length && allSymbols bs) := by
  rw [programFits, within_eq, Symbol.readAll_isSome]

/-- The items of a counted list that ends its body. -/
theorem itemsAt_end {b : List Byte} {i : Nat} (h : b.length = i + 1 + item b i) :
    itemsAt b i = b.drop (i + 1) ∧ (b.drop (i + 1)).length = item b i := by
  have hlength : (b.drop (i + 1)).length = item b i := by rw [List.length_drop]; omega
  exact ⟨List.take_of_length_le (by rw [hlength]; rfl), hlength⟩

/-! ### Checks with more fields behind them -/

section numbered
variable {cs : List Bool} {rest : List (Nat × Bool)}

theorem numbered_append_getElem? {j : Nat} (hj : j < cs.length) :
    (numberedFrom1 cs ++ rest)[j]? = some (j + 1, cs[j]) := by
  rw [List.getElem?_append_left (by simpa [numberedFrom1] using hj), numberedFrom1_getElem?,
    List.getElem?_eq_getElem hj, Option.map_some]

theorem numbered_append_true {j : Nat} (hj : j < cs.length) (h : ∃ g, (numberedFrom1 cs ++ rest)[j]? = some (g, true)) :
    cs[j] = true := by
  obtain ⟨g, hg⟩ := h
  rw [numbered_append_getElem? hj] at hg
  exact congrArg Prod.snd (Option.some.inj hg)

/-- The first field that fails, among those with numbers of their own. -/
theorem firstFailure_of_numbered {i f : Nat} (hlt : i < cs.length)
    (hi : (numberedFrom1 cs ++ rest)[i]? = some (f, false))
    (hj : ∀ j : Nat, j < i → ∃ g, (numberedFrom1 cs ++ rest)[j]? = some (g, true)) : firstFailure 1 cs = some f := by
  rw [numbered_append_getElem? hlt, Option.some.injEq, Prod.mk.injEq] at hi
  obtain ⟨hf, hfalse⟩ := hi
  rw [← hf, Nat.add_comm i 1]
  refine firstFailure_some ?_ (fun j hji => ?_) 1
  · rw [List.getElem?_eq_getElem hlt, hfalse]
  · have hjlt : j < cs.length := by omega
    rw [List.getElem?_eq_getElem hjlt, numbered_append_true hjlt (hj j hji)]

theorem firstFailure_of_passed (hj : ∀ j : Nat, j < cs.length → ∃ g, (numberedFrom1 cs ++ rest)[j]? = some (g, true)) :
    firstFailure 1 cs = none := by
  refine firstFailure_none _ (fun x hx => ?_) 1
  obtain ⟨j, hlt, rfl⟩ := List.getElem_of_mem hx
  exact numbered_append_true hlt (hj j hlt)

end numbered

/-- WRITE ENTRY checks the digits of a PULSE entry after its label (R140). -/
theorem writeFields_eq {b : List Byte} (hb : writeFits b = true) :
    writeFields b = numberedFrom1 (entryChecks b) ++ [(5, entryPulseFits b)] := by
  obtain ⟨hroom, hlength⟩ := of_decide_eq_true hb
  have hdigits : (itemsAt b 4).length = item b 4 := by
    rw [itemsAt, List.length_take, List.length_drop]
    exact min_eq_left (by rw [← item_eq]; omega)
  obtain ⟨hlabel, -⟩ := itemsAt_end (b := b) (i := labelAt b) (by rw [labelAt, ← item_eq]; omega)
  have hlabelAt : labelAt b + 1 = 6 + item b 4 := by rw [labelAt, ← item_eq]; omega
  have hprintable : (fun c : Byte => within 0x20 0x7E c.toNat) = printable := funext fun c => within_eq ..
  rw [entryChecks, entryPulseFits, entryDigits, Symbol.readAll_pulse, programFits_eq, hdigits, hlabel, hlabelAt,
    writeFields, within_below 127, within_below 127, within_zero, within_zero, within_zero, hprintable]
  rfl

/-! ### The order of the refusals (R186) -/

/-- A request that its block answers by `checked`, whatever it does then, is refused in the order of R186. -/
theorem State.TakesFrames.refusesChecked {s : State} (h : s.TakesFrames) {tag k : Byte} {mk : Byte → List Byte → Instr}
    {fits : List Byte → Bool} {fields : List Byte → List (Nat × Bool)} (answer : List Byte → State → State × Reply)
    {len : List Byte → Bool} (checks : List Byte → List Bool) (hx : ∀ b, exec (mk tag b) s = .next (s.arrive k tag b))
    (ha : ∀ b, answerRequest ⟨k, tag, b⟩ s = answer b s)
    (hc : ∀ b, ∃ act, answer b s = Machine.checked (len b) (checks b) act s)
    (hl : ∀ b, fits b = len b) (hf : ∀ b, fits b = true → fields b = numberedFrom1 (checks b)) :
    s.RefusesFirst tag mk fits fields := by
  choose act hact using hc
  exact h.refusesFirst len checks act hx (fun b => (ha b).trans (hact b)) hl hf

section refusals
variable {s : State} (h : s.TakesFrames) (tag : Byte)
include h

/-- The requests with no body. -/
theorem State.TakesFrames.refusesBare {k : Byte} {mk : Byte → List Byte → Instr}
    (answer : List Byte → State → State × Reply) (hx : ∀ b, exec (mk tag b) s = .next (s.arrive k tag b))
    (ha : ∀ b, answerRequest ⟨k, tag, b⟩ s = answer b s) (hc : ∀ b, ∃ act, answer b s = bare b act s) :
    s.RefusesFirst tag mk (fun b => b.length == 0) (fun _ => []) :=
  h.refusesChecked answer (fun _ => []) hx ha hc (fun b => by cases b <;> rfl) fun _ _ => rfl

/-- The requests that carry one number. -/
theorem State.TakesFrames.refusesNumbered {k : Byte} {mk : Byte → List Byte → Instr} {n : Nat}
    (answer : List Byte → State → State × Reply) (hx : ∀ b, exec (mk tag b) s = .next (s.arrive k tag b))
    (ha : ∀ b, answerRequest ⟨k, tag, b⟩ s = answer b s) (hc : ∀ b, ∃ act, answer b s = numbered n b act s) :
    s.RefusesFirst tag mk (fun b => b.length == 1) fun b => [(1, decide (item b 0 < n))] :=
  h.refusesChecked answer (fun b => [decide (byteAt b 0 < n)]) hx ha
    (fun b => by obtain ⟨act, hact⟩ := hc b; exact ⟨_, hact⟩) (fun _ => rfl) fun _ _ => rfl

/-- The requests that name a job (R95). -/
theorem State.TakesFrames.refusesNamed {k : Byte} {mk : Byte → List Byte → Instr}
    (answer : List Byte → State → State × Reply) (hx : ∀ b, exec (mk tag b) s = .next (s.arrive k tag b))
    (ha : ∀ b, answerRequest ⟨k, tag, b⟩ s = answer b s) (hc : ∀ b, ∃ act, answer b s = onNamedJob b act s) :
    s.RefusesFirst tag mk (fun b => b.length == 1) (fun b => [(1, item b 0 != 0)]) ∧
      ∀ x : Byte, x ≠ 0#8 → s.store.st ≠ .checking → s.job x.toNat = none →
        exec (mk tag [x]) s = .next (s.replied tag (refusal .noSuchJob 0)) := by
  refine ⟨h.refusesChecked answer (fun b => [byteAt b 0 != 0]) hx ha
    (fun b => by obtain ⟨act, hact⟩ := hc b; exact ⟨_, hact⟩) (fun _ => rfl) fun _ _ => rfl, fun x hne hready hj => ?_⟩
  refine h.next_refused (hx _) ?_
  obtain ⟨act, hact⟩ := hc [x]
  have hid : (byteAt [x] 0 != 0) = true := by
    rw [bne_iff_ne]
    exact fun hzero => hne (BitVec.eq_of_toNat_eq hzero)
  have ht : s.TakesRequests := { h with ready := hready }
  rw [ha, hact, onNamedJob, ht.checked (by simp) (by simp [hid])]
  change (match s.job x.toNat with | none => refuse .noSuchJob s | some j => act j s) = _
  rw [hj] <;> rfl

theorem setLink_refusals : s.RefusesFirst tag Instr.setLink (fun b => b.length == 2) linkFields :=
  h.refusesChecked answerSetLink (fun b => [decide (byteAt b 0 ≤ 4), decide (byteAt b 1 ≤ 1)]) (fun _ => rfl)
    (fun _ => rfl) (fun _ => ⟨_, rfl⟩) (fun _ => rfl) fun b _ => by simp only [linkFields, within_zero]; rfl

omit h in
theorem setMask_checked (b : List Byte) : ∃ act, answerSetMask b s =
    checked (b.length == 2) [decide (byteAt b 0 < 7),
      b.getD 1 0#8 &&& (if item b 0 < 4 then 0x80#8 else 0xF0#8) == 0#8] act s := by
  refine ⟨fun s => match below 7 (byteAt b 0) with
    | none => badValue 1 s
    | some src => (s.setMask src (b.getD 1 0#8), .ok []), ?_⟩
  rw [answerSetMask]
  by_cases hb : byteAt b 0 < 7
  · have hflags : ~~~ flagsOf ⟨byteAt b 0, hb⟩ = if item b 0 < 4 then 0x80#8 else 0xF0#8 := by
      rw [flagsOf, item_eq]
      dsimp only
      split <;> rfl
    rw [maskFits, below, dif_pos hb, ← hflags]
  · rw [decide_eq_false hb]
    rfl

theorem setMask_refusals : s.RefusesFirst tag Instr.setMask (fun b => b.length == 2) maskFields :=
  h.refusesChecked answerSetMask _ (fun _ => rfl) (fun _ => rfl) setMask_checked (fun _ => rfl) fun b _ => by
    simp only [maskFields, within_below]
    rfl

theorem setScan_refusals : s.RefusesFirst tag Instr.setScan (fun b => b.length == 5) scanFields :=
  h.refusesChecked answerSetScan (fun b => [inRange 10 50 (byteAt b 0), decide (byteAt b 1 ≤ 1),
    decide (byteAt b 2 ≤ 1), decide (byteAt b 3 ≤ 1), decide (byteAt b 4 ≤ 1)]) (fun _ => rfl)
    (fun _ => rfl) (fun _ => ⟨_, rfl⟩) (fun _ => rfl) fun b _ => by
      simp only [scanFields, within_zero, within_eq 10 50]
      rfl

theorem sendDigits_refusals : s.RefusesFirst tag Instr.sendDigits sendFits sendFields :=
  h.refusesChecked answerSendDigits (len := fun b => 2 ≤ b.length && b.length == 2 + byteAt b 1) 
    (fun b => [decide (byteAt b 0 < 4), programFits 1 32 (itemsAt b 1)]) (fun _ => rfl) (fun _ => rfl)
    (fun b => by rw [answerSendDigits]; exact ⟨_, rfl⟩) (fun b => Bool.decide_and ..) fun b hb => by
      obtain ⟨-, hlength⟩ := of_decide_eq_true hb
      obtain ⟨hitems, hcount⟩ := itemsAt_end (i := 1) hlength
      rw [programFits_eq, hitems, hcount, sendFields, within_below]
      rfl

theorem submitJob_refusals : s.RefusesFirst tag Instr.submitJob submitFits submitFields := by
  refine h.refusesChecked answerSubmitJob submitChecks (fun _ => rfl) (fun _ => rfl) (fun _ => ⟨_, rfl⟩) (fun b => ?_)
    fun b hb => ?_
  · rw [submitFits, submitLength, Bool.decide_and, item_eq]
    split <;> rfl
  · obtain ⟨-, hlength⟩ := of_decide_eq_true hb
    have hchain : within 0 (if item b 1 = 1 then 1 else 0) (item b 3) =
        (byteAt b 3 == 0 || (byteAt b 3 == 1 && byteAt b 1 == 1)) := by
      rw [within_zero, ← item_eq, ← item_eq]
      by_cases h1 : item b 1 = 1
      · rw [if_pos h1, h1, Bool.eq_iff_iff]
        simp
        omega
      · rw [if_neg h1, Bool.eq_iff_iff]
        simp [h1]
    have htarget : (if item b 1 = 0 then within 1 32 (item b 6) && allSymbols (b.drop 7) &&
        (item b 4 != 1 || allPulse (b.drop 7)) else within 0 127 (item b 6)) = submitTargetFits b := by
      rw [submitTargetFits, ← item_eq b 1]
      split
      case isTrue h1 =>
        rw [if_pos h1] at hlength
        obtain ⟨hitems, hcount⟩ := itemsAt_end (i := 6) hlength
        rw [Symbol.readAll_pulse, programFits_eq, hitems, hcount]
        rfl
      case isFalse h1 =>
        rw [within_below]
        rfl
    rw [submitFields, hchain, htarget, within_below 3, within_zero, within_zero, within_zero, within_zero]
    rfl

theorem loadCadence_refusals : s.RefusesFirst tag Instr.loadCadence cadenceFits cadenceFields := by
  refine h.refusesChecked answerLoadCadence cadenceChecks (fun _ => rfl) (fun _ => rfl) (fun _ => ⟨_, rfl⟩) (fun b => ?_)
    fun b _ => ?_
  · rw [cadenceFits, cadenceLength, Bool.decide_and, item_eq]
    rfl
  · rw [cadenceFields, cadenceChecks, within_below 7, within_zero 1, within_eq 1 6, segmentsOf, List.flatMap_map]
    simp only [within_eq]
    rfl

theorem writeEntry_refusals : s.RefusesFirst tag Instr.writeEntry writeFits writeFields := by
  have hfits : ∀ b, writeFits b = entryLength b := fun b => Bool.decide_and ..
  refine ⟨fun b hb => ?_, fun b i f hb hi hj => ?_, fun b hb hall hready => ?_⟩
  · refine h.next_refused rfl (show answerWriteEntry b s = _ from ?_)
    rw [answerWriteEntry, ← hfits, hb]
    rfl
  · refine h.next_refused rfl (show answerWriteEntry b s = _ from ?_)
    rw [writeFields_eq hb] at hi hj
    rw [answerWriteEntry, ← hfits, hb]
    rcases Nat.lt_or_ge i (entryChecks b).length with hlt | hge
    · rw [firstFailure_of_numbered hlt hi hj]
      rfl
    · rw [firstFailure_of_passed fun j hlt => hj j (by omega)]
      have hlast : [(5, entryPulseFits b)][i - (entryChecks b).length]? = some (f, false) := by
        rw [List.getElem?_append_right (by simpa [numberedFrom1] using hge)] at hi
        simpa [numberedFrom1] using hi
      obtain ⟨hf, hpulse⟩ := Prod.mk.inj (List.mem_singleton.1 (List.mem_of_getElem? hlast))
      rw [← hpulse, hf]
      rfl
  · refine h.next_refused rfl (show answerWriteEntry b s = _ from ?_)
    rw [writeFields_eq hb] at hall
    have hpulse : entryPulseFits b = true := hall _ (List.mem_append_right _ (List.mem_singleton_self _))
    have hpassed : firstFailure 1 (entryChecks b) = none := firstFailure_of_passed (rest := [(5, entryPulseFits b)])
      fun j hlt => ⟨j + 1, by
        have hj := numbered_append_getElem? (rest := [(5, entryPulseFits b)]) hlt
        have htrue : (entryChecks b)[j] = true := hall _ (List.mem_of_getElem? hj)
        rw [hj, htrue]⟩
    have hchecking : s.checking = true := by rw [State.checking, hready]; rfl
    rw [answerWriteEntry, ← hfits, hb, hpassed, hpulse, hchecking]
    rfl

theorem bindKey_refusals : s.RefusesFirst tag Instr.bindKey bindFits bindFields := by
  refine h.refusesChecked answerBindKey bindChecks (fun _ => rfl) (fun _ => rfl) (fun _ => ⟨_, rfl⟩) (fun b => ?_)
    fun b hb => ?_
  · rw [bindFits, bindLength, Bool.decide_and, item_eq]
    congr 1
    generalize byteAt b 1 = action
    match action with
    | 0 | 1 | 2 | 3 | 4 | _ + 5 => rfl
  · obtain ⟨-, hlength⟩ := of_decide_eq_true hb
    have hlast : (match item b 1 with
        | 1 => within 0 127 (item b 3)
        | 4 => allSymbols (b.drop 3)
        | _ => true) = match byteAt b 1 with
        | 1 => decide (byteAt b 3 < 128)
        | 4 => (Symbol.ofCode (b.getD 3 0#8)).isSome
        | _ => true := by
      rw [← item_eq]
      split
      case h_1 => exact within_below ..
      case h_2 h4 =>
        have hlength : b.length = 4 := by rw [h4] at hlength; exact hlength
        have hdrop : b.drop 3 = [b.getD 3 0#8] := by
          rw [List.drop_eq_getElem_cons (by omega), List.drop_eq_nil_of_le (by omega), List.getD_eq_getElem _ _ (by omega)]
        rw [hdrop, Symbol.ofCode_isSome, allSymbols, List.all_cons, List.all_nil, Bool.and_true]
      case h_3 => rfl
    refine (congrArg (fun x => [(1, within 0 19 (item b 0)), (2, within 0 4 (item b 1)),
      (3, item b 1 == 0 || within 0 3 (item b 2)), (4, x)]) hlast).trans ?_
    rw [within_below 19, within_zero, within_below 3]
    rfl

theorem unknownKind_refused {kind : Byte} (body : List Byte) (hk : kind ∉ requestCodes) :
    exec (.unknownKind kind tag body) s = .next (s.replied tag (refusal .unknownKind 0)) := by
  have hcode : ∀ n : Nat, kind.toNat = n → BitVec.ofNat 8 n ∉ requestCodes := fun n hn => by
    rwa [← hn, BitVec.ofNat_toNat, BitVec.setWidth_eq]
  refine h.next_refused rfl ?_
  unfold answerRequest
  split
  case h_35 => rfl
  all_goals
    rename_i hcase
    exact (hcode _ hcase (by decide)).elim

end refusals

/-- Settles O26: each request's block checks in the order of R186. -/
theorem requestsRefused : Obligations.RequestsRefused := by
  intro tag s h
  refine ⟨fun mk hmk => ?_, fun mk limit hmk => ?_, fun mk hmk => ?_, setLink_refusals h tag, setMask_refusals h tag,
    setScan_refusals h tag, sendDigits_refusals h tag, submitJob_refusals h tag, loadCadence_refusals h tag,
    writeEntry_refusals h tag, bindKey_refusals h tag, fun body hb => ?_, fun x hx => ?_,
    fun kind body hk => unknownKind_refused h tag body hk⟩
  · simp only [List.mem_cons, List.not_mem_nil, or_false] at hmk
    rcases hmk with rfl | rfl | rfl | rfl | rfl | rfl | rfl | rfl | rfl
    · exact h.refusesBare tag answerStatus (fun _ => rfl) (fun _ => rfl) fun _ => ⟨_, rfl⟩
    · exact h.refusesBare tag answerResetEngine (fun _ => rfl) (fun _ => rfl) fun _ => ⟨_, rfl⟩
    · exact h.refusesBare tag answerCollectOldest (fun _ => rfl) (fun _ => rfl) fun _ => ⟨_, rfl⟩
    · exact h.refusesBare tag answerListJobs (fun _ => rfl) (fun _ => rfl) fun _ => ⟨_, rfl⟩
    · exact h.refusesBare tag answerFormatStore (fun _ => rfl) (fun _ => rfl) fun _ => ⟨_, rfl⟩
    · exact h.refusesBare tag answerStoreStatus (fun _ => rfl) (fun _ => rfl) fun _ => ⟨_, rfl⟩
    · exact h.refusesBare tag answerSaveSettings (fun _ => rfl) (fun _ => rfl) fun _ => ⟨_, rfl⟩
    · exact h.refusesBare tag answerClearSettings (fun _ => rfl) (fun _ => rfl) fun _ => ⟨_, rfl⟩
    · exact h.refusesBare tag answerReadKeys (fun _ => rfl) (fun _ => rfl) fun _ => ⟨_, rfl⟩
  · simp only [List.mem_cons, List.not_mem_nil, or_false, Prod.mk.injEq] at hmk
    rcases hmk with ⟨rfl, rfl⟩ | ⟨rfl, rfl⟩ | ⟨rfl, rfl⟩ | ⟨rfl, rfl⟩ | ⟨rfl, rfl⟩ | ⟨rfl, rfl⟩ | ⟨rfl, rfl⟩ | ⟨rfl, rfl⟩ |
      ⟨rfl, rfl⟩ | ⟨rfl, rfl⟩ | ⟨rfl, rfl⟩
    · exact h.refusesNumbered tag answerReadProfile (fun _ => rfl) (fun _ => rfl) fun _ => ⟨_, rfl⟩
    · exact h.refusesNumbered tag answerEnableLine (fun _ => rfl) (fun _ => rfl) fun _ => ⟨_, rfl⟩
    · exact h.refusesNumbered tag answerDisableLine (fun _ => rfl) (fun _ => rfl) fun _ => ⟨_, rfl⟩
    · exact h.refusesNumbered tag answerReleaseLine (fun _ => rfl) (fun _ => rfl) fun _ => ⟨_, rfl⟩
    · exact h.refusesNumbered tag answerHold (fun _ => rfl) (fun _ => rfl) fun _ => ⟨_, rfl⟩
    · exact h.refusesNumbered tag answerUnhold (fun _ => rfl) (fun _ => rfl) fun _ => ⟨_, rfl⟩
    · exact h.refusesNumbered tag answerReadCadence (fun _ => rfl) (fun _ => rfl) fun _ => ⟨_, rfl⟩
    · exact h.refusesNumbered tag answerClearCadence (fun _ => rfl) (fun _ => rfl) fun _ => ⟨_, rfl⟩
    · exact h.refusesNumbered tag answerReadEntry (fun _ => rfl) (fun _ => rfl) fun _ => ⟨_, rfl⟩
    · exact h.refusesNumbered tag answerEraseEntry (fun _ => rfl) (fun _ => rfl) fun _ => ⟨_, rfl⟩
    · exact h.refusesNumbered tag answerReadBinding (fun _ => rfl) (fun _ => rfl) fun _ => ⟨_, rfl⟩
  · simp only [List.mem_cons, List.not_mem_nil, or_false] at hmk
    rcases hmk with rfl | rfl | rfl
    · exact h.refusesNamed tag answerCancelJob (fun _ => rfl) (fun _ => rfl) fun _ => ⟨_, rfl⟩
    · exact h.refusesNamed tag answerQueryJob (fun _ => rfl) (fun _ => rfl) fun _ => ⟨_, rfl⟩
    · exact h.refusesNamed tag answerCollectJob (fun _ => rfl) (fun _ => rfl) fun _ => ⟨_, rfl⟩
  · refine h.next_refused rfl (show answerEvents body s = _ from ?_)
    rw [answerEvents, if_neg hb]
    rfl
  · refine h.next_refused rfl (show answerEvents [x] s = _ from ?_)
    have hbelow : below 7 (byteAt [x] 0) = none := dif_neg (Nat.not_lt.2 hx)
    rw [answerEvents, if_pos (show [x].length = 1 from rfl), hbelow]
    rfl

end Sys2Proof.Machine
end

section
/-! PROOFS. BIND KEY, SET SCAN and READ KEYS (R160, R163, R167). -/

namespace Sys2Proof.Machine

/-! ### What the UP of a key leaves (R47, R50, R51) -/

/-- `t` differs from `s` in its lines and its pool only. -/
def LinesAndPool (s t : State) : Prop := t = { s with lines := t.lines, pool := t.pool }

namespace LinesAndPool
variable {s t u : State}

theorem refl (s : State) : LinesAndPool s s := rfl

theorem trans (h : LinesAndPool s t) (k : LinesAndPool t u) : LinesAndPool s u := by
  unfold LinesAndPool at h k ⊢
  rw [k, h]

theorem onLine (h : LinesAndPool s t) (n : LineNo) (f : Line → Line) : LinesAndPool s (t.onLine n f) :=
  h.trans rfl

theorem takeGrant (h : LinesAndPool s t) (n : LineNo) : LinesAndPool s (t.takeGrant n) := h.trans rfl

theorem releaseTone (h : LinesAndPool s t) (n : LineNo) : LinesAndPool s (t.releaseTone n) := by
  refine h.trans ?_
  unfold State.releaseTone
  split
  · exact refl t
  · dsimp only
    split <;> rfl

theorem endManual (h : LinesAndPool s t) (n : LineNo) : LinesAndPool s (t.endManual n) :=
  ((h.onLine n _).trans (u := State.withdrawTone n (t.onLine n Line.dropManual)) rfl).releaseTone n

theorem manualUp (h : LinesAndPool s t) (k : KeyNo) (n : LineNo) : LinesAndPool s (t.manualUp k n) := by
  unfold State.manualUp
  dsimp only
  split
  · split
    · exact h
    · exact h.endManual n
    · split
      · exact h.endManual n
      · exact h.onLine n _
  · exact h

theorem upDelivered (h : LinesAndPool s t) (k : KeyNo) : LinesAndPool s (t.eachLine (State.manualUp k)) :=
  (((h.manualUp k 0).manualUp k 1).manualUp k 2).manualUp k 3

theorem keys (h : LinesAndPool s t) : t.keys = s.keys := by
  unfold LinesAndPool at h
  rw [h]

theorem now (h : LinesAndPool s t) : t.now = s.now := by
  unfold LinesAndPool at h
  rw [h]

end LinesAndPool

theorem State.offerRecord_eq (k : KeyNo) (down : Bool) (s : State) : s.offerRecord k down =
    if s.keys.queue.length < 16 then State.latch keysSource .key
      { s with keys := { s.keys with queue := s.keys.queue ++ [⟨k, down, s.now % 65536⟩] } }
    else State.latch keysSource .overflow s := rfl

/-! ### A direct input read against a new active level (R167) -/

/-- The key of direct input `e`. -/
def directKey (e : Fin 4) : KeyNo := ⟨16 + e.val, by omega⟩

/-- The key record after its input is read against the new level. -/
def Key.reread (level : Bool) (x : Key) : Key :=
  { x with
    deb := x.raw == level
    since := none
    cond := match x.cond, x.raw == level with
      | .up, true => .marked
      | .marked, false => .up
      | .down, false => .up
      | c, _ => c }

/-- The scanner with the new level and the key re-read; an UP that this takes is not yet recorded. -/
def State.reread (e : Fin 4) (level : Bool) (s : State) : State := { s with keys := { s.keys with
  active := s.keys.active.set e level
  all := s.keys.all.set (directKey e) ((s.key (directKey e)).reread level) } }

theorem State.relevel_same {e : Fin 4} {level : Bool} {s : State} (h : s.keys.active.get e = level) :
    s.relevel e level = s := if_pos h

theorem Key.reread_cond_free {level : Bool} {x : Key} (h : x.cond = .up ∨ x.cond = .marked) :
    (x.reread level).cond = if x.raw == level then .marked else .up := by
  unfold Key.reread
  dsimp only
  cases x.raw == level <;> rcases h with h | h <;> rw [h] <;> rfl

theorem Key.reread_cond_down {level : Bool} {x : Key} (h : x.cond = .down) :
    (x.reread level).cond = if x.raw == level then .down else .up := by
  unfold Key.reread
  dsimp only
  cases x.raw == level <;> rw [h] <;> rfl

theorem State.reread_with {e : Fin 4} {level : Bool} {s : State} {c : KeyCondition}
    (hc : ((s.key (directKey e)).reread level).cond = c) : s.reread e level = { s with keys := { s.keys with
      active := s.keys.active.set e level
      all := s.keys.all.set (directKey e) { s.key (directKey e) with
        deb := (s.key (directKey e)).raw == level, since := none, cond := c } } } := by
  subst hc
  rfl

/-- The new active level alone. -/
def State.levelled (e : Fin 4) (level : Bool) (s : State) : State :=
  s.onKeys fun ks => { ks with active := ks.active.set e level }

/-- The debounced level and the condition written one after the other. -/
theorem State.reread_eq {e : Fin 4} {level : Bool} {s : State} {c : KeyCondition}
    (hc : ((s.key (directKey e)).reread level).cond = c) :
    ((s.levelled e level).onKey (directKey e) fun key =>
      { key with deb := ((s.levelled e level).key (directKey e)).raw == level, since := none }).onKey (directKey e)
        (fun key => { key with cond := c }) = s.reread e level := by
  subst hc
  simp only [State.levelled, State.onKey, State.onKeys, Bank.get_set_self, Bank.set_set]
  rfl

theorem State.reread_kept {e : Fin 4} {level : Bool} {s : State}
    (hc : ((s.key (directKey e)).reread level).cond = (s.key (directKey e)).cond) :
    ((s.levelled e level).onKey (directKey e) fun key =>
      { key with deb := ((s.levelled e level).key (directKey e)).raw == level, since := none }) = s.reread e level := by
  rw [← State.reread_eq hc]
  simp only [State.levelled, State.onKey, State.onKeys, Bank.get_set_self, Bank.set_set]
  rfl

/-- A change of level re-reads the key, and takes the UP of one that was DOWN. -/
theorem State.relevel_eq {e : Fin 4} {level : Bool} {s : State} (h : s.keys.active.get e ≠ level) :
    s.relevel e level = if (s.key (directKey e)).cond = .down ∧ (s.key (directKey e)).raw ≠ level then
      ((s.reread e level).offerRecord (directKey e) false).eachLine (State.manualUp (directKey e))
    else s.reread e level := by
  have hcond : ((s.key (directKey e)).reread level).cond =
      match (s.key (directKey e)).cond, (s.key (directKey e)).raw == level with
      | .up, true => .marked
      | .marked, false => .up
      | .down, false => .up
      | c, _ => c := rfl
  have hreread := fun c => State.reread_eq (e := e) (level := level) (s := s) (c := c)
  have hkept := State.reread_kept (e := e) (level := level) (s := s)
  have hk : (⟨16 + e.val, by omega⟩ : KeyNo) = directKey e := rfl
  rw [State.relevel, if_neg h, hk]
  change (match (s.key (directKey e)).cond, (s.key (directKey e)).raw == level with
    | .up, true => _
    | .marked, false => _
    | .down, false => State.takeUp (directKey e) _
    | _, _ => _) = _
  generalize hd : ((s.key (directKey e)).raw == level) = down at hcond ⊢
  cases hc : (s.key (directKey e)).cond
  case up =>
    rw [if_neg (by simp)]
    rw [hc] at hcond hkept
    cases down
    · exact hkept hcond
    · exact hreread .marked hcond
  case down =>
    rw [hc] at hcond hkept
    cases down
    · rw [if_pos ⟨rfl, beq_eq_false_iff_ne.1 hd⟩, ← hreread .up hcond]
      rfl
    · rw [if_neg fun h => h.2 (beq_iff_eq.1 hd)]
      exact hkept hcond
  case deferred =>
    rw [if_neg (by simp)]
    rw [hc] at hcond hkept
    cases down <;> exact hkept hcond
  case marked =>
    rw [if_neg (by simp)]
    rw [hc] at hcond hkept
    cases down
    · exact hreread .up hcond
    · exact hkept hcond

theorem State.offerRecord_frame (k : KeyNo) (down : Bool) (s : State) :
    (∃ q, (s.offerRecord k down).keys = { s.keys with queue := q }) ∧ (s.offerRecord k down).now = s.now := by
  rw [State.offerRecord_eq]
  split
  · exact ⟨⟨_, State.latch_keys ..⟩, State.latch_now ..⟩
  · exact ⟨⟨_, State.latch_keys ..⟩, State.latch_now ..⟩

/-- The scanner after an input is read against a level: the queue apart, its key alone has changed. -/
theorem State.relevel_keys (e : Fin 4) (level : Bool) (s : State) :
    (∃ q, (s.relevel e level).keys = { s.keys with
      queue := q
      active := s.keys.active.set e level
      all := if s.keys.active.get e = level then s.keys.all
        else s.keys.all.set (directKey e) ((s.key (directKey e)).reread level) }) ∧ (s.relevel e level).now = s.now := by
  by_cases h : s.keys.active.get e = level
  · have hactive : s.keys.active.set e level = s.keys.active := by rw [← h, Bank.set_get]
    rw [State.relevel_same h, if_pos h, hactive]
    exact ⟨⟨_, rfl⟩, rfl⟩
  · rw [State.relevel_eq h, if_neg h]
    split
    · have hup := (LinesAndPool.refl ((s.reread e level).offerRecord (directKey e) false)).upDelivered (directKey e)
      obtain ⟨⟨q, hq⟩, hnow⟩ := (s.reread e level).offerRecord_frame (directKey e) false
      exact ⟨⟨q, hup.keys.trans hq⟩, hup.now.trans hnow⟩
    · exact ⟨⟨_, rfl⟩, rfl⟩

theorem State.relevel_now (e : Fin 4) (level : Bool) (s : State) : (s.relevel e level).now = s.now :=
  (s.relevel_keys e level).2

theorem State.relevel_debounceMs (e : Fin 4) (level : Bool) (s : State) :
    (s.relevel e level).keys.debounceMs = s.keys.debounceMs := by
  obtain ⟨⟨q, hq⟩, -⟩ := s.relevel_keys e level
  rw [hq]

theorem State.relevel_active (e i : Fin 4) (level : Bool) (s : State) :
    (s.relevel e level).keys.active.get i = if e = i then level else s.keys.active.get i := by
  obtain ⟨⟨q, hq⟩, -⟩ := s.relevel_keys e level
  rw [hq, Bank.get_set]

theorem State.relevel_key (e : Fin 4) (level : Bool) (s : State) (k : KeyNo) : (s.relevel e level).key k =
    if directKey e = k ∧ s.keys.active.get e ≠ level then (s.key k).reread level else s.key k := by
  obtain ⟨⟨q, hq⟩, -⟩ := s.relevel_keys e level
  rw [State.key, hq]
  by_cases h : s.keys.active.get e = level
  · rw [if_pos h, if_neg fun hne => hne.2 h]
    rfl
  · rw [if_neg h, Bank.get_set]
    by_cases hk : directKey e = k
    · rw [if_pos hk, if_pos ⟨hk, h⟩, ← hk]
    · rw [if_neg hk, if_neg fun hne => hk hne.1]
      rfl

/-- Nothing but the key records and the active levels differs. -/
def OnlyReread (s t : State) : Prop := t = { s with keys := { s.keys with all := t.keys.all, active := t.keys.active } }

theorem OnlyReread.trans {s t u : State} (h : OnlyReread s t) (k : OnlyReread t u) : OnlyReread s u := by
  unfold OnlyReread at h k ⊢
  rw [k, h]

/-- Where no key DOWN reads inactive, the re-read takes no UP. -/
theorem State.relevel_only {e : Fin 4} {level : Bool} {s : State}
    (h : s.keys.active.get e ≠ level → (s.key (directKey e)).cond = .down → (s.key (directKey e)).raw = level) :
    OnlyReread s (s.relevel e level) := by
  by_cases hsame : s.keys.active.get e = level
  · rw [State.relevel_same hsame]
    rfl
  · rw [State.relevel_eq hsame, if_neg fun hdown => hdown.2 (h hsame hdown.1)]
    rfl

/-- The four inputs read against new levels, E0 first and E3 last ([41]). -/
def State.relevelAll (a : Fin 4 → Bool) (s : State) : State :=
  State.relevel 3 (a 3) (State.relevel 2 (a 2) (State.relevel 1 (a 1) (State.relevel 0 (a 0) s)))

section relevelAll
variable (a : Fin 4 → Bool) (s : State)

theorem State.relevelAll_now : (s.relevelAll a).now = s.now := by
  simp only [State.relevelAll, State.relevel_now]

theorem State.relevelAll_debounceMs : (s.relevelAll a).keys.debounceMs = s.keys.debounceMs := by
  simp only [State.relevelAll, State.relevel_debounceMs]

theorem State.relevelAll_active (e : Fin 4) : (s.relevelAll a).keys.active.get e = a e := by
  simp only [State.relevelAll, State.relevel_active]
  fin_cases e <;> simp

theorem State.relevelAll_matrix {k : KeyNo} (hk : k.val < 16) : (s.relevelAll a).key k = s.key k := by
  have hne : ∀ e, directKey e ≠ k := fun e he => by
    rw [← he] at hk
    simp only [directKey] at hk
    omega
  simp only [State.relevelAll, State.relevel_key, hne, false_and, if_false]

theorem State.relevelAll_direct (e : Fin 4) : (s.relevelAll a).key (directKey e) =
    if s.keys.active.get e ≠ a e then (s.key (directKey e)).reread (a e) else s.key (directKey e) := by
  simp only [State.relevelAll, State.relevel_key, State.relevel_active, directKey]
  fin_cases e <;> simp

theorem State.relevelAll_only (h : ∀ e, s.keys.active.get e ≠ a e → (s.key (directKey e)).cond = .down →
    (s.key (directKey e)).raw = a e) : OnlyReread s (s.relevelAll a) := by
  refine (State.relevel_only (h 0)).trans ((State.relevel_only ?_).trans ((State.relevel_only ?_).trans (State.relevel_only ?_)))
  · simpa [State.relevel_key, State.relevel_active, directKey] using h 1
  · simpa [State.relevel_key, State.relevel_active, directKey] using h 2
  · simpa [State.relevel_key, State.relevel_active, directKey] using h 3

end relevelAll

/-! ### The stability timers that a shorter debounce time makes overdue (R157) -/

theorem State.overdue_iff (k : KeyNo) (s : State) : s.overdue k = true ↔ cameBy s.now (s.key k).since s.keys.debounceMs := by
  simp [State.overdue, cameBy, Option.any_eq_true]

theorem State.advanceTo_past {d : Nat} {s : State} (h : d ≤ s.now) : s.advanceTo d = s := by
  rw [State.advanceTo, Nat.max_eq_left h]

/-- A stability timer that is overdue expires as KEY_TRANSITION. -/
theorem keyTransition_overdue {k : KeyNo} {s : State} (h : cameBy s.now (s.key k).since s.keys.debounceMs) :
    exec (.keyTransition k) s = .next (s.expireKey k) := by
  rw [State.expireKey, if_pos ((s.overdue_iff k).2 h)]
  obtain ⟨m, hm, hdue⟩ := h
  change Host.Outcome.next (s.onDue ((s.key k).since.map (· + s.keys.debounceMs)) (State.debouncedChange k)) = _
  rw [hm]
  change Host.Outcome.next ((s.advanceTo (m + s.keys.debounceMs)).debouncedChange k) = _
  rw [State.advanceTo_past hdue]

theorem State.expireKey_quiet {k : KeyNo} {s : State} (h : ¬ cameBy s.now (s.key k).since s.keys.debounceMs) :
    s.expireKey k = s := if_neg (mt (s.overdue_iff k).1 h)

/-- The state after the timers of the first `i` keys. -/
def State.expiredTo (s : State) (i : Nat) : State := ((List.finRange 20).take i).foldl State.expireKey s

theorem State.expiredTo_succ (s : State) (k : KeyNo) : s.expiredTo (k.val + 1) = (s.expiredTo k.val).expireKey k := by
  rw [State.expiredTo, List.take_succ_eq_append_getElem (by rw [List.length_finRange]; exact k.isLt),
    List.foldl_append, List.getElem_finRange]
  rfl

theorem State.expiredTo_all (s : State) : s.expiredTo 20 = s.expireKeys := rfl

theorem State.expireKeys_quiet {s : State} (h : ∀ k, ¬ cameBy s.now (s.key k).since s.keys.debounceMs) :
    s.expireKeys = s := List.foldl_fixed' (fun k => State.expireKey_quiet (h k)) _

/-! ### The requests -/

/-- The items of a BIND KEY body behind its key (R163, R196). -/
def Binding.items : Binding → List Byte
  | .none => [0#8]
  | .job n e => [1#8, finCode n, finCode e]
  | .release n => [2#8, finCode n]
  | .cancel n => [3#8, finCode n]
  | .digit n y => [4#8, finCode n, y.code]

theorem bindingOf_items (k : KeyNo) (x : Binding) : bindLength (finCode k :: x.items) = true ∧
    (∀ c ∈ bindChecks (finCode k :: x.items), c = true) ∧ bindingOf (finCode k :: x.items) = some x := by
  have hk : (finCode k).toNat < 20 := by
    rw [finCode_toNat (by decide)]
    exact k.isLt
  have hline : ∀ (n : LineNo), (finCode n).toNat = n.val := finCode_toNat (by decide)
  have hentry : ∀ (e : EntryNo), (finCode e).toNat = e.val := finCode_toNat (by decide)
  cases x with
  | none => exact ⟨rfl, by simp [bindChecks, hk, Binding.items, byteAt], rfl⟩
  | job n e =>
    refine ⟨rfl, ?_, ?_⟩
    · simp [bindChecks, hk, Binding.items, byteAt, hline, hentry]
    · simp [bindingOf, Binding.items, byteAt, hline, hentry, below_val]
  | release n =>
    refine ⟨rfl, ?_, ?_⟩
    · simp [bindChecks, hk, Binding.items, byteAt, hline]
    · simp [bindingOf, Binding.items, byteAt, hline, below_val]
  | cancel n =>
    refine ⟨rfl, ?_, ?_⟩
    · simp [bindChecks, hk, Binding.items, byteAt, hline]
    · simp [bindingOf, Binding.items, byteAt, hline, below_val]
  | digit n y =>
    refine ⟨rfl, ?_, ?_⟩
    · simp [bindChecks, hk, Binding.items, byteAt, hline, Symbol.ofCode_code]
    · simp [bindingOf, Binding.items, byteAt, hline, below_val, Symbol.ofCode_code]

section requests
variable {s : State} (h : s.TakesRequests) (tag : Byte)
include h

theorem bindKey_answer (k : KeyNo) (x : Binding) : answerRequest ⟨0x50#8, tag, finCode k :: x.items⟩ s =
    (s.onKey k fun key => { key with binding := x }, .ok []) := by
  change answerBindKey (finCode k :: x.items) s = _
  obtain ⟨hlength, hchecks, hread⟩ := bindingOf_items k x
  rw [answerBindKey, h.checked hlength hchecks, byteAt_fin (by decide), hread]

theorem setScan_answer {d : Nat} (h1 : 10 ≤ d) (h2 : d ≤ 50) (a : Fin 4 → Bool) :
    answerRequest ⟨0x52#8, tag, [byteOf d, onOff (a 0), onOff (a 1), onOff (a 2), onOff (a 3)]⟩ s =
      ((State.relevelAll a { s with keys := { s.keys with debounceMs := d } }).expireKeys, .ok []) := by
  change answerSetScan [byteOf d, onOff (a 0), onOff (a 1), onOff (a 2), onOff (a 3)] s = _
  generalize hb : [byteOf d, onOff (a 0), onOff (a 1), onOff (a 2), onOff (a 3)] = b
  have hd : byteAt b 0 = d := by
    rw [← hb]
    exact byteOf_toNat (by omega)
  have hlevel : byteAt b 1 = (onOff (a 0)).toNat ∧ byteAt b 2 = (onOff (a 1)).toNat ∧ byteAt b 3 = (onOff (a 2)).toNat ∧
      byteAt b 4 = (onOff (a 3)).toNat := hb ▸ ⟨rfl, rfl, rfl, rfl⟩
  obtain ⟨h3, h4, h5, h6⟩ := hlevel
  have hlength : (b.length == 5) = true := hb ▸ rfl
  rw [answerSetScan, h.checked hlength (by simp [hd, h3, h4, h5, h6, inRange, h1, h2, onOff_toNat_le]), hd, h3, h4, h5, h6]
  simp only [onOff_toNat_beq]
  rfl

theorem readKeys_answer : answerRequest ⟨0x53#8, tag, []⟩ s =
    (s.onKeys fun ks => { ks with queue := ks.queue.drop 8 }, .ok s.keys.readResult) := by
  change answerReadKeys [] s = _
  rw [answerReadKeys, h.bare]

end requests

theorem KeyScanner.readResult_eq (ks : KeyScanner) : 0#8 :: ks.readResult =
    [0#8, byteOf (min 8 ks.queue.length)] ++
      (ks.queue.take 8).flatMap (fun r : KeyRecord => [finCode r.key, onOff r.down] ++ wordOf r.time) ++
      [byteOf (ks.queue.length - 8), if ks.deferred = [] then 0#8 else 1#8] ++
      (let down := (List.finRange 20).filter fun k : KeyNo => (ks.all.get k).cond == KeyCondition.down
       byteOf down.length :: down.map finCode) := by
  have hdeferred : onOff (!ks.deferred.isEmpty) = if ks.deferred = [] then 0#8 else 1#8 := by cases ks.deferred <;> rfl
  rw [KeyScanner.readResult, counted_singleton, counted, List.length_take, hdeferred]
  rfl

/-- Settles O25: the requests by their answers, the re-read input by input, the timers key by key. -/
theorem keyRequestsAct : Obligations.KeyRequestsAct := by
  refine ⟨fun tag s h => ⟨fun k x => ?_, fun d a h1 h2 => ?_, ?_⟩, fun e level s => ?_⟩
  · change exec (.bindKey tag (finCode k :: x.items)) s = _
    exact h.next_ok rfl (bindKey_answer h tag k x)
  · let u : State := { s with keys := { s.keys with debounceMs := d } }
    have hanswer : exec (.setScan tag [byteOf d, onOff (a 0), onOff (a 1), onOff (a 2), onOff (a 3)]) s =
        .next ((u.relevelAll a).expireKeys.replied tag [0#8]) := h.next_ok rfl (setScan_answer h tag h1 h2 a)
    have hkey : ∀ (e : Fin 4) (k : KeyNo), k.val = 16 + e.val → k = directKey e := fun e k hk => Fin.ext hk
    refine ⟨⟨(u.relevelAll a).expiredTo, rfl, hanswer, fun k => ⟨fun hc => ?_, fun hc => ?_⟩⟩, fun hq => ?_,
      u.relevelAll_debounceMs a, u.relevelAll_active a, fun k => u.relevelAll_matrix a, fun e k hk => ?_, fun hup => ?_⟩
    · rw [State.expiredTo_succ]
      exact keyTransition_overdue hc
    · rw [State.expiredTo_succ]
      exact State.expireKey_quiet hc
    · have hquiet : (u.relevelAll a).expireKeys = u.relevelAll a := State.expireKeys_quiet fun k => by
        rw [u.relevelAll_now, u.relevelAll_debounceMs]
        exact hq k
      exact hanswer.trans (by rw [hquiet]; rfl)
    · obtain rfl := hkey e k hk
      exact ⟨fun hs => (u.relevelAll_direct a e).trans (if_neg (not_not.2 hs)),
        fun hs => (u.relevelAll_direct a e).trans (if_pos hs)⟩
    · exact u.relevelAll_only a fun e hs hc => hup e (directKey e) rfl hs hc
  · exact (h.next_ok rfl (readKeys_answer h tag)).trans (by rw [KeyScanner.readResult_eq]; rfl)
  · refine ⟨State.relevel_same, fun hs => ⟨fun hc => ?_, fun hc => ?_, fun hc hr => ?_, fun hc hr => ?_⟩⟩
    · rw [State.relevel_eq hs, if_neg fun hdown => by cases hdown.1.symm.trans hc]
      exact State.reread_with (Key.reread_cond_free (.inl hc))
    · rw [State.relevel_eq hs, if_neg fun hdown => by cases hdown.1.symm.trans hc]
      exact State.reread_with (Key.reread_cond_free (.inr hc))
    · rw [State.relevel_eq hs, if_neg fun hdown => hdown.2 (beq_iff_eq.1 hr)]
      exact State.reread_with ((Key.reread_cond_down hc).trans (if_pos hr))
    · rw [State.relevel_eq hs, if_pos ⟨hc, beq_eq_false_iff_ne.1 hr⟩, State.reread_with (c := .up)
        ((Key.reread_cond_down hc).trans (if_neg (Bool.eq_false_iff.1 hr)))]
      rfl

end Sys2Proof.Machine
end

section
/-! PROOFS. The course of a call (R9 to R25): the entries to the line's states, the start of an attempt, the changes of LOOP
and REV, the ring detector, and the expiries that end a wait. -/

namespace Sys2Proof.Machine

/-! ### The entries to the line's states -/

/-- Supervision begins where it was OFF (R22), written as what each part of the line becomes. -/
theorem Line.supervise_eq (now : Nat) (l : Line) : l.supervise now = { l with
    supervision := if l.supervision = .off then .active else l.supervision
    timers := if l.supervision = .off then
        { l.timers with disconnect := if l.loop.taken then none else some (now + l.committed.disconnectMs) }
      else l.timers } := by
  unfold Line.supervise
  split <;> rfl

theorem State.enterDialing_within {n : LineNo} {s : State}
    (h : s.position n < ((s.line n).attempt.map fun q : Attempt => q.program.length).getD 0) : s.enterDialing n =
      ((s.onLine n (Line.enterDialing s.now (s.position n))).reportPhase n .dial).beginSymbol n := if_pos h

theorem State.enterDialing_ended {n : LineNo} {s : State}
    (h : ((s.line n).attempt.map fun q : Attempt => q.program.length).getD 0 ≤ s.position n) :
    s.enterDialing n = s.endProgram n := if_neg (Nat.not_lt.2 h)

theorem State.endProgram_post {n : LineNo} {s : State} (h : (s.line n).postAnswer = true) :
    s.endProgram n = s.enterConnected n := if_pos h

theorem State.endProgram_supervised {n : LineNo} {s : State} (h : (s.line n).postAnswer = false)
    (hs : ((s.line n).attempt.map fun q : Attempt => q.supervised).getD false = true) :
    s.endProgram n = s.enterAwaitProgress n := by
  rw [State.endProgram, if_neg (Bool.eq_false_iff.1 h), if_pos hs]

theorem State.endProgram_dialOnly {n : LineNo} {s : State} (h : (s.line n).postAnswer = false)
    (hs : ((s.line n).attempt.map fun q : Attempt => q.supervised).getD false = false) :
    s.endProgram n = s.connect n := by
  rw [State.endProgram, if_neg (Bool.eq_false_iff.1 h), if_neg (Bool.eq_false_iff.1 hs)]

/-- Settles O32: entry by entry. -/
theorem statesEntered : Obligations.StatesEntered := by
  intro n s
  refine ⟨?_, fun h => ?_, State.enterDialing_ended, State.endProgram_post, State.endProgram_supervised,
    State.endProgram_dialOnly, rfl, rfl, rfl, rfl⟩
  · rw [State.enterAwaitDialtone, State.onLine, Line.enterAwaitDialtone, Line.supervise_eq]
    rfl
  · rw [State.enterDialing_within h, State.onLine, Line.enterDialing, Line.supervise_eq]
    rfl

/-! ### The start of an attempt (R9) -/

theorem State.offer_eq_some {n : LineNo} {j : Job} {s : State} (h1 : (s.line n).st = .idle) (h2 : s.headJob n = some j)
    (h3 : j.offered = true) : s.offer n = some j := by
  rw [State.offer, if_pos h1, h2, Option.filter_some, if_pos h3]

theorem Job.offered_iff (j : Job) :
    j.offered = true ↔ j.state = .active ∧ j.phase = some .resolve ∧ j.methodInEffect ≠ none := by
  simp [Job.offered, Option.isSome_iff_ne_none, and_assoc]

theorem State.onActive_frame (n : LineNo) (f : Job → Job) (s : State) :
    s.onActive n f = { s with jobs := (s.onActive n f).jobs } := by
  unfold State.onActive
  split
  · split <;> rfl
  · rfl

theorem State.onActive_line (n m : LineNo) (f : Job → Job) (s : State) : (s.onActive n f).line m = s.line m := by
  rw [State.onActive_frame]
  rfl

theorem execAttemptStart_none {n : LineNo} {s : State} (h : s.offer n = none) : exec (.attemptStart n) s = .next s := by
  change Host.Outcome.next (match s.offer n with | none => s | some j => s.takeStart n j) = _
  rw [h]

/-- Settles O33: by the offer. -/
theorem attemptStarts : Obligations.AttemptStarts := by
  intro n s
  refine ⟨fun j m h1 h2 h3 h4 h5 => ?_, fun h => execAttemptStart_none ?_, fun j hj h => execAttemptStart_none ?_⟩
  · have hoffer : s.offer n = some j :=
      State.offer_eq_some h1 h2 (j.offered_iff.2 ⟨h3, h4, by rw [h5]; exact Option.some_ne_none m⟩)
    change Host.Outcome.next (match s.offer n with | none => s | some j => s.takeStart n j) = _
    rw [hoffer]
    change Host.Outcome.next (s.takeStart n j) = _
    have hglare : (if (s.line n).ring.glareDue.isSome then s.latchLine n .glare else s) =
        if (s.line n).ring.glareDue = none then s else s.latch (lineSource n) .glare := by
      cases (s.line n).ring.glareDue <;> rfl
    rw [State.takeStart, hglare, h5]
    dsimp only
    generalize hu : (if (s.line n).ring.glareDue = none then s else s.latch (lineSource n) .glare) = u
    have huline : u.line n = s.line n := by
      rw [← hu]
      split
      · rfl
      · exact State.latch_line ..
    have htaken : (((u.onLine n (Line.seize u.now ⟨j.program.getD [], m, j.supervised⟩)).reportPhase n .seize).line n).loop.taken =
        (s.line n).loop.taken := by
      rw [State.reportPhase, State.onActive_line, State.onLine, State.line_putLine_self, Line.settle_loop_taken, huline]
      rfl
    rw [Option.getD_some, htaken]
    rfl
  · rw [State.offer]
    rcases h with h | h
    · rw [if_neg h]
    · rw [h]
      split <;> rfl
  · have hno : j.offered = false := by
      rw [Bool.eq_false_iff, Ne, Job.offered_iff]
      rintro ⟨h3, h4, h5⟩
      rcases h with h | h | h
      · exact h h3
      · exact h h4
      · exact h5 h
    rw [State.offer, hj, Option.filter_some, hno]
    split <;> rfl

/-! ### Expiries -/

/-- A timer that does not run does nothing. -/
theorem nextOnDue_none {due : Option Nat} {act : State → State} {s : State} (h : due = none) :
    (Host.Outcome.next (s.onDue due act) : Host.Outcome State Fault Refusal) = .next s := by rw [h]; rfl

/-- A timer that runs brings the clock up to its moment ([2]). -/
theorem nextOnDue_some {due : Option Nat} {act : State → State} {d : Nat} {s : State} (h : due = some d) :
    (Host.Outcome.next (s.onDue due act) : Host.Outcome State Fault Refusal) = .next (act (s.advanceTo d)) := by
  rw [h]
  rfl

/-! ### Changes of LOOP (R1, R10, R22, R23) -/

/-- A line written as it stands, already settled, stays so. -/
theorem State.putLine_settled {n : LineNo} {l : Line} {w : State} (h : w.line n = l.settle w.now) :
    w.putLine n (w.line n) = w := by
  have hset : w.lines.set n (w.line n) = w.lines := Bank.set_get ..
  rw [State.putLine, h, Line.settle_settle, ← h, hset]

theorem State.latchInput_line (n : LineNo) (f : Flag) (s : State) (m : LineNo) : (s.latchInput n f).line m = s.line m := by
  unfold State.latchInput
  split
  · rfl
  · exact State.latch_line ..

theorem State.latchInput_now (n : LineNo) (f : Flag) (s : State) : (s.latchInput n f).now = s.now := by
  unfold State.latchInput
  split
  · rfl
  · exact State.latch_now ..

theorem State.loopSeized_eq (n : LineNo) (s : State) :
    let u := s.putLine n { s.line n with timers := { (s.line n).timers with seize := none } }
    s.loopSeized n = if (s.line n).committed.dialtoneWait || (s.line n).startsWithWait then u.enterAwaitDialtone n
      else if (s.line n).committed.postSeizeMs = 0 then u.enterDialing n
      else u.putLine n { u.line n with timers := { (u.line n).timers with
        postSeize := some (s.now + (s.line n).committed.postSeizeMs) } } := by
  dsimp only
  rw [State.loopSeized, State.onLine, State.line_putLine_self]
  rfl

theorem Line.startsWithWait_iff (l : Line) :
    l.startsWithWait = true ↔ (l.attempt.bind fun q : Attempt => q.program.head?) = some .waitTone := beq_iff_eq

/-- Settles O34: the level taken, then by the seizure and by supervision. -/
theorem loopTaken : Obligations.LoopTaken := by
  intro n s
  refine ⟨fun h => ?_, fun d h => ?_, ?_⟩
  · change Host.Outcome.next (s.onDue ((s.line n).loop.since.map (· + Config.lineDebounceMs)) (State.takeLoop n)) = _
    rw [h]
    rfl
  · intro v u w l
    have hu : u.line n = ({ s.line n with loop := ⟨(s.line n).loop.pin, v, none⟩ } : Line).settle u.now :=
      State.line_putLine_self ..
    have hw : w = u.latchInput n .loopChg := by
      rw [State.latchInput, hu]
      rfl
    have hwline : w.line n = l := by rw [hw, State.latchInput_line]
    have hwnow : w.now = u.now := by rw [hw, State.latchInput_now]
    have hexec : exec (.loopChange n) s = .next (if l.st = .seizing ∧ l.timers.seize.isSome ∧ l.loop.taken then
        w.loopSeized n else w.putLine n (l.superviseLoop u.now)) := by
      change Host.Outcome.next (s.onDue ((s.line n).loop.since.map (· + Config.lineDebounceMs)) (State.takeLoop n)) = _
      rw [h, ← hwline, ← hwnow, hw]
      rfl
    have hst : l.st = (s.line n).st := (congrArg Line.st hu).trans rfl
    have htimers : l.timers = (s.line n).timers := (congrArg Line.timers hu).trans rfl
    have hsup : l.supervision = (s.line n).supervision := (congrArg Line.supervision hu).trans rfl
    have htaken : l.loop.taken = v := (congrArg (fun x : Line => x.loop.taken) hu).trans rfl
    have hkept : w.putLine n l = w := hwline ▸ State.putLine_settled (hwline.trans (by rw [hwnow]; exact hu))
    refine ⟨fun h1 h2 h3 => ?_, fun hno => ?_⟩
    · rw [hexec, if_pos ⟨hst.trans h1, by rw [htimers]; exact Option.isSome_iff_ne_none.2 h2, htaken.trans h3⟩]
    · have hnot : ¬ (l.st = .seizing ∧ l.timers.seize.isSome ∧ l.loop.taken) := by
        rw [hst, htimers, htaken, Option.isSome_iff_ne_none]
        rintro ⟨h1, h2, h3⟩
        rcases hno with h | h | h
        · exact h h1
        · exact h2 h
        · rw [h] at h3; cases h3
      rw [hexec, if_neg hnot]
      refine ⟨fun h1 => ?_, fun h1 h2 => ?_, fun h1 h2 => ?_, fun h1 h2 h3 => ?_, fun h1 h2 => ?_⟩
      · rw [Line.superviseLoop, hsup, h1, hkept]
      · rw [Line.superviseLoop, hsup, h1, htaken, h2]
      · rw [Line.superviseLoop, hsup, h1, htaken, h2]
      · rw [Line.superviseLoop, hsup, h1, htaken, h2]
        dsimp only
        rw [htimers, if_pos (Option.isSome_iff_ne_none.2 h3)]
      · rw [Line.superviseLoop, hsup, h1, htaken]
        cases hv : v with
        | false => rw [hkept]
        | true =>
          rw [htimers, h2.resolve_left (by rw [hv]; decide)]
          exact congrArg _ hkept
  · intro u waits
    have hwaits : waits ↔ ((s.line n).committed.dialtoneWait || (s.line n).startsWithWait) = true := by
      rw [Bool.or_eq_true, Line.startsWithWait_iff]
    rw [State.loopSeized_eq]
    refine ⟨fun h => if_pos (hwaits.1 h), fun h1 h2 => ?_, fun h1 h2 => ?_⟩
    · rw [if_neg (mt hwaits.2 h1), if_pos h2]
    · rw [if_neg (mt hwaits.2 h1), if_neg h2]

/-! ### Changes of REV (R1, R88) -/

/-- Settles O35: the level taken, then an answer decision or none. -/
theorem reversalAnswers : Obligations.ReversalAnswers := by
  intro n s
  refine ⟨fun h => ?_, fun d h => ?_⟩
  · change Host.Outcome.next (s.onDue ((s.line n).rev.since.map (· + Config.lineDebounceMs)) (State.takeRev n)) = _
    rw [h]
    rfl
  · intro u w
    have hu : u.line n = ({ s.line n with rev := ⟨(s.line n).rev.pin, !(s.line n).rev.taken, none⟩ } : Line).settle u.now :=
      State.line_putLine_self ..
    have hw : w = u.latchInput n .revChg := by
      rw [State.latchInput, hu]
      rfl
    have hwline : w.line n = u.line n := by rw [hw, State.latchInput_line]
    have hexec : exec (.revChange n) s = .next (if (u.line n).st = .awaitProgress ∧ (u.line n).committed.answerReversal then
        w.answer n .reversal else w) := by
      change Host.Outcome.next (s.onDue ((s.line n).rev.since.map (· + Config.lineDebounceMs)) (State.takeRev n)) = _
      rw [h, ← hwline, hw]
      rfl
    have hst : (u.line n).st = (s.line n).st := (congrArg Line.st hu).trans rfl
    have hcommitted : (u.line n).committed = (s.line n).committed := (congrArg Line.committed hu).trans rfl
    rw [hexec, hst, hcommitted]
    refine ⟨fun h1 h2 => ?_, fun hno => ?_⟩
    · rw [if_pos ⟨h1, h2⟩, State.answer, State.onLine, hwline]
    · rw [if_neg]
      rintro ⟨h1, h2⟩
      rcases hno with h | h
      · exact h h1
      · rw [h] at h2; cases h2

/-! ### The ring detector, the guard and the minimum tone (R19, R24, R25, R50) -/

/-- Settles O36: each expiry brings the clock up and writes its line. -/
theorem ringsCounted : Obligations.RingsCounted := by
  intro n s
  refine ⟨nextOnDue_none, fun d h => nextOnDue_some h, nextOnDue_none, fun d h => nextOnDue_some h, nextOnDue_none,
    fun d h => nextOnDue_some h, nextOnDue_none, fun d h => nextOnDue_some h, nextOnDue_none, fun d h => ?_⟩
  intro u
  have hexec : exec (.minimumToneTimerExpiry n) s = .next (if (u.line n).manual.keyReleased then u.endManual n else u) :=
    nextOnDue_some h
  have hreleased : (u.line n).manual.keyReleased = (s.line n).manual.keyReleased := by
    rw [State.line_putLine_self]
    rfl
  rw [hexec, hreleased]
  exact ⟨fun hk => by rw [hk]; rfl, fun hk => by rw [hk]; rfl⟩

/-! ### The expiries that end a wait of an attempt (R10, R11, R14, R22, R23, R44) -/

/-- Loop lost declared fails the attempt before an answer, ends the call after one, and is nothing elsewhere (R22). -/
theorem State.loopLost_cases {n : LineNo} {l : Line} {s u : State} (hu : u = s.putLine n l) :
    (l.st = .awaitDialtone ∨ l.st = .awaitProgress ∨ (l.st = .dialing ∧ l.postAnswer = false) →
      u.loopLost n = (u.enterReleasing n).attemptFailed n .loopLost) ∧
    (l.st = .connected ∨ l.st = .held ∨ (l.st = .dialing ∧ l.postAnswer = true) →
      u.loopLost n = (u.enterReleasing n).finishHead n .done .farEnd) ∧
    (l.st = .disabled ∨ l.st = .idle ∨ l.st = .seizing ∨ l.st = .releasing → u.loopLost n = u) := by
  have hst : (u.line n).st = l.st := by
    rw [hu, State.line_putLine_self]
    rfl
  have hpost : (u.line n).postAnswer = l.postAnswer := by
    rw [hu, State.line_putLine_self]
    rfl
  unfold State.loopLost
  dsimp only
  rw [hst, hpost]
  refine ⟨?_, ?_, ?_⟩
  · rintro (h | h | ⟨h, hp⟩)
    · rw [h]
      rfl
    · rw [h]
      rfl
    · rw [h, hp]
      rfl
  · rintro (h | h | ⟨h, hp⟩)
    · rw [h]
      rfl
    · rw [h]
      rfl
    · rw [h, hp]
      rfl
  · rintro (h | h | h | h)
    · rw [h]
    · rw [h]
    · rw [h]
    · rw [h]

theorem State.dialtoneExpired_eq (n : LineNo) (s : State) :
    let u := s.putLine n { s.line n with timers := { (s.line n).timers with dialTone := none } }
    s.dialtoneExpired n = match (s.line n).st with
      | .awaitDialtone => if (s.line n).committed.blindDial then u.dialtoneServed n else u.failAttempt n .noDialTone
      | .dialing =>
        if (s.line n).committed.blindDial then u.waitToneServed n
        else
          match (s.line n).cursor.source with
          | .job => u.failAttempt n .noDialTone
          | .send => u.enterConnected n
      | _ => u := by
  dsimp only
  rw [State.dialtoneExpired, State.onLine, State.line_putLine_self]
  rfl

theorem State.dialtoneExpired_cases (n : LineNo) (s : State) :
    let l := s.line n
    let u := s.putLine n { l with timers := { l.timers with dialTone := none } }
    (l.st = .awaitDialtone → l.committed.blindDial = false → s.dialtoneExpired n = u.failAttempt n .noDialTone) ∧
    (l.st = .awaitDialtone → l.committed.blindDial = true → s.dialtoneExpired n = u.dialtoneServed n) ∧
    (l.st = .dialing → l.committed.blindDial = true → s.dialtoneExpired n = u.waitToneServed n) ∧
    (l.st = .dialing → l.committed.blindDial = false → l.cursor.source = .job →
      s.dialtoneExpired n = u.failAttempt n .noDialTone) ∧
    (l.st = .dialing → l.committed.blindDial = false → l.cursor.source = .send →
      s.dialtoneExpired n = u.enterConnected n) := by
  dsimp only
  rw [State.dialtoneExpired_eq]
  generalize s.putLine n { s.line n with timers := { (s.line n).timers with dialTone := none } } = u
  refine ⟨fun h1 h2 => ?_, fun h1 h2 => ?_, fun h1 h2 => ?_, fun h1 h2 h3 => ?_, fun h1 h2 h3 => ?_⟩
  · rw [h1, h2]
    rfl
  · rw [h1, h2]
    rfl
  · rw [h1, h2]
    rfl
  · rw [h1, h2, h3]
    rfl
  · rw [h1, h2, h3]
    rfl

theorem State.dialtoneServed_eq (n : LineNo) (s : State) :
    let v := s.putLine n { s.line n with timers := { (s.line n).timers with dialTone := none } }
    s.dialtoneServed n = (if ((s.line n).attempt.bind fun q : Attempt => q.program.head?) = some .waitTone
      then v.onActive n (fun j => { j with position := j.position + 1 }) else v).enterDialing n := by
  intro v
  have hwait : (v.line n).startsWithWait = (s.line n).startsWithWait := by
    rw [State.line_putLine_self]
    rfl
  have hserved : s.dialtoneServed n = (if (v.line n).startsWithWait then
      v.onActive n (fun j => { j with position := j.position + 1 }) else v).enterDialing n := rfl
  rw [hserved, hwait, if_congr (s.line n).startsWithWait_iff rfl rfl]

/-- Settles O37: each expiry brings the clock up and stops its timer. -/
theorem attemptTimersExpire : Obligations.AttemptTimersExpire := by
  intro n s t l loses
  have hloses : ∀ (c : Instr) (a : State) (x : LineTimers),
      exec c s = .next ((a.putLine n { l with timers := x }).loopLost n) → loses c (a.putLine n { l with timers := x }) :=
    fun c a x hexec => by
      obtain ⟨hfails, hends, hnothing⟩ := State.loopLost_cases (n := n) (l := { l with timers := x }) (s := a) rfl
      exact ⟨fun hst => hexec.trans (congrArg _ (hfails hst)), fun hst => hexec.trans (congrArg _ (hends hst)),
        fun hst => hexec.trans (congrArg _ (hnothing hst))⟩
  refine ⟨nextOnDue_none, nextOnDue_none, nextOnDue_none, nextOnDue_none, nextOnDue_none, nextOnDue_none,
    fun d h => nextOnDue_some h, fun d h => nextOnDue_some h, fun d h => nextOnDue_some h,
    fun d h => hloses _ _ _ (nextOnDue_some h), fun d h => hloses _ _ _ (nextOnDue_some h), fun d h => ?_, ?_, rfl⟩
  · obtain ⟨h1, h2, h3, h4, h5⟩ := (s.advanceTo d).dialtoneExpired_cases n
    have hexec : exec (.dialToneTimerExpiry n) s = .next ((s.advanceTo d).dialtoneExpired n) := nextOnDue_some h
    exact ⟨fun hs hb => hexec.trans (congrArg _ (h1 hs hb)), fun hs hb => hexec.trans (congrArg _ (h2 hs hb)),
      fun hs hb => hexec.trans (congrArg _ (h3 hs hb)), fun hs hb hc => hexec.trans (congrArg _ (h4 hs hb hc)),
      fun hs hb hc => hexec.trans (congrArg _ (h5 hs hb hc))⟩
  · exact s.dialtoneServed_eq n

end Sys2Proof.Machine
end

section
/-! PROOFS. The symbols of a program (R31 to R45) and the Generator Arbiter (R57 to R63). -/

namespace Sys2Proof.Machine

/-! ### A symbol begins (R32, R35 to R37, R40 to R44) -/

theorem Profile.breakMs_eq (p : Profile) : p.breakMs =
    if p.pulseRate = 20 then (if p.breakPct = 66 then 33 else 30) else (if p.breakPct = 66 then 66 else 60) := by
  unfold Profile.breakMs
  split
  case h_1 h1 h2 => rw [if_pos h1, if_pos h2]
  case h_2 h1 h2 => rw [if_pos h1, if_neg h2]
  case h_3 h1 h2 => rw [if_neg h2, if_pos h1]
  case h_4 h1 h2 h3 => rw [if_neg h1, if_neg h2]

theorem State.beginSymbol_none {n : LineNo} {s : State} (h : (s.line n).program[(s.line n).cursor.index]? = none) :
    s.beginSymbol n = s.endProgram n := by
  rw [State.beginSymbol, h]

theorem State.beginSymbol_some {n : LineNo} {s : State} {y : Symbol}
    (h : (s.line n).program[(s.line n).cursor.index]? = some y) : s.beginSymbol n = s.dispatch n y := by
  rw [State.beginSymbol, h]

theorem State.dispatch_pulse {n : LineNo} {s : State} (v : Fin 10) (h : (s.line n).method = .pulse) :
    s.dispatch n (.digit v) = s.onLine n (Line.pulseDigit s.now v) := by
  unfold State.dispatch
  rw [h]

/-- A digit symbol under TONE is sent as a tone. -/
theorem State.dispatch_tone {n : LineNo} {s : State} {y : Symbol} (hy : y.isDigit = true) (h : (s.line n).method = .tone) :
    s.dispatch n y = (s.onLine n (Line.inSub .toneRequest)).requestTone n y := by
  unfold State.dispatch
  rw [h]
  cases y with
  | pause | flash | waitTone => cases hy
  | _ => rfl

/-- Settles O39: by the symbol the cursor names. -/
theorem symbolBegins : Obligations.SymbolBegins := by
  intro n s l p m opens breakMs
  have hbreak : l.committed.breakMs = breakMs := l.committed.breakMs_eq
  refine ⟨State.beginSymbol_none, State.beginSymbol_some, State.beginSymbol_some, State.beginSymbol_some,
    fun v h hm => ?_, fun y h hy hm => ?_⟩
  · rw [State.beginSymbol_some h, State.dispatch_pulse v hm, ← hbreak]
    have hcount : pulseCount v - 1 = if v = 0 then 9 else v.val - 1 := by
      rw [pulseCount, apply_ite (· - 1)]
      exact if_congr Fin.val_eq_zero_iff rfl rfl
    rw [← hcount]
    rfl
  · rw [State.beginSymbol_some h, State.dispatch_tone hy hm]
    rfl

/-! ### The expiries within DIALING (R33, R34, R37, R38, R40, R42, R43) -/

theorem State.countSymbol_send {n : LineNo} {s : State} (h : (s.line n).cursor.source = .send) : s.countSymbol n = s := by
  rw [State.countSymbol, h]

theorem State.countSymbol_job {n : LineNo} {s : State} (h : (s.line n).cursor.source = .job) :
    s.countSymbol n = s.onActive n fun j => { j with position := j.position + 1 } := by
  rw [State.countSymbol, h]

/-- The make that ends a break leaves the cursor (R23). -/
theorem Line.makeEnds_cursor (now : Nat) (l : Line) : (l.makeEnds now).cursor = l.cursor := by
  unfold Line.makeEnds
  split <;> rfl

theorem Line.pulseMake_eq (now : Nat) (l : Line) : l.pulseMake now = { l.makeEnds now with
    cursor := { l.cursor with sub := .pulseMake }
    timers := { (l.makeEnds now).timers with makePeriod := some (now + l.committed.makeMs) } } := by
  unfold Line.pulseMake Line.makeEnds
  split <;> rfl

/-- A make that ends a flash (R43), the timer stopped before it or after. -/
theorem Line.flashEnds_eq (now : Nat) (l : Line) : l.flashEnds now =
    (({ l with timers := { l.timers with flash := none } } : Line).makeEnds now).inSub .none := by
  unfold Line.flashEnds Line.makeEnds
  dsimp only
  split <;> rfl

/-- What the end of a make does once its timer has stopped (R37). -/
theorem State.makePeriodEnds_eq (n : LineNo) (a : State) :
    let u := a.putLine n { a.line n with timers := { (a.line n).timers with makePeriod := none } }
    a.makePeriodEnds n = if 0 < (a.line n).cursor.pulses then u.onLine n fun l =>
        ({ l with cursor := { l.cursor with pulses := (a.line n).cursor.pulses - 1 } } : Line).pulseBreak a.now
      else (u.countSymbol n).onLine n (Line.interdigit a.now) := by
  intro u
  have hpulses : (u.line n).cursor.pulses = (a.line n).cursor.pulses := by
    rw [State.line_putLine_self]
    rfl
  have hends : a.makePeriodEnds n = if 0 < (u.line n).cursor.pulses then u.onLine n fun l =>
      ({ l with cursor := { l.cursor with pulses := (u.line n).cursor.pulses - 1 } } : Line).pulseBreak u.now
    else (u.countSymbol n).onLine n (Line.interdigit u.now) := rfl
  rw [hends, hpulses]
  rfl

/-- Settles O40: each expiry brings the clock up and stops its timer. -/
theorem symbolsEnd : Obligations.SymbolsEnd := by
  intro n d s a l t makeMs closes
  have hmake : makeMs = l.committed.makeMs := rfl
  refine ⟨nextOnDue_none, nextOnDue_none, nextOnDue_none, nextOnDue_none, nextOnDue_none, nextOnDue_none, nextOnDue_none,
    fun x hx => State.countSymbol_send ?_, fun x hx => State.countSymbol_job ?_, rfl, fun h => ?_, fun h => ⟨fun hp => ?_, fun hp => ?_⟩,
    nextOnDue_some, nextOnDue_some, nextOnDue_some, nextOnDue_some, fun h => ?_⟩
  · rw [State.line_putLine_self]
    exact hx
  · rw [State.line_putLine_self]
    exact hx
  · refine (nextOnDue_some h).trans (congrArg Host.Outcome.next (congrArg (a.putLine n ·) ?_))
    exact Line.pulseMake_eq ..
  · refine (nextOnDue_some h).trans (congrArg Host.Outcome.next ?_)
    rw [State.makePeriodEnds_eq, if_pos (show 0 < (a.line n).cursor.pulses from Nat.pos_of_ne_zero hp), State.onLine, State.line_putLine_self,
      State.line_putLine_self]
    rfl
  · refine (nextOnDue_some h).trans (congrArg Host.Outcome.next ?_)
    rw [State.makePeriodEnds_eq, if_neg (show ¬ 0 < (a.line n).cursor.pulses from Nat.not_lt.2 (Nat.le_of_eq hp))]
    rfl
  · refine (nextOnDue_some h).trans (congrArg Host.Outcome.next ?_)
    change ((a.putLine n (l.flashEnds a.now)).countSymbol n).endSymbol n = _
    rw [Line.flashEnds_eq, Line.inSub, Line.makeEnds_cursor]
    rfl

/-! ### The Generator Arbiter (R57 to R63) -/

theorem State.requestTone_granted {n : LineNo} {y : Symbol} {s : State} (h : s.pool.hasFree = true) :
    s.requestTone n y = State.takeGrant n { s with pool := s.pool.request ⟨n, y⟩ } := if_pos h

theorem State.requestTone_waits {n : LineNo} {y : Symbol} {s : State} (h : s.pool.hasFree = false) :
    s.requestTone n y = { s with pool := s.pool.request ⟨n, y⟩ } := if_neg (Bool.eq_false_iff.1 h)

theorem Pool.heldBy_first {p : Pool} {n : LineNo} {g : Fin 2} {z : Symbol} (hg : p.gens.get g = some ⟨n, z⟩)
    (hlow : ∀ h, h < g → ∀ z', p.gens.get h ≠ some ⟨n, z'⟩) : p.heldBy n = some g := by
  have hheld : ∀ h, (p.gens.get h).map (·.line) = some n → ∃ z', p.gens.get h = some ⟨n, z'⟩ := fun h hh => by
    obtain ⟨⟨m, z'⟩, hc, rfl⟩ := Option.map_eq_some_iff.1 hh
    exact ⟨z', hc⟩
  rw [Pool.heldBy]
  match g, hg, hlow with
  | 0, hg, _ => rw [if_pos (by rw [hg]; rfl)]
  | 1, hg, hlow =>
    rw [if_neg fun h0 => by obtain ⟨z', hz⟩ := hheld 0 h0; exact hlow 0 (by decide) z' hz, if_pos (by rw [hg]; rfl)]

theorem Pool.heldBy_eq_none {p : Pool} {n : LineNo} (h : ∀ g z, p.gens.get g ≠ some ⟨n, z⟩) : p.heldBy n = none := by
  cases hheld : p.heldBy n with
  | none => rfl
  | some g =>
    obtain ⟨z, hz⟩ := Pool.heldBy_some hheld
    exact absurd hz (h g z)

theorem Pool.release_empty {p : Pool} {g : Fin 2} (h : p.wait = []) : p.release g = { p with gens := p.gens.set g none } := by
  rw [Pool.release, h]

theorem Pool.release_handed {p : Pool} {g : Fin 2} {c : Claim} {rest : List Claim} (h : p.wait = c :: rest) :
    p.release g = ⟨p.gens.set g (some c), rest⟩ := by
  rw [Pool.release, h]

theorem State.releaseTone_eq {n : LineNo} {g : Fin 2} {s : State} (h : s.pool.heldBy n = some g) :
    (s.pool.wait = [] → s.releaseTone n = { s with pool := { s.pool with gens := s.pool.gens.set g none } }) ∧
    (∀ c rest, s.pool.wait = c :: rest → s.releaseTone n =
      State.takeGrant c.line { s with pool := ⟨s.pool.gens.set g (some c), rest⟩ }) := by
  rw [State.releaseTone, h]
  refine ⟨fun hw => ?_, fun c rest hw => ?_⟩
  · dsimp only
    rw [Pool.release_empty hw, hw]
    rfl
  · dsimp only
    rw [Pool.release_handed hw, hw]
    rfl

theorem State.releaseTone_none {n : LineNo} {s : State} (h : s.pool.heldBy n = none) : s.releaseTone n = s := by
  rw [State.releaseTone, h]

/-- Settles O41: the signals by evaluation, the arbiter by what stands in the pool. -/
theorem generatorsShared : Obligations.GeneratorsShared := by
  refine ⟨fun n => ⟨rfl, rfl⟩, fun n y s => ⟨fun h0 => ?_, fun h0 h1 => ?_, fun h0 h1 => ?_,
    fun g z hg hlow => State.releaseTone_eq (Pool.heldBy_first hg hlow),
    fun h => State.releaseTone_none (Pool.heldBy_eq_none h), rfl, fun h1 h2 => ?_, fun h1 h2 => ?_⟩⟩
  · rw [State.requestTone_granted (s.pool.hasFree_iff.2 ⟨0, h0⟩), Pool.request, if_pos h0]
  · rw [State.requestTone_granted (s.pool.hasFree_iff.2 ⟨1, h1⟩), Pool.request, if_neg h0, if_pos h1]
  · have hfree : s.pool.hasFree = false := by
      rw [Bool.eq_false_iff, Ne, Pool.hasFree_iff]
      rintro ⟨g, hg⟩
      fin_cases g
      · exact h0 hg
      · exact h1 hg
    rw [State.requestTone_waits hfree, Pool.request, if_neg h0, if_neg h1]
  · rw [State.takeGrant, State.onLine, Line.takeGrant, if_pos ⟨h1, h2⟩]
  · have hno : ¬ ((s.line n).st = .dialing ∧ (s.line n).cursor.sub = .toneRequest) := fun h => by
      rw [h1] at h
      cases h.1
    rw [State.takeGrant, State.onLine, Line.takeGrant, if_neg hno, if_pos ⟨h1, h2⟩]

end Sys2Proof.Machine
end

section
/-! PROOFS. Call-progress classification (R78 to R90): filtered levels, pairs, classes, STEADY templates and the gap watch. -/

namespace Sys2Proof.Machine

/-! ### Changes of the filtered level (R78, R79) -/

theorem Classifier.endInterval_on {i : Interval} {e : Nat} {watch : Option Nat} {c : Classifier} (h : i.on = true) :
    c.endInterval i e watch = { c with
      history := if i.atStart then c.history else pushHistory ⟨i.on, intervalUnits (e - i.began)⟩ c.history
      interval := some ⟨false, e, false⟩
      openOn := if i.atStart then none else some (intervalUnits (e - i.began))
      matchers := clearSteady c.matchers
      gapWatch := watch.map fun g => e + g } := by
  rw [Classifier.endInterval, if_pos h, h]
  rfl

theorem Classifier.endInterval_off {i : Interval} {e : Nat} {watch : Option Nat} {c : Classifier} (h : i.on = false) :
    c.endInterval i e watch = { c with
      history := if i.atStart then c.history else pushHistory ⟨i.on, intervalUnits (e - i.began)⟩ c.history
      interval := some ⟨true, e, false⟩
      openOn := none
      gapWatch := none } := by
  rw [Classifier.endInterval, if_neg (Bool.eq_false_iff.1 h), h]
  rfl

theorem Line.watchLength_map (l : Line) (e : Nat) : (l.watchLength.map fun g => e + g) =
    if l.pc.ringbackSeen = true ∧ l.st = .awaitProgress ∧ l.committed.answerRingbackCease = true
    then some (e + l.committed.answerGapMs) else none := by
  unfold Line.watchLength
  split <;> rfl

section sessionChange
variable {n : LineNo} {i : Interval} {e : Nat} {u : State}

/-- A change at or before the start of the session makes the kind of its first interval ([12]). -/
theorem State.sessionChange_first (h : e ≤ i.began) : u.sessionChange n i e =
    u.putLine n { u.line n with pc := { (u.line n).pc with interval := some { i with on := !i.on } } } := if_pos h

theorem State.sessionChange_ended (h : i.began < e) : u.sessionChange n i e =
    match (u.line n).pc.pair i e with
    | none => u.putLine n { u.line n with pc := (u.line n).pc.endInterval i e (u.line n).watchLength }
    | some (on, off) => (u.putLine n { u.line n with
        pc := (u.line n).pc.endInterval i e (u.line n).watchLength }).takePair n on off :=
  if_neg (Nat.not_le.2 h)

end sessionChange

/-- The line once the filtered level has changed (R78). -/
def State.levelTaken (n : LineNo) (e : Nat) (later : List Nat) (s : State) : State :=
  (s.advanceTo (e + 10)).putLine n
    { s.line n with pc := { (s.line n).pc with filtered := !(s.line n).pc.filtered, edges := later } }

theorem State.levelTaken_line (n : LineNo) (e : Nat) (later : List Nat) (s : State) : (s.levelTaken n e later).line n =
    ({ s.line n with pc := { (s.line n).pc with filtered := !(s.line n).pc.filtered, edges := later } } : Line).settle
      (s.advanceTo (e + 10)).now := State.line_putLine_self ..

theorem execFilteredLevelChange_edge {n : LineNo} {e : Nat} {later : List Nat} {s : State}
    (h : (s.line n).pc.edges = e :: later) : exec (.filteredLevelChange n) s = .next
      (match (s.line n).pc.listening, (s.line n).pc.interval with
      | true, some i => (s.levelTaken n e later).sessionChange n i e
      | _, _ => s.levelTaken n e later) := by
  have hchange : s.filteredChange n e = match ((s.levelTaken n e later).line n).pc.listening,
      ((s.levelTaken n e later).line n).pc.interval with
      | true, some i => (s.levelTaken n e later).sessionChange n i e
      | _, _ => s.levelTaken n e later := by
    have hlevel : s.levelTaken n e later = (s.advanceTo (e + 10)).onLine n fun l =>
        { l with pc := { l.pc with filtered := !l.pc.filtered, edges := l.pc.edges.tail } } := by
      rw [State.onLine, State.line_advanceTo, h]
      rfl
    rw [hlevel]
    rfl
  change Host.Outcome.next (match (s.line n).pc.edges.head? with | none => s | some e => s.filteredChange n e) = _
  rw [h]
  change Host.Outcome.next (s.filteredChange n e) = _
  rw [hchange, State.levelTaken_line]
  rfl

/-- The history keeps the last eight (R79). -/
theorem pushHistory_eq (i : HistoryItem) (h : List HistoryItem) : pushHistory i h = (h ++ [i]).drop (h.length + 1 - 8) := by
  rw [pushHistory, List.length_append]
  rfl

/-- Settles O43: by the session and by the interval in progress. -/
theorem filteredLevels : Obligations.FilteredLevels := by
  intro n s
  refine ⟨fun h => ?_, fun e later h => ?_⟩
  · change Host.Outcome.next (match (s.line n).pc.edges.head? with | none => s | some e => s.filteredChange n e) = _
    rw [h]
    rfl
  · intro u c put units kept
    have hexec := execFilteredLevelChange_edge h
    have hu : u.line n = _ := State.levelTaken_line n e later s
    refine ⟨fun hno => ?_, fun i hl hi => ?_⟩
    · rw [hexec]
      rcases hno with h | h
      · rw [h]
        rfl
      · rw [h]
        cases (s.line n).pc.listening <;> rfl
    · have hchange : exec (.filteredLevelChange n) s = .next (u.sessionChange n i e) := by
        rw [hexec, hl, hi]
        rfl
      have hst : (u.line n).st = (s.line n).st := (congrArg Line.st hu).trans rfl
      have hcommitted : (u.line n).committed = (s.line n).committed := (congrArg Line.committed hu).trans rfl
      have hkept : (if i.atStart then c.history else pushHistory ⟨i.on, intervalUnits (e - i.began)⟩ c.history) = kept i := by
        rw [pushHistory_eq]
        rfl
      have hwatch := (u.line n).watchLength_map e
      rw [hst, hcommitted] at hwatch
      refine ⟨fun hb => by rw [hchange, State.sessionChange_first hb], fun hb hon => ?_, fun hb hoff => ?_⟩
      · have hpair : c.pair i e = none := if_pos hon
        have hended : u.sessionChange n i e = put (c.endInterval i e (u.line n).watchLength) := by
          rw [State.sessionChange_ended hb, hpair]
        rw [hchange, hended, Classifier.endInterval_on hon, hwatch, hkept]
        rfl
      · have hpair : c.pair i e = c.openOn.map fun on => (on, units i.began) := if_neg (Bool.eq_false_iff.1 hoff)
        have hinterval : c.endInterval i e (u.line n).watchLength =
            { c with history := kept i, interval := some ⟨true, e, false⟩, openOn := none, gapWatch := none } := by
          rw [Classifier.endInterval_off hoff, hkept]
        refine ⟨fun ho => ?_, fun on ho => ?_⟩
        · have hended : u.sessionChange n i e = put (c.endInterval i e (u.line n).watchLength) := by
            rw [State.sessionChange_ended hb, hpair, ho]
            rfl
          rw [hchange, hended, hinterval]
        · have hended : u.sessionChange n i e =
              (put (c.endInterval i e (u.line n).watchLength)).takePair n on (units i.began) := by
            rw [State.sessionChange_ended hb, hpair, ho]
            rfl
          rw [hchange, hended, hinterval]

/-! ### Pairs and matching (R81, R82, R84, R86, R90) -/

theorem Matcher.advance_eq (m : Matcher) (pos count total : Nat) : m.advance pos count total =
    if count = total then ⟨{ m with pos := 0, count := 0 }, true, true⟩ else ⟨{ m with pos := pos, count := count }, true, false⟩ :=
  rfl

/-- The segment at position `i` takes the pair (R81). -/
def fitsAt (g : List Segment) (on off i : Nat) : Prop :=
  ∃ y, g[i]? = some y ∧ y.onMin ≤ on ∧ on ≤ y.onMax ∧ y.offMin ≤ off ∧ off ≤ y.offMax

theorem fitsAt_iff (g : List Segment) (on off i : Nat) :
    (g[i]?.map (Segment.fits on off)).getD false = true ↔ fitsAt g on off i := by
  unfold fitsAt
  cases g[i]? with
  | none => simp
  | some y => simp [Segment.fits, inRange, and_assoc]

section offerPair
variable {g : List Segment} {cycles on off : Nat} {m : Matcher}

theorem Matcher.offerPair_here (h : fitsAt g on off m.pos) : m.offerPair g cycles on off =
    m.advance ((m.pos + 1) % g.length) (m.count + 1) (g.length * cycles) := if_pos ((fitsAt_iff ..).2 h)

theorem Matcher.offerPair_first (h : ¬ fitsAt g on off m.pos) (h0 : fitsAt g on off 0) : m.offerPair g cycles on off =
    m.advance (if g.length = 1 then 0 else 1) 1 (g.length * cycles) := by
  rw [Matcher.offerPair, if_neg (mt (fitsAt_iff ..).1 h), if_pos ((fitsAt_iff ..).2 h0)]

theorem Matcher.offerPair_nowhere (h : ¬ fitsAt g on off m.pos) (h0 : ¬ fitsAt g on off 0) :
    m.offerPair g cycles on off = ⟨{ m with pos := 0, count := 0 }, false, false⟩ := by
  rw [Matcher.offerPair, if_neg (mt (fitsAt_iff ..).1 h), if_neg (mt (fitsAt_iff ..).1 h0)]

/-- A matcher that confirms has advanced (R82). -/
theorem Matcher.offerPair_advanced (h : (m.offerPair g cycles on off).confirmed = true) :
    (m.offerPair g cycles on off).advanced = true := by
  by_cases hpos : fitsAt g on off m.pos
  · rw [Matcher.offerPair_here hpos, Matcher.advance_eq]
    split <;> rfl
  · by_cases h0 : fitsAt g on off 0
    · rw [Matcher.offerPair_first hpos h0, Matcher.advance_eq]
      split <;> rfl
    · rw [Matcher.offerPair_nowhere hpos h0] at h
      cases h

end offerPair

theorem offerSlot_advanced {t : Option Template} {on off : Nat} {m : Matcher} (h : (offerSlot t on off m).confirmed = true) :
    (offerSlot t on off m).advanced = true := by
  rcases t with _ | ⟨c, u | ⟨g, y⟩⟩
  · cases h
  · cases h
  · exact Matcher.offerPair_advanced h

theorem Bank.any_tabulate {n : Nat} {α : Type} (f : Fin n → α) (p : α → Bool) :
    (Bank.tabulate f).items.any p = true ↔ ∃ i, p (f i) = true := by
  simp [Bank.tabulate]

theorem Bank.map_tabulate {n : Nat} {α β : Type} (f : Fin n → α) (g : α → β) :
    (Bank.tabulate f).map g = Bank.tabulate fun i => g (f i) := Bank.ext_get fun i => by simp

/-- What a pair makes of each slot's matcher on a line (R81). -/
def State.offered (n : LineNo) (on off : Nat) (s : State) (k : SlotNo) : Matched :=
  offerSlot (s.cadence.get k) on off ((s.line n).pc.matchers.get k)

/-- The line after a pair, its unmatched count at `count`. -/
def State.pairTaken (n : LineNo) (on off count : Nat) (s : State) : State :=
  s.putLine n { s.line n with pc := { (s.line n).pc with
    matchers := Bank.tabulate fun k => (s.offered n on off k).m, unmatched := count } }

/-- The unmatched count after a pair (R86). -/
def State.unmatchedAfter (n : LineNo) (on off : Nat) (s : State) : Nat :=
  if (Bank.tabulate (s.offered n on off)).items.any (·.advanced) then 0 else min 255 ((s.line n).pc.unmatched + 1)

theorem State.takePair_eq (n : LineNo) (on off : Nat) (s : State) :
    let u := s.pairTaken n on off (s.unmatchedAfter n on off)
    s.takePair n on off = match lowestSlot fun k => (s.offered n on off k).confirmed with
      | some k => u.confirmSlot n k
      | none => if (u.line n).unclassifiedAnswer (Bank.tabulate (s.offered n on off)) then u.answer n .unclassified else u := by
  intro u
  have hu : u = s.onLine n fun l => { l with pc := l.pc.matched (Bank.tabulate (s.offered n on off)) } := by
    rw [State.onLine, Classifier.matched, Bank.map_tabulate]
    rfl
  rw [hu]
  unfold State.takePair
  have hget : (fun k => ((Bank.tabulate (s.offered n on off)).get k).confirmed) = fun k => (s.offered n on off k).confirmed :=
    funext fun k => by rw [Bank.get_tabulate]
  rw [← hget] <;> rfl

theorem State.unmatchedAfter_hit {n : LineNo} {on off : Nat} {s : State} (h : ∃ k, (s.offered n on off k).advanced = true) :
    s.unmatchedAfter n on off = 0 := if_pos ((Bank.any_tabulate ..).2 h)

theorem State.unmatchedAfter_miss {n : LineNo} {on off : Nat} {s : State} (h : ∀ k, (s.offered n on off k).advanced = false) :
    s.unmatchedAfter n on off = min 255 ((s.line n).pc.unmatched + 1) := by
  refine if_neg fun hany => ?_
  obtain ⟨k, hk⟩ := (Bank.any_tabulate (s.offered n on off) _).1 hany
  rw [h k] at hk
  cases hk

/-- The third pair in a row that matches nothing is an answer where the profile asks for it (R90). -/
theorem Line.unclassifiedAnswer_iff (x : SlotNo → Matched) (l : Line) :
    l.unclassifiedAnswer (Bank.tabulate x) = true ↔ (∀ k, (x k).advanced = false) ∧ l.pc.unmatched = 3 ∧
      l.pc.ringbackSeen = true ∧ l.st = .awaitProgress ∧ l.committed.answerUnclassified = true := by
  have hmiss : (!(Bank.tabulate x).items.any (·.advanced)) = true ↔ ∀ k, (x k).advanced = false := by
    rw [Bool.not_eq_true', ← Bool.not_eq_true, Bank.any_tabulate, not_exists]
    simp only [Bool.not_eq_true]
  rw [Line.unclassifiedAnswer, Bool.and_eq_true, Bool.and_eq_true, Bool.and_eq_true, Bool.and_eq_true, hmiss]
  simp only [beq_iff_eq, and_assoc]

theorem State.pairTaken_answers (n : LineNo) (on off count : Nat) (x : SlotNo → Matched) (s : State) :
    ((s.pairTaken n on off count).line n).unclassifiedAnswer (Bank.tabulate x) = true ↔
      (∀ k, (x k).advanced = false) ∧ count = 3 ∧ (s.line n).pc.ringbackSeen = true ∧ (s.line n).st = .awaitProgress ∧
        (s.line n).committed.answerUnclassified = true := by
  rw [Line.unclassifiedAnswer_iff, State.pairTaken, State.line_putLine_self]
  rfl

section takePair
variable {n : LineNo} {on off : Nat} {s : State}

theorem State.takePair_confirms {k : SlotNo} {t : Template} (hk : (s.offered n on off k).confirmed = true)
    (hlow : ∀ j, j < k → (s.offered n on off j).confirmed = false) (ht : s.cadence.get k = some t) :
    s.takePair n on off = (s.pairTaken n on off 0).confirm n t.cls k := by
  have hpair := s.takePair_eq n on off
  dsimp only at hpair
  rw [hpair, State.unmatchedAfter_hit ⟨k, offerSlot_advanced hk⟩, lowestSlot_eq_some hk hlow]
  exact State.confirmSlot_eq ht

theorem State.takePair_hit (hno : ∀ k, (s.offered n on off k).confirmed = false)
    (hhit : ∃ k, (s.offered n on off k).advanced = true) : s.takePair n on off = s.pairTaken n on off 0 := by
  have hpair := s.takePair_eq n on off
  dsimp only at hpair
  rw [hpair, State.unmatchedAfter_hit hhit, lowestSlot_eq_none hno]
  refine if_neg fun hanswer => ?_
  obtain ⟨k, hk⟩ := hhit
  rw [((s.pairTaken_answers ..).1 hanswer).1 k] at hk
  cases hk

theorem State.takePair_miss (hmiss : ∀ k, (s.offered n on off k).advanced = false) :
    let u := s.pairTaken n on off (min 255 ((s.line n).pc.unmatched + 1))
    let answers := min 255 ((s.line n).pc.unmatched + 1) = 3 ∧ (s.line n).pc.ringbackSeen = true ∧
      (s.line n).st = .awaitProgress ∧ (s.line n).committed.answerUnclassified = true
    (¬ answers → s.takePair n on off = u) ∧ (answers → s.takePair n on off = u.answer n .unclassified) := by
  have hno : ∀ k, (s.offered n on off k).confirmed = false := fun k =>
    Bool.eq_false_iff.2 fun hk => Bool.eq_false_iff.1 (hmiss k) (offerSlot_advanced hk)
  have hpair := s.takePair_eq n on off
  dsimp only at hpair ⊢
  rw [hpair, State.unmatchedAfter_miss hmiss, lowestSlot_eq_none hno]
  exact ⟨fun ha => if_neg fun hanswer => ha ((s.pairTaken_answers ..).1 hanswer).2,
    fun ha => if_pos ((s.pairTaken_answers ..).2 ⟨hmiss, ha⟩)⟩

end takePair

/-- Settles O44: the matcher by where the pair fits, the line by what the slots make of it. -/
theorem pairsMatch : Obligations.PairsMatch := by
  refine ⟨fun on off m => ⟨rfl, fun _ _ => rfl⟩, fun c g cycles on off m => ?_, fun n on off s =>
    ⟨fun k t hk hlow ht => State.takePair_confirms hk hlow ht, fun hno hhit => State.takePair_hit hno hhit,
      fun hmiss => State.takePair_miss hmiss⟩⟩
  intro x fits
  have hx : x = m.offerPair g cycles on off := rfl
  have hfits : fits = fitsAt g on off := rfl
  rw [hfits, hx]
  refine ⟨fun h hc => ?_, fun h hc => ?_, fun h h0 hc => ?_, fun h h0 hc => ?_, fun h h0 => Matcher.offerPair_nowhere h h0⟩
  · rw [Matcher.offerPair_here h, Matcher.advance_eq, if_neg hc]
  · rw [Matcher.offerPair_here h, Matcher.advance_eq, if_pos hc]
  · rw [Matcher.offerPair_first h h0, Matcher.advance_eq, if_neg fun e => hc e.symm]
  · rw [Matcher.offerPair_first h h0, Matcher.advance_eq, if_pos hc.symm]

/-! ### Classes confirmed (R13, R85, R89) -/

/-- A class heard as RINGBACK in AWAIT_PROGRESS (R89). -/
theorem Line.noteClass_eq (c : ToneClass) (k : SlotNo) (l : Line) : l.noteClass c k =
    { l with
      lastClass := some (c, k)
      pc := { l.pc with
        current := some (c, k)
        ringbackSeen := (c == .ringback && l.st == .awaitProgress) || l.pc.ringbackSeen
        unmatched := if (c == .ringback && l.st == .awaitProgress) = true then 0 else l.pc.unmatched } } := by
  have hheard : (c == .ringback && l.st == .awaitProgress) = true ↔ c = .ringback ∧ l.st = .awaitProgress := by
    rw [Bool.and_eq_true, beq_iff_eq, beq_iff_eq]
  rw [Line.noteClass]
  by_cases h : c = .ringback ∧ l.st = .awaitProgress
  · rw [if_pos h, hheard.2 h]
    rfl
  · rw [if_neg h, Bool.eq_false_iff.2 (mt hheard.1 h)]
    rfl

/-- A new class delivered to the line and the engine, before it acts (R85). -/
def State.classNoted (n : LineNo) (c : ToneClass) (k : SlotNo) (s : State) : State :=
  (State.latch (lineSource n) .progress (s.onLine n (Line.noteClass c k))).onActive n fun j => { j with lastClass := some c }

theorem State.confirm_current {n : LineNo} {c : ToneClass} {j k : SlotNo} {s : State}
    (h : (s.line n).pc.current = some (c, j)) : s.confirm n c k = s := if_pos (by rw [h]; rfl)

theorem State.confirm_new {n : LineNo} {c : ToneClass} {k : SlotNo} {s : State}
    (h : ∀ j, (s.line n).pc.current ≠ some (c, j)) : s.confirm n c k = (s.classNoted n c k).classAction n c := by
  refine if_neg fun hcurrent => ?_
  obtain ⟨⟨c', j⟩, hj, rfl⟩ := Option.map_eq_some_iff.1 hcurrent
  exact h j hj

theorem State.classNoted_line (n : LineNo) (c : ToneClass) (k : SlotNo) (s : State) :
    ((s.classNoted n c k).line n).st = (s.line n).st ∧ ((s.classNoted n c k).line n).cursor = (s.line n).cursor := by
  rw [State.classNoted, State.onActive_line, State.latch_line, State.onLine, State.line_putLine_self, Line.noteClass_eq]
  exact ⟨rfl, rfl⟩

/-- The classes a line acts on (R13). -/
theorem State.classAction_acts (n : LineNo) (c : ToneClass) (u : State) :
    ((u.line n).st = .awaitDialtone → c = .dial → u.classAction n c = u.dialtoneServed n) ∧
    ((u.line n).st = .dialing → c = .dial → (u.line n).cursor.sub = .waitTone → u.classAction n c = u.waitToneServed n) ∧
    ((u.line n).st = .awaitProgress → c = .dial → u.classAction n c = u.failAttempt n .redialTone) ∧
    ((u.line n).st = .awaitProgress → c = .busy → u.classAction n c = u.failAttempt n .busy) ∧
    ((u.line n).st = .awaitProgress → c = .reorder → u.classAction n c = u.failAttempt n .reorder) ∧
    ((u.line n).st = .connected ∨ (u.line n).st = .held → c = .busy ∨ c = .reorder →
      u.classAction n c = u.endCall n .done .farEnd) := by
  unfold State.classAction
  dsimp only
  refine ⟨fun h hc => ?_, fun h hc hs => ?_, fun h hc => ?_, fun h hc => ?_, fun h hc => ?_, fun h hc => ?_⟩
  · rw [h, hc]
  · rw [h, hc]
    exact if_pos hs
  · rw [h, hc]
  · rw [h, hc]
  · rw [h, hc]
  · rcases h with h | h <;> rcases hc with hc | hc <;> rw [h, hc]

/-- The classes that are reported only (R13). -/
theorem State.classAction_reports (n : LineNo) (c : ToneClass) (u : State) :
    (c = .ringback ∨ c = .alertA ∨ c = .alertB) ∨
      ((u.line n).st = .disabled ∨ (u.line n).st = .idle ∨ (u.line n).st = .seizing ∨ (u.line n).st = .releasing) ∨
      (c = .dial ∧ ((u.line n).st = .connected ∨ (u.line n).st = .held ∨
        ((u.line n).st = .dialing ∧ (u.line n).cursor.sub ≠ .waitTone))) ∨
      ((c = .busy ∨ c = .reorder) ∧ ((u.line n).st = .awaitDialtone ∨ (u.line n).st = .dialing)) →
    u.classAction n c = u := by
  unfold State.classAction
  dsimp only
  rintro (hc | hst | ⟨hc, hst⟩ | ⟨hc, hst⟩)
  · rcases hc with rfl | rfl | rfl <;> cases (u.line n).st <;> rfl
  · rcases hst with h | h | h | h <;> rw [h]
  · rcases hst with h | h | ⟨h, hs⟩
    · rw [h, hc]
    · rw [h, hc]
    · rw [h, hc]
      exact if_neg hs
  · rcases hc with rfl | rfl <;> rcases hst with h | h <;> rw [h]

/-- Settles O45: by the class and the line's state. -/
theorem classDelivered : Obligations.ClassDelivered := by
  intro n c k s l
  refine ⟨fun j h => State.confirm_current h, fun hnew => ?_⟩
  intro heard u
  have hu : s.classNoted n c k = u := by
    rw [State.classNoted, State.onLine, Line.noteClass_eq]
  obtain ⟨hst, hcursor⟩ := s.classNoted_line n c k
  have hconfirm : s.confirm n c k = u.classAction n c := by rw [State.confirm_new hnew, hu]
  rw [hu] at hst hcursor
  have hacts := u.classAction_acts n c
  have hreports := u.classAction_reports n c
  rw [hst, hcursor] at hacts hreports
  rw [hconfirm]
  obtain ⟨h1, h2, h3, h4, h5, h6⟩ := hacts
  exact ⟨h1, h2, h3, h4, h5, h6, hreports⟩

/-! ### STEADY confirmations and the gap watch (R83, R84, R89) -/

/-- A STEADY template not yet confirmed in the interval. -/
theorem steadyLength_eq_some {t : Option Template} {m : Matcher} {u : Nat} :
    steadyLength t m = some u ↔ (∃ x, t = some x ∧ x.form = .steady u) ∧ m.steady = false := by
  rcases t with _ | ⟨c, v | ⟨g, y⟩⟩
  · simp [steadyLength]
  · cases h : m.steady <;> simp [steadyLength, h]
  · simp [steadyLength]

/-- A slot that a confirmation of length `u` takes (R83). -/
theorem steadyLength_is {t : Option Template} {m : Matcher} {u : Nat} :
    ((steadyLength t m).map (· == u)).getD false = true ↔ steadyLength t m = some u := by
  cases steadyLength t m <;> simp

/-- The marks a confirmation of length `u` sets (R83); one that stands already stays. -/
theorem Classifier.markSteady_eq (table : Bank 8 (Option Template)) (u : Nat) (c : Classifier) :
    c.markSteady table (· == u) = { c with
      matchers := Bank.tabulate fun j => if (table.get j).map (·.form) = some (.steady u) then { c.matchers.get j with steady := true }
      else c.matchers.get j } := by
  have hmark : ∀ j, (if ((steadyLength (table.get j) (c.matchers.get j)).map (· == u)).getD false then
      { c.matchers.get j with steady := true } else c.matchers.get j) =
      if (table.get j).map (·.form) = some (.steady u) then { c.matchers.get j with steady := true }
      else c.matchers.get j := fun j => by
    have hform : (table.get j).map (·.form) = some (.steady u) ↔ ∃ x, table.get j = some x ∧ x.form = .steady u :=
      Option.map_eq_some_iff
    by_cases hf : (table.get j).map (·.form) = some (.steady u)
    · rw [if_pos hf]
      cases hs : (c.matchers.get j).steady with
      | false => rw [if_pos (steadyLength_is.2 (steadyLength_eq_some.2 ⟨hform.1 hf, hs⟩))]
      | true =>
        have hsame : { c.matchers.get j with steady := true } = c.matchers.get j := by rw [← hs]
        rw [hsame, ite_self]
    · rw [if_neg hf, if_neg fun h => hf (hform.2 (steadyLength_eq_some.1 (steadyLength_is.1 h)).1)]
  rw [Classifier.markSteady]
  simp only [hmark]

theorem execSteadyConfirmation_some {n : LineNo} {s : State} {b u : Nat}
    (h : (s.line n).pc.nextSteady s.cadence = some (b, u)) : exec (.steadyConfirmation n) s =
      .next ((s.advanceTo (b + 10 * u + 10)).confirmSteady n (· == u)) := by
  change Host.Outcome.next (match (s.line n).pc.nextSteady s.cadence with
    | none => s
    | some (b, u) => (s.advanceTo (b + 10 * u + Config.cptFilterMs)).confirmSteady n (· == u)) = _
  rw [h]
  rfl

theorem execSteadyConfirmation_none {n : LineNo} {s : State}
    (h : ∀ b u, (s.line n).pc.nextSteady s.cadence ≠ some (b, u)) : exec (.steadyConfirmation n) s = .next s := by
  have hnone : (s.line n).pc.nextSteady s.cadence = none := Option.eq_none_iff_forall_ne_some.2 fun x => h x.1 x.2
  change Host.Outcome.next (match (s.line n).pc.nextSteady s.cadence with
    | none => s
    | some (b, u) => (s.advanceTo (b + 10 * u + Config.cptFilterMs)).confirmSteady n (· == u)) = _
  rw [hnone]

/-- The templates of length `u` confirm, the lowest slot `k` delivering its class (R83, R84). -/
theorem State.confirmSteady_lowest {n : LineNo} {s : State} {k : SlotNo} {t : Template} {u : Nat}
    (ht : s.cadence.get k = some t) (hu : t.form = .steady u) (hs : ((s.line n).pc.matchers.get k).steady = false)
    (hlow : ∀ j, j < k → steadyLength (s.cadence.get j) ((s.line n).pc.matchers.get j) ≠ some u) :
    s.confirmSteady n (· == u) = (s.putLine n { s.line n with pc := { (s.line n).pc with
      matchers := Bank.tabulate fun j =>
        if (s.cadence.get j).map (·.form) = some (.steady u) then { (s.line n).pc.matchers.get j with steady := true }
        else (s.line n).pc.matchers.get j } }).confirm n t.cls k := by
  have hslot : lowestSlot (fun k => ((steadyLength (s.cadence.get k) ((s.line n).pc.matchers.get k)).map (· == u)).getD false) =
      some k := lowestSlot_eq_some (steadyLength_is.2 (steadyLength_eq_some.2 ⟨⟨t, ht, hu⟩, hs⟩))
    fun j hj => Bool.eq_false_iff.2 fun h => hlow j hj (steadyLength_is.1 h)
  unfold State.confirmSteady
  dsimp only
  rw [hslot, State.onLine, Classifier.markSteady_eq]
  exact State.confirmSlot_eq ht

theorem Line.gapDecides_iff (m : Nat) (l : Line) : l.gapDecides m = true ↔
    l.pc.listening = true ∧ l.st = .awaitProgress ∧ ∀ e, l.pc.edges.head? = some e → m < e := by
  unfold Line.gapDecides
  cases l.pc.edges.head? <;> simp [and_assoc]

theorem execGapWatchExpiry_running {n : LineNo} {s : State} {m : Nat} (h : (s.line n).pc.gapWatch = some m) :
    exec (.gapWatchExpiry n) s =
      .next (if (s.line n).gapDecides m then (s.advanceTo (m + 10)).answer n .ringbackCeased else s) := by
  change Host.Outcome.next (match (s.line n).pc.gapWatch with
    | none => s
    | some m => if (s.line n).gapDecides m then (s.advanceTo (m + Config.cptFilterMs)).answer n .ringbackCeased else s) = _
  rw [h]
  rfl

/-- Settles O46: by the next confirmation of the classifier, and by the gap watch. -/
theorem steadyAndGap : Obligations.SteadyAndGap := by
  intro n s c
  have hnext : ∀ (b u : Nat) (k : SlotNo) (t : Template) (first : Bool),
      c.listening = true → c.filtered = true → c.interval = some ⟨true, b, first⟩ →
      s.cadence.get k = some t → t.form = .steady u → (c.matchers.get k).steady = false →
      (∀ j t' u', s.cadence.get j = some t' → t'.form = .steady u' → (c.matchers.get j).steady = false →
        u ≤ u' ∧ (u' = u → k ≤ j)) → c.onSince = some b ∧ shortest (c.steadyLengths s.cadence) = some u :=
    fun b u k t first hl hf hi ht hu hs hmin => by
      refine ⟨Classifier.onSince_eq_some.2 ⟨hl, hf, first, hi⟩, shortest_eq_some.2 ⟨?_, fun x hx => ?_⟩⟩
      · exact Classifier.mem_steadyLengths.2 ⟨k, t.cls, by rw [ht, ← hu], hs⟩
      · obtain ⟨j, t', hj, hmark⟩ := Classifier.mem_steadyLengths.1 hx
        exact (hmin j _ x hj rfl hmark).1
  refine ⟨fun b u k t first hl hf hi ht hu hs hmin => ?_, fun hno => ?_, fun h => ?_,
    fun m hm => ⟨fun hl hst hedge => ?_, fun hno => ?_⟩⟩
  · obtain ⟨hsince, hshort⟩ := hnext b u k t first hl hf hi ht hu hs hmin
    refine ⟨fun hedge => ?_, fun e he hle => ?_⟩
    · have hfirst : ∀ j, j < k → steadyLength (s.cadence.get j) (c.matchers.get j) ≠ some u := fun j hj hsome => by
        obtain ⟨⟨x, hx, hform⟩, hmark⟩ := steadyLength_eq_some.1 hsome
        exact absurd ((hmin j x u hx hform hmark).2 rfl) (not_le.2 hj)
      rw [execSteadyConfirmation_some (Classifier.nextSteady_eq_some.2
        ⟨hsince, hshort, Classifier.outlasts_iff.2 hedge⟩)]
      exact congrArg Host.Outcome.next (State.confirmSteady_lowest ht hu hs hfirst)
    · refine execSteadyConfirmation_none fun b' u' hnext => ?_
      obtain ⟨hb, hu', hout⟩ := Classifier.nextSteady_eq_some.1 hnext
      obtain rfl : b = b' := Option.some.inj (hsince.symm.trans hb)
      obtain rfl : u = u' := Option.some.inj (hshort.symm.trans hu')
      exact absurd (Classifier.outlasts_iff.1 hout e he) (not_lt.2 hle)
  · refine execSteadyConfirmation_none fun b' u' hnext => ?_
    obtain ⟨hb, hu', -⟩ := Classifier.nextSteady_eq_some.1 hnext
    obtain ⟨hl, hf, first, hi⟩ := Classifier.onSince_eq_some.1 hb
    obtain ⟨k, t, ht, hs⟩ := Classifier.mem_steadyLengths.1 (shortest_eq_some.1 hu').1
    rcases hno with h | h | h | ⟨i, h, hoff⟩ | h
    · exact Bool.eq_false_iff.1 h hl
    · exact Bool.eq_false_iff.1 h hf
    · cases hi.symm.trans h
    · obtain rfl := Option.some.inj (hi.symm.trans h)
      cases hoff
    · exact Bool.eq_false_iff.1 hs (h k _ _ ht rfl)
  · change Host.Outcome.next (match (s.line n).pc.gapWatch with
      | none => s
      | some m => if (s.line n).gapDecides m then (s.advanceTo (m + Config.cptFilterMs)).answer n .ringbackCeased else s) = _
    rw [show (s.line n).pc.gapWatch = none from h]
  · rw [execGapWatchExpiry_running hm, if_pos ((Line.gapDecides_iff ..).2 ⟨hl, hst, hedge⟩)]
    rfl
  · rw [execGapWatchExpiry_running hm, if_neg]
    rw [Line.gapDecides_iff]
    rintro ⟨hl, hst, hedge⟩
    rcases hno with h | h | ⟨e, he, hle⟩
    · exact Bool.eq_false_iff.1 h hl
    · exact h hst
    · exact absurd (hedge e he) (not_lt.2 hle)

end Sys2Proof.Machine
end

section
/-! PROOFS. Jobs: starts and resolution (R100, R106 to R110), failed attempts (R112, R124 to R128), reports and finishes
(R111, R113). -/

namespace Sys2Proof.Machine

/-! ### Records written one after the other -/

theorem updateJob_updateJob {t : List Job} {id : Nat} {x : Job} {f : Job → Job} (hx : x.id = id) :
    updateJob id f (updateJob id (fun _ => x) t) = updateJob id (fun _ => f x) t := by
  simp only [updateJob, List.map_map]
  refine List.map_congr_left fun y _ => ?_
  by_cases hy : y.id = id
  · simp only [Function.comp_apply, if_pos hy, if_pos hx]
  · simp only [Function.comp_apply, if_neg hy]

/-! ### Starts (R100, R126) -/

theorem execJobStart_no {n : LineNo} {s : State} (h : s.startable n = false) : exec (.jobStart n) s = .next s :=
  congrArg Host.Outcome.next (if_neg (Bool.eq_false_iff.1 h))

theorem execJobStart_yes {n : LineNo} {s : State} (h : s.startable n = true) : exec (.jobStart n) s = .next (s.startHead n) :=
  congrArg Host.Outcome.next (if_pos h)

/-- The head job of line `n` written as `x`, its retry delay stopped. -/
def State.putStarted (n : LineNo) (id : Nat) (s : State) (x : Job) : State :=
  { s with jobs := { s.jobs with
    table := s.jobs.table.map fun y => if y.id = id then x else y
    retry := s.jobs.retry.set n .stopped } }

theorem State.putStarted_onJob {n : LineNo} {id : Nat} {s : State} {x r : Job} (hx : x.id = id) (hr : r.id = id) :
    (s.putStarted n id x).onJob r.id (fun _ => r) = s.putStarted n id r := by
  have htable : updateJob r.id (fun _ => r) (updateJob id (fun _ => x) s.jobs.table) = updateJob id (fun _ => r) s.jobs.table := by
    rw [hr, updateJob_updateJob hx]
  change ({ s with jobs := { s.jobs with
    table := updateJob r.id (fun _ => r) (updateJob id (fun _ => x) s.jobs.table)
    retry := s.jobs.retry.set n .stopped } } : State) = _
  rw [htable]
  rfl

theorem State.startHead_eq {n : LineNo} {j : Job} {s : State} (h : s.headJob n = some j) :
    s.startHead n = if j.methodInEffect.isSome then s.putStarted n j.id { j with state := .active, phase := some .resolve }
      else (s.putStarted n j.id { j with state := .active, phase := some .resolve }).resolve
        { j with state := .active, phase := some .resolve } := by
  rw [State.startHead, h]
  rfl

theorem execRetryDelayExpiry_eq (n : LineNo) (s : State) : exec (.retryDelayExpiry n) s =
    .next (s.onDue (s.jobs.retry.get n).due (State.setRetry n .expired)) := rfl

/-- Settles O47: by the retry timer, and by what the head job is. -/
theorem jobsStart : Obligations.JobsStart := by
  intro n s
  refine ⟨fun d h => ?_, fun h => ?_, fun h => execJobStart_no ?_, fun j hj => ⟨fun h => execJobStart_no ?_, fun hidle h => ?_⟩⟩
  · rw [execRetryDelayExpiry_eq, h]
    rfl
  · refine nextOnDue_none ?_
    cases hr : s.jobs.retry.get n with
    | running d => exact absurd hr (h d)
    | _ => rfl
  · rw [Bool.eq_false_iff, Ne, s.startable_iff n]
    rintro ⟨hidle, j, hj, -⟩
    rcases h with h | h
    · exact h hidle
    · rw [h] at hj
      cases hj
  · rw [Bool.eq_false_iff, Ne, s.startable_iff n]
    rintro ⟨-, j', hj', hstate⟩
    obtain rfl : j = j' := Option.some.inj (hj.symm.trans hj')
    rcases h with h | h | ⟨h, hr⟩
    · rw [h] at hstate
      simp at hstate
    · rw [h] at hstate
      simp at hstate
    · rw [h] at hstate
      simp only [reduceCtorEq, false_or, true_and] at hstate
      exact hr hstate
  · have hexec := execJobStart_yes ((s.startable_iff n).2 ⟨hidle, j, hj, h⟩)
    rw [State.startHead_eq hj] at hexec
    intro j' put
    refine ⟨fun hm => ?_, fun hm => ⟨(put j').resolve j', ?_, ?_⟩⟩
    · rw [hexec, if_pos (Option.isSome_iff_ne_none.2 hm)]
      rfl
    · rw [hexec, if_neg (by rw [Option.isSome_iff_ne_none, not_not]; exact hm)]
      rfl
    · exact State.resolve_resolves (put := put) (fun r hr => State.putStarted_onJob (x := j') rfl hr) rfl rfl

/-! ### Failed attempts (R112, R124 to R128) -/

/-- A failed attempt recorded with its job and its line, before its course is taken (R112). -/
def State.failureNoted (n : LineNo) (c : Cause) (j : Job) (s : State) : State :=
  State.latch (lineSource n) .attemptFail
    ((s.onJob j.id fun _ => j.failed c).onLine n fun l => { l with lastCause := some c })

theorem State.attemptFailed_eq {n : LineNo} {c : Cause} {j : Job} {s : State} (h : s.headJob n = some j) :
    s.attemptFailed n c = (s.failureNoted n c j).takeCourse (j.failed c) c := by
  rw [State.attemptFailed, h]
  rfl

/-- A change of the job whose record stands. -/
theorem State.failureNoted_onJob (n : LineNo) (c : Cause) (j : Job) (f : Job → Job) (s : State) :
    (s.failureNoted n c j).onJob j.id f = (s.failureNoted n c j).onJob j.id fun _ => f (j.failed c) := by
  have htable : (s.failureNoted n c j).jobs.table = updateJob j.id (fun _ => j.failed c) s.jobs.table := by
    rw [State.failureNoted, State.latch_jobs]
    rfl
  have hupdate : updateJob j.id f (s.failureNoted n c j).jobs.table =
      updateJob j.id (fun _ => f (j.failed c)) (s.failureNoted n c j).jobs.table := by
    have hid : (j.failed c).id = j.id := rfl
    rw [htable, updateJob_updateJob hid, updateJob_updateJob hid]
  exact congrArg (fun x => (s.failureNoted n c j).onJobs fun e => { e with table := x }) hupdate

theorem State.failureNoted_retry (n : LineNo) (c : Cause) (j : Job) (x : Job) (s : State) :
    ((s.failureNoted n c j).onJob j.id fun _ => x).startRetry n =
      ((s.failureNoted n c j).onJob j.id fun _ => x).setRetry n
        (.running (s.now + 1000 * (s.line n).committed.retryDelayS)) := by
  have hline : (((s.failureNoted n c j).onJob j.id fun _ => x).line n).committed = (s.line n).committed := by
    change ((s.failureNoted n c j).line n).committed = _
    rw [State.failureNoted, State.latch_line, State.onLine, State.line_putLine_self]
    rfl
  have hnow : ((s.failureNoted n c j).onJob j.id fun _ => x).now = s.now := State.latch_now ..
  rw [State.startRetry, hline, hnow]

section course
variable {c : Cause} {j : Job} (h : ¬ j.attemptsThisHop < j.attemptsMaxThisHop.getD 0)
include h

/-- The course of a hop with no attempt left and a fallback to follow (R124, R127). -/
theorem Job.course_chain {e : EntryNo} (hf : j.followChain = true) (hb : j.fallback = some e) : j.course c =
    if e ∈ j.visited then .finish .chainLoop else if j.hop = 8 then .finish .chainLimit else .hop e := by
  rw [Job.course, if_neg h, hf, hb]

/-- The course of a hop with no attempt left and no fallback to follow (R124). -/
theorem Job.course_end (hno : j.followChain = false ∨ j.fallback = none) : j.course c = .finish c := by
  rw [Job.course, if_neg h]
  rcases hno with hf | hb
  · rw [hf]
  · rw [hb]
    cases j.followChain <;> rfl

end course

/-- Settles O48: by the course. -/
theorem failureDecides : Obligations.FailureDecides := by
  intro n c s
  refine ⟨fun h => by rw [State.attemptFailed, h], fun j hj hn => ?_⟩
  intro j' put u more waits
  have hfailed : s.attemptFailed n c = u.takeCourse j' c := State.attemptFailed_eq hj
  have hwaits : ∀ f : Job → Job, (u.onJob j'.id f).startRetry j'.line = waits (f j') := fun f => by
    have hline : j'.line = n := hn
    rw [hline]
    refine Eq.trans ?_ (s.failureNoted_retry n c j (f j'))
    exact congrArg (State.startRetry n) (s.failureNoted_onJob n c j f)
  have hmore : more ↔ j'.attemptsThisHop < j'.attemptsMaxThisHop.getD 0 := Iff.rfl
  refine ⟨fun h => ?_, fun e h hf hb => ⟨fun hv => ?_, fun hv hh => ?_, fun hv hh => ?_⟩, fun h hno => ?_⟩
  · rw [hfailed, State.takeCourse, Job.course, if_pos (hmore.1 h)]
    exact hwaits Job.retryHop
  · rw [hfailed, State.takeCourse, Job.course_chain (mt hmore.2 h) hf hb, if_pos hv]
  · rw [hfailed, State.takeCourse, Job.course_chain (mt hmore.2 h) hf hb, if_neg hv, if_pos hh]
  · rw [hfailed, State.takeCourse, Job.course_chain (mt hmore.2 h) hf hb, if_neg hv, if_neg hh]
    exact hwaits (Job.newHop e)
  · rw [hfailed, State.takeCourse, Job.course_end (mt hmore.2 h) hno]

/-! ### Reports and finishes (R111, R113) -/

theorem State.onActive_active {n : LineNo} {j : Job} {s : State} (h : s.headJob n = some j) (ha : j.state = .active)
    (f : Job → Job) : s.onActive n f = s.onJob j.id f := by
  rw [State.onActive, h]
  exact if_pos ha

theorem State.onActive_none {n : LineNo} {s : State} (h : s.headJob n = none ∨ ∃ j, s.headJob n = some j ∧ j.state ≠ .active)
    (f : Job → Job) : s.onActive n f = s := by
  rw [State.onActive]
  rcases h with h | ⟨j, h, ha⟩
  · rw [h]
  · rw [h]
    exact if_neg ha

/-- A finish recorded with its line, before the scanner is told (R113). -/
def State.finishNoted (j : Job) (o : JobOutcome) (c : Cause) (s : State) : State :=
  State.latch (lineSource j.line) .jobEnd (((s.onJob j.id fun _ => j.finish o c).onJobs fun e => { e with
    queues := e.queues.set j.line ((e.queues.get j.line).erase j.id)
    finished := e.finished ++ [j.id]
    retry := if j.state = .retryWait then e.retry.set j.line .stopped else e.retry }).onLine j.line fun l =>
      { l with lastJob := some (j.id, o, c) })

theorem State.finishJob_eq (j : Job) (o : JobOutcome) (c : Cause) (s : State) :
    s.finishJob j o c = (s.finishNoted j o c).tellScanner j := rfl

theorem State.finishNoted_keys (j : Job) (o : JobOutcome) (c : Cause) (s : State) : (s.finishNoted j o c).keys = s.keys :=
  State.latch_keys ..

theorem State.tellScanner_link {j : Job} (h : j.origin = .link) (v : State) : v.tellScanner j = v := by
  rw [State.tellScanner, h]

theorem State.tellScanner_key {j : Job} {k : KeyNo} (h : j.origin = .key k) (v : State) : v.tellScanner j =
    { v with keys := { v.keys with all := v.keys.all.set k ((v.key k).jobFinished j.id) } } := by
  rw [State.tellScanner, h]
  rfl

/-- Settles O49: by the ACTIVE head job, and by the origin of the job that finishes. -/
theorem jobReportsAndFinish : Obligations.JobReportsAndFinish := by
  refine ⟨fun n f p s => ⟨fun j hj ha => ⟨State.onActive_active hj ha f, State.onActive_active hj ha _⟩,
    fun h => ⟨State.onActive_none h f, State.onActive_none h _⟩⟩, fun j o c s => ?_⟩
  intro f u v
  have hfinish : s.finishJob j o c = v.tellScanner j := rfl
  have hkeys : v.keys = s.keys := s.finishNoted_keys j o c
  have hkey : ∀ k, v.key k = s.key k := fun k => by
    rw [State.key, hkeys]
    rfl
  refine ⟨fun h => ?_, fun k h hl => ?_, fun k h hl => ?_, fun n h => ?_, fun n h => ?_⟩
  · rw [hfinish, State.tellScanner_link h]
  · rw [hfinish, State.tellScanner_key h, hkey, hkeys, Key.jobFinished, if_pos hl]
  · have hset : s.keys.all.set k (s.key k) = s.keys.all := Bank.set_get ..
    rw [hfinish, State.tellScanner_key h, hkey, hkeys, Key.jobFinished, if_neg hl, hset, ← hkeys]
  · rw [State.finishHead, h]
  · rw [State.finishHead, h]

end Sys2Proof.Machine
end

section
/-! PROOFS. Keys: raw changes, transitions and the deferred list (R157 to R162). -/

namespace Sys2Proof.Machine

/-! ### The record of one key -/

theorem State.key_onKey (k m : KeyNo) (f : Key → Key) (s : State) :
    (s.onKey k f).key m = if k = m then f (s.key k) else s.key m := Bank.get_set ..

theorem State.key_onKey_self (k : KeyNo) (f : Key → Key) (s : State) : (s.onKey k f).key k = f (s.key k) := by
  rw [State.key_onKey, if_pos rfl]

theorem State.onKey_of {k : KeyNo} {x : Key} {s : State} (h : s.key k = x) (f : Key → Key) :
    s.onKey k f = { s with keys := { s.keys with all := s.keys.all.set k (f x) } } := by
  subst h
  rfl

/-! ### The deferred list (R162) -/

theorem State.afterUp_direct {k : KeyNo} {s : State} (h : ¬ k.val < 16) : s.afterUp k = s :=
  if_neg (by simpa [isMatrix] using h)

theorem State.afterUp_matrix {k : KeyNo} {s : State} (h : k.val < 16) : s.afterUp k = s.takeDeferred 3 :=
  if_pos (by simpa [isMatrix] using h)

theorem State.takeDeferred_done {fuel : Nat} {s : State} (h : s.keys.deferred = [] ∨ 3 ≤ s.keys.heldCount) :
    s.takeDeferred fuel = s := by
  unfold State.takeDeferred
  split
  · rfl
  · split
    · rfl
    · next hd =>
      rcases h with h | h
      · rw [h] at hd
        cases hd
      · exact if_neg (Nat.not_lt.2 h)

theorem State.takeDeferred_one {fuel : Nat} {s : State} {i : KeyNo} {rest : List KeyNo} (h : s.keys.deferred = i :: rest)
    (hroom : s.keys.heldCount < 3) : s.takeDeferred (fuel + 1) =
      (State.takeDown i { s with keys := { s.keys with deferred := rest } }).takeDeferred fuel := by
  rw [State.takeDeferred, h]
  exact if_pos hroom

/-! ### Transitions (R157, R158) -/

section transitions
variable {k : KeyNo} {s : State}

/-- The state after the debounced level has changed, before the transition is taken (R157). -/
def State.debounced (k : KeyNo) (s : State) : State := s.onKey k fun key => { key with deb := !key.deb, since := none }

theorem State.debounced_key : (s.debounced k).key k = { s.key k with deb := !(s.key k).deb, since := none } :=
  State.key_onKey_self ..

theorem State.debounced_held : (s.debounced k).keys.heldCount = s.keys.heldCount := by
  refine KeyScanner.heldCount_congr fun m => ?_
  change ((s.debounced k).key m).cond = (s.key m).cond
  rw [State.debounced, State.key_onKey]
  split
  · next h => rw [← h]
  · rfl

theorem State.debouncedChange_checking (h : s.store.st = .checking) : s.debouncedChange k = s.debounced k := if_pos h

theorem State.debouncedChange_down (h : s.store.st ≠ .checking) (hd : (s.key k).deb = false) :
    s.debouncedChange k = (s.debounced k).wentDown k := by
  refine (if_neg h).trans (if_pos ?_)
  change ((s.debounced k).key k).deb = true
  rw [State.debounced_key, hd]
  rfl

theorem State.debouncedChange_up (h : s.store.st ≠ .checking) (hd : (s.key k).deb = true) :
    s.debouncedChange k = (s.debounced k).wentUp k := by
  refine (if_neg h).trans (if_neg ?_)
  change ¬ ((s.debounced k).key k).deb = true
  rw [State.debounced_key, hd]
  exact Bool.false_ne_true

theorem State.wentDown_taken (hc : (s.key k).cond = .up) (h : ¬ (k.val < 16 ∧ 3 ≤ s.keys.heldCount)) :
    s.wentDown k = s.takeDown k := by
  rw [State.wentDown, hc]
  exact if_neg (by simpa [isMatrix] using h)

theorem State.wentDown_deferred (hc : (s.key k).cond = .up) (hm : k.val < 16) (h : 3 ≤ s.keys.heldCount) :
    s.wentDown k = s.deferKey k := by
  rw [State.wentDown, hc]
  exact if_pos (by simp [isMatrix, hm, h])

theorem State.wentDown_other (hc : (s.key k).cond ≠ .up) : s.wentDown k = s := by
  rw [State.wentDown]
  cases h : (s.key k).cond
  · exact absurd h hc
  all_goals rfl

theorem State.wentUp_cases : ((s.key k).cond = .up → s.wentUp k = s) ∧
    ((s.key k).cond = .down → s.wentUp k = (s.takeUp k).afterUp k) ∧
    ((s.key k).cond = .deferred → s.wentUp k = (s.onKey k fun key => { key with cond := .up }).onKeys fun ks =>
      { ks with deferred := ks.deferred.erase k }) ∧
    ((s.key k).cond = .marked → s.wentUp k = (s.onKey k fun key => { key with cond := .up }).afterUp k) := by
  unfold State.wentUp
  refine ⟨fun h => ?_, fun h => ?_, fun h => ?_, fun h => ?_⟩ <;> rw [h]

end transitions

theorem execKeyTransition_due {k : KeyNo} {s : State} {d : Nat} (h : (s.key k).since = some d) :
    exec (.keyTransition k) s = .next ((s.advanceTo (d + s.keys.debounceMs)).debouncedChange k) := by
  change Host.Outcome.next (s.onDue ((s.key k).since.map (· + s.keys.debounceMs)) (State.debouncedChange k)) = _
  rw [h]
  rfl

/-- Settles O50: a raw change by the part's state; a transition by the key's condition; the deferred list by its room. -/
theorem keysTaken : Obligations.KeysTaken := by
  intro k s put matrix held record
  refine ⟨fun level => ?_, fun h => ?_, fun d hd => ?_, fun h => ?_, fun i rest hm hd hh => ?_⟩
  · intro down
    refine ⟨fun h => congrArg Host.Outcome.next (if_pos h), fun h hheld => congrArg Host.Outcome.next ((if_neg h).trans (if_pos hheld)),
      fun h hheld => congrArg Host.Outcome.next ((if_neg h).trans ((if_neg (Bool.eq_false_iff.1 hheld)).trans ?_))⟩
    rw [KeyScanner.rawDown_eq]
    rfl
  · exact nextOnDue_none (by rw [h]; rfl)
  · intro key u
    have hexec := execKeyTransition_due hd
    generalize ha : s.advanceTo (d + s.keys.debounceMs) = a at hexec
    have hu : u = a.debounced k := by rw [← ha]; rfl
    have hkey : (a.debounced k).key k = key := by rw [← ha, State.debounced_key]; rfl
    have hheld : (a.debounced k).keys.heldCount = held s := by rw [State.debounced_held, ← ha]; rfl
    have hstore : a.store.st = s.store.st := by rw [← ha]; rfl
    have hdeb : (a.key k).deb = (s.key k).deb := by rw [← ha]; rfl
    have hdeferred : u.keys.deferred = s.keys.deferred := rfl
    rw [← hu] at hkey hheld
    refine ⟨fun hc => ?_, fun hc hd => ⟨fun h1 h2 h3 => ?_, fun h1 h2 => ?_, fun h1 => ?_⟩, fun hc hd => ?_⟩
    · rw [hexec, State.debouncedChange_checking (hstore.trans hc), ← hu]
    · rw [hexec, State.debouncedChange_down (hstore ▸ hc) (hdeb.trans hd), ← hu,
        State.wentDown_deferred (by rw [hkey]; exact h1) h2 (by rw [hheld]; exact h3), State.deferKey, State.onKey_of hkey]
      rfl
    · rw [hexec, State.debouncedChange_down (hstore ▸ hc) (hdeb.trans hd), ← hu,
        State.wentDown_taken (by rw [hkey]; exact h1) (by rw [hheld]; exact fun h => h2.elim (· h.1) fun h2 => by omega),
        State.takeDown, State.onKey_of hkey, hkey]
      rfl
    · rw [hexec, State.debouncedChange_down (hstore ▸ hc) (hdeb.trans hd), ← hu,
        State.wentDown_other (by rw [hkey]; exact h1)]
    · obtain ⟨w1, w2, w3, w4⟩ := State.wentUp_cases (k := k) (s := u)
      rw [hkey] at w1 w2 w3 w4
      rw [hexec, State.debouncedChange_up (hstore ▸ hc) (hdeb.trans hd), ← hu]
      intro v w
      refine ⟨fun h => congrArg _ (w1 h), fun h => congrArg _ ((w2 h).trans ?_), fun h => congrArg _ ((w3 h).trans ?_),
        fun h => congrArg _ ((w4 h).trans ?_)⟩
      · rw [State.takeUp, State.onKey_of hkey]
        rfl
      · rw [State.onKey_of hkey]
        rfl
      · rw [State.onKey_of hkey]
  · by_cases hm : k.val < 16
    · rw [State.afterUp_matrix hm]
      exact State.takeDeferred_done (h.resolve_left (not_not.2 hm))
    · exact State.afterUp_direct hm
  · intro u hu
    rw [State.afterUp_matrix hm, State.takeDeferred_one hd hh]
    exact State.takeDeferred_done hu

end Sys2Proof.Machine
end

section
/-! PROOFS. The binding of a key carried out (R104, R165, R166, R47 to R53). -/

namespace Sys2Proof.Machine

/-! ### JOB (R104, R165) -/

/-- The live job of key `k` written. -/
def State.putLive (k : KeyNo) (x : LiveJob) (u : State) : State :=
  { u with keys := { u.keys with all := u.keys.all.set k { u.key k with live := x } } }

/-- The engine's answer reaches the live job only while that is PENDING (R165). -/
theorem State.onKey_answered (k : KeyNo) (x : LiveJob) (u : State) : u.onKey k (Key.answered x) =
    if (u.key k).live = .pending then u.putLive k x else u.putLive k (u.key k).live := by
  have hanswered : Key.answered x (u.key k) = if (u.key k).live = .pending then { u.key k with live := x } else u.key k := rfl
  rw [State.onKey_of rfl, hanswered]
  split <;> rfl

theorem State.jobPress_duplicate {k : KeyNo} {n : LineNo} {e : EntryNo} {s : State} (h : (s.key k).live ≠ .none) :
    s.jobPress k n e = s.submitFailed k n e .duplicate := if_pos h

theorem State.jobPress_handed {k : KeyNo} {n : LineNo} {e : EntryNo} {s : State} (h : (s.key k).live = .none) :
    s.jobPress k n e = (s.putLive k .pending).handOver ⟨k, n, e⟩ := if_neg (not_not.2 h)

theorem State.handOver_cases (h : Handed) (u : State) :
    (u.keys.turns = [] → u.handOver h = u.takeHandover h) ∧
    (∀ rest, u.keys.turns = .within :: rest → u.handOver h =
      State.takeHandover h { u with keys := { u.keys with turns := rest } }) ∧
    (∀ rest, u.keys.turns = .later :: rest → u.handOver h =
      { u with keys := { u.keys with turns := rest, handed := u.keys.handed ++ [h] } }) := by
  unfold State.handOver
  refine ⟨fun ht => ?_, fun rest ht => ?_, fun rest ht => ?_⟩
  · rw [ht]
  · rw [ht]
    rfl
  · rw [ht]
    rfl

theorem State.takeHandover_refused {h : Handed} {c : SubmitFail} {s : State}
    (hc : s.submitFailure (keySubmission h.key h.line h.entry) = some c) :
    s.takeHandover h = (s.onKey h.key (Key.answered .none)).submitFailed h.key h.line h.entry c := by
  rw [State.takeHandover, hc]

theorem State.takeHandover_accepted {h : Handed} {s : State}
    (hc : s.submitFailure (keySubmission h.key h.line h.entry) = none) :
    s.takeHandover h = (s.acceptJob (keySubmission h.key h.line h.entry)).onKey h.key
      (Key.answered (.job (s.acceptJob (keySubmission h.key h.line h.entry)).jobs.lastId)) := by
  rw [State.takeHandover, hc]

/-- The checks of a submission, in their order (R101). -/
theorem State.submitFailure_cases (b : Submission) (s : State) :
    ((s.line b.line).st = .disabled → s.submitFailure b = some .wrongState) ∧
    ((s.line b.line).st ≠ .disabled → 8 ≤ (s.queue b.line).length → s.submitFailure b = some .queueFull) ∧
    ((s.line b.line).st ≠ .disabled → (s.queue b.line).length < 8 → 24 ≤ s.jobs.table.length → s.jobs.finished = [] →
      s.submitFailure b = some .tableFull) ∧
    ((s.line b.line).st ≠ .disabled → (s.queue b.line).length < 8 →
      (s.jobs.table.length < 24 ∨ s.jobs.finished ≠ []) → s.submitFailure b = none) := by
  unfold State.submitFailure
  refine ⟨fun hd => if_pos hd, fun hd hq => ?_, fun hd hq ht hf => ?_, fun hd hq hfree => ?_⟩
  · rw [if_neg hd, if_pos hq]
  · rw [if_neg hd, if_neg (Nat.not_le.2 hq), if_pos ⟨ht, hf⟩]
  · have hfits : ¬ (24 ≤ s.jobs.table.length ∧ s.jobs.finished = []) := fun ⟨ht, hf⟩ =>
      hfree.elim (fun hlt => absurd ht (Nat.not_le.2 hlt)) fun hne => hne hf
    rw [if_neg hd, if_neg (Nat.not_le.2 hq), if_neg hfits]

/-- A job accepted leaves the scanner as it stands (R102, R103). -/
theorem State.acceptJob_keys (b : Submission) (s : State) : (s.acceptJob b).keys = s.keys := by
  change s.freeSlot.keys = s.keys
  unfold State.freeSlot
  split
  · unfold State.evict
    split
    · rfl
    · exact State.latch_keys ..
  · rfl

/-! ### RELEASE, CANCEL and DIGIT (R48 to R53, R166) -/

theorem State.release_cases (n : LineNo) (s : State) :
    ((s.line n).st = .connected ∨ (s.line n).st = .held ∨ ((s.line n).st = .dialing ∧ (s.line n).postAnswer = true) →
      s.release n = some (s.endCall n .done .released)) ∧
    ((s.line n).st = .seizing ∨ (s.line n).st = .awaitDialtone ∨ (s.line n).st = .awaitProgress ∨
        ((s.line n).st = .dialing ∧ (s.line n).postAnswer = false) →
      s.release n = some (s.endCall n .cancelled .released)) ∧
    ((s.line n).st = .disabled ∨ (s.line n).st = .idle ∨ (s.line n).st = .releasing → s.release n = none) := by
  unfold State.release
  dsimp only
  refine ⟨?_, ?_, ?_⟩
  · rintro (h | h | ⟨h, hp⟩)
    · rw [h]
    · rw [h]
    · rw [h, hp]
      rfl
  · rintro (h | h | h | ⟨h, hp⟩)
    · rw [h]
    · rw [h]
    · rw [h]
    · rw [h, hp]
      rfl
  · rintro (h | h | h) <;> rw [h]

theorem State.cancelJob_past {j : Job} {s : State} (h1 : j.state = .active) (h2 : j.phase ≠ some .resolve) :
    s.cancelJob j = (s.enterReleasing j.line).finishHead j.line .cancelled .cancelled := if_pos ⟨h1, h2⟩

theorem State.cancelJob_before {j : Job} {s : State} (h : j.state ≠ .active ∨ j.phase = some .resolve) :
    s.cancelJob j = s.finishJob j .cancelled .cancelled :=
  if_neg fun ⟨h1, h2⟩ => h.elim (fun hne => hne h1) h2

theorem Line.sendRefusal_one {l : Line} {p : List Symbol} (h1 : l.st = .connected) (h2 : l.manual.activity = .none) :
    l.sendRefusal p = if l.method.allowsAll p then none else some (.badValue, 2) := by
  rw [Line.sendRefusal, if_neg (not_not.2 h1), if_neg (not_not.2 h2)]
  cases l.method.allowsAll p <;> rfl

section digit
variable {k : KeyNo} {n : LineNo} {y : Symbol} {s : State}

theorem State.digitPress_refused (h : (s.line n).st ≠ .connected ∨ (s.line n).manual.activity ≠ .none) :
    s.digitPress n k y = s := if_neg fun ⟨h1, h2⟩ => h.elim (fun hne => hne h1) fun hne => hne h2

variable (h1 : (s.line n).st = .connected) (h2 : (s.line n).manual.activity = .none)
include h1 h2

theorem State.digitPress_tone (hm : (s.line n).method = .tone) (hy : y.isDigit = true) :
    s.digitPress n k y = s.startManual n k y := (if_pos ⟨h1, h2⟩).trans (if_pos ⟨hm, hy⟩)

theorem State.digitPress_dials (hm : (s.line n).method = .pulse ∨ y.isDigit = false)
    (ha : (s.line n).method.allowsAll [y] = true) : s.digitPress n k y = s.startSend n [y] := by
  have hnot : ¬ ((s.line n).method = .tone ∧ y.isDigit = true) := by
    rintro ⟨ht, hy⟩
    rcases hm with hm | hm
    · rw [hm] at ht
      cases ht
    · exact Bool.eq_false_iff.1 hm hy
  have hfree : (s.line n).sendRefusal [y] = none := by rw [Line.sendRefusal_one h1 h2, if_pos ha]
  exact (if_pos ⟨h1, h2⟩).trans ((if_neg hnot).trans (if_pos hfree))

theorem State.digitPress_ignored (hm : (s.line n).method = .pulse) (ha : Method.allowsAll .pulse [y] = false) :
    s.digitPress n k y = s := by
  have hnot : ¬ ((s.line n).method = .tone ∧ y.isDigit = true) := by
    rintro ⟨ht, -⟩
    rw [hm] at ht
    cases ht
  have hrefused : (s.line n).sendRefusal [y] ≠ none := by
    rw [Line.sendRefusal_one h1 h2, hm, if_neg (Bool.eq_false_iff.1 ha)]
    exact Option.some_ne_none _
  exact (if_pos ⟨h1, h2⟩).trans ((if_neg hnot).trans (if_neg hrefused))

end digit

/-! ### The UP of a key (R47, R50, R51) -/

theorem State.manualUp_cases (k : KeyNo) (n : LineNo) (s : State) :
    let m := (s.line n).manual
    (m.key ≠ some k ∨ m.activity = .none → s.manualUp k n = s) ∧
    (m.key = some k → m.activity = .waiting ∨ (m.activity = .sounding ∧ m.minElapsed = true) →
      s.manualUp k n = s.endManual n) ∧
    (m.key = some k → m.activity = .sounding → m.minElapsed = false →
      s.manualUp k n = s.putLine n { s.line n with manual := { m with keyReleased := true } }) := by
  dsimp only
  unfold State.manualUp
  dsimp only
  refine ⟨fun h => ?_, fun hk h => ?_, fun hk ha he => ?_⟩
  · split
    · next hk =>
      rw [h.resolve_left (not_not.2 hk)]
    · rfl
  · rw [if_pos hk]
    rcases h with ha | ⟨ha, he⟩
    · rw [ha]
    · rw [ha, he]
      rfl
  · rw [if_pos hk]
    conv_lhs => rw [ha, he]
    rfl

/-- Settles O51: by the binding. -/
theorem keyBindingActs : Obligations.KeyBindingActs := by
  refine ⟨fun k n e s => ?_, fun k n s => ?_⟩
  · intro key fails b
    obtain ⟨hwrong, hqueue, htable, hnone⟩ := s.submitFailure_cases b
    refine ⟨State.jobPress_duplicate, fun h => ?_, ?_, fun hs hd hq hfree => ?_⟩
    · intro u
      obtain ⟨h1, h2, h3⟩ := (s.putLive k .pending).handOver_cases ⟨k, n, e⟩
      have hjob : s.carryOut k (.job n e) = (s.putLive k .pending).handOver ⟨k, n, e⟩ := State.jobPress_handed h
      exact ⟨fun ht => hjob.trans (h1 ht), fun rest ht => hjob.trans (h2 rest ht), fun rest ht => hjob.trans (h3 rest ht)⟩
    · intro idle
      have hidle : s.onKey k (Key.answered .none) = idle := s.onKey_answered k .none
      have hfails : ∀ c, s.submitFailure b = some c → s.takeHandover ⟨k, n, e⟩ = fails c idle := fun c hc => by
        rw [← hidle]
        exact State.takeHandover_refused hc
      exact ⟨fun hd => hfails _ (hwrong hd), fun hd hq => hfails _ (hqueue hd hq),
        fun hd hq ht hf => hfails _ (htable hd hq ht hf)⟩
    · have hkeys := s.acceptJob_keys b
      have hkey : (s.acceptJob b).key k = s.key k := by rw [State.key, hkeys]; rfl
      refine ⟨_, _, s.acceptJob_accepts b hs, hkeys, ?_⟩
      have hanswered := (s.acceptJob b).onKey_answered k (.job (s.acceptJob b).jobs.lastId)
      rw [hkey] at hanswered
      exact (State.takeHandover_accepted (h := ⟨k, n, e⟩) (s := s) (hnone hd hq hfree)).trans hanswered
  · obtain ⟨hdone, hcancelled, hrefused⟩ := s.release_cases n
    have hrelease : ∀ x, s.release n = x → s.carryOut k (.release n) = x.getD s := fun x hx => by
      rw [← hx]
      rfl
    have hcancel : s.carryOut k (.cancel n) = s.cancelPress n := rfl
    refine ⟨rfl, fun h => hrelease _ (hdone h), fun h => hrelease _ (hcancelled h), fun h => hrelease _ (hrefused h),
      fun h => ?_, fun j hj => ⟨fun h1 h2 => ?_, fun h => ?_⟩,
      fun y => ⟨State.digitPress_refused, fun h1 h2 => ⟨State.digitPress_tone h1 h2, State.digitPress_dials h1 h2,
        State.digitPress_ignored h1 h2⟩⟩, s.manualUp_cases k n⟩
    · rw [hcancel, State.cancelPress, h]
    · rw [hcancel, State.cancelPress, hj]
      exact State.cancelJob_past h1 h2
    · rw [hcancel, State.cancelPress, hj]
      exact State.cancelJob_before h

end Sys2Proof.Machine
end

section
/-! PROOFS. The store's phases: what each end and each verdict leaves, the completion and the jobs it resolves (R107, R142 to
R145, R147, R149, R150, R153). -/

namespace Sys2Proof.Machine

/-! ### The work a phase end finds -/

theorem Store.workIn_of_op {st : Store} {o : OpRecord} {ph : OpPhase} (ho : st.op = some o) (hp : o.phase = ph) :
    st.workIn ph = some (.op o) := by
  rw [Store.workIn, ho]
  exact if_pos hp

theorem Store.workIn_of_rewrite {st : Store} {r : Rewrite} {ph : OpPhase} (ho : st.op = none) (hr : st.rewriteNow = some r)
    (hp : r.phase = ph) : st.workIn ph = some (.rewrite r) := by
  rw [Store.workIn, ho, hr]
  exact if_pos hp

/-- No operation and no rewrite of the check is in phase `ph` (log entry 32). -/
def Store.IdleIn (ph : OpPhase) (st : Store) : Prop :=
  (st.op = none ∧ st.rewriteNow = none) ∨ (∃ o, st.op = some o ∧ o.phase ≠ ph) ∨
    (st.op = none ∧ ∃ r, st.rewriteNow = some r ∧ r.phase ≠ ph)

theorem Store.workIn_of_idle {st : Store} {ph : OpPhase} (h : st.IdleIn ph) : st.workIn ph = none := by
  rw [Store.workIn]
  rcases h with ⟨ho, hr⟩ | ⟨o, ho, hp⟩ | ⟨ho, r, hr, hp⟩
  · rw [ho, hr]
  · rw [ho]
    exact if_neg hp
  · rw [ho, hr]
    exact if_neg hp

/-! ### The phase ends by the work found -/

theorem storeEraseEnd_idle {s : State} (h : s.store.workIn .erase = none) : exec .storeEraseEnd s = .next s := by
  change execStoreEraseEnd s = _
  rw [execStoreEraseEnd, h]

theorem storeEraseEnd_op {s : State} {o : OpRecord} (h : s.store.workIn .erase = some (.op o)) :
    exec .storeEraseEnd s = .next (s.opEraseEnd o) := by
  change execStoreEraseEnd s = _
  rw [execStoreEraseEnd, h]

theorem storeEraseEnd_rewrite {s : State} {r : Rewrite} (h : s.store.workIn .erase = some (.rewrite r)) :
    exec .storeEraseEnd s = .next (s.rewriteAt r.b r.p .program) := by
  change execStoreEraseEnd s = _
  rw [execStoreEraseEnd, h]

theorem storeProgramEnd_idle {s : State} (h : s.store.workIn .program = none) : exec .storeProgramEnd s = .next s := by
  change execStoreProgramEnd s = _
  rw [execStoreProgramEnd, h]

theorem storeProgramEnd_op {s : State} {o : OpRecord} (h : s.store.workIn .program = some (.op o)) :
    exec .storeProgramEnd s = .next (s.opProgramEnd o) := by
  change execStoreProgramEnd s = _
  rw [execStoreProgramEnd, h]

theorem storeProgramEnd_rewrite {s : State} {r : Rewrite} (h : s.store.workIn .program = some (.rewrite r)) :
    exec .storeProgramEnd s = .next (s.rewriteProgramEnd r) := by
  change execStoreProgramEnd s = _
  rw [execStoreProgramEnd, h]

theorem storeVerifyPass_idle {s : State} (h : s.store.workIn .verify = none) : exec .storeVerifyPass s = .next s := by
  change execStoreVerifyPass s = _
  rw [execStoreVerifyPass, h]

theorem storeVerifyPass_op {s : State} {o : OpRecord} (h : s.store.workIn .verify = some (.op o)) :
    exec .storeVerifyPass s = .next (s.opVerifyPass o) := by
  change execStoreVerifyPass s = _
  rw [execStoreVerifyPass, h]

theorem storeVerifyPass_rewrite {s : State} {r : Rewrite} (h : s.store.workIn .verify = some (.rewrite r)) :
    exec .storeVerifyPass s = .next (s.rewriteVerifyPass r) := by
  change execStoreVerifyPass s = _
  rw [execStoreVerifyPass, h]

theorem storeVerifyFail_idle {s : State} (h : s.store.workIn .verify = none) : exec .storeVerifyFail s = .next s := by
  change execStoreVerifyFail s = _
  rw [execStoreVerifyFail, h]

theorem storeVerifyFail_op {s : State} {o : OpRecord} (h : s.store.workIn .verify = some (.op o)) :
    exec .storeVerifyFail s = .next (s.opVerifyFail o) := by
  change execStoreVerifyFail s = _
  rw [execStoreVerifyFail, h]

theorem storeVerifyFail_rewrite {s : State} {r : Rewrite} (h : s.store.workIn .verify = some (.rewrite r)) :
    exec .storeVerifyFail s = .next (s.rewriteVerifyFail r) := by
  change execStoreVerifyFail s = _
  rw [execStoreVerifyFail, h]

/-! ### The target of the operation, and its kind -/

section target
variable {o : OpRecord} {b : LogicalNo} {p : PhysicalNo} {buf : Bank 4 Entry}

theorem State.opEraseEnd_block (ht : o.target = .block b p buf) (s : State) : s.opEraseEnd o =
    s.onStore fun st => { st with op := some { o with phase := .program, since := s.now } } := by
  rw [State.opEraseEnd, ht]

theorem State.opEraseEnd_save {c : Settings} (ht : o.target = .settings (some c)) (s : State) : s.opEraseEnd o =
    s.onStore fun st => { st with op := some { o with phase := .program, since := s.now }, medium := .erased } := by
  rw [State.opEraseEnd, ht]

theorem State.opEraseEnd_clear (ht : o.target = .settings none) (s : State) : s.opEraseEnd o =
    (s.draw Config.eraseTook).2.onStore fun st => { st with
      op := some { o with phase := .verify, since := s.now }
      medium := if Config.eraseTook s.free then .erased else .invalid } := by
  rw [State.opEraseEnd, ht]
  rfl

theorem State.opProgramEnd_block (ht : o.target = .block b p buf) (s : State) : s.opProgramEnd o =
    (s.draw Config.programTook).2.onStore fun st =>
      { st with op := some { o with phase := .verify, since := s.now } }.onBlock p
        (PhysBlock.program b buf (Config.programTook s.free)) := by
  simp only [State.opProgramEnd, ht]
  rfl

theorem State.opProgramEnd_save {c : Settings} (ht : o.target = .settings (some c)) (s : State) : s.opProgramEnd o =
    (s.draw Config.programTook).2.onStore fun st => { st with
      op := some { o with phase := .verify, since := s.now }
      medium := if Config.programTook s.free then .valid c else .invalid } := by
  simp only [State.opProgramEnd, ht]
  rfl

theorem State.opVerifyPass_block (ht : o.target = .block b p buf) (s : State) : s.opVerifyPass o =
    (s.onStore fun st => st.onBlock p (PhysBlock.program b buf true)).blockDone o b := by
  rw [State.opVerifyPass, ht]

theorem State.opVerifyPass_save {c : Settings} (ht : o.target = .settings (some c)) (s : State) : s.opVerifyPass o =
    s.settingsDone o (.valid c) .valid .ok := by
  rw [State.opVerifyPass, ht]

theorem State.opVerifyPass_clear (ht : o.target = .settings none) (s : State) : s.opVerifyPass o =
    s.settingsDone o .erased .erased .ok := by
  rw [State.opVerifyPass, ht]

theorem State.opVerifyFail_settings {c : Option Settings} (ht : o.target = .settings c) (s : State) : s.opVerifyFail o =
    s.settingsDone o .invalid .invalid .settingsFail := by
  rw [State.opVerifyFail, ht]

theorem State.opVerifyFail_spare (ht : o.target = .block b p buf) {s : State} {q : PhysicalNo} {rest : List PhysicalNo}
    (hq : (s.retireBlock p).store.spares = q :: rest) : s.opVerifyFail o = (s.retireBlock p).onStore fun st =>
      { st.takeSpare b q rest with op := some (o.eraseAt (.block b q buf) (s.retireBlock p).now) } := by
  simp only [State.opVerifyFail, ht, hq]

theorem State.opVerifyFail_none (ht : o.target = .block b p buf) {s : State}
    (hq : (s.retireBlock p).store.spares = []) : s.opVerifyFail o =
      ((s.retireBlock p).onStore (Store.kill b)).blockWorn o b := by
  simp only [State.opVerifyFail, ht, hq]

theorem State.blockDone_format (hk : o.kind = .format) (s : State) : s.blockDone o b = s.formatFrom o (b.val + 1) := by
  rw [State.blockDone, hk]

theorem State.blockDone_other (hk : o.kind ≠ .format) (s : State) : s.blockDone o b = s.completeOp o .ok := by
  rw [State.blockDone]
  split
  · next h => exact absurd h hk
  · rfl

theorem State.blockWorn_format (hk : o.kind = .format) (s : State) :
    s.blockWorn o b = s.formatFrom { o with worn := true } (b.val + 1) := by
  rw [State.blockWorn, hk]

theorem State.blockWorn_other (hk : o.kind ≠ .format) (s : State) : s.blockWorn o b = s.completeOp o .worn := by
  rw [State.blockWorn]
  split
  · next h => exact absurd h hk
  · rfl

end target

theorem State.rewriteOnSpare_spare {s : State} {q : PhysicalNo} {rest : List PhysicalNo} (h : s.store.spares = q :: rest)
    (b : LogicalNo) : s.rewriteOnSpare b = (s.onStore (Store.takeSpare b q rest)).onStore fun st =>
      { st with check := some ⟨b.val, some ⟨b, q, .erase, s.now⟩⟩ } := by
  rw [State.rewriteOnSpare, h]
  rfl

theorem State.rewriteOnSpare_none {s : State} (h : s.store.spares = []) (b : LogicalNo) :
    s.rewriteOnSpare b = (s.onStore (Store.kill b)).checkAt (b.val + 1) := by
  rw [State.rewriteOnSpare, h]

/-! ### A block retired, and the format's next block -/

theorem State.retireBlock_spares (p : PhysicalNo) (s : State) : (s.retireBlock p).store.spares = s.store.spares := by
  rw [State.retireBlock_store]
  rfl

theorem State.retireBlock_now (p : PhysicalNo) (s : State) : (s.retireBlock p).now = s.now :=
  State.latch_now ..

theorem State.formatFrom_end {s : State} {k : Nat} (h : s.store.nextMapped k = none) (o : OpRecord) :
    s.formatFrom o k = s.completeOp o (if o.worn then .worn else .ok) := by
  rw [State.formatFrom, h]

theorem State.formatFrom_next {s : State} {k : Nat} {b : LogicalNo} {p : PhysicalNo} (h : s.store.nextMapped k = some (b, p))
    (o : OpRecord) : s.formatFrom o k = s.onStore fun st =>
      { st with op := some (o.eraseAt (.block b p blankSlots) s.now) }.onBlock p PhysBlock.erase := by
  rw [State.formatFrom, h]

/-! ### The jobs that wait on the store (R107, R145) -/

theorem State.resolveWaiting_none {n : LineNo} {s : State} (h : s.headJob n = none) : s.resolveWaiting n = s := by
  rw [State.resolveWaiting, h]

theorem State.resolveWaiting_some {n : LineNo} {s : State} {j : Job} (h : s.headJob n = some j) :
    s.resolveWaiting n = if j.waitsOnStore then s.resolve j else s := by
  rw [State.resolveWaiting, h]

theorem Job.waitsOnStore_iff (j : Job) : j.waitsOnStore = true ↔
    j.state = .active ∧ j.phase = some .resolve ∧ j.methodInEffect = none := by
  simp only [Job.waitsOnStore, Bool.and_eq_true, beq_iff_eq, Option.isNone_iff_eq_none, and_assoc]

/-- A record of the table written over itself. -/
theorem updateJob_self {t : List Job} (hd : (Job.ids t).Nodup) {j : Job} (h : findJob t j.id = some j) :
    updateJob j.id (fun _ => j) t = t := by
  refine (List.map_congr_left fun x hx => ?_).trans (List.map_id' t)
  split
  · next hid =>
    have hfound := findJob_of_mem hd hx
    rw [hid, h] at hfound
    exact Option.some.inj hfound
  · rfl

/-- The record of job `id` written as `x`. -/
def State.putJob (id : Nat) (s : State) (x : Job) : State :=
  { s with jobs := { s.jobs with table := s.jobs.table.map fun y => if y.id = id then x else y } }

theorem State.putJob_self {s : State} (hs : s.jobs.Sound) {n : LineNo} {j : Job} (h : s.headJob n = some j) :
    s.putJob j.id j = s :=
  congrArg (fun t => s.onJobs fun e => { e with table := t })
    (updateJob_self hs.distinct (State.headJob_some h).2)

theorem State.putJob_onJob {id : Nat} {s : State} {x r : Job} (hx : x.id = id) (hr : r.id = id) :
    (s.putJob id x).onJob r.id (fun _ => r) = s.putJob id r := by
  have htable : updateJob r.id (fun _ => r) (updateJob id (fun _ => x) s.jobs.table) =
      updateJob id (fun _ => r) s.jobs.table := by
    rw [hr, updateJob_updateJob hx]
  exact congrArg (fun t => s.onJobs fun e => { e with table := t }) htable

theorem State.resolveWaiting_resolves {s : State} (hs : s.jobs.Sound) {n : LineNo} {j : Job} (h : s.headJob n = some j)
    (hw : j.waitsOnStore = true) : State.Resolves (s.putJob j.id) j s (s.resolveWaiting n) := by
  have hresolves := State.resolve_resolves (put := s.putJob j.id) (j := j) (s := s)
    (fun r hr => State.putJob_onJob (x := j) rfl hr) rfl rfl
  rw [State.putJob_self hs h] at hresolves
  rw [State.resolveWaiting_some h, if_pos hw]
  exact hresolves

/-! ### The settled obligations -/

/-- The phase ends that find no work in their phase (log entry 32). -/
theorem storePhases_idle (s : State) :
    (s.store.IdleIn .erase → exec .storeEraseEnd s = .next s) ∧
    (s.store.IdleIn .program → exec .storeProgramEnd s = .next s) ∧
    (s.store.IdleIn .verify → exec .storeVerifyPass s = .next s ∧ exec .storeVerifyFail s = .next s) :=
  ⟨fun h => storeEraseEnd_idle (Store.workIn_of_idle h), fun h => storeProgramEnd_idle (Store.workIn_of_idle h),
    fun h => ⟨storeVerifyPass_idle (Store.workIn_of_idle h), storeVerifyFail_idle (Store.workIn_of_idle h)⟩⟩

/-- Settles O52: by the work in hand, its phase and its target. -/
theorem storePhases : Obligations.StorePhases := by
  intro s st put goes written took idle
  obtain ⟨hidleErase, hidleProgram, hidleVerify⟩ := storePhases_idle s
  refine ⟨hidleErase, hidleProgram, hidleVerify, fun o ho hp => ?_, fun o ho hp => ?_, fun o ho hp => ?_,
    fun r ho hr => ?_, fun o res => rfl, fun n => ⟨State.resolveWaiting_none, fun j hj => ⟨fun hno => ?_, ?_⟩⟩,
    fun o k => ⟨fun hnone => ?_, fun b p hk hb hfirst => ?_⟩⟩
  · have hexec := storeEraseEnd_op (Store.workIn_of_op ho hp)
    exact ⟨fun b p buf ht => hexec.trans (congrArg _ (State.opEraseEnd_block ht s)),
      fun c ht => hexec.trans (congrArg _ (State.opEraseEnd_save ht s)),
      fun ht => hexec.trans (congrArg _ (State.opEraseEnd_clear ht s))⟩
  · have hexec := storeProgramEnd_op (Store.workIn_of_op ho hp)
    exact ⟨fun b p buf ht => hexec.trans (congrArg _ (State.opProgramEnd_block ht s)),
      fun c ht => hexec.trans (congrArg _ (State.opProgramEnd_save ht s))⟩
  · have hexec := storeVerifyPass_op (Store.workIn_of_op ho hp)
    refine ⟨fun b p buf ht => ?_, fun c ht => hexec.trans (congrArg _ (State.opVerifyPass_save ht s)),
      fun ht => hexec.trans (congrArg _ (State.opVerifyPass_clear ht s))⟩
    have hblock := hexec.trans (congrArg _ (State.opVerifyPass_block ht s))
    exact ⟨fun hk => hblock.trans (congrArg _ (State.blockDone_other hk _)),
      fun hk => hblock.trans (congrArg _ (State.blockDone_format hk _))⟩
  · exact ⟨fun hp => storeEraseEnd_rewrite (Store.workIn_of_rewrite ho hr hp),
      fun hp => storeProgramEnd_rewrite (Store.workIn_of_rewrite ho hr hp),
      fun hp => storeVerifyPass_rewrite (Store.workIn_of_rewrite ho hr hp)⟩
  · have hw : j.waitsOnStore ≠ true := fun h => by
      obtain ⟨hstate, hphase, hmethod⟩ := j.waitsOnStore_iff.1 h
      rcases hno with h | h | h
      · exact h hstate
      · exact h hphase
      · exact h hmethod
    exact (State.resolveWaiting_some hj).trans (if_neg hw)
  · exact fun hs hstate hphase hmethod =>
      State.resolveWaiting_resolves hs hj (j.waitsOnStore_iff.2 ⟨hstate, hphase, hmethod⟩)
  · exact State.formatFrom_end (Store.nextMapped_none hnone) o
  · exact State.formatFrom_next (Store.nextMapped_first hb hk hfirst) o

/-- Settles O53: by the work in hand, and by whether a spare is left. -/
theorem verifyFails : Obligations.VerifyFails := by
  intro s st retired put onSpare dead
  have hspares : ∀ p l, st.spares = l → (s.retireBlock p).store.spares = l := fun p l h =>
    (s.retireBlock_spares p).trans h
  refine ⟨fun o b p buf ho hp ht => ?_, fun o c ho hp ht => ?_, fun r ho hr hp => ?_⟩
  · have hexec := storeVerifyFail_op (Store.workIn_of_op ho hp)
    have hnone : st.spares = [] → exec .storeVerifyFail s = .next ((put p (dead b)).blockWorn o b) := fun h =>
      hexec.trans (congrArg _ (State.opVerifyFail_none ht (hspares p _ h)))
    refine ⟨fun q rest h => ?_, fun h hk => (hnone h).trans (congrArg _ (State.blockWorn_other hk _)),
      fun h hk => (hnone h).trans (congrArg _ (State.blockWorn_format hk _))⟩
    have hspare := hexec.trans (congrArg _ (State.opVerifyFail_spare ht (hspares p _ h)))
    rw [State.retireBlock_now] at hspare
    exact hspare
  · exact (storeVerifyFail_op (Store.workIn_of_op ho hp)).trans (congrArg _ (State.opVerifyFail_settings ht s))
  · have hexec := storeVerifyFail_rewrite (Store.workIn_of_rewrite ho hr hp)
    refine ⟨fun q rest h => ?_, fun h => hexec.trans (congrArg _ (State.rewriteOnSpare_none (hspares r.p _ h) r.b))⟩
    have hspare := hexec.trans (congrArg _ (State.rewriteOnSpare_spare (hspares r.p _ h) r.b))
    rw [State.retireBlock_now] at hspare
    exact hspare

end Sys2Proof.Machine
end
